-- ==== Sys2Proof/Word.lean ====
section
/-! DEFINITION. Words of the S12Z: bytes, addresses and the four operand sizes (R2, R36, R90). -/

namespace Sys2Proof

/-- The addressable unit (R50). -/
abbrev Byte := BitVec 8

/-- A 24-bit address or pointer; every sum of addresses wraps modulo 2^24 (R52). -/
abbrev Addr := BitVec 24

/-- Operand sizes .B, .W, .P, .L (R36, R90). -/
inductive Size where
  | b | w | p | l
  deriving DecidableEq, Repr

/-- The size in bytes. -/
abbrev Size.bytes : Size → Nat
  | .b => 1
  | .w => 2
  | .p => 3
  | .l => 4

/-- The size in bits. -/
abbrev Size.bits : Size → Nat
  | .b => 8
  | .w => 16
  | .p => 24
  | .l => 32

/-- The three sizes of the forms without a pointer size (R125, R128). -/
inductive BWL where
  | b | w | l
  deriving DecidableEq, Repr

abbrev BWL.size : BWL → Size
  | .b => .b
  | .w => .w
  | .l => .l

end Sys2Proof
end

