-- ==== Sys2Proof/Machine/Bits.lean ====
section
/-! DEFINITION. Byte order: the value of a run of bytes and the bytes of a value, most significant
byte first. Object code (R86), memory operands (R53 to R55) and stacked registers all use these two. -/

namespace Sys2Proof.Machine

/-- The number a run of bytes spells, the first byte most significant (R54, R86). -/
def beVal : List Byte → Nat
  | [] => 0
  | b :: bs => b.toNat * 256 ^ bs.length + beVal bs

/-- The low `n` bytes of a number, most significant first (R55, R86). -/
def beBytes : Nat → Nat → List Byte
  | 0, _ => []
  | n + 1, v => BitVec.ofNat 8 (v / 256 ^ n) :: beBytes n v

end Sys2Proof.Machine
end

