-- ==== Sys2Proof/Syntax.lean ====
section
/-! DEFINITION. The instruction set as syntax. Each mnemonic of spec/opcode_table.json has a
constructor; the rows of one mnemonic that differ only in the operand's form (an immediate of the
register's size, a general operand, an extended address) are the cases of that constructor's operand
types. What the object code says is kept: the two lengths of a relative offset, the submode of a
general operand, the reserved register and condition codes. Bits the spec calls ignored are not. -/

namespace Sys2Proof

/-! ## Registers -/

/-- The data registers (R11). -/
inductive DReg where
  | d0 | d1 | d2 | d3 | d4 | d5 | d6 | d7
  deriving DecidableEq, Repr

/-- Operand size of a data register: D0, D1 8 bits, D2 to D5 16, D6, D7 32 (R11). -/
abbrev DReg.size : DReg → Size
  | .d0 => .b
  | .d1 => .b
  | .d2 => .w
  | .d3 => .w
  | .d4 => .w
  | .d5 => .w
  | .d6 => .l
  | .d7 => .l

/-- W(Di), the width in bits (R11, R12). -/
abbrev DReg.bits (r : DReg) : Nat := r.size.bits

/-- X or Y, the `xy` of the source forms (R3). -/
inductive XY where
  | x | y
  deriving DecidableEq, Repr

/-- X, Y or SP, the `xys` of the source forms (R3). -/
inductive XYS where
  | x | y | s
  deriving DecidableEq, Repr

/-- X, Y, SP or PC, the `xysp` of the source forms (R3). -/
inductive XYSP where
  | x | y | s | pc
  deriving DecidableEq, Repr

/-- The sixteen codes of `tb` and `eb` (R130): the CPU registers and the reserved codes B and F. -/
inductive CpuReg where
  | d (r : DReg)
  | x | y | s
  | cch | ccl | ccw
  | resB | resF
  deriving DecidableEq, Repr

/-- CpuW, the width in bits (R176). A reserved code names no register; its width is never used. -/
abbrev CpuReg.bits : CpuReg → Nat
  | .d r => r.bits
  | .x | .y | .s => 24
  | .cch | .ccl => 8
  | .ccw => 16
  | .resB | .resF => 0

/-- The reserved codes B and F (R130). -/
def CpuReg.reserved : CpuReg → Bool
  | .resB | .resF => true
  | _ => false

/-! ## General operands -/

/-- The ten automatic pre/post increment/decrement submodes (R104). -/
inductive AutoMode where
  | preDecX | preDecY | preIncX | preIncY
  | postDecX | postDecY | postIncX | postIncY
  | preDecS | postIncS
  deriving DecidableEq, Repr

/-- A general operand, the sixteen submodes of the `xb` postbyte (R100 to R116, R121). -/
inductive Opr where
  /-- IMMe4, short immediate, the four bits as coded (R101) -/
  | immE4 (e : BitVec 4)
  /-- REG (R102) -/
  | reg (r : DReg)
  /-- IDX, 4-bit unsigned offset (R103) -/
  | idx (base : XYS) (off : BitVec 4)
  /-- ++IDX (R104) -/
  | auto (m : AutoMode)
  /-- REG,IDX (R105) -/
  | regIdx (r : DReg) (base : XYS)
  /-- [REG,IDX] (R106) -/
  | regIdxInd (r : DReg) (base : XY)
  /-- IDX1, 9-bit signed offset (R107) -/
  | idx1 (base : XYSP) (off : BitVec 9)
  /-- [IDX1] (R108) -/
  | idx1Ind (base : XYSP) (off : BitVec 9)
  /-- EXT1, 14-bit address (R109) -/
  | ext1 (a : BitVec 14)
  /-- IDX2,REG, 18-bit offset from a data register (R110) -/
  | idx2Reg (off : BitVec 18) (r : DReg)
  /-- EXT2, 18-bit address (R111) -/
  | ext2 (a : BitVec 18)
  /-- IDX3, 24-bit offset (R112) -/
  | idx3 (base : XYSP) (off : BitVec 24)
  /-- [IDX3] (R113) -/
  | idx3Ind (base : XYSP) (off : BitVec 24)
  /-- IDX3,REG, 24-bit offset from a data register (R114) -/
  | idx3Reg (off : BitVec 24) (r : DReg)
  /-- EXT3, 24-bit address (R115) -/
  | ext3 (a : BitVec 24)
  /-- [EXT3] (R116) -/
  | ext3Ind (a : BitVec 24)
  deriving DecidableEq, Repr

/-- A relative offset, 7 or 15 bits as coded (R89). -/
inductive Rel where
  | short (off : BitVec 7)
  | long (off : BitVec 15)
  deriving DecidableEq, Repr

/-! ## Operand forms of the families -/

/-- The second operand of a data-register instruction (R200): an immediate of the register's size,
held in 32 bits, or a general operand. -/
inductive DSrc where
  | imm (v : BitVec 32)
  | opr (o : Opr)
  deriving DecidableEq, Repr

/-- The second operand at 24 bits (R163, R200, R209, R210). -/
inductive PSrc where
  | imm (v : BitVec 24)
  | opr (o : Opr)
  deriving DecidableEq, Repr

/-- The source of LD Di (R161). -/
inductive LdSrc where
  | imm (v : BitVec 32)
  | ext (a : Addr)
  | opr (o : Opr)
  deriving DecidableEq, Repr

/-- The source of LD X, LD Y (R162). -/
inductive LdXYSrc where
  | imm (v : BitVec 24)
  | imm18 (v : BitVec 18)
  | ext (a : Addr)
  | opr (o : Opr)
  deriving DecidableEq, Repr

/-- The destination of ST and the target of JMP, JSR (R164, R165, R363, R364). -/
inductive ExtOpr where
  | ext (a : Addr)
  | opr (o : Opr)
  deriving DecidableEq, Repr

/-- The register LEA loads (R170). -/
inductive LeaDst where
  | d6 | d7 | x | y | s
  deriving DecidableEq, Repr

/-- The source of MOV (R167): an immediate of the move's size, held in 32 bits, or an operand. -/
inductive MovSrc where
  | imm (v : BitVec 32)
  | opr (o : Opr)
  deriving DecidableEq, Repr

/-- The second source of a math instruction without an `xb` operand (R125). -/
inductive MathSrc where
  | reg (r : DReg)
  | imm1 (v : BitVec 8)
  | imm2 (v : BitVec 16)
  | imm4 (v : BitVec 32)
  deriving DecidableEq, Repr

/-- A shift count (R127): 1 or 2 from `sb[3]`, or a count operand with the bit `sb[3]` beside it. -/
inductive ShiftBy where
  | fixed (two : Bool)
  | count (n0 : Bool) (o : Opr)
  deriving DecidableEq, Repr

/-- The shifts of an `xb` operand (R127): into a register, or in place by 1 or 2. -/
inductive ShiftOpr where
  | toReg (d : DReg) (sz : Size) (o : Opr) (n : ShiftBy)
  | inPlace (sz : Size) (o : Opr) (two : Bool)
  deriving DecidableEq, Repr

/-- The operand and bit number that `bm` codes (R128). -/
inductive BmArg where
  | reg (r : DReg) (n : BitVec 5)
  | opr (sz : BWL) (n : BitVec 5) (o : Opr)
  | oprReg (sz : BWL) (dn : DReg) (o : Opr)
  deriving DecidableEq, Repr

/-- The parameter registers of the bit-field instructions (R129). -/
inductive Dp where
  | d2 | d3 | d4 | d5
  deriving DecidableEq, Repr

/-- Width and offset of a bit field: in a register, or coded (R129). -/
inductive BfParam where
  | dp (r : Dp)
  | imm (w o : BitVec 5)
  deriving DecidableEq, Repr

/-- The bit-field forms with an `xb` operand (R129). -/
inductive BfOpr where
  | fromOpr (d : DReg) (sz : Size) (o : Opr) (p : BfParam)
  | toOpr (sz : Size) (o : Opr) (s : DReg) (p : BfParam)
  deriving DecidableEq, Repr

/-- The condition field of `lb` (R126); codes 110 and 111 are reserved and never branch. -/
inductive LoopCond where
  | ne | eq | pl | mi | gt | le | never6 | never7
  deriving DecidableEq, Repr

/-- The counter of DBcc, TBcc without an `xb` operand (R126). -/
inductive LoopCtr where
  | d (r : DReg)
  | xy (r : XY)
  deriving DecidableEq, Repr

/-! ## Instructions -/

/-- The instructions. Where a mnemonic of the table covers forms with different rules (LD Di, LD X,
LD S), it has one constructor per rule. The constructors named after an alias row stand for the same
words as the instruction `Instr.core` gives. -/
inductive Instr where
  -- data movement (R161 to R179)
  | ldD (d : DReg) (src : LdSrc)
  | ldXY (r : XY) (src : LdXYSrc)
  | ldS (src : PSrc)
  | stD (d : DReg) (dst : ExtOpr)
  | stXY (r : XY) (dst : ExtOpr)
  | stS (o : Opr)
  | movB (src : MovSrc) (dst : Opr)
  | movW (src : MovSrc) (dst : Opr)
  | movP (src : MovSrc) (dst : Opr)
  | movL (src : MovSrc) (dst : Opr)
  | psh (row2 : Bool) (mask : BitVec 6)
  | pul (row2 : Bool) (mask : BitVec 6)
  | pshAll
  | pshAll16b
  | pulAll
  | pulAll16b
  | lea (r : LeaDst) (o : Opr)
  | leaImm (r : XYS) (i : BitVec 8)
  | clrB (o : Opr)
  | clrW (o : Opr)
  | clrP (o : Opr)
  | clrL (o : Opr)
  | clrD (d : DReg)
  | clrXY (r : XY)
  | tfr (src dst : CpuReg)
  | zex (src dst : CpuReg)
  | exg (src dst : CpuReg)
  | sex (src dst : CpuReg)
  -- add, subtract, compare (R201 to R213)
  | add (d : DReg) (m : DSrc)
  | adc (d : DReg) (m : DSrc)
  | sub (d : DReg) (m : DSrc)
  | subD6 (yMinusX : Bool)
  | sbc (d : DReg) (m : DSrc)
  | incD (d : DReg)
  | incB (o : Opr)
  | incW (o : Opr)
  | incL (o : Opr)
  | decD (d : DReg)
  | decB (o : Opr)
  | decW (o : Opr)
  | decL (o : Opr)
  | cmpD (d : DReg) (m : DSrc)
  | cmpXY (r : XY) (m : PSrc)
  | cmpS (m : PSrc)
  | cmpXwithY
  | negB (o : Opr)
  | negW (o : Opr)
  | negL (o : Opr)
  | abs (d : DReg)
  -- multiply, divide, fractional (R231 to R242)
  | muls (d j : DReg) (k : MathSrc)
  | mulsB (d j : DReg) (o : Opr)
  | mulsW (d j : DReg) (o : Opr)
  | mulsL (d j : DReg) (o : Opr)
  | mulsOO (d : DReg) (s1 : Size) (o1 : Opr) (s2 : Size) (o2 : Opr)
  | mulu (d j : DReg) (k : MathSrc)
  | muluB (d j : DReg) (o : Opr)
  | muluW (d j : DReg) (o : Opr)
  | muluL (d j : DReg) (o : Opr)
  | muluOO (d : DReg) (s1 : Size) (o1 : Opr) (s2 : Size) (o2 : Opr)
  | macs (d j : DReg) (k : MathSrc)
  | macsB (d j : DReg) (o : Opr)
  | macsW (d j : DReg) (o : Opr)
  | macsL (d j : DReg) (o : Opr)
  | macsOO (d : DReg) (s1 : Size) (o1 : Opr) (s2 : Size) (o2 : Opr)
  | macu (d j : DReg) (k : MathSrc)
  | macuB (d j : DReg) (o : Opr)
  | macuW (d j : DReg) (o : Opr)
  | macuL (d j : DReg) (o : Opr)
  | macuOO (d : DReg) (s1 : Size) (o1 : Opr) (s2 : Size) (o2 : Opr)
  | divs (d j : DReg) (k : MathSrc)
  | divsB (d j : DReg) (o : Opr)
  | divsW (d j : DReg) (o : Opr)
  | divsL (d j : DReg) (o : Opr)
  | divsOO (d : DReg) (s1 : Size) (o1 : Opr) (s2 : Size) (o2 : Opr)
  | divu (d j : DReg) (k : MathSrc)
  | divuB (d j : DReg) (o : Opr)
  | divuW (d j : DReg) (o : Opr)
  | divuL (d j : DReg) (o : Opr)
  | divuOO (d : DReg) (s1 : Size) (o1 : Opr) (s2 : Size) (o2 : Opr)
  | mods (d j : DReg) (k : MathSrc)
  | modsB (d j : DReg) (o : Opr)
  | modsW (d j : DReg) (o : Opr)
  | modsL (d j : DReg) (o : Opr)
  | modsOO (d : DReg) (s1 : Size) (o1 : Opr) (s2 : Size) (o2 : Opr)
  | modu (d j : DReg) (k : MathSrc)
  | moduB (d j : DReg) (o : Opr)
  | moduW (d j : DReg) (o : Opr)
  | moduL (d j : DReg) (o : Opr)
  | moduOO (d : DReg) (s1 : Size) (o1 : Opr) (s2 : Size) (o2 : Opr)
  | qmuls (d j : DReg) (k : MathSrc)
  | qmulsB (d j : DReg) (o : Opr)
  | qmulsW (d j : DReg) (o : Opr)
  | qmulsL (d j : DReg) (o : Opr)
  | qmulsOO (d : DReg) (s1 : Size) (o1 : Opr) (s2 : Size) (o2 : Opr)
  | qmulu (d j : DReg) (k : MathSrc)
  | qmuluB (d j : DReg) (o : Opr)
  | qmuluW (d j : DReg) (o : Opr)
  | qmuluL (d j : DReg) (o : Opr)
  | qmuluOO (d : DReg) (s1 : Size) (o1 : Opr) (s2 : Size) (o2 : Opr)
  | sat (d : DReg)
  | clb (s d : DReg)
  -- logic and condition codes (R261 to R273)
  | and (d : DReg) (m : DSrc)
  | or (d : DReg) (m : DSrc)
  | eor (d : DReg) (m : DSrc)
  | bit (d : DReg) (m : DSrc)
  | comB (o : Opr)
  | comW (o : Opr)
  | comL (o : Opr)
  | andcc (i : BitVec 8)
  | orcc (i : BitVec 8)
  | clc
  | cli
  | clv
  | sec
  | sei
  | sev
  -- shifts and rotates (R291 to R296)
  | asl (d s : DReg) (n : ShiftBy)
  | aslOpr (f : ShiftOpr)
  | asr (d s : DReg) (n : ShiftBy)
  | asrOpr (f : ShiftOpr)
  | lsl (d s : DReg) (n : ShiftBy)
  | lslOpr (f : ShiftOpr)
  | lsr (d s : DReg) (n : ShiftBy)
  | lsrOpr (f : ShiftOpr)
  | rol (sz : Size) (o : Opr)
  | ror (sz : Size) (o : Opr)
  -- bits and bit fields (R310 to R314)
  | bset (m : BmArg)
  | bclr (m : BmArg)
  | btgl (m : BmArg)
  | bfext (d s : DReg) (p : BfParam)
  | bfextOpr (f : BfOpr)
  | bfins (d s : DReg) (p : BfParam)
  | bfinsOpr (f : BfOpr)
  -- minimum and maximum (R330 to R333)
  | maxs (d : DReg) (o : Opr)
  | maxu (d : DReg) (o : Opr)
  | mins (d : DReg) (o : Opr)
  | minu (d : DReg) (o : Opr)
  -- branches, loops, jumps, calls (R341 to R365)
  | bra (rel : Rel)
  | bsr (rel : Rel)
  | bhi (rel : Rel)
  | bls (rel : Rel)
  | bcc (rel : Rel)
  | bcs (rel : Rel)
  | bne (rel : Rel)
  | beq (rel : Rel)
  | bvc (rel : Rel)
  | bvs (rel : Rel)
  | bpl (rel : Rel)
  | bmi (rel : Rel)
  | bge (rel : Rel)
  | blt (rel : Rel)
  | bgt (rel : Rel)
  | ble (rel : Rel)
  | bhs (rel : Rel)
  | blo (rel : Rel)
  | brclr (m : BmArg) (rel : Rel)
  | brset (m : BmArg) (rel : Rel)
  | dbcc (c : LoopCond) (ctr : LoopCtr) (rel : Rel)
  | dbccOpr (c : LoopCond) (sz : Size) (o : Opr) (rel : Rel)
  | tbcc (c : LoopCond) (ctr : LoopCtr) (rel : Rel)
  | tbccOpr (c : LoopCond) (sz : Size) (o : Opr) (rel : Rel)
  | jmp (t : ExtOpr)
  | jsr (t : ExtOpr)
  | rts
  -- system (R380 to R388)
  | swi
  | sys
  | trap (tn : BitVec 8)
  | spare
  | rti
  | wai
  | stop
  | nop
  | bgnd
  deriving DecidableEq, Repr

/-- The instruction whose words an alias row names (R135); every other instruction is its own. -/
def Instr.core : Instr → Instr
  | .bhs rel => .bcc rel
  | .blo rel => .bcs rel
  | .clc => .andcc 0xFE#8
  | .cli => .andcc 0xEF#8
  | .clv => .andcc 0xFD#8
  | .sec => .orcc 0x01#8
  | .sei => .orcc 0x10#8
  | .sev => .orcc 0x02#8
  | .zex src dst => .tfr src dst
  | .sex src dst => .exg src dst
  | .pshAll => .psh false 0#6
  | .pshAll16b => .psh true 0#6
  | .pulAll => .pul false 0#6
  | .pulAll16b => .pul true 0#6
  | i => i

end Sys2Proof
end

