-- ==== Sys2Proof/WellFormed.lean ====
section
/-! DEFINITION. Which terms of `Instr` stand for object code: an immediate fits its size, a literal bit
number its operand, a TRAP code is an unimplemented one, SEX and ZEX widen. -/

namespace Sys2Proof

/-- An immediate of a data register's size (R86). -/
def immFits (bits : Nat) (v : BitVec 32) : Bool := v.toNat < 2 ^ bits

def DSrc.wf (d : DReg) : DSrc → Bool
  | .imm v => immFits d.bits v
  | .opr _ => true

def LdSrc.wf (d : DReg) : LdSrc → Bool
  | .imm v => immFits d.bits v
  | .ext _ => true
  | .opr _ => true

def MovSrc.wf (sz : Size) : MovSrc → Bool
  | .imm v => immFits sz.bits v
  | .opr _ => true

/-- A literal bit number lies in its operand (R128). -/
def BmArg.wf : BmArg → Bool
  | .reg r n => n.toNat < r.bits
  | .opr sz n _ => n.toNat < sz.size.bits
  | .oprReg _ _ _ => true

/-- The 94 unimplemented codes of page 2 (R91, R92). -/
def trapCode (tn : Byte) : Bool :=
  (0x92 ≤ tn.toNat && tn.toNat ≤ 0x9F) || (0xA8 ≤ tn.toNat && tn.toNat ≤ 0xAF) || 0xB8 ≤ tn.toNat

/-- SEX and ZEX: two CPU registers, the source narrower (R178, R179). -/
def widens (src dst : CpuReg) : Bool :=
  !src.reserved && !dst.reserved && src.bits < dst.bits

/-- Well-formedness of an instruction. -/
def Instr.wf : Instr → Bool
  | .ldD d src => src.wf d
  | .ldXY _ _ | .ldS _ | .stD _ _ | .stXY _ _ | .stS _ => true
  | .movB src _ => src.wf .b
  | .movW src _ => src.wf .w
  | .movP src _ => src.wf .p
  | .movL src _ => src.wf .l
  | .psh _ _ | .pul _ _ | .pshAll | .pshAll16b | .pulAll | .pulAll16b => true
  | .lea _ _ | .leaImm _ _ => true
  | .clrB _ | .clrW _ | .clrP _ | .clrL _ | .clrD _ | .clrXY _ => true
  | .tfr _ _ | .exg _ _ => true
  | .zex src dst | .sex src dst => widens src dst
  | .add d m | .adc d m | .sub d m | .sbc d m | .cmpD d m => m.wf d
  | .subD6 _ | .cmpXY _ _ | .cmpS _ | .cmpXwithY => true
  | .incD _ | .incB _ | .incW _ | .incL _ | .decD _ | .decB _ | .decW _ | .decL _ => true
  | .negB _ | .negW _ | .negL _ | .abs _ => true
  | .muls _ _ _ | .mulsB _ _ _ | .mulsW _ _ _ | .mulsL _ _ _ | .mulsOO _ _ _ _ _ => true
  | .mulu _ _ _ | .muluB _ _ _ | .muluW _ _ _ | .muluL _ _ _ | .muluOO _ _ _ _ _ => true
  | .macs _ _ _ | .macsB _ _ _ | .macsW _ _ _ | .macsL _ _ _ | .macsOO _ _ _ _ _ => true
  | .macu _ _ _ | .macuB _ _ _ | .macuW _ _ _ | .macuL _ _ _ | .macuOO _ _ _ _ _ => true
  | .divs _ _ _ | .divsB _ _ _ | .divsW _ _ _ | .divsL _ _ _ | .divsOO _ _ _ _ _ => true
  | .divu _ _ _ | .divuB _ _ _ | .divuW _ _ _ | .divuL _ _ _ | .divuOO _ _ _ _ _ => true
  | .mods _ _ _ | .modsB _ _ _ | .modsW _ _ _ | .modsL _ _ _ | .modsOO _ _ _ _ _ => true
  | .modu _ _ _ | .moduB _ _ _ | .moduW _ _ _ | .moduL _ _ _ | .moduOO _ _ _ _ _ => true
  | .qmuls _ _ _ | .qmulsB _ _ _ | .qmulsW _ _ _ | .qmulsL _ _ _ | .qmulsOO _ _ _ _ _ => true
  | .qmulu _ _ _ | .qmuluB _ _ _ | .qmuluW _ _ _ | .qmuluL _ _ _ | .qmuluOO _ _ _ _ _ => true
  | .sat _ | .clb _ _ => true
  | .and d m | .or d m | .eor d m | .bit d m => m.wf d
  | .comB _ | .comW _ | .comL _ => true
  | .andcc _ | .orcc _ | .clc | .cli | .clv | .sec | .sei | .sev => true
  | .asl _ _ _ | .aslOpr _ | .asr _ _ _ | .asrOpr _ => true
  | .lsl _ _ _ | .lslOpr _ | .lsr _ _ _ | .lsrOpr _ | .rol _ _ | .ror _ _ => true
  | .bset m | .bclr m | .btgl m => m.wf
  | .bfext _ _ _ | .bfextOpr _ | .bfins _ _ _ | .bfinsOpr _ => true
  | .maxs _ _ | .maxu _ _ | .mins _ _ | .minu _ _ => true
  | .bra _ | .bsr _ | .bhi _ | .bls _ | .bcc _ | .bcs _ | .bne _ | .beq _ => true
  | .bvc _ | .bvs _ | .bpl _ | .bmi _ | .bge _ | .blt _ | .bgt _ | .ble _ => true
  | .bhs _ | .blo _ => true
  | .brclr m _ | .brset m _ => m.wf
  | .dbcc _ _ _ | .dbccOpr _ _ _ _ | .tbcc _ _ _ | .tbccOpr _ _ _ _ => true
  | .jmp _ | .jsr _ | .rts => true
  | .swi | .sys | .spare | .rti | .wai | .stop | .nop | .bgnd => true
  | .trap tn => trapCode tn

end Sys2Proof
end

