-- ==== Sys2Proof/Decode.lean ====
section
/-! DEFINITION. Object code: the decoder (R80 to R136), total on any bytes, and the encoder written from
the same tables. Every postbyte is decoded in two parts: what its eight bits say (a finite type with its
code beside it), then the bytes that follow. -/

namespace Sys2Proof

open Machine (beVal beBytes)

/-! ## Reading a byte stream -/

/-- Why bytes are no instruction. No encoding is illegal (R92, R136); only the bytes can run out. -/
inductive DecodeReject where
  | truncated
  deriving DecidableEq, Repr

/-- A reader: what the leading bytes say and the bytes after them (R80). -/
abbrev Parse (α : Type) := List Byte → Except DecodeReject (α × List Byte)

namespace Parse

def done {α : Type} (a : α) : Parse α := fun bs => .ok (a, bs)

def bind {α β : Type} (p : Parse α) (f : α → Parse β) : Parse β := fun bs =>
  match p bs with
  | .ok (a, rest) => f a rest
  | .error e => .error e

def map {α β : Type} (f : α → β) (p : Parse α) : Parse β := p.bind fun a => done (f a)

/-- One byte, `Fetch8` (R80). -/
def byte : Parse Byte
  | [] => .error .truncated
  | b :: bs => .ok (b, bs)

/-- `n` bytes, most significant first, as a value of width `w` (R86). -/
def value (n w : Nat) : Parse (BitVec w) := fun bs =>
  if n ≤ bs.length then .ok (BitVec.ofNat w (beVal (bs.take n)), bs.drop n) else .error .truncated

end Parse

/-! ## Register and size codes -/

/-- Dreg, the 3-bit register code (R12, R83). -/
def dreg (c : BitVec 3) : DReg :=
  match c.toNat with
  | 0 => .d2
  | 1 => .d3
  | 2 => .d4
  | 3 => .d5
  | 4 => .d0
  | 5 => .d1
  | 6 => .d6
  | _ => .d7

def DReg.code : DReg → BitVec 3
  | .d2 => 0
  | .d3 => 1
  | .d4 => 2
  | .d5 => 3
  | .d0 => 4
  | .d1 => 5
  | .d6 => 6
  | .d7 => 7

/-- The 2-bit size codes (R90). -/
def sizeOf2 (c : BitVec 2) : Size :=
  match c.toNat with
  | 0 => .b
  | 1 => .w
  | 2 => .p
  | _ => .l

def Size.code : Size → BitVec 2
  | .b => 0
  | .w => 1
  | .p => 2
  | .l => 3

/-- The index bases X, Y, SP, PC (R107). -/
def baseOf (c : BitVec 2) : XYSP :=
  match c.toNat with
  | 0 => .x
  | 1 => .y
  | 2 => .s
  | _ => .pc

def XYSP.code : XYSP → BitVec 2
  | .x => 0
  | .y => 1
  | .s => 2
  | .pc => 3

def XYS.code : XYS → BitVec 2
  | .x => 0
  | .y => 1
  | .s => 2

def xyOf (b : Bool) : XY := if b then .y else .x

def XY.bit : XY → Bool
  | .x => false
  | .y => true

/-- The register codes of `tb` and `eb` (R130). -/
def cpuRegOf (c : BitVec 4) : CpuReg :=
  match c.toNat with
  | 8 => .x
  | 9 => .y
  | 10 => .s
  | 11 => .resB
  | 12 => .cch
  | 13 => .ccl
  | 14 => .ccw
  | 15 => .resF
  | _ => .d (dreg (c.setWidth 3))

def CpuReg.code : CpuReg → BitVec 4
  | .d r => 0#1 ++ r.code
  | .x => 8
  | .y => 9
  | .s => 10
  | .resB => 11
  | .cch => 12
  | .ccl => 13
  | .ccw => 14
  | .resF => 15

def dpOf (c : BitVec 2) : Dp :=
  match c.toNat with
  | 0 => .d2
  | 1 => .d3
  | 2 => .d4
  | _ => .d5

def Dp.code : Dp → BitVec 2
  | .d2 => 0
  | .d3 => 1
  | .d4 => 2
  | .d5 => 3

def bit1 (b : Bool) : BitVec 1 := BitVec.ofBool b

/-- The bits `hi` down to `lo` of a byte, as the rules write `b[hi:lo]`; `w` is how many they are. -/
def field (b : Byte) (lo w : Nat) : BitVec w := b.extractLsb' lo w

/-! ## The general operand -/

/-- What the eight bits of `xb` say (R121). -/
inductive XbMode where
  | immE4 (e : BitVec 4)
  | reg (r : DReg)
  | idx (base : XYS) (off : BitVec 4)
  | auto (m : AutoMode)
  | regIdx (r : DReg) (base : XYS)
  | regIdxInd (r : DReg) (base : XY)
  | idx1 (base : XYSP) (s : BitVec 1)
  | idx1Ind (base : XYSP) (s : BitVec 1)
  | ext1 (hi : BitVec 6)
  | idx2Reg (hi : BitVec 2) (r : DReg)
  | ext2 (hi : BitVec 2)
  | idx3 (base : XYSP)
  | idx3Ind (base : XYSP)
  | idx3Reg (r : DReg)
  | ext3
  | ext3Ind
  deriving DecidableEq, Repr

/-- The map of R121. -/
def xbMode (b : Byte) : XbMode :=
  match b.toNat / 16 with
  | 0 | 1 | 2 | 3 => .ext1 (field b 0 6)
  | 4 => .idx .x (field b 0 4)
  | 5 => .idx .y (field b 0 4)
  | 6 => .idx .s (field b 0 4)
  | 7 => .immE4 (field b 0 4)
  | 8 => if b[3] then .regIdx (dreg (field b 0 3)) .x else .idx2Reg 0 (dreg (field b 0 3))
  | 9 => if b[3] then .regIdx (dreg (field b 0 3)) .y else .idx2Reg 1 (dreg (field b 0 3))
  | 10 => if b[3] then .regIdx (dreg (field b 0 3)) .s else .idx2Reg 2 (dreg (field b 0 3))
  | 11 => if b[3] then .reg (dreg (field b 0 3)) else .idx2Reg 3 (dreg (field b 0 3))
  | 12 =>
    if b[3] then .regIdxInd (dreg (field b 0 3)) .x
    else match b.toNat % 8 with
      | 0 | 1 => .idx1 .x (field b 0 1)
      | 2 => .idx3 .x
      | 3 => .auto .preDecX
      | 4 | 5 => .idx1Ind .x (field b 0 1)
      | 6 => .idx3Ind .x
      | _ => .auto .postDecX
  | 13 =>
    if b[3] then .regIdxInd (dreg (field b 0 3)) .y
    else match b.toNat % 8 with
      | 0 | 1 => .idx1 .y (field b 0 1)
      | 2 => .idx3 .y
      | 3 => .auto .preDecY
      | 4 | 5 => .idx1Ind .y (field b 0 1)
      | 6 => .idx3Ind .y
      | _ => .auto .postDecY
  | 14 =>
    if b[3] then .idx3Reg (dreg (field b 0 3))
    else match b.toNat % 8 with
      | 0 | 1 => .idx1 .s (field b 0 1)
      | 2 => .idx3 .s
      | 3 => .auto .preIncX
      | 4 | 5 => .idx1Ind .s (field b 0 1)
      | 6 => .idx3Ind .s
      | _ => .auto .postIncX
  | _ =>
    match b.toNat % 16 with
    | 0 | 1 => .idx1 .pc (field b 0 1)
    | 2 => .idx3 .pc
    | 3 => .auto .preIncY
    | 4 | 5 => .idx1Ind .pc (field b 0 1)
    | 6 => .idx3Ind .pc
    | 7 => .auto .postIncY
    | 8 => .ext2 0
    | 9 => .ext2 1
    | 10 => .ext3
    | 11 => .auto .preDecS
    | 12 => .ext2 2
    | 13 => .ext2 3
    | 14 => .ext3Ind
    | _ => .auto .postIncS

/-- The code of each automatic submode (R104). -/
def AutoMode.code : AutoMode → Byte
  | .preDecX => 0xC3
  | .preDecY => 0xD3
  | .preIncX => 0xE3
  | .preIncY => 0xF3
  | .postDecX => 0xC7
  | .postDecY => 0xD7
  | .postIncX => 0xE7
  | .postIncY => 0xF7
  | .preDecS => 0xFB
  | .postIncS => 0xFF

/-- The `xb` patterns of R101 to R116. -/
def XbMode.code : XbMode → Byte
  | .immE4 e => 0x7#4 ++ e
  | .reg r => 0b10111#5 ++ r.code
  | .idx base off => 0b01#2 ++ base.code ++ off
  | .auto m => m.code
  | .regIdx r base => 0b10#2 ++ base.code ++ 0b1#1 ++ r.code
  | .regIdxInd r base => 0b110#3 ++ bit1 base.bit ++ 0b1#1 ++ r.code
  | .idx1 base s => 0b11#2 ++ base.code ++ 0b000#3 ++ s
  | .idx1Ind base s => 0b11#2 ++ base.code ++ 0b010#3 ++ s
  | .ext1 hi => 0b00#2 ++ hi
  | .idx2Reg hi r => 0b10#2 ++ hi ++ 0b0#1 ++ r.code
  | .ext2 hi => 0b11111#5 ++ hi.extractLsb' 1 1 ++ 0b0#1 ++ hi.extractLsb' 0 1
  | .idx3 base => 0b11#2 ++ base.code ++ 0b0010#4
  | .idx3Ind base => 0b11#2 ++ base.code ++ 0b0110#4
  | .idx3Reg r => 0b11101#5 ++ r.code
  | .ext3 => 0xFA
  | .ext3Ind => 0xFE

/-- The extension bytes that follow `xb`, and the operand (R100 to R116). -/
def parseXb : XbMode → Parse Opr
  | .immE4 e => .done (.immE4 e)
  | .reg r => .done (.reg r)
  | .idx base off => .done (.idx base off)
  | .auto m => .done (.auto m)
  | .regIdx r base => .done (.regIdx r base)
  | .regIdxInd r base => .done (.regIdxInd r base)
  | .idx1 base s => .map (fun x : BitVec 8 => .idx1 base (s ++ x)) (.value 1 8)
  | .idx1Ind base s => .map (fun x : BitVec 8 => .idx1Ind base (s ++ x)) (.value 1 8)
  | .ext1 hi => .map (fun x : BitVec 8 => .ext1 (hi ++ x)) (.value 1 8)
  | .idx2Reg hi r => .map (fun x : BitVec 16 => .idx2Reg (hi ++ x) r) (.value 2 16)
  | .ext2 hi => .map (fun x : BitVec 16 => .ext2 (hi ++ x)) (.value 2 16)
  | .idx3 base => .map (fun x => .idx3 base x) (.value 3 24)
  | .idx3Ind base => .map (fun x => .idx3Ind base x) (.value 3 24)
  | .idx3Reg r => .map (fun x => .idx3Reg x r) (.value 3 24)
  | .ext3 => .map (fun x => .ext3 x) (.value 3 24)
  | .ext3Ind => .map (fun x => .ext3Ind x) (.value 3 24)

/-- A general operand: `xb` and its extension bytes (R100). -/
def parseOpr : Parse Opr := .bind .byte fun b => parseXb (xbMode b)

def Opr.mode : Opr → XbMode
  | .immE4 e => .immE4 e
  | .reg r => .reg r
  | .idx base off => .idx base off
  | .auto m => .auto m
  | .regIdx r base => .regIdx r base
  | .regIdxInd r base => .regIdxInd r base
  | .idx1 base off => .idx1 base (off.extractLsb' 8 1)
  | .idx1Ind base off => .idx1Ind base (off.extractLsb' 8 1)
  | .ext1 a => .ext1 (a.extractLsb' 8 6)
  | .idx2Reg off r => .idx2Reg (off.extractLsb' 16 2) r
  | .ext2 a => .ext2 (a.extractLsb' 16 2)
  | .idx3 base _ => .idx3 base
  | .idx3Ind base _ => .idx3Ind base
  | .idx3Reg _ r => .idx3Reg r
  | .ext3 _ => .ext3
  | .ext3Ind _ => .ext3Ind

/-- The extension bytes of an operand. -/
def Opr.ext : Opr → List Byte
  | .immE4 _ | .reg _ | .idx _ _ | .auto _ | .regIdx _ _ | .regIdxInd _ _ => []
  | .idx1 _ off | .idx1Ind _ off => beBytes 1 off.toNat
  | .ext1 a => beBytes 1 a.toNat
  | .idx2Reg off _ => beBytes 2 off.toNat
  | .ext2 a => beBytes 2 a.toNat
  | .idx3 _ off | .idx3Ind _ off => beBytes 3 off.toNat
  | .idx3Reg off _ => beBytes 3 off.toNat
  | .ext3 a | .ext3Ind a => beBytes 3 a.toNat

def Opr.enc (o : Opr) : List Byte := o.mode.code :: o.ext

/-! ## Relative offsets, addresses and immediates -/

/-- A relative offset (R89). -/
def parseRel : Parse Rel :=
  .bind .byte fun rb =>
    if rb[7] then .map (fun r1 : BitVec 8 => .long (field rb 0 7 ++ r1)) (.value 1 8)
    else .done (.short (field rb 0 7))

def Rel.enc : Rel → List Byte
  | .short off => [0b0#1 ++ off]
  | .long off => (0b1#1 ++ off.extractLsb' 8 7) :: beBytes 1 off.toNat

/-- An immediate of `n` bytes, kept in 32 bits (R86). -/
def parseImm (n : Nat) : Parse (BitVec 32) := .value n 32

/-- A 24-bit address or immediate (R86, R88). -/
def parse24 : Parse (BitVec 24) := .value 3 24

def enc24 (a : BitVec 24) : List Byte := beBytes 3 a.toNat

/-! ## The instruction postbytes -/

/-- The two signednesses and ten mnemonics of the `mb` postbyte meet in this operand list (R125). -/
inductive MbMode where
  | reg (j k : DReg)
  | regOpr (j : DReg) (sz : BWL)
  | regImm (j : DReg) (sz : BWL)
  | oprOpr (s1 s2 : Size)
  deriving DecidableEq, Repr

def bwlOf (c : BitVec 2) : BWL :=
  match c.toNat with
  | 0 => .b
  | 1 => .w
  | _ => .l

def mbMode (b : Byte) : MbMode :=
  if b[6] then
    if b.toNat % 4 = 2 then .oprOpr (sizeOf2 (field b 4 2)) (sizeOf2 (field b 2 2))
    else if b[2] then .regImm (dreg (field b 3 3)) (bwlOf (field b 0 2))
    else .regOpr (dreg (field b 3 3)) (bwlOf (field b 0 2))
  else .reg (dreg (field b 3 3)) (dreg (field b 0 3))

/-- The low seven bits of `mb`; bit 7 is the signedness. -/
def MbMode.code (signed : Bool) : MbMode → Byte
  | .reg j k => bit1 signed ++ 0b0#1 ++ j.code ++ k.code
  | .regOpr j sz => bit1 signed ++ 0b1#1 ++ j.code ++ 0b0#1 ++ sz.size.code
  | .regImm j sz => bit1 signed ++ 0b1#1 ++ j.code ++ 0b1#1 ++ sz.size.code
  | .oprOpr s1 s2 => bit1 signed ++ 0b1#1 ++ s1.code ++ s2.code ++ 0b10#2

/-- The operands of an `mb` instruction after decoding. -/
inductive MbArgs where
  | math (j : DReg) (k : MathSrc)
  | opr (j : DReg) (sz : BWL) (o : Opr)
  | oprOpr (s1 : Size) (o1 : Opr) (s2 : Size) (o2 : Opr)
  deriving DecidableEq, Repr

def parseMbArgs : MbMode → Parse MbArgs
  | .reg j k => .done (.math j (.reg k))
  | .regOpr j sz => .map (fun o => .opr j sz o) parseOpr
  | .regImm j .b => .map (fun v => .math j (.imm1 v)) (.value 1 8)
  | .regImm j .w => .map (fun v => .math j (.imm2 v)) (.value 2 16)
  | .regImm j .l => .map (fun v => .math j (.imm4 v)) (.value 4 32)
  | .oprOpr s1 s2 => .bind parseOpr fun o1 => .map (fun o2 => .oprOpr s1 o1 s2 o2) parseOpr

def MbArgs.mode : MbArgs → MbMode
  | .math j (.reg k) => .reg j k
  | .math j (.imm1 _) => .regImm j .b
  | .math j (.imm2 _) => .regImm j .w
  | .math j (.imm4 _) => .regImm j .l
  | .opr j sz _ => .regOpr j sz
  | .oprOpr s1 _ s2 _ => .oprOpr s1 s2

def MbArgs.tail : MbArgs → List Byte
  | .math _ (.reg _) => []
  | .math _ (.imm1 v) => beBytes 1 v.toNat
  | .math _ (.imm2 v) => beBytes 2 v.toNat
  | .math _ (.imm4 v) => beBytes 4 v.toNat
  | .opr _ _ o => o.enc
  | .oprOpr _ o1 _ o2 => o1.enc ++ o2.enc

def MbArgs.enc (signed : Bool) (a : MbArgs) : List Byte := a.mode.code signed :: a.tail

/-- The mnemonic groups an `mb` opcode has: signed and unsigned, each in five constructors. -/
def parseMb (f : Bool → MbArgs → Instr) : Parse Instr :=
  .bind .byte fun b => .map (f b[7]) (parseMbArgs (mbMode b))

def mulOf (d : DReg) : Bool → MbArgs → Instr
  | true, .math j k => .muls d j k
  | true, .opr j .b o => .mulsB d j o
  | true, .opr j .w o => .mulsW d j o
  | true, .opr j .l o => .mulsL d j o
  | true, .oprOpr s1 o1 s2 o2 => .mulsOO d s1 o1 s2 o2
  | false, .math j k => .mulu d j k
  | false, .opr j .b o => .muluB d j o
  | false, .opr j .w o => .muluW d j o
  | false, .opr j .l o => .muluL d j o
  | false, .oprOpr s1 o1 s2 o2 => .muluOO d s1 o1 s2 o2

def macOf (d : DReg) : Bool → MbArgs → Instr
  | true, .math j k => .macs d j k
  | true, .opr j .b o => .macsB d j o
  | true, .opr j .w o => .macsW d j o
  | true, .opr j .l o => .macsL d j o
  | true, .oprOpr s1 o1 s2 o2 => .macsOO d s1 o1 s2 o2
  | false, .math j k => .macu d j k
  | false, .opr j .b o => .macuB d j o
  | false, .opr j .w o => .macuW d j o
  | false, .opr j .l o => .macuL d j o
  | false, .oprOpr s1 o1 s2 o2 => .macuOO d s1 o1 s2 o2

def divOf (d : DReg) : Bool → MbArgs → Instr
  | true, .math j k => .divs d j k
  | true, .opr j .b o => .divsB d j o
  | true, .opr j .w o => .divsW d j o
  | true, .opr j .l o => .divsL d j o
  | true, .oprOpr s1 o1 s2 o2 => .divsOO d s1 o1 s2 o2
  | false, .math j k => .divu d j k
  | false, .opr j .b o => .divuB d j o
  | false, .opr j .w o => .divuW d j o
  | false, .opr j .l o => .divuL d j o
  | false, .oprOpr s1 o1 s2 o2 => .divuOO d s1 o1 s2 o2

def modOf (d : DReg) : Bool → MbArgs → Instr
  | true, .math j k => .mods d j k
  | true, .opr j .b o => .modsB d j o
  | true, .opr j .w o => .modsW d j o
  | true, .opr j .l o => .modsL d j o
  | true, .oprOpr s1 o1 s2 o2 => .modsOO d s1 o1 s2 o2
  | false, .math j k => .modu d j k
  | false, .opr j .b o => .moduB d j o
  | false, .opr j .w o => .moduW d j o
  | false, .opr j .l o => .moduL d j o
  | false, .oprOpr s1 o1 s2 o2 => .moduOO d s1 o1 s2 o2

def qmulOf (d : DReg) : Bool → MbArgs → Instr
  | true, .math j k => .qmuls d j k
  | true, .opr j .b o => .qmulsB d j o
  | true, .opr j .w o => .qmulsW d j o
  | true, .opr j .l o => .qmulsL d j o
  | true, .oprOpr s1 o1 s2 o2 => .qmulsOO d s1 o1 s2 o2
  | false, .math j k => .qmulu d j k
  | false, .opr j .b o => .qmuluB d j o
  | false, .opr j .w o => .qmuluW d j o
  | false, .opr j .l o => .qmuluL d j o
  | false, .oprOpr s1 o1 s2 o2 => .qmuluOO d s1 o1 s2 o2

/-- What `lb` says beside its bit 7 (R126). -/
inductive LbMode where
  | ctr (c : LoopCond) (r : LoopCtr)
  | opr (c : LoopCond) (sz : Size)
  deriving DecidableEq, Repr

def loopCondOf (c : BitVec 3) : LoopCond :=
  match c.toNat with
  | 0 => .ne
  | 1 => .eq
  | 2 => .pl
  | 3 => .mi
  | 4 => .gt
  | 5 => .le
  | 6 => .never6
  | _ => .never7

def LoopCond.code : LoopCond → BitVec 3
  | .ne => 0
  | .eq => 1
  | .pl => 2
  | .mi => 3
  | .gt => 4
  | .le => 5
  | .never6 => 6
  | .never7 => 7

def lbMode (b : Byte) : LbMode :=
  if b[3] then
    if b[2] then .opr (loopCondOf (field b 4 3)) (sizeOf2 (field b 0 2))
    else .ctr (loopCondOf (field b 4 3)) (.xy (xyOf b[0]))
  else .ctr (loopCondOf (field b 4 3)) (.d (dreg (field b 0 3)))

def LbMode.code (dec : Bool) : LbMode → Byte
  | .ctr c (.d r) => bit1 dec ++ c.code ++ 0b0#1 ++ r.code
  | .ctr c (.xy r) => bit1 dec ++ c.code ++ 0b100#3 ++ bit1 r.bit
  | .opr c sz => bit1 dec ++ c.code ++ 0b11#2 ++ sz.code

def parseLoop : Parse Instr :=
  .bind .byte fun b =>
    match lbMode b with
    | .ctr c r => .map (fun rel => if b[7] then .dbcc c r rel else .tbcc c r rel) parseRel
    | .opr c sz => .bind parseOpr fun o =>
        .map (fun rel => if b[7] then .dbccOpr c sz o rel else .tbccOpr c sz o rel) parseRel

/-- What `sb` says (R127). -/
inductive SbMode where
  /-- b5:4 = 00: a register by 1 or 2 -/
  | regN (arith left two : Bool) (s : DReg)
  /-- b5:4 = 01: a register by a count operand -/
  | regCount (arith left n0 : Bool) (s : DReg)
  /-- b5:4 = 10, b2 = 0: an operand by 1 or 2 -/
  | oprN (arith left two : Bool) (sz : Size)
  /-- b5:4 = 10, b2 = 1: rotate -/
  | rot (left : Bool) (sz : Size)
  /-- b5:4 = 11, b2 = 0: an operand by a count operand -/
  | oprCount (arith left n0 : Bool) (sz : Size)
  /-- b5:4 = 11, b2 = 1: an operand in place by 1 or 2 -/
  | inPlace (arith left two : Bool) (sz : Size)
  deriving DecidableEq, Repr

def sbMode (b : Byte) : SbMode :=
  if b[5] then
    if b[4] then
      if b[2] then .inPlace b[7] b[6] b[3] (sizeOf2 (field b 0 2))
      else .oprCount b[7] b[6] b[3] (sizeOf2 (field b 0 2))
    else
      if b[2] then .rot b[6] (sizeOf2 (field b 0 2))
      else .oprN b[7] b[6] b[3] (sizeOf2 (field b 0 2))
  else
    if b[4] then .regCount b[7] b[6] b[3] (dreg (field b 0 3))
    else .regN b[7] b[6] b[3] (dreg (field b 0 3))

def SbMode.code : SbMode → Byte
  | .regN a l t s => bit1 a ++ bit1 l ++ 0b00#2 ++ bit1 t ++ s.code
  | .regCount a l n s => bit1 a ++ bit1 l ++ 0b01#2 ++ bit1 n ++ s.code
  | .oprN a l t sz => bit1 a ++ bit1 l ++ 0b10#2 ++ bit1 t ++ 0b0#1 ++ sz.code
  | .rot l sz => 0b0#1 ++ bit1 l ++ 0b10#2 ++ 0b01#2 ++ sz.code
  | .oprCount a l n sz => bit1 a ++ bit1 l ++ 0b11#2 ++ bit1 n ++ 0b0#1 ++ sz.code
  | .inPlace a l t sz => bit1 a ++ bit1 l ++ 0b11#2 ++ bit1 t ++ 0b1#1 ++ sz.code

/-- The register form of the four shifts, by sb[7] and sb[6]. -/
def shiftRegOf (arith left : Bool) (d s : DReg) (n : ShiftBy) : Instr :=
  match arith, left with
  | true, true => .asl d s n
  | true, false => .asr d s n
  | false, true => .lsl d s n
  | false, false => .lsr d s n

def shiftOprOf (arith left : Bool) (f : ShiftOpr) : Instr :=
  match arith, left with
  | true, true => .aslOpr f
  | true, false => .asrOpr f
  | false, true => .lslOpr f
  | false, false => .lsrOpr f

def parseSb (d : DReg) : SbMode → Parse Instr
  | .regN a l t s => .done (shiftRegOf a l d s (.fixed t))
  | .regCount a l n0 s => .map (fun o => shiftRegOf a l d s (.count n0 o)) parseOpr
  | .oprN a l t sz => .map (fun o => shiftOprOf a l (.toReg d sz o (.fixed t))) parseOpr
  | .rot l sz => .map (fun o => if l then .rol sz o else .ror sz o) parseOpr
  | .oprCount a l n0 sz => .bind parseOpr fun o =>
      .map (fun c => shiftOprOf a l (.toReg d sz o (.count n0 c))) parseOpr
  | .inPlace a l t sz => .map (fun o => shiftOprOf a l (.inPlace sz o t)) parseOpr

def parseShift (d : DReg) : Parse Instr := .bind .byte fun b => parseSb d (sbMode b)

/-- The `sb` postbyte and what follows, for a register source. -/
def encShiftReg (a l : Bool) (s : DReg) : ShiftBy → List Byte
  | .fixed t => [(SbMode.regN a l t s).code]
  | .count n0 o => (SbMode.regCount a l n0 s).code :: o.enc

/-- What `bm` says (R128). -/
inductive BmMode where
  | reg (r : DReg) (n : BitVec 5)
  | opr (sz : BWL) (n : BitVec 5)
  | oprReg (sz : BWL) (dn : DReg)
  deriving DecidableEq, Repr

def bmMode (b : Byte) : BmMode :=
  let r := dreg (field b 0 3)
  match b.toNat % 8 with
  | 6 | 7 => .reg r (field b 7 1 ++ field b 4 3 ++ field b 3 1)
  | _ =>
    if b[7] then
      match b.toNat % 16 with
      | 0 => .opr .b (0b00#2 ++ field b 4 3)
      | 1 => .oprReg .b (dreg (field b 4 3))
      | 2 | 3 => .opr .w (0b0#1 ++ field b 0 1 ++ field b 4 3)
      | 4 | 5 => .oprReg .w (dreg (field b 4 3))
      | 12 | 13 => .oprReg .l (dreg (field b 4 3))
      | _ => .opr .l (field b 0 2 ++ field b 4 3)
    else
      match b.toNat % 8 with
      | 4 | 5 => .reg r (0b00#2 ++ field b 4 2 ++ field b 3 1)
      | _ => .reg r (0b0#1 ++ field b 4 3 ++ field b 3 1)

def BmMode.code : BmMode → Byte
  | .reg r n => n.extractLsb' 4 1 ++ n.extractLsb' 1 3 ++ n.extractLsb' 0 1 ++ r.code
  | .opr .b n => 0b1#1 ++ n.extractLsb' 0 3 ++ 0b0000#4
  | .opr .w n => 0b1#1 ++ n.extractLsb' 0 3 ++ 0b001#3 ++ n.extractLsb' 3 1
  | .opr .l n => 0b1#1 ++ n.extractLsb' 0 3 ++ 0b10#2 ++ n.extractLsb' 3 2
  | .oprReg .b dn => 0b1#1 ++ dn.code ++ 0b0001#4
  | .oprReg .w dn => 0b1#1 ++ dn.code ++ 0b0101#4
  | .oprReg .l dn => 0b1#1 ++ dn.code ++ 0b1101#4

def parseBmArg : BmMode → Parse BmArg
  | .reg r n => .done (.reg r n)
  | .opr sz n => .map (fun o => .opr sz n o) parseOpr
  | .oprReg sz dn => .map (fun o => .oprReg sz dn o) parseOpr

def parseBm : Parse BmArg := .bind .byte fun b => parseBmArg (bmMode b)

def BmArg.enc : BmArg → List Byte
  | .reg r n => [(BmMode.reg r n).code]
  | .opr sz n o => (BmMode.opr sz n).code :: o.enc
  | .oprReg sz dn o => (BmMode.oprReg sz dn).code :: o.enc

/-- What `bb` says beside its bit 7 (R129); an immediate width's top two bits stand in `bb`. -/
inductive BbMode where
  | regDp (s : DReg) (p : Dp)
  | regImm (s : DReg) (wHi : BitVec 2)
  | oprDp (toMem : Bool) (sz : Size) (p : Dp)
  | oprImm (toMem : Bool) (sz : Size) (wHi : BitVec 2)
  deriving DecidableEq, Repr

def bbMode (b : Byte) : BbMode :=
  if b[6] then
    if b[5] then .oprImm b[4] (sizeOf2 (field b 2 2)) (field b 0 2)
    else .oprDp b[4] (sizeOf2 (field b 2 2)) (dpOf (field b 0 2))
  else
    if b[5] then .regImm (dreg (field b 2 3)) (field b 0 2)
    else .regDp (dreg (field b 2 3)) (dpOf (field b 0 2))

def BbMode.code (ins : Bool) : BbMode → Byte
  | .regDp s p => bit1 ins ++ 0b00#2 ++ s.code ++ p.code
  | .regImm s w => bit1 ins ++ 0b01#2 ++ s.code ++ w
  | .oprDp m sz p => bit1 ins ++ 0b10#2 ++ bit1 m ++ sz.code ++ p.code
  | .oprImm m sz w => bit1 ins ++ 0b11#2 ++ bit1 m ++ sz.code ++ w

/-- The width/offset byte `i1` with the width's top two bits (R129). -/
def parseWo (wHi : BitVec 2) : Parse BfParam :=
  .map (fun i1 => .imm (wHi ++ field i1 5 3) (field i1 0 5)) .byte

def encWo (w o : BitVec 5) : Byte := w.extractLsb' 0 3 ++ o

def bfOprOf (toMem : Bool) (r : DReg) (sz : Size) (o : Opr) (p : BfParam) : BfOpr :=
  if toMem then .toOpr sz o r p else .fromOpr r sz o p

def bfRegInstr (ins : Bool) (d s : DReg) (p : BfParam) : Instr :=
  if ins then .bfins d s p else .bfext d s p

def bfOprInstr (ins : Bool) (f : BfOpr) : Instr :=
  if ins then .bfinsOpr f else .bfextOpr f

def parseBb (r : DReg) (ins : Bool) : BbMode → Parse Instr
  | .regDp s p => .done (bfRegInstr ins r s (.dp p))
  | .regImm s w => .map (fun p => bfRegInstr ins r s p) (parseWo w)
  | .oprDp m sz p => .map (fun o => bfOprInstr ins (bfOprOf m r sz o (.dp p))) parseOpr
  | .oprImm m sz w => .bind (parseWo w) fun p =>
      .map (fun o => bfOprInstr ins (bfOprOf m r sz o p)) parseOpr

def parseBitField (r : DReg) : Parse Instr := .bind .byte fun b => parseBb r b[7] (bbMode b)

def encBfReg (ins : Bool) (s : DReg) : BfParam → List Byte
  | .dp p => [(BbMode.regDp s p).code ins]
  | .imm w o => [(BbMode.regImm s (w.extractLsb' 3 2)).code ins, encWo w o]

def encBfOpr (ins toMem : Bool) (sz : Size) (o : Opr) : BfParam → List Byte
  | .dp p => (BbMode.oprDp toMem sz p).code ins :: o.enc
  | .imm w off => (BbMode.oprImm toMem sz (w.extractLsb' 3 2)).code ins :: encWo w off :: o.enc

/-- `tb` and `eb` (R130). -/
def parsePair (f : CpuReg → CpuReg → Instr) : Parse Instr :=
  .map (fun b => f (cpuRegOf (field b 4 4)) (cpuRegOf (field b 0 4))) .byte

def encPair (src dst : CpuReg) : Byte := src.code ++ dst.code

/-- `cb` (R131); bits 7 and 3 are ignored. -/
def parseCb : Parse Instr := .map (fun b => .clb (dreg (field b 4 3)) (dreg (field b 0 3))) .byte

def encCb (s d : DReg) : Byte := 0b0#1 ++ s.code ++ 0b0#1 ++ d.code

/-- `pb` (R132). -/
def parsePb : Parse Instr :=
  .map (fun b => if b[7] then .pul b[6] (field b 0 6) else .psh b[6] (field b 0 6)) .byte

def encPb (pull row2 : Bool) (mask : BitVec 6) : Byte := bit1 pull ++ bit1 row2 ++ mask

/-! ## The opcode pages -/

def dImm (d : DReg) : Parse DSrc := .map .imm (parseImm d.size.bytes)
def dOpr : Parse DSrc := .map .opr parseOpr
def pImm : Parse PSrc := .map .imm parse24
def pOpr : Parse PSrc := .map .opr parseOpr
def ldImm (d : DReg) : Parse LdSrc := .map .imm (parseImm d.size.bytes)
def ldExt : Parse LdSrc := .map .ext parse24
def ldOpr : Parse LdSrc := .map .opr parseOpr
def xyImm : Parse LdXYSrc := .map .imm parse24
def xyImm18 (hi : BitVec 2) : Parse LdXYSrc :=
  .map (fun x : BitVec 16 => .imm18 (hi ++ x)) (.value 2 16)
def xyExt : Parse LdXYSrc := .map .ext parse24
def xyOpr : Parse LdXYSrc := .map .opr parseOpr
def eExt : Parse ExtOpr := .map .ext parse24
def eOpr : Parse ExtOpr := .map .opr parseOpr
def movImm (n : Nat) (f : MovSrc → Opr → Instr) : Parse Instr :=
  .bind (.map .imm (parseImm n)) fun v => .map (f v) parseOpr
def movOpr (f : MovSrc → Opr → Instr) : Parse Instr :=
  .bind (.map .opr parseOpr) fun v => .map (f v) parseOpr
def bmRel (f : BmArg → Rel → Instr) : Parse Instr :=
  .bind parseBm fun m => .map (f m) parseRel

/-- Page 2 (R91). -/
def decodePage2 (op : Byte) : Parse Instr :=
  let d := dreg (field op 0 3)
  match op.toNat / 8 with
  | 0 =>
    match op.toNat % 8 with
    | 0 => .map .ldS pOpr
    | 1 => .map .stS parseOpr
    | 2 => .map .cmpS pOpr
    | 3 => .map .ldS pImm
    | 4 => .map .cmpS pImm
    | 5 => .done .stop
    | 6 => .done .wai
    | _ => .done .sys
  | 1 => parseBitField d
  | 2 => .map (.minu d) parseOpr
  | 3 => .map (.maxu d) parseOpr
  | 4 => .map (.mins d) parseOpr
  | 5 => .map (.maxs d) parseOpr
  | 6 => parseMb (divOf d)
  | 7 => parseMb (modOf d)
  | 8 => .done (.abs d)
  | 9 => parseMb (macOf d)
  | 10 => .map (.adc d) (dImm d)
  | 11 => .map (.bit d) (dImm d)
  | 12 => .map (.adc d) dOpr
  | 13 => .map (.bit d) dOpr
  | 14 => .map (.sbc d) (dImm d)
  | 15 => .map (.eor d) (dImm d)
  | 16 => .map (.sbc d) dOpr
  | 17 => .map (.eor d) dOpr
  | 18 =>
    match op.toNat % 8 with
    | 0 => .done .rti
    | 1 => parseCb
    | _ => .done (.trap op)
  | 20 => .done (.sat d)
  | 22 => parseMb (qmulOf d)
  | _ => .done (.trap op)

/-- Page 1 (R85) but for the prefix 1B. -/
def decodePage1 (op : Byte) : Parse Instr :=
  let d := dreg (field op 0 3)
  match op.toNat / 8 with
  | 0 =>
    match op.toNat % 8 with
    | 0 => .done .bgnd
    | 1 => .done .nop
    | 2 => bmRel .brclr
    | 3 => bmRel .brset
    | 4 => parsePb
    | 5 => .done .rts
    | 6 => .map (.lea .d6) parseOpr
    | _ => .map (.lea .d7) parseOpr
  | 1 =>
    match op.toNat % 8 with
    | 0 => .map (.lea .x) parseOpr
    | 1 => .map (.lea .y) parseOpr
    | 2 => .map (.lea .s) parseOpr
    | 3 => parseLoop
    | 4 => movImm 1 .movB
    | 5 => movImm 2 .movW
    | 6 => movImm 3 .movP
    | _ => movImm 4 .movL
  | 2 => parseShift d
  | 3 =>
    match op.toNat % 8 with
    | 0 => .map (.leaImm .x) .byte
    | 1 => .map (.leaImm .y) .byte
    | 2 => .map (.leaImm .s) .byte
    | 3 => .bind .byte decodePage2
    | 4 => movOpr .movB
    | 5 => movOpr .movW
    | 6 => movOpr .movP
    | _ => movOpr .movL
  | 4 =>
    match op.toNat % 8 with
    | 0 => .map .bra parseRel
    | 1 => .map .bsr parseRel
    | 2 => .map .bhi parseRel
    | 3 => .map .bls parseRel
    | 4 => .map .bcc parseRel
    | 5 => .map .bcs parseRel
    | 6 => .map .bne parseRel
    | _ => .map .beq parseRel
  | 5 =>
    match op.toNat % 8 with
    | 0 => .map .bvc parseRel
    | 1 => .map .bvs parseRel
    | 2 => .map .bpl parseRel
    | 3 => .map .bmi parseRel
    | 4 => .map .bge parseRel
    | 5 => .map .blt parseRel
    | 6 => .map .bgt parseRel
    | _ => .map .ble parseRel
  | 6 => .done (.incD d)
  | 7 => .done (.clrD d)
  | 8 => .done (.decD d)
  | 9 => parseMb (mulOf d)
  | 10 => .map (.add d) (dImm d)
  | 11 => .map (.and d) (dImm d)
  | 12 => .map (.add d) dOpr
  | 13 => .map (.and d) dOpr
  | 14 => .map (.sub d) (dImm d)
  | 15 => .map (.or d) (dImm d)
  | 16 => .map (.sub d) dOpr
  | 17 => .map (.or d) dOpr
  | 18 => .map (.ldD d) (ldImm d)
  | 19 =>
    match op.toNat % 8 with
    | 0 => .map (.ldXY .x) xyImm
    | 1 => .map (.ldXY .y) xyImm
    | 2 => .done (.clrXY .x)
    | 3 => .done (.clrXY .y)
    | 4 => .map .incB parseOpr
    | 5 => .map .incW parseOpr
    | 6 => parsePair .tfr
    | _ => .map .incL parseOpr
  | 20 => .map (.ldD d) ldOpr
  | 21 =>
    match op.toNat % 8 with
    | 0 => .map (.ldXY .x) xyOpr
    | 1 => .map (.ldXY .y) xyOpr
    | 2 => .map .jmp eOpr
    | 3 => .map .jsr eOpr
    | 4 => .map .decB parseOpr
    | 5 => .map .decW parseOpr
    | 6 => parsePair .exg
    | _ => .map .decL parseOpr
  | 22 => .map (.ldD d) ldExt
  | 23 =>
    match op.toNat % 8 with
    | 0 => .map (.ldXY .x) xyExt
    | 1 => .map (.ldXY .y) xyExt
    | 2 => .map .jmp eExt
    | 3 => .map .jsr eExt
    | 4 => .map .clrB parseOpr
    | 5 => .map .clrW parseOpr
    | 6 => .map .clrP parseOpr
    | _ => .map .clrL parseOpr
  | 24 => .map (.stD d) eOpr
  | 25 =>
    match op.toNat % 8 with
    | 0 => .map (.stXY .x) eOpr
    | 1 => .map (.stXY .y) eOpr
    | 2 => .map (.ldXY .x) (xyImm18 0)
    | 3 => .map (.ldXY .y) (xyImm18 0)
    | 4 => .map .comB parseOpr
    | 5 => .map .comW parseOpr
    | 6 => .map .andcc .byte
    | _ => .map .comL parseOpr
  | 26 => .map (.stD d) eExt
  | 27 =>
    match op.toNat % 8 with
    | 0 => .map (.stXY .x) eExt
    | 1 => .map (.stXY .y) eExt
    | 2 => .map (.ldXY .x) (xyImm18 1)
    | 3 => .map (.ldXY .y) (xyImm18 1)
    | 4 => .map .negB parseOpr
    | 5 => .map .negW parseOpr
    | 6 => .map .orcc .byte
    | _ => .map .negL parseOpr
  | 28 => .map (.cmpD d) (dImm d)
  | 29 =>
    match op.toNat % 8 with
    | 0 => .map (.cmpXY .x) pImm
    | 1 => .map (.cmpXY .y) pImm
    | 2 => .map (.ldXY .x) (xyImm18 2)
    | 3 => .map (.ldXY .y) (xyImm18 2)
    | 4 => .map .bclr parseBm
    | 5 => .map .bset parseBm
    | 6 => .map .btgl parseBm
    | _ => .done .spare
  | 30 => .map (.cmpD d) dOpr
  | _ =>
    match op.toNat % 8 with
    | 0 => .map (.cmpXY .x) pOpr
    | 1 => .map (.cmpXY .y) pOpr
    | 2 => .map (.ldXY .x) (xyImm18 3)
    | 3 => .map (.ldXY .y) (xyImm18 3)
    | 4 => .done .cmpXwithY
    | 5 => .done (.subD6 false)
    | 6 => .done (.subD6 true)
    | _ => .done .swi

/-- The instruction the leading bytes hold, and the bytes after it. -/
def decode : Parse Instr := .bind .byte decodePage1

/-! ## The encoder -/

/-- An opcode whose low three bits are a register code. -/
def opD (hi : BitVec 5) (d : DReg) : Byte := hi ++ d.code

/-- An immediate of a register's size. -/
def encImm (sz : Size) (v : BitVec 32) : List Byte := beBytes sz.bytes v.toNat

/-- Opcode and operand of a data-register instruction with an immediate and a general form. -/
def encDSrc (immOp oprOp : BitVec 5) (d : DReg) : DSrc → List Byte
  | .imm v => opD immOp d :: encImm d.size v
  | .opr o => opD oprOp d :: o.enc

def encMov (immOp oprOp : Byte) (sz : Size) (src : MovSrc) (dst : Opr) : List Byte :=
  match src with
  | .imm v => immOp :: (encImm sz v ++ dst.enc)
  | .opr o => oprOp :: (o.enc ++ dst.enc)

/-- The shift forms with an operand source: opcode, `sb` and operands (R127). -/
def encShiftOpr (a l : Bool) : ShiftOpr → List Byte
  | .toReg d sz o (.fixed t) => opD 0x02#5 d :: (SbMode.oprN a l t sz).code :: o.enc
  | .toReg d sz o (.count n0 c) => opD 0x02#5 d :: (SbMode.oprCount a l n0 sz).code :: (o.enc ++ c.enc)
  | .inPlace sz o t => 0x10#8 :: (SbMode.inPlace a l t sz).code :: o.enc

def encBfOprForm (ins : Bool) : BfOpr → List Byte
  | .fromOpr d sz o p => opD 0x01#5 d :: encBfOpr ins false sz o p
  | .toOpr sz o s p => opD 0x01#5 s :: encBfOpr ins true sz o p

def encLoop (dec : Bool) (c : LoopCond) (r : LoopCtr) (rel : Rel) : List Byte :=
  0x0B#8 :: (LbMode.ctr c r).code dec :: rel.enc

def encLoopOpr (dec : Bool) (c : LoopCond) (sz : Size) (o : Opr) (rel : Rel) : List Byte :=
  0x0B#8 :: (LbMode.opr c sz).code dec :: (o.enc ++ rel.enc)

def LeaDst.op : LeaDst → Byte
  | .d6 => 0x06
  | .d7 => 0x07
  | .x => 0x08
  | .y => 0x09
  | .s => 0x0A

/-- The object code of an instruction; the bits the spec calls ignored are 0. -/
def encode : Instr → List Byte
  | .ldD d (.imm v) => opD 0x12#5 d :: encImm d.size v
  | .ldD d (.opr o) => opD 0x14#5 d :: o.enc
  | .ldD d (.ext a) => opD 0x16#5 d :: enc24 a
  | .ldXY r (.imm v) => (0b1001100#7 ++ bit1 r.bit) :: enc24 v
  | .ldXY r (.imm18 v) =>
      (0b11#2 ++ v.extractLsb' 16 2 ++ 0b101#3 ++ bit1 r.bit) :: beBytes 2 v.toNat
  | .ldXY r (.ext a) => (0b1011100#7 ++ bit1 r.bit) :: enc24 a
  | .ldXY r (.opr o) => (0b1010100#7 ++ bit1 r.bit) :: o.enc
  | .ldS (.imm v) => 0x1B :: 0x03 :: enc24 v
  | .ldS (.opr o) => 0x1B :: 0x00 :: o.enc
  | .stD d (.ext a) => opD 0x1A#5 d :: enc24 a
  | .stD d (.opr o) => opD 0x18#5 d :: o.enc
  | .stXY r (.ext a) => (0b1101100#7 ++ bit1 r.bit) :: enc24 a
  | .stXY r (.opr o) => (0b1100100#7 ++ bit1 r.bit) :: o.enc
  | .stS o => 0x1B :: 0x01 :: o.enc
  | .movB src dst => encMov 0x0C 0x1C .b src dst
  | .movW src dst => encMov 0x0D 0x1D .w src dst
  | .movP src dst => encMov 0x0E 0x1E .p src dst
  | .movL src dst => encMov 0x0F 0x1F .l src dst
  | .psh row2 mask => [0x04, encPb false row2 mask]
  | .pul row2 mask => [0x04, encPb true row2 mask]
  | .pshAll => [0x04, 0x00]
  | .pshAll16b => [0x04, 0x40]
  | .pulAll => [0x04, 0x80]
  | .pulAll16b => [0x04, 0xC0]
  | .lea r o => r.op :: o.enc
  | .leaImm r i => [0b000110#6 ++ r.code, i]
  | .clrB o => 0xBC :: o.enc
  | .clrW o => 0xBD :: o.enc
  | .clrP o => 0xBE :: o.enc
  | .clrL o => 0xBF :: o.enc
  | .clrD d => [opD 0x07#5 d]
  | .clrXY r => [0b1001101#7 ++ bit1 r.bit]
  | .tfr src dst => [0x9E, encPair src dst]
  | .zex src dst => [0x9E, encPair src dst]
  | .exg src dst => [0xAE, encPair src dst]
  | .sex src dst => [0xAE, encPair src dst]
  | .add d m => encDSrc 0x0A#5 0x0C#5 d m
  | .adc d m => 0x1B :: encDSrc 0x0A#5 0x0C#5 d m
  | .sub d m => encDSrc 0x0E#5 0x10#5 d m
  | .subD6 yMinusX => [if yMinusX then 0xFE else 0xFD]
  | .sbc d m => 0x1B :: encDSrc 0x0E#5 0x10#5 d m
  | .incD d => [opD 0x06#5 d]
  | .incB o => 0x9C :: o.enc
  | .incW o => 0x9D :: o.enc
  | .incL o => 0x9F :: o.enc
  | .decD d => [opD 0x08#5 d]
  | .decB o => 0xAC :: o.enc
  | .decW o => 0xAD :: o.enc
  | .decL o => 0xAF :: o.enc
  | .cmpD d m => encDSrc 0x1C#5 0x1E#5 d m
  | .cmpXY r (.imm v) => (0b1110100#7 ++ bit1 r.bit) :: enc24 v
  | .cmpXY r (.opr o) => (0b1111100#7 ++ bit1 r.bit) :: o.enc
  | .cmpS (.imm v) => 0x1B :: 0x04 :: enc24 v
  | .cmpS (.opr o) => 0x1B :: 0x02 :: o.enc
  | .cmpXwithY => [0xFC]
  | .negB o => 0xDC :: o.enc
  | .negW o => 0xDD :: o.enc
  | .negL o => 0xDF :: o.enc
  | .abs d => [0x1B, opD 0x08#5 d]
  | .muls d j k => opD 0x09#5 d :: (MbArgs.math j k).enc true
  | .mulsB d j o => opD 0x09#5 d :: (MbArgs.opr j .b o).enc true
  | .mulsW d j o => opD 0x09#5 d :: (MbArgs.opr j .w o).enc true
  | .mulsL d j o => opD 0x09#5 d :: (MbArgs.opr j .l o).enc true
  | .mulsOO d s1 o1 s2 o2 => opD 0x09#5 d :: (MbArgs.oprOpr s1 o1 s2 o2).enc true
  | .mulu d j k => opD 0x09#5 d :: (MbArgs.math j k).enc false
  | .muluB d j o => opD 0x09#5 d :: (MbArgs.opr j .b o).enc false
  | .muluW d j o => opD 0x09#5 d :: (MbArgs.opr j .w o).enc false
  | .muluL d j o => opD 0x09#5 d :: (MbArgs.opr j .l o).enc false
  | .muluOO d s1 o1 s2 o2 => opD 0x09#5 d :: (MbArgs.oprOpr s1 o1 s2 o2).enc false
  | .macs d j k => 0x1B :: opD 0x09#5 d :: (MbArgs.math j k).enc true
  | .macsB d j o => 0x1B :: opD 0x09#5 d :: (MbArgs.opr j .b o).enc true
  | .macsW d j o => 0x1B :: opD 0x09#5 d :: (MbArgs.opr j .w o).enc true
  | .macsL d j o => 0x1B :: opD 0x09#5 d :: (MbArgs.opr j .l o).enc true
  | .macsOO d s1 o1 s2 o2 => 0x1B :: opD 0x09#5 d :: (MbArgs.oprOpr s1 o1 s2 o2).enc true
  | .macu d j k => 0x1B :: opD 0x09#5 d :: (MbArgs.math j k).enc false
  | .macuB d j o => 0x1B :: opD 0x09#5 d :: (MbArgs.opr j .b o).enc false
  | .macuW d j o => 0x1B :: opD 0x09#5 d :: (MbArgs.opr j .w o).enc false
  | .macuL d j o => 0x1B :: opD 0x09#5 d :: (MbArgs.opr j .l o).enc false
  | .macuOO d s1 o1 s2 o2 => 0x1B :: opD 0x09#5 d :: (MbArgs.oprOpr s1 o1 s2 o2).enc false
  | .divs d j k => 0x1B :: opD 0x06#5 d :: (MbArgs.math j k).enc true
  | .divsB d j o => 0x1B :: opD 0x06#5 d :: (MbArgs.opr j .b o).enc true
  | .divsW d j o => 0x1B :: opD 0x06#5 d :: (MbArgs.opr j .w o).enc true
  | .divsL d j o => 0x1B :: opD 0x06#5 d :: (MbArgs.opr j .l o).enc true
  | .divsOO d s1 o1 s2 o2 => 0x1B :: opD 0x06#5 d :: (MbArgs.oprOpr s1 o1 s2 o2).enc true
  | .divu d j k => 0x1B :: opD 0x06#5 d :: (MbArgs.math j k).enc false
  | .divuB d j o => 0x1B :: opD 0x06#5 d :: (MbArgs.opr j .b o).enc false
  | .divuW d j o => 0x1B :: opD 0x06#5 d :: (MbArgs.opr j .w o).enc false
  | .divuL d j o => 0x1B :: opD 0x06#5 d :: (MbArgs.opr j .l o).enc false
  | .divuOO d s1 o1 s2 o2 => 0x1B :: opD 0x06#5 d :: (MbArgs.oprOpr s1 o1 s2 o2).enc false
  | .mods d j k => 0x1B :: opD 0x07#5 d :: (MbArgs.math j k).enc true
  | .modsB d j o => 0x1B :: opD 0x07#5 d :: (MbArgs.opr j .b o).enc true
  | .modsW d j o => 0x1B :: opD 0x07#5 d :: (MbArgs.opr j .w o).enc true
  | .modsL d j o => 0x1B :: opD 0x07#5 d :: (MbArgs.opr j .l o).enc true
  | .modsOO d s1 o1 s2 o2 => 0x1B :: opD 0x07#5 d :: (MbArgs.oprOpr s1 o1 s2 o2).enc true
  | .modu d j k => 0x1B :: opD 0x07#5 d :: (MbArgs.math j k).enc false
  | .moduB d j o => 0x1B :: opD 0x07#5 d :: (MbArgs.opr j .b o).enc false
  | .moduW d j o => 0x1B :: opD 0x07#5 d :: (MbArgs.opr j .w o).enc false
  | .moduL d j o => 0x1B :: opD 0x07#5 d :: (MbArgs.opr j .l o).enc false
  | .moduOO d s1 o1 s2 o2 => 0x1B :: opD 0x07#5 d :: (MbArgs.oprOpr s1 o1 s2 o2).enc false
  | .qmuls d j k => 0x1B :: opD 0x16#5 d :: (MbArgs.math j k).enc true
  | .qmulsB d j o => 0x1B :: opD 0x16#5 d :: (MbArgs.opr j .b o).enc true
  | .qmulsW d j o => 0x1B :: opD 0x16#5 d :: (MbArgs.opr j .w o).enc true
  | .qmulsL d j o => 0x1B :: opD 0x16#5 d :: (MbArgs.opr j .l o).enc true
  | .qmulsOO d s1 o1 s2 o2 => 0x1B :: opD 0x16#5 d :: (MbArgs.oprOpr s1 o1 s2 o2).enc true
  | .qmulu d j k => 0x1B :: opD 0x16#5 d :: (MbArgs.math j k).enc false
  | .qmuluB d j o => 0x1B :: opD 0x16#5 d :: (MbArgs.opr j .b o).enc false
  | .qmuluW d j o => 0x1B :: opD 0x16#5 d :: (MbArgs.opr j .w o).enc false
  | .qmuluL d j o => 0x1B :: opD 0x16#5 d :: (MbArgs.opr j .l o).enc false
  | .qmuluOO d s1 o1 s2 o2 => 0x1B :: opD 0x16#5 d :: (MbArgs.oprOpr s1 o1 s2 o2).enc false
  | .sat d => [0x1B, opD 0x14#5 d]
  | .clb s d => [0x1B, 0x91, encCb s d]
  | .and d m => encDSrc 0x0B#5 0x0D#5 d m
  | .or d m => encDSrc 0x0F#5 0x11#5 d m
  | .eor d m => 0x1B :: encDSrc 0x0F#5 0x11#5 d m
  | .bit d m => 0x1B :: encDSrc 0x0B#5 0x0D#5 d m
  | .comB o => 0xCC :: o.enc
  | .comW o => 0xCD :: o.enc
  | .comL o => 0xCF :: o.enc
  | .andcc i => [0xCE, i]
  | .orcc i => [0xDE, i]
  | .clc => [0xCE, 0xFE]
  | .cli => [0xCE, 0xEF]
  | .clv => [0xCE, 0xFD]
  | .sec => [0xDE, 0x01]
  | .sei => [0xDE, 0x10]
  | .sev => [0xDE, 0x02]
  | .asl d s n => opD 0x02#5 d :: encShiftReg true true s n
  | .aslOpr f => encShiftOpr true true f
  | .asr d s n => opD 0x02#5 d :: encShiftReg true false s n
  | .asrOpr f => encShiftOpr true false f
  | .lsl d s n => opD 0x02#5 d :: encShiftReg false true s n
  | .lslOpr f => encShiftOpr false true f
  | .lsr d s n => opD 0x02#5 d :: encShiftReg false false s n
  | .lsrOpr f => encShiftOpr false false f
  | .rol sz o => 0x10 :: (SbMode.rot true sz).code :: o.enc
  | .ror sz o => 0x10 :: (SbMode.rot false sz).code :: o.enc
  | .bset m => 0xED :: m.enc
  | .bclr m => 0xEC :: m.enc
  | .btgl m => 0xEE :: m.enc
  | .bfext d s p => 0x1B :: opD 0x01#5 d :: encBfReg false s p
  | .bfextOpr f => 0x1B :: encBfOprForm false f
  | .bfins d s p => 0x1B :: opD 0x01#5 d :: encBfReg true s p
  | .bfinsOpr f => 0x1B :: encBfOprForm true f
  | .maxs d o => 0x1B :: opD 0x05#5 d :: o.enc
  | .maxu d o => 0x1B :: opD 0x03#5 d :: o.enc
  | .mins d o => 0x1B :: opD 0x04#5 d :: o.enc
  | .minu d o => 0x1B :: opD 0x02#5 d :: o.enc
  | .bra rel => 0x20 :: rel.enc
  | .bsr rel => 0x21 :: rel.enc
  | .bhi rel => 0x22 :: rel.enc
  | .bls rel => 0x23 :: rel.enc
  | .bcc rel => 0x24 :: rel.enc
  | .bcs rel => 0x25 :: rel.enc
  | .bne rel => 0x26 :: rel.enc
  | .beq rel => 0x27 :: rel.enc
  | .bvc rel => 0x28 :: rel.enc
  | .bvs rel => 0x29 :: rel.enc
  | .bpl rel => 0x2A :: rel.enc
  | .bmi rel => 0x2B :: rel.enc
  | .bge rel => 0x2C :: rel.enc
  | .blt rel => 0x2D :: rel.enc
  | .bgt rel => 0x2E :: rel.enc
  | .ble rel => 0x2F :: rel.enc
  | .bhs rel => 0x24 :: rel.enc
  | .blo rel => 0x25 :: rel.enc
  | .brclr m rel => 0x02 :: (m.enc ++ rel.enc)
  | .brset m rel => 0x03 :: (m.enc ++ rel.enc)
  | .dbcc c r rel => encLoop true c r rel
  | .dbccOpr c sz o rel => encLoopOpr true c sz o rel
  | .tbcc c r rel => encLoop false c r rel
  | .tbccOpr c sz o rel => encLoopOpr false c sz o rel
  | .jmp (.ext a) => 0xBA :: enc24 a
  | .jmp (.opr o) => 0xAA :: o.enc
  | .jsr (.ext a) => 0xBB :: enc24 a
  | .jsr (.opr o) => 0xAB :: o.enc
  | .rts => [0x05]
  | .swi => [0xFF]
  | .sys => [0x1B, 0x07]
  | .trap tn => [0x1B, tn]
  | .spare => [0xEF]
  | .rti => [0x1B, 0x90]
  | .wai => [0x1B, 0x06]
  | .stop => [0x1B, 0x05]
  | .nop => [0x01]
  | .bgnd => [0x00]

/-- The length in bytes; `PCnext = PC0 + length` (R80, R81). -/
def Instr.length (i : Instr) : Nat := (encode i).length

/-! ## The table's words -/

/-- The bytes of a table word. The table writes a row's bytes as one number, its first byte the most
significant; the bytes above the row's bits are 0 (log entry 16). -/
def tableBytes (nbits w : Nat) : List Byte :=
  beBytes (nbits / 8) w ++ List.replicate 12 0#8

def decodeTableWord (nbits w : Nat) : Option Instr :=
  match decode (tableBytes nbits w) with
  | .ok (i, _) => some i
  | .error _ => none

end Sys2Proof
end

