-- ==== Sys2Proof/Config.lean ====
section
/-! DEFINITION. What one S12Z configuration fixes, and the values the spec leaves open (opaque, so that
nothing can be proved of them). -/

namespace Sys2Proof.Config

/-- What a byte of memory reads as that nothing has written (U6; log entry 2). DESIGN CHOICE, unsafe. -/
def unwrittenByte : Byte := 0x00#8

/-- The address of the reset vector (R32, R451). -/
def resetVector : Addr := 0xFFFFFD#24

/-- `VectorBase`, parameter D1 (log entry 4). PRESUMED. -/
def vectorBase : Addr := 0xFFFE00#24

/-- Default of `VecAddr`, parameter D2: the slot's address + 1 (R402; log entry 4). PRESUMED. -/
def spareVector : Addr := vectorBase + 0x1F9#24
def trapVector : Addr := vectorBase + 0x1F5#24
def swiVector : Addr := vectorBase + 0x1F1#24
def sysVector : Addr := vectorBase + 0x1ED#24
def machineExceptionVector : Addr := vectorBase + 0x1E9#24

/-- A value the spec leaves open: the `k`-th draw of a run (log entry 11). -/
opaque freeValue : Nat → BitVec 64

/-- What a byte holds that an abandoned instruction could have written: draw and address (U7, log entry 14). -/
opaque freeByte : Nat → Nat → Byte

/-- What a read gets from an address that holds no memory (a device, or none at all): the number of the
access and the address (D6, log entry 3). -/
opaque busByte : Nat → Nat → Byte

/-- `AddrOnlyStep`, parameter D17, which the spec leaves OPEN: the bytes by which the automatic submodes
move under LEA, JMP and JSR, less one (log entry 6). -/
opaque addrOnlyStep : Fin 4

end Sys2Proof.Config
end

