-- ==== Sys2Proof/Machine/Memory.lean ====
section
/-! DEFINITION. Memory: 2^24 bytes (R50) as a list of cells in one canonical form, and `MemMap`, what stands
behind each address. -/

namespace Sys2Proof.Machine

/-- Address and byte pairs, addresses strictly rising, none equal to what an unlisted address reads as. -/
abbrev Memory := List Host.Cell

/-- `M[a]` (R54). -/
def Memory.read : Memory → Nat → Byte
  | [], _ => Config.unwrittenByte
  | (k, v) :: rest, a => if k = a then v else Memory.read rest a

/-- A cell put in its place by address. -/
def Memory.insertCell (a : Nat) (v : Byte) : Memory → Memory
  | [] => [(a, v)]
  | c :: rest => if a < c.1 then (a, v) :: c :: rest else c :: Memory.insertCell a v rest

/-- A list without the cells of one address. -/
def Memory.erase (m : Memory) (a : Nat) : Memory := m.filter fun c => c.1 != a

/-- `M[a] <- v` (R55). -/
def Memory.write (m : Memory) (a : Nat) (v : Byte) : Memory :=
  if v = Config.unwrittenByte then m.erase a else Memory.insertCell a v (m.erase a)

/-- Every listed address lies above `lo`, below 2^24, and they rise. -/
def Memory.wfFrom : Nat → Memory → Bool
  | _, [] => true
  | lo, (k, v) :: rest =>
    lo ≤ k && k < 2 ^ 24 && v != Config.unwrittenByte && Memory.wfFrom (k + 1) rest

/-- The canonical form. -/
def Memory.wf (m : Memory) : Bool := Memory.wfFrom 0 m

/-- `n` bytes from an address on, each as `rd` gives it; the addresses wrap at 2^24 (R52, R54). -/
def bytesFrom (rd : Nat → Byte) (a : Addr) : Nat → List Byte
  | 0 => []
  | n + 1 => rd a.toNat :: bytesFrom rd (a + 1) n

/-- `MemRead(a, n)`, the bytes being as `rd` gives them (R54). -/
def loadFrom (rd : Nat → Byte) (a : Addr) (sz : Size) : BitVec sz.bits :=
  BitVec.ofNat sz.bits (beVal (bytesFrom rd a sz.bytes))

/-- Bytes stored from an address on, where `ok` lets them be (R52, R55). -/
def Memory.writeBytes (ok : Nat → Bool) (m : Memory) (a : Addr) : List Byte → Memory
  | [] => m
  | b :: bs => Memory.writeBytes ok (if ok a.toNat then m.write a.toNat b else m) (a + 1) bs

/-- `MemWrite(a, n, v)` on memory (R55). -/
def Memory.store (ok : Nat → Bool) (m : Memory) (a : Addr) (sz : Size) (v : BitVec sz.bits) : Memory :=
  m.writeBytes ok a (beBytes sz.bytes v.toNat)

/-- The addresses of a run of bytes (R52). -/
def addressRun (a : Addr) (n : Nat) : List Nat := (List.range n).map fun k => (a + BitVec.ofNat 24 k).toNat

/-! ## `MemMap` -/

/-- What stands behind an address (D6, U6). -/
inductive AddrClass where
  /-- reads return the last write -/
  | ram
  /-- writes are ignored -/
  | rom
  /-- a write is refused -/
  | romRefused
  /-- a device: a read gives what the device answers, which is open; a write goes to the device -/
  | device
  /-- nothing, and an access is refused -/
  | unimplemented
  /-- nothing, and an access makes the MMC raise the machine exception (D5) -/
  | unimplementedRaising
  deriving DecidableEq, Repr

/-- A run of addresses of one class. -/
structure Area where
  first : Nat
  size : Nat
  cls : AddrClass
  deriving DecidableEq, Repr

/-- `MemMap` (D6): the first area that covers an address decides; the rest is RAM. -/
abbrev MemMap := List Area

/-- The class of an address (D6). -/
def MemMap.classAt : MemMap → Nat → AddrClass
  | [], _ => .ram
  | r :: rest, a =>
    if r.first ≤ a && decide (a < r.first + r.size) then r.cls else MemMap.classAt rest a

/-- Whether an address keeps what is there: RAM and ROM (D6). -/
def AddrClass.keeps : AddrClass → Bool
  | .ram | .rom | .romRefused => true
  | .device | .unimplemented | .unimplementedRaising => false

/-- Whether a write to an address changes what is there: RAM alone (D6). -/
def AddrClass.takesWrites : AddrClass → Bool
  | .ram => true
  | .rom | .romRefused | .device | .unimplemented | .unimplementedRaising => false

/-- Whether an address is RAM. -/
def MemMap.isRam (map : MemMap) (a : Nat) : Bool := (map.classAt a).takesWrites

/-- Whether an address is RAM or ROM. -/
def MemMap.isMemory (map : MemMap) (a : Nat) : Bool := (map.classAt a).keeps

/-! ## What a step does beside its end state -/

/-- Why the CPU accesses memory (R62, R68). -/
inductive AccessKind where
  | fetch | read | write
  deriving DecidableEq, Repr

/-- One access: its kind, whether it is made in supervisor state (R404, R440), its address and its bytes. -/
structure Access where
  kind : AccessKind
  supervisor : Bool
  addr : Addr
  bytes : Nat
  deriving DecidableEq, Repr

/-- What a step does on its way: an access, or a write of SP. -/
inductive Effect where
  | access (a : Access)
  | spWritten
  deriving DecidableEq, Repr

/-- The addresses an effect stores to. -/
def Effect.stores : Effect → List Nat
  | .access ⟨.write, _, a, n⟩ => addressRun a n
  | .access ⟨.fetch, _, _, _⟩ => []
  | .access ⟨.read, _, _, _⟩ => []
  | .spWritten => []

end Sys2Proof.Machine
end

