-- ==== Sys2Proof/Machine/State.lean ====
section
/-! DEFINITION. The state of the machine, all of it plain data, the reasons a step stops, and reset. -/

namespace Sys2Proof.Machine

/-! ## Condition codes -/

/-- CCR, field by field (R16). Bits 14:11 and 5 hold no state (R17). -/
structure Ccr where
  /-- bit 15, user state (R18) -/
  u : Bool
  /-- bits 10:8 (R20) -/
  ipl : BitVec 3
  /-- bit 7, STOP disable (R21) -/
  s : Bool
  /-- bit 6, X, the XIRQ mask (R22) -/
  xm : Bool
  /-- bit 4, the interrupt mask (R23) -/
  i : Bool
  /-- bit 3 (R24) -/
  n : Bool
  /-- bit 2 (R25) -/
  z : Bool
  /-- bit 1 (R26) -/
  v : Bool
  /-- bit 0 (R27) -/
  c : Bool
  deriving DecidableEq, Repr

/-- CCW, the sixteen bits as read; the reserved ones read 0 (R16, R17). -/
def Ccr.word (c : Ccr) : BitVec 16 :=
  BitVec.ofBool c.u ++ 0b0000#4 ++ c.ipl ++ BitVec.ofBool c.s ++ BitVec.ofBool c.xm ++ 0b0#1 ++
    BitVec.ofBool c.i ++ BitVec.ofBool c.n ++ BitVec.ofBool c.z ++ BitVec.ofBool c.v ++
    BitVec.ofBool c.c

/-! ## The outside world -/

/-- `run_state` (R34). -/
inductive RunState where
  | running | waiting | stopped | halted
  deriving DecidableEq, Repr

/-- An interrupt request as the interrupt module presents it (R414). -/
structure Request where
  /-- the source number `n`, meaningful for an I-bit request -/
  source : Nat
  level : BitVec 3
  vecaddr : Addr
  deriving DecidableEq, Repr

/-- The kinds of interrupt (R400). -/
inductive IrqKind where
  | xirq | irq
  deriving DecidableEq, Repr

/-- The interrupt module's answers at one moment (R410, R414): to `xirq()`, and to `irq(ipl)` for each of the
eight levels it can be asked with. -/
structure IrqAnswer where
  xirq : Option Request
  irq : Vector (Option Request) 8
  deriving DecidableEq, Repr

/-- No request, whatever the level: the default of `IrqOracle` (D3). -/
def IrqAnswer.none : IrqAnswer := { xirq := .none, irq := Vector.replicate 8 .none }

/-- `ResetRequested()` (R452): not in this step, before it, or in the middle of what the step does. -/
inductive ResetRequest where
  | none | boundary | midInstruction
  deriving DecidableEq, Repr

/-- What the outside world does in one step (R465; log entry 12). -/
structure HostInputs where
  reset : ResetRequest
  /-- `MachineExceptionOracle.pending()` (R431) -/
  machineException : Bool
  /-- the answers at the boundary (R410) -/
  irqs : IrqAnswer
  /-- the answers to the test inside RTI (R384) -/
  rtiIrqs : IrqAnswer
  /-- `WakeContinue()` (R421) -/
  wakeContinue : Bool
  /-- the debug host's 'Go' (R388) -/
  go : Bool
  deriving DecidableEq, Repr

/-- No event: the default of every parameter. -/
def HostInputs.quiet : HostInputs :=
  { reset := .none, machineException := false, irqs := .none, rtiIrqs := .none,
    wakeContinue := false, go := false }

/-- `VecAddr` of the five kinds whose vector address no request carries (R402). -/
structure Vectors where
  spare : Addr
  trap : Addr
  swi : Addr
  sys : Addr
  machineException : Addr
  deriving DecidableEq, Repr

/-! ## The state -/

/-- The machine (10_state.md; INVENTORY.md '## State' lists every field with its rule). -/
structure State where
  d0 : BitVec 8
  d1 : BitVec 8
  d2 : BitVec 16
  d3 : BitVec 16
  d4 : BitVec 16
  d5 : BitVec 16
  d6 : BitVec 32
  d7 : BitVec 32
  x : Addr
  y : Addr
  sp : Addr
  pc : Addr
  ccr : Ccr
  runState : RunState
  irqShadow : Bool
  mem : Memory
  /-- `MemMap`, what stands behind each address (D6) -/
  map : MemMap
  vec : Vectors
  /-- the debug controller's ENBDM bit (R388) -/
  enbdm : Bool
  /-- what the outside world does, one entry a step; past the end: nothing -/
  inputs : List HostInputs
  /-- the requests for which `IrqOracle.taken` was called, latest first (R414) -/
  taken : List Request
  /-- the request of the MMC that an access to an unimplemented address has made (D5, D6) -/
  machineRequest : Bool
  /-- the MODEL's own field: what the step at hand has done on its way, latest first (log entry 39) -/
  trace : List Effect
  /-- the MODEL's own field: how many free values have been drawn (log entry 11) -/
  freeCount : Nat
  deriving DecidableEq, Repr

/-- Why the machine stops. -/
inductive Fault where
  /-- The fetched bytes are no instruction. Raised by `step` alone, when `decode` refuses; it refuses no
  eleven bytes (R92, R136), so this never happens. Safe. -/
  | undecodable
  deriving DecidableEq, Repr

/-- Why the model gives no meaning. -/
inductive Refusal where
  /-- An instruction whose meaning is not written. Raised by `exec`. Safe. -/
  | notModelled (mnemonic : String)
  /-- An instruction that would write its result to a short immediate (U2 of
  93_implementation_defined.md: 'no result, no exception described', treatment `refuse`; R118).
  Raised by `oprWrite`. Safe. -/
  | immediateDestination
  /-- A write to an address that `MemMap` calls ROM and that refuses writes (D6). Raised by `settle` in
  Boundary.lean. Safe. -/
  | romWrite
  /-- An access to an address that `MemMap` calls unimplemented (D6, U6). Raised by `settle`. Safe. -/
  | unimplementedAddress
  deriving DecidableEq, Repr

/-- The default of `VecAddr` (R402; log entry 4). PRESUMED. -/
def Vectors.default : Vectors :=
  { spare := Config.spareVector, trap := Config.trapVector, swi := Config.swiVector,
    sys := Config.sysVector, machineException := Config.machineExceptionVector }

/-- The CCR after reset (R450): S, X, I set, U and IPL cleared; N, Z, V, C are DESIGN CHOICE
(log entry 1). -/
def Ccr.reset : Ccr :=
  { u := false, ipl := 0, s := true, xm := true, i := true, n := false, z := false, v := false,
    c := false }

/-- The machine right after power-on reset (R450, R451). The registers the spec gives no value are 0:
DESIGN CHOICE, log entry 1. -/
def State.reset : State :=
  { d0 := 0, d1 := 0, d2 := 0, d3 := 0, d4 := 0, d5 := 0, d6 := 0, d7 := 0,
    x := 0, y := 0, sp := 0,
    pc := loadFrom (Memory.read []) Config.resetVector .p,
    ccr := Ccr.reset, runState := .running, irqShadow := false, mem := [], map := [],
    vec := Vectors.default, enbdm := true, inputs := [], taken := [], machineRequest := false,
    trace := [], freeCount := 0 }

/-- What the outside world does in the step at hand. -/
def State.input (s : State) : HostInputs := s.inputs.headD HostInputs.quiet

/-- The answer of every meaning. -/
abbrev Result := Host.Outcome State Fault Refusal

end Sys2Proof.Machine
end

