-- ==== Sys2Proof/Machine/Ops.lean ====
section
/-! DEFINITION. The operations every meaning is written over: registers, memory, the stack, writing the
CCR, free values, taking an exception and returning from one, reset. -/

namespace Sys2Proof.Machine

/-! ## Registers -/

/-- `D[i]`, at its own width (R11). -/
def State.getD (s : State) : (r : DReg) → BitVec r.bits
  | .d0 => s.d0
  | .d1 => s.d1
  | .d2 => s.d2
  | .d3 => s.d3
  | .d4 => s.d4
  | .d5 => s.d5
  | .d6 => s.d6
  | .d7 => s.d7

/-- `D[i] <- v` (R11). -/
def State.setD (s : State) : (r : DReg) → BitVec r.bits → State
  | .d0, v => { s with d0 := v }
  | .d1, v => { s with d1 := v }
  | .d2, v => { s with d2 := v }
  | .d3, v => { s with d3 := v }
  | .d4, v => { s with d4 := v }
  | .d5, v => { s with d5 := v }
  | .d6, v => { s with d6 := v }
  | .d7, v => { s with d7 := v }

/-- `RegRead(i, n)` at `w = 8n` bits: the low part of a wider register, a narrower one zero-extended (R102). -/
def State.regRead (s : State) (r : DReg) (w : Nat) : BitVec w := (s.getD r).setWidth w

/-- `RegWrite(i, n, v)`: truncated or zero-extended to the register (R102). -/
def State.regWrite {w : Nat} (s : State) (r : DReg) (v : BitVec w) : State :=
  s.setD r (v.setWidth r.bits)

def State.getXY (s : State) : XY → Addr
  | .x => s.x
  | .y => s.y

def State.setXY (s : State) : XY → Addr → State
  | .x, v => { s with x := v }
  | .y, v => { s with y := v }

def State.getXYS (s : State) : XYS → Addr
  | .x => s.x
  | .y => s.y
  | .s => s.sp

/-! ## The trace of a step -/

/-- An access of the step at hand, made in the state of U (R62, R440; log entry 39). -/
def State.accessed (s : State) (kind : AccessKind) (a : Addr) (n : Nat) : State :=
  { s with trace := .access ⟨kind, !s.ccr.u, a, n⟩ :: s.trace }

/-- `SP <- v`: every write of SP is one of these. -/
def State.setSp (s : State) (v : Addr) : State := { s with sp := v, trace := .spWritten :: s.trace }

def State.setXYS (s : State) : XYS → Addr → State
  | .x, v => { s with x := v }
  | .y, v => { s with y := v }
  | .s, v => s.setSp v

/-- A step begins with an empty trace; the counter goes on past the accesses of the step before, so that
every access has a number of its own. -/
def State.begun (s : State) : State :=
  { s with trace := [], freeCount := s.freeCount + s.trace.length }

/-- The state in which forced supervisor accesses are made, whatever U is (R404). -/
def State.inSupervisor (s : State) : State := { s with ccr := { s.ccr with u := false } }

/-! ## Memory and the stack -/

/-- `M[a]` through `MemMap`: what RAM and ROM hold; from any other address an open value, one for each
access (R54, D6; log entry 3). -/
def State.readByte (s : State) (a : Nat) : Byte :=
  if s.map.isMemory a then s.mem.read a else Config.busByte (s.freeCount + s.trace.length) a

/-- What `MemRead(a, n)` returns (R54). -/
def State.load (s : State) (a : Addr) (sz : Size) : BitVec sz.bits := loadFrom s.readByte a sz

/-- The state after `MemRead(a, n)`: only the trace says so (R54, R62). -/
def State.loaded (s : State) (a : Addr) (sz : Size) : State := s.accessed .read a sz.bytes

/-- `MemWrite(a, n, v)` through `MemMap`: RAM alone takes it (R55, D6). -/
def State.store (s : State) (a : Addr) (sz : Size) (v : BitVec sz.bits) : State :=
  { s.accessed .write a sz.bytes with mem := s.mem.store s.map.isRam a sz v }

/-- `Push(n, v)` (R58). -/
def State.push (s : State) (sz : Size) (v : BitVec sz.bits) : State :=
  let a := s.sp - BitVec.ofNat 24 sz.bytes
  (s.setSp a).store a sz v

/-- What `Pull(n)` returns (R58). -/
def State.pullValue (s : State) (sz : Size) : BitVec sz.bits := s.load s.sp sz

/-- What `Pull(n)` does to SP (R58). -/
def State.pullMove (s : State) (sz : Size) : State :=
  (s.loaded s.sp sz).setSp (s.sp + BitVec.ofNat 24 sz.bytes)

/-! ## The condition code register -/

/-- `WriteCCR(new, mask)` for a mask of CCH, CCL or both: user state writes N, Z, V, C alone; X only
falls; the reserved bits hold nothing (R17, R18, R19, R22). -/
def Ccr.writeMasked (c : Ccr) (new : BitVec 16) (hi lo : Bool) : Ccr :=
  let sup := !c.u
  { u := if hi && sup then new[15] else c.u
    ipl := if hi && sup then new.extractLsb' 8 3 else c.ipl
    s := if lo && sup then new[7] else c.s
    xm := if lo && sup then c.xm && new[6] else c.xm
    i := if lo && sup then new[4] else c.i
    n := if lo then new[3] else c.n
    z := if lo then new[2] else c.z
    v := if lo then new[1] else c.v
    c := if lo then new[0] else c.c }

def State.writeCcr (s : State) (new : BitVec 16) (hi lo : Bool) : State :=
  { s with ccr := s.ccr.writeMasked new hi lo }

/-! ## Free values -/

/-- The value of the draw `k` after the last one, at `w` bits (log entry 11). -/
def State.drawnAt (s : State) (k w : Nat) : BitVec w := (Config.freeValue (s.freeCount + k)).setWidth w

/-- An open bit. -/
def State.drawnBit (s : State) (k : Nat) : Bool := (s.drawnAt k 1).getLsbD 0

/-- The value of the next draw at `w` bits. -/
def State.drawn (s : State) (w : Nat) : BitVec w := s.drawnAt 0 w

/-- The state after `n` draws. -/
def State.drewN (s : State) (n : Nat) : State := { s with freeCount := s.freeCount + n }

/-- The state after a draw. -/
def State.drew (s : State) : State := s.drewN 1

/-! ## The end of an instruction -/

/-- `PCnext` of the instruction at the program counter (R29, R31, R80). -/
def State.pcNext (s : State) (i : Instr) : Addr := s.pc + BitVec.ofNat 24 i.length

/-- The instruction is done and the next one follows it. -/
def State.advance (s : State) (i : Instr) : Result := .next { s with pc := s.pcNext i }

/-- The instruction is done and continues at a target. -/
def State.goto (s : State) (target : Addr) : Result := .next { s with pc := target }

/-! ## Taking an exception -/

/-- The exceptions that stack a frame (R400, R403). -/
inductive ExceptionKind where
  | spare | trap | swi | sys
  | interrupt (k : IrqKind) (req : Request)
  deriving DecidableEq, Repr

/-- `VecAddr(kind)`, or the address that came with the request (R402). -/
def State.vecAddr (s : State) : ExceptionKind → Addr
  | .spare => s.vec.spare
  | .trap => s.vec.trap
  | .swi => s.vec.swi
  | .sys => s.vec.sys
  | .interrupt _ req => req.vecaddr

/-- `StackContext(rtn)` with the CCR to be stacked: thirteen pushes, 29 bytes (R403, R405). -/
def State.stackContext (s : State) (rtn : Addr) (ccw : BitVec 16) : State :=
  let s := s.push .p rtn
  let s := s.push .p s.y
  let s := s.push .p s.x
  let s := s.push .l s.d7
  let s := s.push .l s.d6
  let s := s.push .w s.d5
  let s := s.push .w s.d4
  let s := s.push .w s.d3
  let s := s.push .w s.d2
  let s := s.push .b s.d1
  let s := s.push .b s.d0
  s.push .w ccw

/-- What entering an exception does to the CCR: I set, U cleared; an interrupt's level to IPL; X set by
an XIRQ (R404, R416). -/
def Ccr.enter (c : Ccr) : ExceptionKind → Ccr
  | .interrupt .xirq req => { c with i := true, u := false, ipl := req.level, xm := true }
  | .interrupt .irq req => { c with i := true, u := false, ipl := req.level }
  | _ => { c with i := true, u := false }

/-- `IrqOracle.taken` of an interrupt's request (R414). -/
def ExceptionKind.taken : ExceptionKind → List Request → List Request
  | .interrupt _ req, l => req :: l
  | _, l => l

/-- `ExceptionEntry(kind, rtn, req)`: the vector is fetched first, then the frame is stacked with the old
CCR, both in supervisor state; then the CCR changes (R404). -/
def State.exceptionEntry (s : State) (kind : ExceptionKind) (rtn : Addr) : State :=
  let va := s.vecAddr kind
  let t := (s.inSupervisor.loaded va .p).stackContext rtn s.ccr.word
  { t with ccr := s.ccr.enter kind, pc := s.load va .p, runState := .running,
           taken := kind.taken s.taken }

/-- `TakeInterruptNoStack(p)`: the frame is on the stack already (R436). -/
def State.takeInterruptNoStack (s : State) (k : IrqKind) (req : Request) : State :=
  { s.inSupervisor.loaded req.vecaddr .p with
    pc := s.load req.vecaddr .p, ccr := s.ccr.enter (.interrupt k req), taken := req :: s.taken,
    irqShadow := false }

/-- `MachineException()`: nothing is stacked; the MMC's request is used up (R430, R431). -/
def State.machineException (s : State) : State :=
  { s.inSupervisor.loaded s.vec.machineException .p with
    pc := s.load s.vec.machineException .p, ccr := { s.ccr with xm := true, i := true, u := false },
    irqShadow := false, runState := .running, machineRequest := false }

/-- `IrqOracle.irq(ipl)` (R414). -/
def IrqAnswer.irqAt (a : IrqAnswer) (ipl : BitVec 3) : Option Request := a.irq[ipl.toNat]'ipl.isLt

/-- `InterruptPending()`: X masks XIRQ; I and the shadow mask the rest, of which the interrupt module is
asked with IPL; XIRQ first (R410, R411). -/
def interruptPending (a : IrqAnswer) (shadow : Bool) (c : Ccr) : Option (IrqKind × Request) :=
  match a.xirq, a.irqAt c.ipl with
  | some x, i =>
    if c.xm then
      match i with
      | some r => if c.i || shadow then none else some (.irq, r)
      | none => none
    else some (.xirq, x)
  | none, some r => if c.i || shadow then none else some (.irq, r)
  | none, none => none

/-! ## Returning from an exception -/

/-- The bytes of a frame (R403). -/
def frameBytes : Addr := 29#24

/-- The pulls of RTI: where in the frame, and how many bytes (R384, R403). -/
def framePulls : List (Nat × Nat) :=
  [(0, 2), (2, 1), (3, 1), (4, 2), (6, 2), (8, 2), (10, 2), (12, 4), (16, 4), (20, 3), (23, 3), (26, 3)]

/-- The state after the accesses of the pulls of RTI. -/
def State.framePulled (s : State) : State :=
  framePulls.foldl (fun t p => t.accessed .read (s.sp + BitVec.ofNat 24 p.1) p.2) s

/-- The registers, the CCR and SP as RTI pulls them from the frame of R403; the CCR goes through
`WriteCCR` with the U of before (R384). -/
def State.restoreContext (s : State) : State :=
  { s.framePulled.setSp (s.sp + frameBytes) with
    ccr := s.ccr.writeMasked (s.load s.sp .w) true true
    d0 := s.load (s.sp + 2) .b
    d1 := s.load (s.sp + 3) .b
    d2 := s.load (s.sp + 4) .w
    d3 := s.load (s.sp + 6) .w
    d4 := s.load (s.sp + 8) .w
    d5 := s.load (s.sp + 10) .w
    d6 := s.load (s.sp + 12) .l
    d7 := s.load (s.sp + 16) .l
    x := s.load (s.sp + 20) .p
    y := s.load (s.sp + 23) .p }

/-- RTI: restore, then either take a pending interrupt over the same frame or go on at the return
address (R384, R435, R436). The shadow does not hold the test back (log entry 13). -/
def State.returnFromException (s : State) : State :=
  let rtn := s.load (s.sp + 26) .p
  let t := s.restoreContext
  match interruptPending s.input.rtiIrqs false t.ccr with
  | some (k, req) => (t.setSp (t.sp - frameBytes)).takeInterruptNoStack k req
  | none => { t with pc := rtn }

/-! ## Reset -/

/-- `Reset()` on a running machine: SP and memory are kept, the fields of R450 take their values, the
registers the table calls unspecified are drawn; a request of the MMC is dropped with the rest (R450, R451,
U5; log entry 14). -/
def State.warmReset (s : State) : State :=
  { s.inSupervisor.loaded Config.resetVector .p with
    d0 := s.drawnAt 0 8, d1 := s.drawnAt 1 8
    d2 := s.drawnAt 2 16, d3 := s.drawnAt 3 16, d4 := s.drawnAt 4 16, d5 := s.drawnAt 5 16
    d6 := s.drawnAt 6 32, d7 := s.drawnAt 7 32
    x := s.drawnAt 8 24, y := s.drawnAt 9 24
    ccr := { u := false, ipl := 0, s := true, xm := true, i := true,
             n := s.drawnBit 10, z := s.drawnBit 11, v := s.drawnBit 12, c := s.drawnBit 13 }
    pc := s.load Config.resetVector .p
    runState := .running
    irqShadow := false
    machineRequest := false
    freeCount := s.freeCount + 14 }

/-- Memory with a free byte at each of the given addresses (U7). -/
def Memory.freed (m : Memory) (k : Nat) (addrs : List Nat) : Memory :=
  addrs.foldl (fun m a => m.write a (Config.freeByte k a)) m

/-- The RAM that the effects of a step store to. -/
def MemMap.ramStored (map : MemMap) (trace : List Effect) : List Nat :=
  (trace.flatMap Effect.stores).filter map.isRam

/-- What a reset leaves of a step that it abandons in its middle and that would have ended in `after`: every
byte of RAM it could have written is open, and SP if it could have written SP (R452, U7; log entry 14). -/
def State.abandon (before after : State) : State :=
  { before with
    mem := before.mem.freed before.freeCount (before.map.ramStored after.trace)
    sp := if after.trace.contains .spWritten then before.drawn 24 else before.sp
    freeCount := before.freeCount + 1 }

/-- Every byte of RAM. -/
def State.allRam (s : State) : List Nat := (List.range (2 ^ 24)).filter s.map.isRam

/-- What a reset leaves of an instruction of which 'nothing in memory or registers may be assumed changed or
unchanged': all of it is open (U2, R452; log entry 14). -/
def State.abandonUnknown (before : State) : State :=
  { before with
    mem := before.mem.freed before.freeCount before.allRam
    sp := before.drawn 24
    freeCount := before.freeCount + 1 }

/-! ## Fetching -/

/-- The longest instruction (R81). -/
def maxInstrBytes : Nat := 11

/-- The bytes at the program counter (R66, R80). -/
def State.fetchBytes (s : State) : List Byte := bytesFrom s.readByte s.pc maxInstrBytes

/-- How many bytes of an instruction are fetched before it acts: all of them, but for DBcc on a general operand,
which fetches `rb [r1]` after it has written its counter (R80, R361). -/
def fetchedFirst : Instr → Nat
  | .dbccOpr _ _ o _ => 2 + o.enc.length
  | i => i.length

/-- The state once the bytes that the instruction at the program counter begins with are fetched (R80, R361). -/
def State.fetched (s : State) (i : Instr) : State := s.accessed .fetch s.pc (fetchedFirst i)

/-- The host's list after a step: one entry is used up. -/
def State.nextInput (s : State) : State := { s with inputs := s.inputs.tail }

end Sys2Proof.Machine
end

