-- ==== Sys2Proof/Machine/Flags.lean ====
section
/-! DEFINITION. Results and flags: what each arithmetic, logical, shift and bit operation computes from
values of one width and the CCR, apart from where the operands come from. -/

namespace Sys2Proof.Machine

/-! ## Flag helpers -/

/-- `NZ(r, w)` (00_scope.md 5.3). -/
def Ccr.nz {w : Nat} (c : Ccr) (r : BitVec w) : Ccr := { c with n := r.msb, z := r == 0 }

/-- N and Z of the value, V cleared: `LoadFlags` (R160), also the logical instructions (R260). -/
def Ccr.nzClearV {w : Nat} (c : Ccr) (r : BitVec w) : Ccr :=
  { c with n := r.msb, z := r == 0, v := false }

/-- `AddFlags(a, b, cin, w)` (00_scope.md 5.3; log entry 36). -/
def addFlags {w : Nat} (a b : BitVec w) (cin : Bool) (c : Ccr) : BitVec w × Ccr :=
  let s := a.toNat + b.toNat + cin.toNat
  let r := BitVec.ofNat w s
  (r, { c with n := r.msb, z := r == 0, v := a.msb == b.msb && r.msb != a.msb, c := decide (2 ^ w ≤ s) })

/-- `SubFlags(a, b, bin, w)` (00_scope.md 5.3; log entry 36). -/
def subFlags {w : Nat} (a b : BitVec w) (bin : Bool) (c : Ccr) : BitVec w × Ccr :=
  let r := a - b - BitVec.ofNat w bin.toNat
  (r, { c with n := r.msb, z := r == 0, v := a.msb != b.msb && r.msb != a.msb,
               c := decide (a.toNat < b.toNat + bin.toNat) })

/-- Z only falls: what ADC and SBC do to it (R25, R202, R205). -/
def stickyZ {w : Nat} (old : Ccr) (rc : BitVec w × Ccr) : BitVec w × Ccr :=
  (rc.1, { rc.2 with z := old.z && rc.1 == 0 })

/-! ## Two-operand operations -/

/-- ADD (R201). -/
def addOp {w : Nat} (a m : BitVec w) (c : Ccr) : BitVec w × Ccr := addFlags a m false c

/-- ADC (R202). -/
def adcOp {w : Nat} (a m : BitVec w) (c : Ccr) : BitVec w × Ccr := stickyZ c (addFlags a m c.c c)

/-- SUB and CMP (R203, R208). -/
def subOp {w : Nat} (a m : BitVec w) (c : Ccr) : BitVec w × Ccr := subFlags a m false c

/-- SBC (R205). -/
def sbcOp {w : Nat} (a m : BitVec w) (c : Ccr) : BitVec w × Ccr := stickyZ c (subFlags a m c.c c)

/-- AND and BIT (R261, R264). -/
def andOp {w : Nat} (a m : BitVec w) (c : Ccr) : BitVec w × Ccr := (a &&& m, c.nzClearV (a &&& m))

/-- OR (R262). -/
def orOp {w : Nat} (a m : BitVec w) (c : Ccr) : BitVec w × Ccr := (a ||| m, c.nzClearV (a ||| m))

/-- EOR (R263). -/
def eorOp {w : Nat} (a m : BitVec w) (c : Ccr) : BitVec w × Ccr := (a ^^^ m, c.nzClearV (a ^^^ m))

/-- The frame of MAXS, MAXU, MINS, MINU: the flags of the subtraction, the operand where `replace` says
so (R334). -/
def selectOp {w : Nat} (replace : BitVec w → BitVec w → Bool) (a m : BitVec w) (c : Ccr) :
    BitVec w × Ccr :=
  (if replace a m then m else a, (subFlags a m false c).2)

/-! ## One-operand operations -/

/-- INC (R206). -/
def incOp {w : Nat} (a : BitVec w) (c : Ccr) : BitVec w × Ccr :=
  let r := a + 1
  (r, { c with n := r.msb, z := r == 0, v := decide (a.toNat + 1 = 2 ^ (w - 1)) })

/-- DEC (R207). -/
def decOp {w : Nat} (a : BitVec w) (c : Ccr) : BitVec w × Ccr :=
  let r := a - 1
  (r, { c with n := r.msb, z := r == 0, v := decide (a.toNat = 2 ^ (w - 1)) })

/-- NEG (R212). -/
def negOp {w : Nat} (a : BitVec w) (c : Ccr) : BitVec w × Ccr := subFlags 0 a false c

/-- COM (R265). -/
def comOp {w : Nat} (a : BitVec w) (c : Ccr) : BitVec w × Ccr := (~~~a, c.nzClearV (~~~a))

/-- CLR (R172 to R174). -/
def Ccr.cleared (c : Ccr) : Ccr := { c with n := false, z := true, v := false, c := false }

/-- ABS (R213): the most negative value stays and sets V. -/
def absOp {w : Nat} (a : BitVec w) (c : Ccr) : BitVec w × Ccr :=
  let most := decide (a.toNat = 2 ^ (w - 1))
  let r := if most then a else if a.msb then -a else a
  (r, { c with n := r.msb, z := r == 0, v := most })

/-- SAT (R241). -/
def satOp {w : Nat} (a : BitVec w) (c : Ccr) : BitVec w × Ccr :=
  let r := if c.v then (if c.n then BitVec.ofNat w (2 ^ (w - 1) - 1) else BitVec.ofNat w (2 ^ (w - 1)))
    else a
  (r, c.nzClearV r)

/-- How many of the leading bits equal the first one: the run of R242, `k`. -/
def leadingRun : List Bool → Nat
  | [] => 0
  | b :: bs => 1 + (bs.takeWhile (· == b)).length

/-- The bits of a value, most significant first. -/
def bitsMsb {w : Nat} (a : BitVec w) : List Bool := (List.range w).map a.getMsbD

/-- CLB's result: the leading sign bits less one (R242). -/
def countLeading {w : Nat} (a : BitVec w) : Nat := leadingRun (bitsMsb a) - 1

/-! ## Rotates and shifts -/

/-- ROL (R295). -/
def rolOp {w : Nat} (a : BitVec w) (c : Ccr) : BitVec w × Ccr :=
  let r := (a <<< 1) ||| BitVec.ofNat w c.c.toNat
  (r, { c with n := r.msb, z := r == 0, v := false, c := a.msb })

/-- ROR (R296). -/
def rorOp {w : Nat} (a : BitVec w) (c : Ccr) : BitVec w × Ccr :=
  let r := (a >>> 1) ||| (BitVec.ofNat w c.c.toNat <<< (w - 1))
  (r, { c with n := r.msb, z := r == 0, v := false, c := a.getLsbD 0 })

/-- The four shifts (R290). -/
inductive ShiftKind where
  | asl | asr | lsl | lsr
  deriving DecidableEq, Repr

def ShiftKind.signed : ShiftKind → Bool
  | .asl | .asr => true
  | .lsl | .lsr => false

/-- The instruction's own extension (R290). -/
def ShiftKind.extend (k : ShiftKind) {w : Nat} (ww : Nat) (v : BitVec w) : BitVec ww :=
  if k.signed then v.signExtend ww else v.setWidth ww

/-- What a shift carries from bit to bit: value, carry, overflow (R290). -/
structure ShiftStep (w : Nat) where
  r : BitVec w
  c : Bool
  ovf : Bool
  deriving DecidableEq, Repr

/-- One position (R290). -/
def ShiftKind.once (k : ShiftKind) {w : Nat} (t : ShiftStep w) : ShiftStep w :=
  match k with
  | .asl =>
    let r := t.r <<< 1
    { r := r, c := t.r.msb, ovf := t.ovf || r.msb != t.r.msb }
  | .lsl => { r := t.r <<< 1, c := t.r.msb, ovf := t.ovf || t.r.msb }
  | .asr => { r := t.r.sshiftRight 1, c := t.r.getLsbD 0, ovf := t.ovf }
  | .lsr => { r := t.r >>> 1, c := t.r.getLsbD 0, ovf := t.ovf }

/-- `n` positions. -/
def ShiftKind.times (k : ShiftKind) {w : Nat} : Nat → ShiftStep w → ShiftStep w
  | 0, t => t
  | n + 1, t => ShiftKind.times k n (k.once t)

/-- `Shift` and the flags of the four shifts: the source at `ws` bits, the result at `wd` (R290 to R294;
log entry 26). -/
def shiftOp {ws : Nat} (k : ShiftKind) (wd : Nat) (v : BitVec ws) (n : Nat) (c : Ccr) :
    BitVec wd × Ccr :=
  let ww := max ws wd
  let t := k.times n { r := k.extend ww v, c := c.c, ovf := false }
  let res := t.r.setWidth wd
  let truncated := k.extend ww res != t.r
  (res, { c with
    n := match k with
      | .asl => !v.msb
      | _ => res.msb
    z := res == 0
    v := match k with
      | .asl | .lsl => t.ovf || truncated
      | .asr | .lsr => truncated
    c := t.c })

/-! ## Bits and bit fields -/

/-- `BitOf(v, n, w)`; no bit is selected beyond the width (R315; log entry 25). -/
def bitOf {w : Nat} (v : BitVec w) (n : Nat) : Bool := v.getLsbD n

/-- `BitMask(n, w)` (R315). -/
def bitMask (w n : Nat) : BitVec w := BitVec.ofNat w (2 ^ n)

/-- The flags of BSET, BCLR, BTGL (R315). -/
def Ccr.bitFlags {w : Nat} (c : Ccr) (res : BitVec w) (old : Bool) : Ccr :=
  { c with n := res.msb, z := res == 0, v := false, c := old }

/-- BSET (R310). -/
def bsetOp {w : Nat} (n : Nat) (v : BitVec w) (c : Ccr) : BitVec w × Ccr :=
  (v ||| bitMask w n, c.bitFlags (v ||| bitMask w n) (bitOf v n))

/-- BCLR (R311). -/
def bclrOp {w : Nat} (n : Nat) (v : BitVec w) (c : Ccr) : BitVec w × Ccr :=
  (v &&& ~~~bitMask w n, c.bitFlags (v &&& ~~~bitMask w n) (bitOf v n))

/-- BTGL (R312). -/
def btglOp {w : Nat} (n : Nat) (v : BitVec w) (c : Ccr) : BitVec w × Ccr :=
  (v ^^^ bitMask w n, c.bitFlags (v ^^^ bitMask w n) (bitOf v n))

/-- The field of BFEXT: `wdt` bits from bit `o` on; bits beyond the source read 0 (R313; log entry 30). -/
def extractField {ws : Nat} (s : BitVec ws) (wdt o wd : Nat) : BitVec wd :=
  BitVec.ofNat wd (s.toNat / 2 ^ o % 2 ^ wdt)

/-- BFINS: the low `wdt` bits of the source at bit `o` of the destination; bits beyond it are dropped
(R314; log entry 30). -/
def insertField {ws wd : Nat} (s : BitVec ws) (dv : BitVec wd) (wdt o : Nat) : BitVec wd :=
  let mask := BitVec.ofNat wd ((2 ^ wdt - 1) * 2 ^ o)
  (dv &&& ~~~mask) ||| (BitVec.ofNat wd (s.toNat % 2 ^ wdt * 2 ^ o) &&& mask)

/-! ## Products, quotients, fractions -/

/-- Whether an exact result fits the destination, signed or unsigned (R231, R232, R235 to R238). -/
def fits (signed : Bool) (w : Nat) (v : Int) : Bool :=
  if signed then decide (-(2 : Int) ^ (w - 1) ≤ v ∧ v < (2 : Int) ^ (w - 1))
  else decide (0 ≤ v ∧ v < (2 : Int) ^ w)

/-- MULS, MULU (R231, R232; log entry 31). -/
def mulOp (signed : Bool) {wd : Nat} (a b : Int) (c : Ccr) : BitVec wd × Ccr :=
  let p := a * b
  let r := BitVec.ofInt wd p
  (r, { c with n := r.msb, z := r == 0, v := !fits signed wd p, c := false })

/-- MACS, MACU (R233, R234; log entry 31). -/
def macOp (signed : Bool) {wd : Nat} (acc : BitVec wd) (a b : Int) (c : Ccr) : BitVec wd × Ccr :=
  let p := a * b
  let rc := addFlags acc (BitVec.ofInt wd p) false c
  let addV := if signed then rc.2.v else rc.2.c
  (rc.1, { rc.2 with v := addV || !fits signed wd p })

/-- QMULS, QMULU on operands of `wa` and `wb` bits (R239, R240; log entry 32). -/
def qmulOp (signed : Bool) {wd : Nat} (a : Int) (wa : Nat) (b : Int) (wb : Nat) (c : Ccr) :
    BitVec wd × Ccr :=
  let l := max wa wb
  let a' := a * 2 ^ (l - wa)
  let b' := b * 2 ^ (l - wb)
  let sat := signed && decide (a' = -(2 : Int) ^ (l - 1)) && decide (b' = -(2 : Int) ^ (l - 1))
  let r : BitVec wd :=
    if sat then BitVec.ofNat wd (2 ^ (wd - 1) - 1)
    else if signed then BitVec.ofInt wd (a' * b' * 2 ^ (wd - 1) / 2 ^ (2 * l - 2))
    else BitVec.ofInt wd (a' * b' * 2 ^ wd / 2 ^ (2 * l))
  (r, { c with n := r.msb, z := r == 0, v := sat, c := false })

/-! ## Conditions -/

/-- The conditions of the branches (R340). -/
def Ccr.hi (c : Ccr) : Bool := !(c.c || c.z)
def Ccr.lt (c : Ccr) : Bool := c.n != c.v
def Ccr.le (c : Ccr) : Bool := c.z || (c.n != c.v)

/-- The condition of DBcc and TBcc on the value that counts (R361, R362). -/
def loopHolds (k : LoopCond) {w : Nat} (r : BitVec w) : Bool :=
  let n := r.msb
  let z := r == 0
  match k with
  | .ne => !z
  | .eq => z
  | .pl => !n
  | .mi => n
  | .gt => !(z || n)
  | .le => z || n
  | .never6 | .never7 => false

end Sys2Proof.Machine
end

