-- ==== Sys2Proof/Machine/Operands.lean ====
section
/-! DEFINITION. Operands: how a general operand is found, read and written (R100 to R120), and the operand
forms of the families built on it. -/

namespace Sys2Proof.Machine

/-! ## General operands -/

/-- `IdxVal(rrr)`: D0, D1, D6, D7 unsigned, D2 to D5 signed (R105). -/
def State.idxVal (s : State) (r : DReg) : Addr :=
  match r with
  | .d2 | .d3 | .d4 | .d5 => (s.getD r).signExtend 24
  | .d0 | .d1 | .d6 | .d7 => (s.getD r).setWidth 24

/-- The value of an index base; PC is `PC0`, the instruction's own address (R30, R107). -/
def State.baseVal (s : State) : XYSP → Addr
  | .x => s.x
  | .y => s.y
  | .s => s.sp
  | .pc => s.pc

/-- The register an automatic submode moves (R104). -/
def autoReg : AutoMode → XYS
  | .preDecX | .preIncX | .postDecX | .postIncX => .x
  | .preDecY | .preIncY | .postDecY | .postIncY => .y
  | .preDecS | .postIncS => .s

/-- Whether the register moves before the address is taken (R104). -/
def autoPre : AutoMode → Bool
  | .preDecX | .preDecY | .preIncX | .preIncY | .preDecS => true
  | .postDecX | .postDecY | .postIncX | .postIncY | .postIncS => false

/-- By how much, modulo 2^24, for an operand of `n` bytes (R104). -/
def autoDelta (m : AutoMode) (n : Nat) : Addr :=
  match m with
  | .preDecX | .preDecY | .postDecX | .postDecY | .preDecS => -BitVec.ofNat 24 n
  | .preIncX | .preIncY | .postIncX | .postIncY | .postIncS => BitVec.ofNat 24 n

/-- The address an automatic submode gives. -/
def State.autoAddr (s : State) (m : AutoMode) (n : Nat) : Addr :=
  if autoPre m then s.getXYS (autoReg m) + autoDelta m n else s.getXYS (autoReg m)

/-- The state after an automatic submode has moved its register, once (R104). -/
def State.autoMoved (s : State) (m : AutoMode) (n : Nat) : State :=
  s.setXYS (autoReg m) (s.getXYS (autoReg m) + autoDelta m n)

/-- What a submode stands for before any memory is read and any register moved. -/
inductive Place where
  | imm (e : BitVec 4)
  | reg (r : DReg)
  | auto (m : AutoMode)
  | direct (ea : Addr)
  | indirect (ptr : Addr)
  deriving DecidableEq, Repr

/-- The sixteen submodes (R101 to R116); the 9-bit offset is signed, the 14- and 18-bit ones are not. -/
def State.place (s : State) : Opr → Place
  | .immE4 e => .imm e
  | .reg r => .reg r
  | .idx base off => .direct (s.getXYS base + off.setWidth 24)
  | .auto m => .auto m
  | .regIdx r base => .direct (s.getXYS base + s.idxVal r)
  | .regIdxInd r base => .indirect (s.getXY base + s.idxVal r)
  | .idx1 base off => .direct (s.baseVal base + off.signExtend 24)
  | .idx1Ind base off => .indirect (s.baseVal base + off.signExtend 24)
  | .ext1 a => .direct (a.setWidth 24)
  | .idx2Reg off r => .direct (off.setWidth 24 + s.idxVal r)
  | .ext2 a => .direct (a.setWidth 24)
  | .idx3 base off => .direct (s.baseVal base + off)
  | .idx3Ind base off => .indirect (s.baseVal base + off)
  | .idx3Reg off r => .direct (off + s.idxVal r)
  | .ext3 a => .direct a
  | .ext3Ind a => .indirect a

/-- A decoded operand (R100). -/
inductive Loc where
  | imm (e : BitVec 4)
  | reg (r : DReg)
  | mem (ea : Addr)
  deriving DecidableEq, Repr

/-- Which operand `OprDecode(n)` finds (R100); an indirect pointer is read here (R117). -/
def State.oprLoc (s : State) (o : Opr) (n : Nat) : Loc :=
  match s.place o with
  | .imm e => .imm e
  | .reg r => .reg r
  | .auto m => .mem (s.autoAddr m n)
  | .direct ea => .mem ea
  | .indirect ptr => .mem (s.load ptr .p)

/-- The state after `OprDecode(n)`: an automatic submode has moved its register, the pointer of an indirect
one is read (R100, R104, R117). -/
def State.oprMoved (s : State) (o : Opr) (n : Nat) : State :=
  match s.place o with
  | .imm _ => s
  | .reg _ => s
  | .auto m => s.autoMoved m n
  | .direct _ => s
  | .indirect ptr => s.loaded ptr .p

/-- The constant of a short immediate: code 0 is -1 (R101). -/
def immE4Value (w : Nat) (e : BitVec 4) : BitVec w :=
  if e = 0 then BitVec.allOnes w else e.setWidth w

/-- `OprRead(opr, n)` (R117). -/
def State.locRead (s : State) (l : Loc) (sz : Size) : BitVec sz.bits :=
  match l with
  | .imm e => immE4Value sz.bits e
  | .reg r => s.regRead r sz.bits
  | .mem ea => s.load ea sz

/-- The state after `OprRead(opr, n)` (R117). -/
def State.locDone (s : State) (l : Loc) (sz : Size) : State :=
  match l with
  | .imm _ => s
  | .reg _ => s
  | .mem ea => s.loaded ea sz

/-- `OprWrite(opr, n, v)`, then what follows; a short immediate is no destination (R118, U2; log entry 8). -/
def State.locWrite (s : State) (l : Loc) (sz : Size) (v : BitVec sz.bits) (k : State → Result) :
    Result :=
  match l with
  | .imm _ => .refused .immediateDestination
  | .reg r => k (s.regWrite r v)
  | .mem ea => k (s.store ea sz v)

/-- The value of a general operand of a given size, and the state after its decoding. -/
def State.oprValue (s : State) (o : Opr) (sz : Size) : BitVec sz.bits :=
  (s.oprMoved o sz.bytes).locRead (s.oprLoc o sz.bytes) sz

/-- The state after a general operand is decoded and read. -/
def State.oprDone (s : State) (o : Opr) (sz : Size) : State :=
  (s.oprMoved o sz.bytes).locDone (s.oprLoc o sz.bytes) sz

/-! ## Operands at their own width -/

/-- A value with its width in bits. -/
structure Val where
  w : Nat
  v : BitVec w
  deriving DecidableEq, Repr

/-- An operand at its own width: a register in full whatever size is coded (R200 `RmwOperand`, R230 `MbOpr`,
R290 `Source`, R315). -/
def State.locVal (s : State) (l : Loc) (sz : Size) : Val :=
  match l with
  | .imm e => ⟨sz.bits, immE4Value sz.bits e⟩
  | .reg r => ⟨r.bits, s.getD r⟩
  | .mem ea => ⟨sz.bits, s.load ea sz⟩

/-- Write what an operation makes of an operand, at the operand's own width: one decoding, one read if
`reads` says so, one write (R118, R200). -/
def modify (reads : Bool) (o : Opr) (sz : Size) (f : {w : Nat} → BitVec w → Ccr → BitVec w × Ccr)
    (i : Instr) (s : State) : Result :=
  let t := s.oprMoved o sz.bytes
  match s.oprLoc o sz.bytes with
  | .imm _ => .refused .immediateDestination
  | .reg r =>
    let rc := f (t.getD r) t.ccr
    State.advance { t.setD r rc.1 with ccr := rc.2 } i
  | .mem ea =>
    let rc := f (t.load ea sz) t.ccr
    let u := if reads then t.loaded ea sz else t
    State.advance { u.store ea sz rc.1 with ccr := rc.2 } i

/-- Read, modify, write: the same address is read and written (R60, R200). -/
def rmw (o : Opr) (sz : Size) (f : {w : Nat} → BitVec w → Ccr → BitVec w × Ccr) (i : Instr)
    (s : State) : Result := modify true o sz f i s

/-! ## The second operand of the register instructions -/

/-- `M()` at the register's width (R200). -/
def State.dValue (s : State) (d : DReg) : DSrc → BitVec d.bits
  | .imm v => v.setWidth d.bits
  | .opr o => s.oprValue o d.size

def State.dMoved (s : State) (d : DReg) : DSrc → State
  | .imm _ => s
  | .opr o => s.oprDone o d.size

/-- `M()` at 24 bits (R200). -/
def State.pValue (s : State) : PSrc → BitVec 24
  | .imm v => v
  | .opr o => s.oprValue o .p

def State.pMoved (s : State) : PSrc → State
  | .imm _ => s
  | .opr o => s.oprDone o .p

/-- A register operation that keeps its result: the operand first, then the register (R200). -/
def aluD (d : DReg) (m : DSrc) (f : BitVec d.bits → BitVec d.bits → Ccr → BitVec d.bits × Ccr)
    (i : Instr) (s : State) : Result :=
  let t := s.dMoved d m
  let rc := f (t.getD d) (s.dValue d m) t.ccr
  State.advance { t.setD d rc.1 with ccr := rc.2 } i

/-- A register operation that keeps its flags alone (R208, R264). -/
def testD (d : DReg) (m : DSrc) (f : BitVec d.bits → BitVec d.bits → Ccr → BitVec d.bits × Ccr)
    (i : Instr) (s : State) : Result :=
  let t := s.dMoved d m
  State.advance { t with ccr := (f (t.getD d) (s.dValue d m) t.ccr).2 } i

/-- A one-register operation (R206, R207, R213, R241). -/
def unaryD (d : DReg) (f : BitVec d.bits → Ccr → BitVec d.bits × Ccr) (i : Instr) (s : State) : Result :=
  let rc := f (s.getD d) s.ccr
  State.advance { s.setD d rc.1 with ccr := rc.2 } i

/-! ## The operands of the `mb` instructions -/

/-- An operand of an `mb` instruction: the integer it stands for and its width (R230). -/
structure MathVal where
  int : Int
  w : Nat
  deriving DecidableEq, Repr

/-- Signed or unsigned reading of a value (R230). -/
def Val.math (signed : Bool) (x : Val) : MathVal :=
  { int := if signed then x.v.toInt else (x.v.toNat : Int), w := x.w }

def State.regMath (s : State) (signed : Bool) (r : DReg) : MathVal := Val.math signed ⟨r.bits, s.getD r⟩

def State.srcMath (s : State) (signed : Bool) : MathSrc → MathVal
  | .reg r => s.regMath signed r
  | .imm1 v => Val.math signed ⟨8, v⟩
  | .imm2 v => Val.math signed ⟨16, v⟩
  | .imm4 v => Val.math signed ⟨32, v⟩

/-- `MbOpr(n)` (R230). -/
def State.oprMath (s : State) (signed : Bool) (o : Opr) (sz : Size) : MathVal :=
  ((s.oprMoved o sz.bytes).locVal (s.oprLoc o sz.bytes) sz).math signed

/-- What an `mb` instruction does with its two operands. -/
abbrev MathOp := DReg → MathVal → MathVal → State → State

/-- Register and register or immediate (R230). -/
def mathReg (signed : Bool) (f : MathOp) (d j : DReg) (k : MathSrc) (i : Instr) (s : State) : Result :=
  State.advance (f d (s.regMath signed j) (s.srcMath signed k) s) i

/-- Register and general operand (R230). -/
def mathOpr (signed : Bool) (f : MathOp) (d j : DReg) (sz : Size) (o : Opr) (i : Instr) (s : State) :
    Result :=
  State.advance (f d (s.regMath signed j) (s.oprMath signed o sz) (s.oprDone o sz)) i

/-- Two general operands; the first is decoded and read before the second (R120, R230). -/
def mathOprOpr (signed : Bool) (f : MathOp) (d : DReg) (s1 : Size) (o1 : Opr) (s2 : Size) (o2 : Opr)
    (i : Instr) (s : State) : Result :=
  let t := s.oprDone o1 s1
  State.advance (f d (s.oprMath signed o1 s1) (t.oprMath signed o2 s2) (t.oprDone o2 s2)) i

/-! ## Shift counts -/

/-- `Count(sb)` and the counts 1 and 2 (R127, R290). -/
def State.shiftCount (s : State) : ShiftBy → Nat
  | .fixed two => if two then 2 else 1
  | .count n0 (.immE4 e) => 2 * e.toNat + n0.toNat
  | .count _ o => (s.oprValue o .b).toNat % 32

/-- The state after the count is read; a count operand has one byte (R104, R290). -/
def State.countMoved (s : State) : ShiftBy → State
  | .fixed _ => s
  | .count _ o => s.oprDone o .b

/-! ## Bit numbers and bit fields -/

/-- The bit number of a `bm` instruction (R128, R315). -/
def State.bitNumber (s : State) : BmArg → Nat
  | .reg _ n => n.toNat
  | .opr _ n _ => n.toNat
  | .oprReg _ dn _ => (s.getD dn).toNat % 32

/-- Read, modify one bit, write (R315). -/
def rmwBit (m : BmArg) (f : {w : Nat} → Nat → BitVec w → Ccr → BitVec w × Ccr) (i : Instr) (s : State) :
    Result :=
  match m with
  | .reg r _ =>
    let rc := f (s.bitNumber m) (s.getD r) s.ccr
    State.advance { s.setD r rc.1 with ccr := rc.2 } i
  | .opr sz _ o => rmw o sz.size (f (s.bitNumber m)) i s
  | .oprReg sz _ o => rmw o sz.size (f (s.bitNumber m)) i s

/-- The operand a bit is tested in (R359). -/
def State.bmVal (s : State) : BmArg → Val
  | .reg r _ => ⟨r.bits, s.getD r⟩
  | .opr sz _ o => (s.oprMoved o sz.size.bytes).locVal (s.oprLoc o sz.size.bytes) sz.size
  | .oprReg sz _ o => (s.oprMoved o sz.size.bytes).locVal (s.oprLoc o sz.size.bytes) sz.size

def State.bmMoved (s : State) : BmArg → State
  | .reg _ _ => s
  | .opr sz _ o => s.oprDone o sz.size
  | .oprReg sz _ o => s.oprDone o sz.size

def dpReg : Dp → DReg
  | .d2 => .d2
  | .d3 => .d3
  | .d4 => .d4
  | .d5 => .d5

/-- The width of a bit field; code 0 is 32 (R129, R313). -/
def State.fieldWidth (s : State) (p : BfParam) : Nat :=
  let code := match p with
    | .dp r => (s.getD (dpReg r)).toNat / 32 % 32
    | .imm w _ => w.toNat
  if code = 0 then 32 else code

/-- The offset of a bit field (R129, R313). -/
def State.fieldOffset (s : State) : BfParam → Nat
  | .dp r => (s.getD (dpReg r)).toNat % 32
  | .imm _ o => o.toNat

/-! ## Addresses as operands -/

/-- By how many bytes the automatic submodes move where no operand is accessed (D17; log entry 6). -/
def addrOnlyStep : Nat := Config.addrOnlyStep.val + 1

/-- The register LEA loads, where it is an index register. -/
def leaIndex : LeaDst → Option XYS
  | .d6 | .d7 => none
  | .x => some .x
  | .y => some .y
  | .s => some .s

/-- `OprAddr()` for LEA: the pointer of an indirect submode is not read; a short immediate or a register
has no address, the result is open (R119, R170, U1; log entry 7). -/
def State.leaAddr (s : State) (o : Opr) : Addr :=
  match s.place o with
  | .imm _ => s.drawn 24
  | .reg _ => s.drawn 24
  | .auto m => s.autoAddr m addrOnlyStep
  | .direct ea => ea
  | .indirect ptr => ptr

/-- What decoding LEA's operand leaves: a post-modification of the register LEA loads is ignored (R119, R170). -/
def State.leaMoved (s : State) (o : Opr) (dst : LeaDst) : State :=
  match o with
  | .immE4 _ => s.drew
  | .reg _ => s.drew
  | .auto m => if !autoPre m && leaIndex dst == some (autoReg m) then s else s.autoMoved m addrOnlyStep
  | _ => s

/-- `OprAddr()` for JMP and JSR: an indirect submode gives the pointer's value (R119, R363, R364). -/
def State.jumpAddr (s : State) (o : Opr) : Addr :=
  match s.place o with
  | .imm _ => s.drawn 24
  | .reg _ => s.drawn 24
  | .auto m => s.autoAddr m addrOnlyStep
  | .direct ea => ea
  | .indirect ptr => s.load ptr .p

def State.jumpMoved (s : State) (o : Opr) : State :=
  match s.place o with
  | .imm _ => s.drew
  | .reg _ => s.drew
  | .auto m => s.autoMoved m addrOnlyStep
  | .direct _ => s
  | .indirect ptr => s.loaded ptr .p

/-! ## Branches -/

/-- The signed offset of a branch (R89). -/
def relOffset : Rel → Addr
  | .short off => off.signExtend 24
  | .long off => off.signExtend 24

/-- The target of a branch, from its own address (R340). -/
def State.branchTarget (s : State) (rel : Rel) : Addr := s.pc + relOffset rel

/-- Branch or go on (R340). -/
def branchIf (cond : Bool) (rel : Rel) (i : Instr) (s : State) : Result :=
  if cond then s.goto (s.branchTarget rel) else s.advance i

end Sys2Proof.Machine
end

