-- ==== Sys2Proof/Machine/Arith.lean ====
section
/-! DEFINITION. Add, subtract, compare, increment, negate (41_arithmetic.md). -/

namespace Sys2Proof.Machine

/-! ## Add and subtract -/

/-- ADD (R201). -/
def execAdd (d : DReg) (m : DSrc) (s : State) : Result := aluD d m addOp (.add d m) s

/-- ADC (R202). -/
def execAdc (d : DReg) (m : DSrc) (s : State) : Result := aluD d m adcOp (.adc d m) s

/-- SUB (R203). -/
def execSub (d : DReg) (m : DSrc) (s : State) : Result := aluD d m subOp (.sub d m) s

/-- SBC (R205). -/
def execSbc (d : DReg) (m : DSrc) (s : State) : Result := aluD d m sbcOp (.sbc d m) s

/-- SUB D6,X,Y and SUB D6,Y,X: the zero-extended pointers at 32 bits (R204; log entry 29). -/
def execSubD6 (yMinusX : Bool) (s : State) : Result :=
  let a := if yMinusX then s.y else s.x
  let b := if yMinusX then s.x else s.y
  let rc := subOp (a.setWidth 32) (b.setWidth 32) s.ccr
  State.advance { s with d6 := rc.1, ccr := rc.2 } (.subD6 yMinusX)

/-! ## Increment and decrement -/

/-- INC Di (R206). -/
def execIncD (d : DReg) (s : State) : Result := unaryD d incOp (.incD d) s

/-- INC.B (R206). -/
def execIncB (o : Opr) (s : State) : Result := rmw o .b incOp (.incB o) s

/-- INC.W (R206). -/
def execIncW (o : Opr) (s : State) : Result := rmw o .w incOp (.incW o) s

/-- INC.L (R206). -/
def execIncL (o : Opr) (s : State) : Result := rmw o .l incOp (.incL o) s

/-- DEC Di (R207). -/
def execDecD (d : DReg) (s : State) : Result := unaryD d decOp (.decD d) s

/-- DEC.B (R207). -/
def execDecB (o : Opr) (s : State) : Result := rmw o .b decOp (.decB o) s

/-- DEC.W (R207). -/
def execDecW (o : Opr) (s : State) : Result := rmw o .w decOp (.decW o) s

/-- DEC.L (R207). -/
def execDecL (o : Opr) (s : State) : Result := rmw o .l decOp (.decL o) s

/-! ## Compare -/

/-- CMP Di (R208). -/
def execCmpD (d : DReg) (m : DSrc) (s : State) : Result := testD d m subOp (.cmpD d m) s

/-- CMP X, CMP Y: the register is read before the operand is decoded (R209; log entry 24). -/
def execCmpXY (r : XY) (m : PSrc) (s : State) : Result :=
  let t := s.pMoved m
  State.advance { t with ccr := (subOp (s.getXY r) (s.pValue m) t.ccr).2 } (.cmpXY r m)

/-- CMP S: SP is read after the operand is decoded (R210). -/
def execCmpS (m : PSrc) (s : State) : Result :=
  let t := s.pMoved m
  State.advance { t with ccr := (subOp t.sp (s.pValue m) t.ccr).2 } (.cmpS m)

/-- CMP X,Y (R211). -/
def execCmpXwithY (s : State) : Result :=
  State.advance { s with ccr := (subOp s.x s.y s.ccr).2 } .cmpXwithY

/-! ## Negate and absolute value -/

/-- NEG.B (R212). -/
def execNegB (o : Opr) (s : State) : Result := rmw o .b negOp (.negB o) s

/-- NEG.W (R212). -/
def execNegW (o : Opr) (s : State) : Result := rmw o .w negOp (.negW o) s

/-- NEG.L (R212). -/
def execNegL (o : Opr) (s : State) : Result := rmw o .l negOp (.negL o) s

/-- ABS (R213). -/
def execAbs (d : DReg) (s : State) : Result := unaryD d absOp (.abs d) s

end Sys2Proof.Machine
end

