-- ==== Sys2Proof/Machine/Bit.lean ====
section
/-! DEFINITION. Bits and bit fields (45_bit_bitfield.md). -/

namespace Sys2Proof.Machine

/-- BSET (R310). -/
def execBset (m : BmArg) (s : State) : Result := rmwBit m bsetOp (.bset m) s

/-- BCLR (R311). -/
def execBclr (m : BmArg) (s : State) : Result := rmwBit m bclrOp (.bclr m) s

/-- BTGL (R312). -/
def execBtgl (m : BmArg) (s : State) : Result := rmwBit m btglOp (.btgl m) s

/-! ## Bit fields -/

/-- A field into a register: extracted, or inserted into what the register holds (R313, R314). -/
def fieldToReg (ins : Bool) (d : DReg) (x : Val) (wdt off : Nat) (i : Instr) (s : State) : Result :=
  let r : BitVec d.bits :=
    if ins then insertField x.v (s.getD d) wdt off else extractField x.v wdt off d.bits
  State.advance { s.setD d r with ccr := s.ccr.nzClearV r } i

/-- A field of a register into a general operand, at the operand's own width (R313, R314); BFEXT writes it
without reading it. -/
def fieldToOpr (ins : Bool) (sz : Size) (o : Opr) (x : Val) (wdt off : Nat) (i : Instr) (s : State) :
    Result :=
  modify ins o sz (fun {w} dv c =>
    let r : BitVec w := if ins then insertField x.v dv wdt off else extractField x.v wdt off w
    (r, c.nzClearV r)) i s

/-- The four shapes with a general operand (R129, R313); width and offset are read first. -/
def fieldOpr (ins : Bool) (f : BfOpr) (i : Instr) (s : State) : Result :=
  match f with
  | .fromOpr d sz o p =>
    fieldToReg ins d ((s.oprMoved o sz.bytes).locVal (s.oprLoc o sz.bytes) sz) (s.fieldWidth p)
      (s.fieldOffset p) i (s.oprDone o sz)
  | .toOpr sz o src p => fieldToOpr ins sz o ⟨src.bits, s.getD src⟩ (s.fieldWidth p) (s.fieldOffset p) i s

/-- BFEXT of a register (R313). -/
def execBfext (d src : DReg) (p : BfParam) (s : State) : Result :=
  fieldToReg false d ⟨src.bits, s.getD src⟩ (s.fieldWidth p) (s.fieldOffset p) (.bfext d src p) s

/-- BFEXT with a general operand (R313). -/
def execBfextOpr (f : BfOpr) (s : State) : Result := fieldOpr false f (.bfextOpr f) s

/-- BFINS of a register (R314). -/
def execBfins (d src : DReg) (p : BfParam) (s : State) : Result :=
  fieldToReg true d ⟨src.bits, s.getD src⟩ (s.fieldWidth p) (s.fieldOffset p) (.bfins d src p) s

/-- BFINS with a general operand (R314). -/
def execBfinsOpr (f : BfOpr) (s : State) : Result := fieldOpr true f (.bfinsOpr f) s

end Sys2Proof.Machine
end

