-- ==== Sys2Proof/Machine/Branch.lean ====
section
/-! DEFINITION. Branches, loops, jumps, calls (47_branch.md). -/

namespace Sys2Proof.Machine

/-- BRA (R341). -/
def execBra (rel : Rel) (s : State) : Result := s.goto (s.branchTarget rel)

/-- BSR (R342). -/
def execBsr (rel : Rel) (s : State) : Result :=
  (s.push .p (s.pcNext (.bsr rel))).goto (s.branchTarget rel)

/-! ## Conditional branches -/

/-- BHI (R355). -/
def execBhi (rel : Rel) (s : State) : Result := branchIf s.ccr.hi rel (.bhi rel) s

/-- BLS (R356). -/
def execBls (rel : Rel) (s : State) : Result := branchIf (!s.ccr.hi) rel (.bls rel) s

/-- BCC (R343). -/
def execBcc (rel : Rel) (s : State) : Result := branchIf (!s.ccr.c) rel (.bcc rel) s

/-- BCS (R344). -/
def execBcs (rel : Rel) (s : State) : Result := branchIf s.ccr.c rel (.bcs rel) s

/-- BNE (R346). -/
def execBne (rel : Rel) (s : State) : Result := branchIf (!s.ccr.z) rel (.bne rel) s

/-- BEQ (R345). -/
def execBeq (rel : Rel) (s : State) : Result := branchIf s.ccr.z rel (.beq rel) s

/-- BVC (R349). -/
def execBvc (rel : Rel) (s : State) : Result := branchIf (!s.ccr.v) rel (.bvc rel) s

/-- BVS (R350). -/
def execBvs (rel : Rel) (s : State) : Result := branchIf s.ccr.v rel (.bvs rel) s

/-- BPL (R348). -/
def execBpl (rel : Rel) (s : State) : Result := branchIf (!s.ccr.n) rel (.bpl rel) s

/-- BMI (R347). -/
def execBmi (rel : Rel) (s : State) : Result := branchIf s.ccr.n rel (.bmi rel) s

/-- BGE (R351). -/
def execBge (rel : Rel) (s : State) : Result := branchIf (!s.ccr.lt) rel (.bge rel) s

/-- BLT (R354). -/
def execBlt (rel : Rel) (s : State) : Result := branchIf s.ccr.lt rel (.blt rel) s

/-- BGT (R352). -/
def execBgt (rel : Rel) (s : State) : Result := branchIf (!s.ccr.le) rel (.bgt rel) s

/-- BLE (R353). -/
def execBle (rel : Rel) (s : State) : Result := branchIf s.ccr.le rel (.ble rel) s

/-- BHS (R357). -/
def execBhs (rel : Rel) (s : State) : Result := branchIf (!s.ccr.c) rel (.bhs rel) s

/-- BLO (R358). -/
def execBlo (rel : Rel) (s : State) : Result := branchIf s.ccr.c rel (.blo rel) s

/-! ## Branch on a bit -/

/-- Test a bit, copy it to C, branch where it has the wanted value (R359, R360). -/
def bitBranch (want : Bool) (m : BmArg) (rel : Rel) (i : Instr) (s : State) : Result :=
  let b := bitOf (s.bmVal m).v (s.bitNumber m)
  let t := s.bmMoved m
  branchIf (b == want) rel i { t with ccr := { t.ccr with c := b } }

/-- BRCLR (R359). -/
def execBrclr (m : BmArg) (rel : Rel) (s : State) : Result := bitBranch false m rel (.brclr m rel) s

/-- BRSET (R360). -/
def execBrset (m : BmArg) (rel : Rel) (s : State) : Result := bitBranch true m rel (.brset m rel) s

/-! ## Loops -/

/-- DBcc on a register (R361). -/
def execDbcc (c : LoopCond) (ctr : LoopCtr) (rel : Rel) (s : State) : Result :=
  match ctr with
  | .d r => branchIf (loopHolds c (s.getD r - 1)) rel (.dbcc c ctr rel) (s.setD r (s.getD r - 1))
  | .xy r => branchIf (loopHolds c (s.getXY r - 1)) rel (.dbcc c ctr rel) (s.setXY r (s.getXY r - 1))

/-- Where the offset of a DBcc with a general operand stands: after opcode, `lb` and operand (R126). -/
def State.relAddr (s : State) (o : Opr) : Addr := s.pc + BitVec.ofNat 24 (2 + o.enc.length)

/-- Whether `n` bytes from `a` on and `m` bytes from `b` on have a byte in common. -/
def runsMeet (a : Addr) (n : Nat) (b : Addr) (m : Nat) : Bool :=
  (addressRun a n).any fun x => (addressRun b m).contains x

/-- `rb [r1]` as memory holds it now (R66, R89). -/
def State.relFetched (s : State) (a : Addr) (rel : Rel) : Rel :=
  match parseRel (bytesFrom s.readByte a 2) with
  | .ok (rel', _) => rel'
  | .error _ => rel

/-- The offset as DBcc takes it, AFTER it has written its counter: as decoded, but where the counter lies on
the offset's own bytes, what they hold then (R60, R66, R361). -/
def State.loopRel (s : State) (l : Loc) (sz : Size) (o : Opr) (rel : Rel) : Rel :=
  match l with
  | .imm _ => rel
  | .reg _ => rel
  | .mem ea =>
    if runsMeet ea sz.bytes (s.relAddr o) rel.enc.length then s.relFetched (s.relAddr o) rel else rel

/-- The state once the offset is fetched: `rb`, and `r1` where that is a long one (R89, R361). -/
def State.loopFetched (s : State) (o : Opr) (rel : Rel) : State := s.accessed .fetch (s.relAddr o) rel.enc.length

/-- DBcc on a general operand of the coded size: the counter is written before `rb [r1]` is fetched (R361;
log entry 23). -/
def execDbccOpr (c : LoopCond) (sz : Size) (o : Opr) (rel : Rel) (s : State) : Result :=
  let r := s.oprValue o sz - 1
  let l := s.oprLoc o sz.bytes
  (s.oprDone o sz).locWrite l sz r fun t =>
    let rel' := t.loopRel l sz o rel
    branchIf (loopHolds c r) rel' (.dbccOpr c sz o rel') (t.loopFetched o rel')

/-- TBcc on a register (R362). -/
def execTbcc (c : LoopCond) (ctr : LoopCtr) (rel : Rel) (s : State) : Result :=
  match ctr with
  | .d r => branchIf (loopHolds c (s.getD r)) rel (.tbcc c ctr rel) s
  | .xy r => branchIf (loopHolds c (s.getXY r)) rel (.tbcc c ctr rel) s

/-- TBcc on a general operand (R362). -/
def execTbccOpr (c : LoopCond) (sz : Size) (o : Opr) (rel : Rel) (s : State) : Result :=
  branchIf (loopHolds c (s.oprValue o sz)) rel (.tbccOpr c sz o rel) (s.oprDone o sz)

/-! ## Jumps, calls, return -/

/-- The target of JMP and JSR and the state after its operand (R363, R364). -/
def State.jumpTo (s : State) : ExtOpr → Addr
  | .ext a => a
  | .opr o => s.jumpAddr o

def State.jumpDone (s : State) : ExtOpr → State
  | .ext _ => s
  | .opr o => s.jumpMoved o

/-- JMP (R363). -/
def execJmp (t : ExtOpr) (s : State) : Result := (s.jumpDone t).goto (s.jumpTo t)

/-- JSR: the target is formed before the return address is pushed (R364; log entry 24). -/
def execJsr (t : ExtOpr) (s : State) : Result :=
  ((s.jumpDone t).push .p (s.pcNext (.jsr t))).goto (s.jumpTo t)

/-- RTS (R365). -/
def execRts (s : State) : Result := (s.pullMove .p).goto (s.pullValue .p)

end Sys2Proof.Machine
end

