-- ==== Sys2Proof/Machine/DataMove.lean ====
section
/-! DEFINITION. Data movement (40_data_movement.md): LD, ST, MOV, PSH, PUL, LEA, CLR, TFR, EXG and the names
ZEX, SEX. -/

namespace Sys2Proof.Machine

/-! ## Load and store -/

/-- LD Di (R161). -/
def execLdD (d : DReg) (src : LdSrc) (s : State) : Result :=
  let v : BitVec d.bits := match src with
    | .imm v => v.setWidth d.bits
    | .ext a => s.load a d.size
    | .opr o => s.oprValue o d.size
  let t := match src with
    | .imm _ => s
    | .ext a => s.loaded a d.size
    | .opr o => s.oprDone o d.size
  State.advance { t.setD d v with ccr := t.ccr.nzClearV v } (.ldD d src)

/-- LD X, LD Y (R162). -/
def execLdXY (r : XY) (src : LdXYSrc) (s : State) : Result :=
  let v : BitVec 24 := match src with
    | .imm v => v
    | .imm18 v => v.setWidth 24
    | .ext a => s.load a .p
    | .opr o => s.oprValue o .p
  let t := match src with
    | .imm _ => s
    | .imm18 _ => s
    | .ext a => s.loaded a .p
    | .opr o => s.oprDone o .p
  State.advance { t.setXY r v with ccr := t.ccr.nzClearV v } (.ldXY r src)

/-- LD S (R163). -/
def execLdS (src : PSrc) (s : State) : Result :=
  let v := s.pValue src
  let t := s.pMoved src
  State.advance { t.setSp v with ccr := t.ccr.nzClearV v } (.ldS src)

/-- Store a value read before the operand is decoded, and set the flags from it (R164 to R166). -/
def storeTo (dst : ExtOpr) (sz : Size) (v : BitVec sz.bits) (i : Instr) (s : State) : Result :=
  let done (t : State) : Result := State.advance { t with ccr := t.ccr.nzClearV v } i
  match dst with
  | .ext a => done (s.store a sz v)
  | .opr o => (s.oprMoved o sz.bytes).locWrite (s.oprLoc o sz.bytes) sz v done

/-- ST Di (R164). -/
def execStD (d : DReg) (dst : ExtOpr) (s : State) : Result :=
  storeTo dst d.size (s.getD d) (.stD d dst) s

/-- ST X, ST Y (R165). -/
def execStXY (r : XY) (dst : ExtOpr) (s : State) : Result :=
  storeTo dst .p (s.getXY r) (.stXY r dst) s

/-- ST S (R166). -/
def execStS (o : Opr) (s : State) : Result := storeTo (.opr o) .p s.sp (.stS o) s

/-! ## Move -/

/-- The destination of a move; a short immediate into a register fills the whole register (R167). -/
def moveTo (sz : Size) (src : MovSrc) (v : BitVec sz.bits) (dst : Opr) (i : Instr) (s : State) : Result :=
  let t := s.oprMoved dst sz.bytes
  match src, s.oprLoc dst sz.bytes with
  | .opr (.immE4 e), .reg r => (t.setD r (immE4Value r.bits e)).advance i
  | _, l => t.locWrite l sz v fun t => t.advance i

/-- MOV: the source is read before the destination is decoded (R120, R167). -/
def move (sz : Size) (src : MovSrc) (dst : Opr) (i : Instr) (s : State) : Result :=
  match src with
  | .imm v => moveTo sz src (v.setWidth sz.bits) dst i s
  | .opr o => moveTo sz src (s.oprValue o sz) dst i (s.oprDone o sz)

/-- MOV.B (R167). -/
def execMovB (src : MovSrc) (dst : Opr) (s : State) : Result := move .b src dst (.movB src dst) s

/-- MOV.W (R167). -/
def execMovW (src : MovSrc) (dst : Opr) (s : State) : Result := move .w src dst (.movW src dst) s

/-- MOV.P (R167). -/
def execMovP (src : MovSrc) (dst : Opr) (s : State) : Result := move .p src dst (.movP src dst) s

/-- MOV.L (R167). -/
def execMovL (src : MovSrc) (dst : Opr) (s : State) : Result := move .l src dst (.movL src dst) s

/-! ## Push and pull -/

/-- A register in a push or pull list (R168). -/
inductive StackReg where
  | cch | ccl
  | d (r : DReg)
  | xy (r : XY)
  deriving DecidableEq, Repr

/-- The list of mask 1 or mask 2, the register of R5 first (R168). -/
def stackRow (row2 : Bool) : List StackReg :=
  if row2 then [.d .d4, .d .d5, .d .d6, .d .d7, .xy .x, .xy .y]
  else [.cch, .ccl, .d .d0, .d .d1, .d .d2, .d .d3]

/-- The registers in the order PUL takes them; PSH takes the reverse (R168, R169). -/
def stackList (row2 : Bool) (mask : BitVec 6) : List StackReg :=
  if mask = 0 then
    if row2 then [.d .d2, .d .d3, .d .d4, .d .d5]
    else [.cch, .ccl, .d .d0, .d .d1, .d .d2, .d .d3, .d .d4, .d .d5, .d .d6, .d .d7, .xy .x, .xy .y]
  else ((stackRow row2).zip [5, 4, 3, 2, 1, 0]).filterMap fun rk =>
    if mask.getLsbD rk.2 then some rk.1 else none

def State.pushReg (s : State) : StackReg → State
  | .cch => s.push .b (s.ccr.word.extractLsb' 8 8)
  | .ccl => s.push .b (s.ccr.word.extractLsb' 0 8)
  | .d r => s.push r.size (s.getD r)
  | .xy r => s.push .p (s.getXY r)

/-- PSH of a list given in PUL's order (R168). -/
def State.pushList (s : State) (l : List StackReg) : State := l.reverse.foldl State.pushReg s

/-- One pull: the CCR bytes are gathered, the other registers written (R169). -/
def State.pullReg (s : State) (new : BitVec 16) : StackReg → State × BitVec 16
  | .cch => (s.pullMove .b, new ||| (s.pullValue .b).setWidth 16 <<< 8)
  | .ccl => (s.pullMove .b, new ||| (s.pullValue .b).setWidth 16)
  | .d r => ((s.pullMove r.size).setD r (s.pullValue r.size), new)
  | .xy r => ((s.pullMove .p).setXY r (s.pullValue .p), new)

/-- PUL of a list; the CCR is written once, at the end, under the privilege of the start (R169, D28). -/
def State.pullList (s : State) (l : List StackReg) : State :=
  let p := l.foldl (fun p r => p.1.pullReg p.2 r) (s, (0 : BitVec 16))
  p.1.writeCcr p.2 (l.contains .cch) (l.contains .ccl)

/-- PSH (R168). -/
def execPsh (row2 : Bool) (mask : BitVec 6) (s : State) : Result :=
  (s.pushList (stackList row2 mask)).advance (.psh row2 mask)

/-- PUL (R169). -/
def execPul (row2 : Bool) (mask : BitVec 6) (s : State) : Result :=
  (s.pullList (stackList row2 mask)).advance (.pul row2 mask)

/-- PSH ALL (R132, R168). -/
def execPshAll (s : State) : Result := (s.pushList (stackList false 0)).advance .pshAll

/-- PSH ALL16b (R132, R168). -/
def execPshAll16b (s : State) : Result := (s.pushList (stackList true 0)).advance .pshAll16b

/-- PUL ALL (R132, R169). -/
def execPulAll (s : State) : Result := (s.pullList (stackList false 0)).advance .pulAll

/-- PUL ALL16b (R132, R169). -/
def execPulAll16b (s : State) : Result := (s.pullList (stackList true 0)).advance .pulAll16b

/-! ## Load effective address -/

def State.setLea (s : State) (r : LeaDst) (a : Addr) : State :=
  match r with
  | .d6 => { s with d6 := a.setWidth 32 }
  | .d7 => { s with d7 := a.setWidth 32 }
  | .x => { s with x := a }
  | .y => { s with y := a }
  | .s => s.setSp a

/-- LEA with a general operand (R170). -/
def execLea (r : LeaDst) (o : Opr) (s : State) : Result :=
  ((s.leaMoved o r).setLea r (s.leaAddr o)).advance (.lea r o)

/-- LEA with an 8-bit signed offset (R171). -/
def execLeaImm (r : XYS) (i : BitVec 8) (s : State) : Result :=
  (s.setXYS r (s.getXYS r + i.signExtend 24)).advance (.leaImm r i)

/-! ## Clear -/

/-- CLR of a general operand: written, never read; a register is cleared whole (R172). -/
def clear (o : Opr) (sz : Size) (i : Instr) (s : State) : Result :=
  (s.oprMoved o sz.bytes).locWrite (s.oprLoc o sz.bytes) sz 0 fun t =>
    State.advance { t with ccr := t.ccr.cleared } i

/-- CLR.B (R172). -/
def execClrB (o : Opr) (s : State) : Result := clear o .b (.clrB o) s

/-- CLR.W (R172). -/
def execClrW (o : Opr) (s : State) : Result := clear o .w (.clrW o) s

/-- CLR.P (R172). -/
def execClrP (o : Opr) (s : State) : Result := clear o .p (.clrP o) s

/-- CLR.L (R172). -/
def execClrL (o : Opr) (s : State) : Result := clear o .l (.clrL o) s

/-- CLR Di (R173). -/
def execClrD (d : DReg) (s : State) : Result :=
  State.advance { s.setD d 0 with ccr := s.ccr.cleared } (.clrD d)

/-- CLR X, CLR Y (R174). -/
def execClrXY (r : XY) (s : State) : Result :=
  State.advance { s.setXY r 0 with ccr := s.ccr.cleared } (.clrXY r)

/-! ## Transfer and exchange -/

/-- `CpuRead(c)` (R176); a reserved code gives an open value (U4; log entry 10). -/
def State.cpuRead (s : State) : (c : CpuReg) → BitVec c.bits
  | .d r => s.getD r
  | .x => s.x
  | .y => s.y
  | .s => s.sp
  | .cch => s.ccr.word.extractLsb' 8 8
  | .ccl => s.ccr.word.extractLsb' 0 8
  | .ccw => s.ccr.word
  | .resB => 0#0
  | .resF => 0#0

/-- `CpuWrite(c, v)`; a reserved code holds nothing (R176; log entry 27). -/
def State.cpuWrite (s : State) : (c : CpuReg) → BitVec c.bits → State
  | .d r, v => s.setD r v
  | .x, v => { s with x := v }
  | .y, v => { s with y := v }
  | .s, v => s.setSp v
  | .cch, v => s.writeCcr (v.setWidth 16 <<< 8) true false
  | .ccl, v => s.writeCcr (v.setWidth 16) false true
  | .ccw, v => s.writeCcr v true true
  | .resB, _ => s
  | .resF, _ => s

/-- What a pair of codes does where one is reserved: with a reserved destination nothing, else an open
value is written (R176, R177, U4; log entries 10 and 27). -/
def State.reservedPair (s : State) (dst : CpuReg) : State :=
  if dst.reserved then s else s.drew.cpuWrite dst (s.drawn dst.bits)

/-- TFR: truncated or zero-extended to the destination (R176). -/
def State.transfer (s : State) (src dst : CpuReg) : State :=
  if src = dst then s
  else if src.reserved || dst.reserved then s.reservedPair dst
  else s.cpuWrite dst ((s.cpuRead src).setWidth dst.bits)

/-- EXG (R177). -/
def State.exchange (s : State) (src dst : CpuReg) : State :=
  if src = dst then s
  else if src.reserved || dst.reserved then s.reservedPair dst
  else match src, dst with
    | .ccw, .cch => s
    | .ccw, .ccl => s
    | .cch, .ccl | .ccl, .cch =>
      s.writeCcr (s.ccr.word.extractLsb' 0 8 ++ s.ccr.word.extractLsb' 8 8 : BitVec 16) true true
    | _, _ =>
      let a := s.cpuRead src
      let b := s.cpuRead dst
      if src.bits < dst.bits then s.cpuWrite dst (a.signExtend dst.bits)
      else (s.cpuWrite dst (a.setWidth dst.bits)).cpuWrite src (b.signExtend src.bits)

/-- TFR (R176). -/
def execTfr (src dst : CpuReg) (s : State) : Result := (s.transfer src dst).advance (.tfr src dst)

/-- ZEX, another name for TFR's words (R179). -/
def execZex (src dst : CpuReg) (s : State) : Result := (s.transfer src dst).advance (.zex src dst)

/-- EXG (R177). -/
def execExg (src dst : CpuReg) (s : State) : Result := (s.exchange src dst).advance (.exg src dst)

/-- SEX, another name for EXG's words (R178). -/
def execSex (src dst : CpuReg) (s : State) : Result := (s.exchange src dst).advance (.sex src dst)

end Sys2Proof.Machine
end

