-- ==== Sys2Proof/Machine/Logic.lean ====
section
/-! DEFINITION. Logical instructions and the condition codes (43_logical.md). -/

namespace Sys2Proof.Machine

/-- AND (R261). -/
def execAnd (d : DReg) (m : DSrc) (s : State) : Result := aluD d m andOp (.and d m) s

/-- OR (R262). -/
def execOr (d : DReg) (m : DSrc) (s : State) : Result := aluD d m orOp (.or d m) s

/-- EOR (R263). -/
def execEor (d : DReg) (m : DSrc) (s : State) : Result := aluD d m eorOp (.eor d m) s

/-- BIT: the flags of AND, no register written (R264). -/
def execBit (d : DReg) (m : DSrc) (s : State) : Result := testD d m andOp (.bit d m) s

/-- COM.B (R265). -/
def execComB (o : Opr) (s : State) : Result := rmw o .b comOp (.comB o) s

/-- COM.W (R265). -/
def execComW (o : Opr) (s : State) : Result := rmw o .w comOp (.comW o) s

/-- COM.L (R265). -/
def execComL (o : Opr) (s : State) : Result := rmw o .l comOp (.comL o) s

/-! ## CCL -/

/-- CCL and an immediate, through `WriteCCR` with mask 0x00FF (R266). -/
def State.andCcl (s : State) (i : BitVec 8) : State :=
  s.writeCcr ((s.ccr.word.extractLsb' 0 8 &&& i).setWidth 16) false true

/-- CCL or an immediate, through `WriteCCR` with mask 0x00FF (R267). -/
def State.orCcl (s : State) (i : BitVec 8) : State :=
  s.writeCcr ((s.ccr.word.extractLsb' 0 8 ||| i).setWidth 16) false true

/-- ANDCC (R266). -/
def execAndcc (i : BitVec 8) (s : State) : Result := (s.andCcl i).advance (.andcc i)

/-- ORCC (R267). -/
def execOrcc (i : BitVec 8) (s : State) : Result := (s.orCcl i).advance (.orcc i)

/-- CLC (R268). -/
def execClc (s : State) : Result := (s.andCcl 0xFE#8).advance .clc

/-- CLI (R269). -/
def execCli (s : State) : Result := (s.andCcl 0xEF#8).advance .cli

/-- CLV (R270). -/
def execClv (s : State) : Result := (s.andCcl 0xFD#8).advance .clv

/-- SEC (R271). -/
def execSec (s : State) : Result := (s.orCcl 0x01#8).advance .sec

/-- SEI (R272). -/
def execSei (s : State) : Result := (s.orCcl 0x10#8).advance .sei

/-- SEV (R273). -/
def execSev (s : State) : Result := (s.orCcl 0x02#8).advance .sev

/-- What `irq_shadow` is after an instruction: set by an ANDCC that has cleared I, else 0 (R411; log entry 34). -/
def nextShadow (i : Instr) (before after : Ccr) : Bool :=
  match i.core with
  | .andcc _ => before.i && !after.i
  | _ => false

end Sys2Proof.Machine
end

