-- ==== Sys2Proof/Machine/MinMax.lean ====
section
/-! DEFINITION. Minimum and maximum (46_minmax.md). -/

namespace Sys2Proof.Machine

/-- MAXS: the larger signed value (R330, R334). -/
def execMaxs (d : DReg) (o : Opr) (s : State) : Result :=
  aluD d (.opr o) (selectOp fun a m => a.slt m) (.maxs d o) s

/-- MAXU: the larger unsigned value (R331, R334). -/
def execMaxu (d : DReg) (o : Opr) (s : State) : Result :=
  aluD d (.opr o) (selectOp fun a m => a.ult m) (.maxu d o) s

/-- MINS: the smaller signed value (R332, R334). -/
def execMins (d : DReg) (o : Opr) (s : State) : Result :=
  aluD d (.opr o) (selectOp fun a m => m.slt a) (.mins d o) s

/-- MINU: the smaller unsigned value (R333, R334). -/
def execMinu (d : DReg) (o : Opr) (s : State) : Result :=
  aluD d (.opr o) (selectOp fun a m => m.ult a) (.minu d o) s

end Sys2Proof.Machine
end

