-- ==== Sys2Proof/Machine/MulDiv.lean ====
section
/-! DEFINITION. Multiply, divide, modulo and fractional math (42_muldiv_fractional.md). -/

namespace Sys2Proof.Machine

/-! ## What the pairs do -/

/-- A result of one value and the CCR, written to the destination. -/
def State.setDCcr (s : State) (d : DReg) (rc : BitVec d.bits × Ccr) : State :=
  { s.setD d rc.1 with ccr := rc.2 }

/-- MULS, MULU (R231, R232). -/
def multiply (signed : Bool) : MathOp := fun d a b s =>
  s.setDCcr d (mulOp signed a.int b.int s.ccr)

/-- MACS, MACU: the old destination is the accumulator (R233, R234). -/
def multiplyAccumulate (signed : Bool) : MathOp := fun d a b s =>
  s.setDCcr d (macOp signed (s.getD d) a.int b.int s.ccr)

/-- QMULS, QMULU (R239, R240). -/
def fractionMultiply (signed : Bool) : MathOp := fun d a b s =>
  s.setDCcr d (qmulOp signed a.int a.w b.int b.w s.ccr)

/-- What a division leaves whose divisor is zero: C set, the destination, N, Z and V open (R235, U3;
log entry 9). -/
def State.dividedByZero (s : State) (d : DReg) : State :=
  (s.setDCcr d (s.drawnAt 0 d.bits,
    { s.ccr with n := s.drawnBit 1, z := s.drawnBit 2, v := s.drawnBit 3, c := true })).drewN 4

/-- What a division leaves whose result does not fit: V set, C cleared, the destination, N and Z open
(R235, U3; log entry 9). -/
def State.divisionOverflow (s : State) (d : DReg) : State :=
  (s.setDCcr d (s.drawnAt 0 d.bits,
    { s.ccr with n := s.drawnBit 1, z := s.drawnBit 2, v := true, c := false })).drewN 3

/-- The frame of DIVS, DIVU, MODS, MODU around the exact quotient or remainder (R235 to R238). -/
def divisionFrame (signed : Bool) (exact : Int → Int → Int) : MathOp := fun d a b s =>
  if b.int = 0 then s.dividedByZero d
  else
    let q := exact a.int b.int
    if fits signed d.bits q then
      let r := BitVec.ofInt d.bits q
      s.setDCcr d (r, { s.ccr with n := r.msb, z := decide (q = 0), v := false, c := false })
    else s.divisionOverflow d

/-- DIVS, DIVU: truncated toward zero (R235, R236). -/
def divide (signed : Bool) : MathOp := divisionFrame signed Int.tdiv

/-- MODS, MODU: the remainder has the dividend's sign (R237, R238). -/
def modulo (signed : Bool) : MathOp := divisionFrame signed Int.tmod

/-! ## The instructions -/

/-- MULS, register with register or immediate (R231). -/
def execMuls (d j : DReg) (k : MathSrc) (s : State) : Result :=
  mathReg true (multiply true) d j k (.muls d j k) s

/-- MULS.B, register with operand (R231). -/
def execMulsB (d j : DReg) (o : Opr) (s : State) : Result :=
  mathOpr true (multiply true) d j .b o (.mulsB d j o) s

/-- MULS.W, register with operand (R231). -/
def execMulsW (d j : DReg) (o : Opr) (s : State) : Result :=
  mathOpr true (multiply true) d j .w o (.mulsW d j o) s

/-- MULS.L, register with operand (R231). -/
def execMulsL (d j : DReg) (o : Opr) (s : State) : Result :=
  mathOpr true (multiply true) d j .l o (.mulsL d j o) s

/-- MULS with two operands (R231). -/
def execMulsOO (d : DReg) (s1 : Size) (o1 : Opr) (s2 : Size) (o2 : Opr) (s : State) : Result :=
  mathOprOpr true (multiply true) d s1 o1 s2 o2 (.mulsOO d s1 o1 s2 o2) s

/-- MULU, register with register or immediate (R232). -/
def execMulu (d j : DReg) (k : MathSrc) (s : State) : Result :=
  mathReg false (multiply false) d j k (.mulu d j k) s

/-- MULU.B, register with operand (R232). -/
def execMuluB (d j : DReg) (o : Opr) (s : State) : Result :=
  mathOpr false (multiply false) d j .b o (.muluB d j o) s

/-- MULU.W, register with operand (R232). -/
def execMuluW (d j : DReg) (o : Opr) (s : State) : Result :=
  mathOpr false (multiply false) d j .w o (.muluW d j o) s

/-- MULU.L, register with operand (R232). -/
def execMuluL (d j : DReg) (o : Opr) (s : State) : Result :=
  mathOpr false (multiply false) d j .l o (.muluL d j o) s

/-- MULU with two operands (R232). -/
def execMuluOO (d : DReg) (s1 : Size) (o1 : Opr) (s2 : Size) (o2 : Opr) (s : State) : Result :=
  mathOprOpr false (multiply false) d s1 o1 s2 o2 (.muluOO d s1 o1 s2 o2) s

/-- MACS, register with register or immediate (R233). -/
def execMacs (d j : DReg) (k : MathSrc) (s : State) : Result :=
  mathReg true (multiplyAccumulate true) d j k (.macs d j k) s

/-- MACS.B, register with operand (R233). -/
def execMacsB (d j : DReg) (o : Opr) (s : State) : Result :=
  mathOpr true (multiplyAccumulate true) d j .b o (.macsB d j o) s

/-- MACS.W, register with operand (R233). -/
def execMacsW (d j : DReg) (o : Opr) (s : State) : Result :=
  mathOpr true (multiplyAccumulate true) d j .w o (.macsW d j o) s

/-- MACS.L, register with operand (R233). -/
def execMacsL (d j : DReg) (o : Opr) (s : State) : Result :=
  mathOpr true (multiplyAccumulate true) d j .l o (.macsL d j o) s

/-- MACS with two operands (R233). -/
def execMacsOO (d : DReg) (s1 : Size) (o1 : Opr) (s2 : Size) (o2 : Opr) (s : State) : Result :=
  mathOprOpr true (multiplyAccumulate true) d s1 o1 s2 o2 (.macsOO d s1 o1 s2 o2) s

/-- MACU, register with register or immediate (R234). -/
def execMacu (d j : DReg) (k : MathSrc) (s : State) : Result :=
  mathReg false (multiplyAccumulate false) d j k (.macu d j k) s

/-- MACU.B, register with operand (R234). -/
def execMacuB (d j : DReg) (o : Opr) (s : State) : Result :=
  mathOpr false (multiplyAccumulate false) d j .b o (.macuB d j o) s

/-- MACU.W, register with operand (R234). -/
def execMacuW (d j : DReg) (o : Opr) (s : State) : Result :=
  mathOpr false (multiplyAccumulate false) d j .w o (.macuW d j o) s

/-- MACU.L, register with operand (R234). -/
def execMacuL (d j : DReg) (o : Opr) (s : State) : Result :=
  mathOpr false (multiplyAccumulate false) d j .l o (.macuL d j o) s

/-- MACU with two operands (R234). -/
def execMacuOO (d : DReg) (s1 : Size) (o1 : Opr) (s2 : Size) (o2 : Opr) (s : State) : Result :=
  mathOprOpr false (multiplyAccumulate false) d s1 o1 s2 o2 (.macuOO d s1 o1 s2 o2) s

/-- DIVS, register with register or immediate (R235). -/
def execDivs (d j : DReg) (k : MathSrc) (s : State) : Result :=
  mathReg true (divide true) d j k (.divs d j k) s

/-- DIVS.B, register with operand (R235). -/
def execDivsB (d j : DReg) (o : Opr) (s : State) : Result :=
  mathOpr true (divide true) d j .b o (.divsB d j o) s

/-- DIVS.W, register with operand (R235). -/
def execDivsW (d j : DReg) (o : Opr) (s : State) : Result :=
  mathOpr true (divide true) d j .w o (.divsW d j o) s

/-- DIVS.L, register with operand (R235). -/
def execDivsL (d j : DReg) (o : Opr) (s : State) : Result :=
  mathOpr true (divide true) d j .l o (.divsL d j o) s

/-- DIVS with two operands (R235). -/
def execDivsOO (d : DReg) (s1 : Size) (o1 : Opr) (s2 : Size) (o2 : Opr) (s : State) : Result :=
  mathOprOpr true (divide true) d s1 o1 s2 o2 (.divsOO d s1 o1 s2 o2) s

/-- DIVU, register with register or immediate (R236). -/
def execDivu (d j : DReg) (k : MathSrc) (s : State) : Result :=
  mathReg false (divide false) d j k (.divu d j k) s

/-- DIVU.B, register with operand (R236). -/
def execDivuB (d j : DReg) (o : Opr) (s : State) : Result :=
  mathOpr false (divide false) d j .b o (.divuB d j o) s

/-- DIVU.W, register with operand (R236). -/
def execDivuW (d j : DReg) (o : Opr) (s : State) : Result :=
  mathOpr false (divide false) d j .w o (.divuW d j o) s

/-- DIVU.L, register with operand (R236). -/
def execDivuL (d j : DReg) (o : Opr) (s : State) : Result :=
  mathOpr false (divide false) d j .l o (.divuL d j o) s

/-- DIVU with two operands (R236). -/
def execDivuOO (d : DReg) (s1 : Size) (o1 : Opr) (s2 : Size) (o2 : Opr) (s : State) : Result :=
  mathOprOpr false (divide false) d s1 o1 s2 o2 (.divuOO d s1 o1 s2 o2) s

/-- MODS, register with register or immediate (R237). -/
def execMods (d j : DReg) (k : MathSrc) (s : State) : Result :=
  mathReg true (modulo true) d j k (.mods d j k) s

/-- MODS.B, register with operand (R237). -/
def execModsB (d j : DReg) (o : Opr) (s : State) : Result :=
  mathOpr true (modulo true) d j .b o (.modsB d j o) s

/-- MODS.W, register with operand (R237). -/
def execModsW (d j : DReg) (o : Opr) (s : State) : Result :=
  mathOpr true (modulo true) d j .w o (.modsW d j o) s

/-- MODS.L, register with operand (R237). -/
def execModsL (d j : DReg) (o : Opr) (s : State) : Result :=
  mathOpr true (modulo true) d j .l o (.modsL d j o) s

/-- MODS with two operands (R237). -/
def execModsOO (d : DReg) (s1 : Size) (o1 : Opr) (s2 : Size) (o2 : Opr) (s : State) : Result :=
  mathOprOpr true (modulo true) d s1 o1 s2 o2 (.modsOO d s1 o1 s2 o2) s

/-- MODU, register with register or immediate (R238). -/
def execModu (d j : DReg) (k : MathSrc) (s : State) : Result :=
  mathReg false (modulo false) d j k (.modu d j k) s

/-- MODU.B, register with operand (R238). -/
def execModuB (d j : DReg) (o : Opr) (s : State) : Result :=
  mathOpr false (modulo false) d j .b o (.moduB d j o) s

/-- MODU.W, register with operand (R238). -/
def execModuW (d j : DReg) (o : Opr) (s : State) : Result :=
  mathOpr false (modulo false) d j .w o (.moduW d j o) s

/-- MODU.L, register with operand (R238). -/
def execModuL (d j : DReg) (o : Opr) (s : State) : Result :=
  mathOpr false (modulo false) d j .l o (.moduL d j o) s

/-- MODU with two operands (R238). -/
def execModuOO (d : DReg) (s1 : Size) (o1 : Opr) (s2 : Size) (o2 : Opr) (s : State) : Result :=
  mathOprOpr false (modulo false) d s1 o1 s2 o2 (.moduOO d s1 o1 s2 o2) s

/-- QMULS, register with register or immediate (R239). -/
def execQmuls (d j : DReg) (k : MathSrc) (s : State) : Result :=
  mathReg true (fractionMultiply true) d j k (.qmuls d j k) s

/-- QMULS.B, register with operand (R239). -/
def execQmulsB (d j : DReg) (o : Opr) (s : State) : Result :=
  mathOpr true (fractionMultiply true) d j .b o (.qmulsB d j o) s

/-- QMULS.W, register with operand (R239). -/
def execQmulsW (d j : DReg) (o : Opr) (s : State) : Result :=
  mathOpr true (fractionMultiply true) d j .w o (.qmulsW d j o) s

/-- QMULS.L, register with operand (R239). -/
def execQmulsL (d j : DReg) (o : Opr) (s : State) : Result :=
  mathOpr true (fractionMultiply true) d j .l o (.qmulsL d j o) s

/-- QMULS with two operands (R239). -/
def execQmulsOO (d : DReg) (s1 : Size) (o1 : Opr) (s2 : Size) (o2 : Opr) (s : State) : Result :=
  mathOprOpr true (fractionMultiply true) d s1 o1 s2 o2 (.qmulsOO d s1 o1 s2 o2) s

/-- QMULU, register with register or immediate (R240). -/
def execQmulu (d j : DReg) (k : MathSrc) (s : State) : Result :=
  mathReg false (fractionMultiply false) d j k (.qmulu d j k) s

/-- QMULU.B, register with operand (R240). -/
def execQmuluB (d j : DReg) (o : Opr) (s : State) : Result :=
  mathOpr false (fractionMultiply false) d j .b o (.qmuluB d j o) s

/-- QMULU.W, register with operand (R240). -/
def execQmuluW (d j : DReg) (o : Opr) (s : State) : Result :=
  mathOpr false (fractionMultiply false) d j .w o (.qmuluW d j o) s

/-- QMULU.L, register with operand (R240). -/
def execQmuluL (d j : DReg) (o : Opr) (s : State) : Result :=
  mathOpr false (fractionMultiply false) d j .l o (.qmuluL d j o) s

/-- QMULU with two operands (R240). -/
def execQmuluOO (d : DReg) (s1 : Size) (o1 : Opr) (s2 : Size) (o2 : Opr) (s : State) : Result :=
  mathOprOpr false (fractionMultiply false) d s1 o1 s2 o2 (.qmuluOO d s1 o1 s2 o2) s

/-- SAT (R241). -/
def execSat (d : DReg) (s : State) : Result := unaryD d satOp (.sat d) s

/-- CLB: N and V cleared, C kept (R242). -/
def execClb (src d : DReg) (s : State) : Result :=
  let k := countLeading (s.getD src)
  State.advance
    { s.setD d (BitVec.ofNat d.bits k) with
      ccr := { s.ccr with n := false, z := decide (k = 0), v := false } }
    (.clb src d)

end Sys2Proof.Machine
end

