-- ==== Sys2Proof/Machine/Shift.lean ====
section
/-! DEFINITION. Shifts and rotates (44_shift_rotate.md). -/

namespace Sys2Proof.Machine

/-- The three-operand forms: the source's value at its own width, the count decoded after it, the result
to the register (R290). -/
def shiftInto (k : ShiftKind) (d : DReg) (x : Val) (n : ShiftBy) (i : Instr) (s : State) : Result :=
  let t := s.countMoved n
  let rc := shiftOp k d.bits x.v (s.shiftCount n) t.ccr
  State.advance { t.setD d rc.1 with ccr := rc.2 } i

/-- A register shifted into a register (R127, R290). -/
def shiftReg (k : ShiftKind) (d src : DReg) (n : ShiftBy) (i : Instr) (s : State) : Result :=
  shiftInto k d ⟨src.bits, s.getD src⟩ n i s

/-- A general operand shifted into a register, or in place by 1 or 2 (R127, R290). -/
def shiftOpr (k : ShiftKind) (f : ShiftOpr) (i : Instr) (s : State) : Result :=
  match f with
  | .toReg d sz o n =>
    shiftInto k d ((s.oprMoved o sz.bytes).locVal (s.oprLoc o sz.bytes) sz) n i (s.oprDone o sz)
  | .inPlace sz o two => rmw o sz (fun {w} v c => shiftOp k w v (if two then 2 else 1) c) i s

/-- ASL of a register (R291). -/
def execAsl (d src : DReg) (n : ShiftBy) (s : State) : Result := shiftReg .asl d src n (.asl d src n) s

/-- ASL of a general operand (R291). -/
def execAslOpr (f : ShiftOpr) (s : State) : Result := shiftOpr .asl f (.aslOpr f) s

/-- ASR of a register (R292). -/
def execAsr (d src : DReg) (n : ShiftBy) (s : State) : Result := shiftReg .asr d src n (.asr d src n) s

/-- ASR of a general operand (R292). -/
def execAsrOpr (f : ShiftOpr) (s : State) : Result := shiftOpr .asr f (.asrOpr f) s

/-- LSL of a register (R293). -/
def execLsl (d src : DReg) (n : ShiftBy) (s : State) : Result := shiftReg .lsl d src n (.lsl d src n) s

/-- LSL of a general operand (R293). -/
def execLslOpr (f : ShiftOpr) (s : State) : Result := shiftOpr .lsl f (.lslOpr f) s

/-- LSR of a register (R294). -/
def execLsr (d src : DReg) (n : ShiftBy) (s : State) : Result := shiftReg .lsr d src n (.lsr d src n) s

/-- LSR of a general operand (R294). -/
def execLsrOpr (f : ShiftOpr) (s : State) : Result := shiftOpr .lsr f (.lsrOpr f) s

/-- ROL (R295). -/
def execRol (sz : Size) (o : Opr) (s : State) : Result := rmw o sz rolOp (.rol sz o) s

/-- ROR (R296). -/
def execRor (sz : Size) (o : Opr) (s : State) : Result := rmw o sz rorOp (.ror sz o) s

end Sys2Proof.Machine
end

