-- ==== Sys2Proof/Machine/System.lean ====
section
/-! DEFINITION. Exceptions, low power and the rest (48_system.md). -/

namespace Sys2Proof.Machine

/-- SWI (R380). -/
def execSwi (s : State) : Result := .next (s.exceptionEntry .swi (s.pcNext .swi))

/-- SYS (R381). -/
def execSys (s : State) : Result := .next (s.exceptionEntry .sys (s.pcNext .sys))

/-- TRAP (R382). -/
def execTrap (tn : BitVec 8) (s : State) : Result := .next (s.exceptionEntry .trap (s.pcNext (.trap tn)))

/-- SPARE (R383). -/
def execSpare (s : State) : Result := .next (s.exceptionEntry .spare (s.pcNext .spare))

/-- RTI (R384). -/
def execRti (s : State) : Result := .next s.returnFromException

/-- Stack the context with the next address and stand by; PC keeps that address (R385, R386; log entry 28). -/
def standBy (how : RunState) (i : Instr) (s : State) : Result :=
  State.advance { s.stackContext (s.pcNext i) s.ccr.word with runState := how } i

/-- WAI: a NOP in user state (R385). -/
def execWai (s : State) : Result :=
  if s.ccr.u then s.advance .wai else standBy .waiting .wai s

/-- STOP: a NOP in user state or with S set (R386). -/
def execStop (s : State) : Result :=
  if s.ccr.u || s.ccr.s then s.advance .stop else standBy .stopped .stop s

/-- NOP (R387). -/
def execNop (s : State) : Result := s.advance .nop

/-- BGND: halts where the debug controller is enabled (R388). -/
def execBgnd (s : State) : Result :=
  if s.enbdm then State.advance { s with runState := .halted } .bgnd else s.advance .bgnd

end Sys2Proof.Machine
end

