-- ==== Sys2Proof/Machine/Dispatch.lean ====
section
/-! DEFINITION. Every instruction with its meaning. -/

namespace Sys2Proof.Machine

def exec (i : Instr) (s : State) : Host.Outcome State Fault Refusal :=
  match i with
  | .ldD d src => Sys2Proof.Machine.execLdD d src s
  | .ldXY r src => Sys2Proof.Machine.execLdXY r src s
  | .ldS src => Sys2Proof.Machine.execLdS src s
  | .stD d dst => Sys2Proof.Machine.execStD d dst s
  | .stXY r dst => Sys2Proof.Machine.execStXY r dst s
  | .stS o => Sys2Proof.Machine.execStS o s
  | .movB src dst => Sys2Proof.Machine.execMovB src dst s
  | .movW src dst => Sys2Proof.Machine.execMovW src dst s
  | .movP src dst => Sys2Proof.Machine.execMovP src dst s
  | .movL src dst => Sys2Proof.Machine.execMovL src dst s
  | .psh row2 mask => Sys2Proof.Machine.execPsh row2 mask s
  | .pul row2 mask => Sys2Proof.Machine.execPul row2 mask s
  | .pshAll => Sys2Proof.Machine.execPshAll s
  | .pshAll16b => Sys2Proof.Machine.execPshAll16b s
  | .pulAll => Sys2Proof.Machine.execPulAll s
  | .pulAll16b => Sys2Proof.Machine.execPulAll16b s
  | .lea r o => Sys2Proof.Machine.execLea r o s
  | .leaImm r imm => Sys2Proof.Machine.execLeaImm r imm s
  | .clrB o => Sys2Proof.Machine.execClrB o s
  | .clrW o => Sys2Proof.Machine.execClrW o s
  | .clrP o => Sys2Proof.Machine.execClrP o s
  | .clrL o => Sys2Proof.Machine.execClrL o s
  | .clrD d => Sys2Proof.Machine.execClrD d s
  | .clrXY r => Sys2Proof.Machine.execClrXY r s
  | .tfr src dst => Sys2Proof.Machine.execTfr src dst s
  | .zex src dst => Sys2Proof.Machine.execZex src dst s
  | .exg src dst => Sys2Proof.Machine.execExg src dst s
  | .sex src dst => Sys2Proof.Machine.execSex src dst s
  | .add d m => Sys2Proof.Machine.execAdd d m s
  | .adc d m => Sys2Proof.Machine.execAdc d m s
  | .sub d m => Sys2Proof.Machine.execSub d m s
  | .subD6 yMinusX => Sys2Proof.Machine.execSubD6 yMinusX s
  | .sbc d m => Sys2Proof.Machine.execSbc d m s
  | .incD d => Sys2Proof.Machine.execIncD d s
  | .incB o => Sys2Proof.Machine.execIncB o s
  | .incW o => Sys2Proof.Machine.execIncW o s
  | .incL o => Sys2Proof.Machine.execIncL o s
  | .decD d => Sys2Proof.Machine.execDecD d s
  | .decB o => Sys2Proof.Machine.execDecB o s
  | .decW o => Sys2Proof.Machine.execDecW o s
  | .decL o => Sys2Proof.Machine.execDecL o s
  | .cmpD d m => Sys2Proof.Machine.execCmpD d m s
  | .cmpXY r m => Sys2Proof.Machine.execCmpXY r m s
  | .cmpS m => Sys2Proof.Machine.execCmpS m s
  | .cmpXwithY => Sys2Proof.Machine.execCmpXwithY s
  | .negB o => Sys2Proof.Machine.execNegB o s
  | .negW o => Sys2Proof.Machine.execNegW o s
  | .negL o => Sys2Proof.Machine.execNegL o s
  | .abs d => Sys2Proof.Machine.execAbs d s
  | .muls d j k => Sys2Proof.Machine.execMuls d j k s
  | .mulsB d j o => Sys2Proof.Machine.execMulsB d j o s
  | .mulsW d j o => Sys2Proof.Machine.execMulsW d j o s
  | .mulsL d j o => Sys2Proof.Machine.execMulsL d j o s
  | .mulsOO d s1 o1 s2 o2 => Sys2Proof.Machine.execMulsOO d s1 o1 s2 o2 s
  | .mulu d j k => Sys2Proof.Machine.execMulu d j k s
  | .muluB d j o => Sys2Proof.Machine.execMuluB d j o s
  | .muluW d j o => Sys2Proof.Machine.execMuluW d j o s
  | .muluL d j o => Sys2Proof.Machine.execMuluL d j o s
  | .muluOO d s1 o1 s2 o2 => Sys2Proof.Machine.execMuluOO d s1 o1 s2 o2 s
  | .macs d j k => Sys2Proof.Machine.execMacs d j k s
  | .macsB d j o => Sys2Proof.Machine.execMacsB d j o s
  | .macsW d j o => Sys2Proof.Machine.execMacsW d j o s
  | .macsL d j o => Sys2Proof.Machine.execMacsL d j o s
  | .macsOO d s1 o1 s2 o2 => Sys2Proof.Machine.execMacsOO d s1 o1 s2 o2 s
  | .macu d j k => Sys2Proof.Machine.execMacu d j k s
  | .macuB d j o => Sys2Proof.Machine.execMacuB d j o s
  | .macuW d j o => Sys2Proof.Machine.execMacuW d j o s
  | .macuL d j o => Sys2Proof.Machine.execMacuL d j o s
  | .macuOO d s1 o1 s2 o2 => Sys2Proof.Machine.execMacuOO d s1 o1 s2 o2 s
  | .divs d j k => Sys2Proof.Machine.execDivs d j k s
  | .divsB d j o => Sys2Proof.Machine.execDivsB d j o s
  | .divsW d j o => Sys2Proof.Machine.execDivsW d j o s
  | .divsL d j o => Sys2Proof.Machine.execDivsL d j o s
  | .divsOO d s1 o1 s2 o2 => Sys2Proof.Machine.execDivsOO d s1 o1 s2 o2 s
  | .divu d j k => Sys2Proof.Machine.execDivu d j k s
  | .divuB d j o => Sys2Proof.Machine.execDivuB d j o s
  | .divuW d j o => Sys2Proof.Machine.execDivuW d j o s
  | .divuL d j o => Sys2Proof.Machine.execDivuL d j o s
  | .divuOO d s1 o1 s2 o2 => Sys2Proof.Machine.execDivuOO d s1 o1 s2 o2 s
  | .mods d j k => Sys2Proof.Machine.execMods d j k s
  | .modsB d j o => Sys2Proof.Machine.execModsB d j o s
  | .modsW d j o => Sys2Proof.Machine.execModsW d j o s
  | .modsL d j o => Sys2Proof.Machine.execModsL d j o s
  | .modsOO d s1 o1 s2 o2 => Sys2Proof.Machine.execModsOO d s1 o1 s2 o2 s
  | .modu d j k => Sys2Proof.Machine.execModu d j k s
  | .moduB d j o => Sys2Proof.Machine.execModuB d j o s
  | .moduW d j o => Sys2Proof.Machine.execModuW d j o s
  | .moduL d j o => Sys2Proof.Machine.execModuL d j o s
  | .moduOO d s1 o1 s2 o2 => Sys2Proof.Machine.execModuOO d s1 o1 s2 o2 s
  | .qmuls d j k => Sys2Proof.Machine.execQmuls d j k s
  | .qmulsB d j o => Sys2Proof.Machine.execQmulsB d j o s
  | .qmulsW d j o => Sys2Proof.Machine.execQmulsW d j o s
  | .qmulsL d j o => Sys2Proof.Machine.execQmulsL d j o s
  | .qmulsOO d s1 o1 s2 o2 => Sys2Proof.Machine.execQmulsOO d s1 o1 s2 o2 s
  | .qmulu d j k => Sys2Proof.Machine.execQmulu d j k s
  | .qmuluB d j o => Sys2Proof.Machine.execQmuluB d j o s
  | .qmuluW d j o => Sys2Proof.Machine.execQmuluW d j o s
  | .qmuluL d j o => Sys2Proof.Machine.execQmuluL d j o s
  | .qmuluOO d s1 o1 s2 o2 => Sys2Proof.Machine.execQmuluOO d s1 o1 s2 o2 s
  | .sat d => Sys2Proof.Machine.execSat d s
  | .clb src d => Sys2Proof.Machine.execClb src d s
  | .and d m => Sys2Proof.Machine.execAnd d m s
  | .or d m => Sys2Proof.Machine.execOr d m s
  | .eor d m => Sys2Proof.Machine.execEor d m s
  | .bit d m => Sys2Proof.Machine.execBit d m s
  | .comB o => Sys2Proof.Machine.execComB o s
  | .comW o => Sys2Proof.Machine.execComW o s
  | .comL o => Sys2Proof.Machine.execComL o s
  | .andcc imm => Sys2Proof.Machine.execAndcc imm s
  | .orcc imm => Sys2Proof.Machine.execOrcc imm s
  | .clc => Sys2Proof.Machine.execClc s
  | .cli => Sys2Proof.Machine.execCli s
  | .clv => Sys2Proof.Machine.execClv s
  | .sec => Sys2Proof.Machine.execSec s
  | .sei => Sys2Proof.Machine.execSei s
  | .sev => Sys2Proof.Machine.execSev s
  | .asl d src n => Sys2Proof.Machine.execAsl d src n s
  | .aslOpr f => Sys2Proof.Machine.execAslOpr f s
  | .asr d src n => Sys2Proof.Machine.execAsr d src n s
  | .asrOpr f => Sys2Proof.Machine.execAsrOpr f s
  | .lsl d src n => Sys2Proof.Machine.execLsl d src n s
  | .lslOpr f => Sys2Proof.Machine.execLslOpr f s
  | .lsr d src n => Sys2Proof.Machine.execLsr d src n s
  | .lsrOpr f => Sys2Proof.Machine.execLsrOpr f s
  | .rol sz o => Sys2Proof.Machine.execRol sz o s
  | .ror sz o => Sys2Proof.Machine.execRor sz o s
  | .bset m => Sys2Proof.Machine.execBset m s
  | .bclr m => Sys2Proof.Machine.execBclr m s
  | .btgl m => Sys2Proof.Machine.execBtgl m s
  | .bfext d src p => Sys2Proof.Machine.execBfext d src p s
  | .bfextOpr f => Sys2Proof.Machine.execBfextOpr f s
  | .bfins d src p => Sys2Proof.Machine.execBfins d src p s
  | .bfinsOpr f => Sys2Proof.Machine.execBfinsOpr f s
  | .maxs d o => Sys2Proof.Machine.execMaxs d o s
  | .maxu d o => Sys2Proof.Machine.execMaxu d o s
  | .mins d o => Sys2Proof.Machine.execMins d o s
  | .minu d o => Sys2Proof.Machine.execMinu d o s
  | .bra rel => Sys2Proof.Machine.execBra rel s
  | .bsr rel => Sys2Proof.Machine.execBsr rel s
  | .bhi rel => Sys2Proof.Machine.execBhi rel s
  | .bls rel => Sys2Proof.Machine.execBls rel s
  | .bcc rel => Sys2Proof.Machine.execBcc rel s
  | .bcs rel => Sys2Proof.Machine.execBcs rel s
  | .bne rel => Sys2Proof.Machine.execBne rel s
  | .beq rel => Sys2Proof.Machine.execBeq rel s
  | .bvc rel => Sys2Proof.Machine.execBvc rel s
  | .bvs rel => Sys2Proof.Machine.execBvs rel s
  | .bpl rel => Sys2Proof.Machine.execBpl rel s
  | .bmi rel => Sys2Proof.Machine.execBmi rel s
  | .bge rel => Sys2Proof.Machine.execBge rel s
  | .blt rel => Sys2Proof.Machine.execBlt rel s
  | .bgt rel => Sys2Proof.Machine.execBgt rel s
  | .ble rel => Sys2Proof.Machine.execBle rel s
  | .bhs rel => Sys2Proof.Machine.execBhs rel s
  | .blo rel => Sys2Proof.Machine.execBlo rel s
  | .brclr m rel => Sys2Proof.Machine.execBrclr m rel s
  | .brset m rel => Sys2Proof.Machine.execBrset m rel s
  | .dbcc c ctr rel => Sys2Proof.Machine.execDbcc c ctr rel s
  | .dbccOpr c sz o rel => Sys2Proof.Machine.execDbccOpr c sz o rel s
  | .tbcc c ctr rel => Sys2Proof.Machine.execTbcc c ctr rel s
  | .tbccOpr c sz o rel => Sys2Proof.Machine.execTbccOpr c sz o rel s
  | .jmp t => Sys2Proof.Machine.execJmp t s
  | .jsr t => Sys2Proof.Machine.execJsr t s
  | .rts => Sys2Proof.Machine.execRts s
  | .swi => Sys2Proof.Machine.execSwi s
  | .sys => Sys2Proof.Machine.execSys s
  | .trap tn => Sys2Proof.Machine.execTrap tn s
  | .spare => Sys2Proof.Machine.execSpare s
  | .rti => Sys2Proof.Machine.execRti s
  | .wai => Sys2Proof.Machine.execWai s
  | .stop => Sys2Proof.Machine.execStop s
  | .nop => Sys2Proof.Machine.execNop s
  | .bgnd => Sys2Proof.Machine.execBgnd s

end Sys2Proof.Machine
end

