-- ==== Sys2Proof/Machine/Boundary.lean ====
section
/-! DEFINITION. What happens at an instruction boundary, piece by piece (R415, R420, R421, R452, R388). -/

namespace Sys2Proof.Machine

/-! ## The memory map's answers -/

/-- The classes of the addresses of an access (D6). -/
def Access.classes (map : MemMap) (a : Access) : List AddrClass :=
  (addressRun a.addr a.bytes).map map.classAt

/-- Why the map refuses an access, if it does (D6, U6; log entry 3). -/
def Access.refused (map : MemMap) (a : Access) : Option Refusal :=
  if (a.classes map).contains .unimplemented then some .unimplementedAddress
  else if a.kind = .write ∧ (a.classes map).contains .romRefused then some .romWrite
  else none

/-- Whether an access makes the MMC raise the machine exception (D5, D6). -/
def Access.raises (map : MemMap) (a : Access) : Bool := (a.classes map).contains .unimplementedRaising

/-- The accesses of the step, in order. -/
def State.accesses (s : State) : List Access :=
  s.trace.reverse.filterMap fun e => match e with
    | .access a => some a
    | .spWritten => none

/-- What the map says of a step that has ended: the first access it refuses ends the run; an access to an
address that raises leaves a request of the MMC (D5, D6, R431; log entry 3). -/
def settle : Result → Result
  | .next t =>
    match t.accesses.findSome? (Access.refused t.map) with
    | some r => .refused r
    | none => .next { t with machineRequest := t.machineRequest || t.accesses.any (Access.raises t.map) }
  | .fault f => .fault f
  | .refused r => .refused r

/-! ## The step -/

/-- Fetch, decode and execute the instruction at PC, then update the shadow (R66, R80, R411, R415). -/
def runInstruction (s : State) : Result :=
  match decode s.fetchBytes with
  | .error _ => .fault .undecodable
  | .ok (i, _) =>
    match exec i (s.fetched i) with
    | .next t => .next { t with irqShadow := nextShadow i s.ccr t.ccr }
    | .fault f => .fault f
    | .refused r => .refused r

/-- A running CPU: machine exception, then interrupt, then the instruction (R401, R415). -/
def runningStep (s : State) : Result :=
  if s.input.machineException || s.machineRequest then .next s.machineException
  else
    match interruptPending s.input.irqs s.irqShadow s.ccr with
    | some (k, req) => .next { s.exceptionEntry (.interrupt k req) s.pc with irqShadow := false }
    | none => runInstruction s

/-- `WakeStep()`: an enabled interrupt over the stacked frame, else the 'continue' exit, else nothing
(R420, R421; log entries 15 and 28). -/
def wakeStep (s : State) : State :=
  match interruptPending s.input.irqs false s.ccr with
  | some (k, req) => { s.takeInterruptNoStack k req with runState := .running }
  | none =>
    if s.input.wakeContinue then { s.setSp (s.sp + frameBytes) with runState := .running } else s

/-- A halted CPU goes on at PC when the debug host says 'Go' (R388; log entry 35). -/
def haltedStep (s : State) : State :=
  if s.input.go then { s with runState := .running } else s

/-- One step by `run_state`, no reset being requested (R415). -/
def boundaryStep (s : State) : Result :=
  match s.runState with
  | .halted => .next (haltedStep s)
  | .waiting => .next (wakeStep s)
  | .stopped => .next (wakeStep s)
  | .running => runningStep s

/-- A reset in the middle of what the step does: what that could have written is open, then reset (R452, U2,
U7; log entry 14). -/
def abandonedReset (s : State) : State :=
  match boundaryStep s with
  | .next t => (s.abandon t).warmReset
  | .fault _ => s.abandonUnknown.warmReset
  | .refused _ => s.abandonUnknown.warmReset

/-- A step that has used up one entry of the outside world's list. -/
def usedInput : Result → Result
  | .next t => .next t.nextInput
  | .fault f => .fault f
  | .refused r => .refused r

/-- Bytes placed in memory from an address on. -/
def State.placeBytes (s : State) (a : Addr) (bs : List Byte) : State :=
  { s with mem := s.mem.writeBytes (fun _ => true) a bs }

/-- A list of outside answers whose first entry asks for nothing. -/
def quietFirst : List HostInputs → List HostInputs
  | [] => []
  | l => HostInputs.quiet :: l

end Sys2Proof.Machine
end

