-- ==== Sys2Proof/Machine/Step.lean ====
section
/-! DEFINITION. One step of the machine, and where the host places an instruction. -/

namespace Sys2Proof.Machine

/-- `Step()` (R415): reset first, also in the middle of the rest; then by `run_state`; the memory map answers
for the accesses made. -/
def step (s : State) : Host.Outcome State Fault Refusal :=
  usedInput <| settle <|
    match s.input.reset with
    | .boundary => .next s.begun.warmReset
    | .midInstruction => .next (abandonedReset s.begun)
    | .none => boundaryStep s.begun

/-- `s` with one instruction's bytes at the program counter, in RAM, its CPU running and nothing asked from
outside (log entries 16 and 17). -/
def State.withFetchWord (s : State) (nbits w : Nat) : State :=
  { s.placeBytes s.pc ((tableBytes nbits w).take maxInstrBytes) with
    map := [], runState := .running, machineRequest := false, inputs := quietFirst s.inputs }

end Sys2Proof.Machine
end

