-- ==== Sys2Proof/Safety.lean ====
section
/-! DEFINITION. The terms statements are made in: what a step leaves unchanged, what a completed
instruction is, and what the arithmetic of each family asks of values and flags, said in integers. -/

namespace Sys2Proof.Machine

/-! ## What is unchanged -/

/-- The invariant of every reachable state: memory is in its canonical form. -/
def State.Inv (s : State) : Prop := s.mem.wf = true

/-- U, IPL, S, X and I are as before (R18). -/
def Ccr.SystemSame (c c' : Ccr) : Prop :=
  c'.u = c.u ∧ c'.ipl = c.ipl ∧ c'.s = c.s ∧ c'.xm = c.xm ∧ c'.i = c.i

/-- N, Z, V and C are as before (R28). -/
def Ccr.FlagsSame (c c' : Ccr) : Prop := c'.n = c.n ∧ c'.z = c.z ∧ c'.v = c.v ∧ c'.c = c.c

/-- The state outside registers, CCR and memory is as before. -/
structure MachineSame (s t : State) : Prop where
  runState : t.runState = s.runState
  irqShadow : t.irqShadow = s.irqShadow
  vec : t.vec = s.vec
  enbdm : t.enbdm = s.enbdm
  inputs : t.inputs = s.inputs
  taken : t.taken = s.taken
  map : t.map = s.map
  machineRequest : t.machineRequest = s.machineRequest

/-- Every byte outside the `n` bytes from `a` on (modulo 2^24) reads as before; all bytes, for `n = 0`. -/
def BytesSame (s t : State) (a : Addr) (n : Nat) : Prop :=
  ∀ b : Addr, n ≤ (b - a).toNat → t.mem.read b.toNat = s.mem.read b.toNat

/-- Byte `k`, counted from the most significant, of a number of `n` bytes. -/
def byteOf (n v k : Nat) : Nat := v / 256 ^ (n - 1 - k) % 256

/-- `v` is what `n` bytes from `a` on give when read: the bytes that RAM and ROM hold there, most significant
first; a byte from any other address is open (R54, D6). -/
def State.Reads (s : State) (a : Addr) (n v : Nat) : Prop :=
  ∀ k < n, s.map.isMemory (a + BitVec.ofNat 24 k).toNat = true →
    byteOf n v k = (s.mem.read (a + BitVec.ofNat 24 k).toNat).toNat

/-- `n` bytes from `a` on hold `v`, where they are RAM; elsewhere the write has changed nothing (R55, D6); the
write is one of the step's accesses, made in supervisor state or not (R404, R440; log entries 3 and 39). -/
structure StoredAs (supervisor : Bool) (s t : State) (a : Addr) (n v : Nat) : Prop where
  bytes : ∀ k < n, (t.mem.read (a + BitVec.ofNat 24 k).toNat).toNat =
    if s.map.isRam (a + BitVec.ofNat 24 k).toNat then byteOf n v k
    else (s.mem.read (a + BitVec.ofNat 24 k).toNat).toNat
  noted : .access ⟨.write, supervisor, a, n⟩ ∈ t.trace

/-- The same, in the state of U. -/
abbrev Stored (s t : State) (a : Addr) (n v : Nat) : Prop := StoredAs (!s.ccr.u) s t a n v

/-- The `n` bytes from `a` on are RAM. -/
def State.RamAt (s : State) (a : Addr) (n : Nat) : Prop :=
  ∀ k < n, s.map.isRam (a + BitVec.ofNat 24 k).toNat = true

/-- The data registers outside a list are as before. -/
def DataSame (s t : State) (except : List DReg) : Prop := ∀ r, r ∉ except → t.getD r = s.getD r

/-- X, Y and SP are as in another state. -/
def IndexAs (p t : State) : Prop := t.x = p.x ∧ t.y = p.y ∧ t.sp = p.sp

/-- The frame of an instruction that writes the data registers `ds` and `n` bytes from `a` on, leaves X, Y
and SP as in `p`, and writes no CCR bit but N, Z, V, C. -/
structure Frame (s p t : State) (ds : List DReg) (a : Addr) (n : Nat) : Prop where
  data : DataSame s t ds
  index : IndexAs p t
  system : s.ccr.SystemSame t.ccr
  machine : MachineSame s t
  bytes : BytesSame s t a n

/-- The frame of an instruction that stores nothing. -/
abbrev RegFrame (s p t : State) (ds : List DReg) : Prop := Frame s p t ds 0 0

/-! ## Completion -/

/-- The instruction answers a next state, and it is as `post` says. -/
def Gives (i : Instr) (s : State) (post : State → Prop) : Prop := ∃ t, exec i s = .next t ∧ post t

/-- The instruction answers a next state at the address after it (R29), and it is as `post` says. -/
def Runs (i : Instr) (s : State) (post : State → Prop) : Prop :=
  Gives i s fun t => t.pc = s.pc + BitVec.ofNat 24 (encode i).length ∧ post t

/-- A read-modify-write instruction (R200): a register operand at its own width, a memory operand at the
coded size; a short immediate cannot be written (U2; log entry 8). -/
def RmwRuns (i : Instr) (o : Opr) (sz : Size) (s : State)
    (post : ∀ {w : Nat}, BitVec w → BitVec w → Ccr → Ccr → Prop) : Prop :=
  match s.oprLoc o sz.bytes with
  | .imm _ => exec i s = .refused .immediateDestination
  | .reg r => Runs i s fun t =>
      post (s.getD r) (t.getD r) s.ccr t.ccr ∧ RegFrame s (s.oprMoved o sz.bytes) t [r]
  | .mem ea => Runs i s fun t =>
      ∃ r : BitVec sz.bits, post ((s.oprMoved o sz.bytes).load ea sz) r s.ccr t.ccr ∧
        Stored s t ea sz.bytes r.toNat ∧ Frame s (s.oprMoved o sz.bytes) t [] ea sz.bytes

/-- An instruction that writes a value of the coded size to an operand: a register takes it truncated or
zero-extended (R102, R118). -/
def StoresTo (i : Instr) (s p : State) (l : Loc) (sz : Size) (v : BitVec sz.bits)
    (flags : Ccr → Ccr → Prop) : Prop :=
  match l with
  | .imm _ => exec i s = .refused .immediateDestination
  | .reg r => Runs i s fun t =>
      (t.getD r).toNat = v.toNat % 2 ^ r.bits ∧ flags s.ccr t.ccr ∧ RegFrame s p t [r]
  | .mem ea => Runs i s fun t =>
      Stored s t ea sz.bytes v.toNat ∧ flags s.ccr t.ccr ∧ Frame s p t [] ea sz.bytes

/-! ## Flags in integers -/

/-- An integer outside the signed range of `w` bits. -/
def SignedOut (w : Nat) (x : Int) : Prop := x < -(2 : Int) ^ (w - 1) ∨ (2 : Int) ^ (w - 1) ≤ x

/-- An integer outside the unsigned range of `w` bits. -/
def UnsignedOut (w : Nat) (x : Int) : Prop := x < 0 ∨ (2 : Int) ^ w ≤ x

/-- Outside the range an instruction of that signedness has. -/
def RangeOut (signed : Bool) (w : Nat) (x : Int) : Prop :=
  if signed then SignedOut w x else UnsignedOut w x

/-- N is the MSB, Z says whether the value is zero. -/
def NZOf {w : Nat} (r : BitVec w) (c : Ccr) : Prop := c.n = r.msb ∧ (c.z = true ↔ r.toNat = 0)

/-- N and Z of the value, V cleared, C kept (R160, R260). -/
def LoadFlagsOf {w : Nat} (r : BitVec w) (c c' : Ccr) : Prop :=
  NZOf r c' ∧ c'.v = false ∧ c'.c = c.c

/-- CLR's flags (R172). -/
def ClearedFlags (_ c' : Ccr) : Prop := c'.n = false ∧ c'.z = true ∧ c'.v = false ∧ c'.c = false

/-- N, V, C of a sum, and the sum modulo 2^w (R201, R202). -/
def SumOf {w : Nat} (a b : BitVec w) (cin : Nat) (r : BitVec w) (c' : Ccr) : Prop :=
  r.toNat = (a.toNat + b.toNat + cin) % 2 ^ w ∧ c'.n = r.msb ∧
  (c'.v = true ↔ SignedOut w (a.toInt + b.toInt + cin)) ∧
  (c'.c = true ↔ 2 ^ w ≤ a.toNat + b.toNat + cin)

/-- N, V, C of a difference, and the difference modulo 2^w (R203, R205). -/
def DifferenceOf {w : Nat} (a b : BitVec w) (bin : Nat) (r : BitVec w) (c' : Ccr) : Prop :=
  (r.toNat : Int) = ((a.toNat : Int) - b.toNat - bin) % 2 ^ w ∧ c'.n = r.msb ∧
  (c'.v = true ↔ SignedOut w (a.toInt - b.toInt - bin)) ∧
  (c'.c = true ↔ a.toNat < b.toNat + bin)

/-- The four flags of a comparison (R208). -/
def CompareFlags {w : Nat} (a b : BitVec w) (c' : Ccr) : Prop :=
  (∃ r : BitVec w, DifferenceOf a b 0 r c') ∧ (c'.z = true ↔ a = b)

/-! ## Families -/

/-- INC (R206). -/
def Incremented {w : Nat} (a r : BitVec w) (c c' : Ccr) : Prop :=
  r.toNat = (a.toNat + 1) % 2 ^ w ∧ NZOf r c' ∧
  (c'.v = true ↔ SignedOut w (a.toInt + 1)) ∧ c'.c = c.c

/-- DEC (R207). -/
def Decremented {w : Nat} (a r : BitVec w) (c c' : Ccr) : Prop :=
  r.toNat = (a.toNat + (2 ^ w - 1)) % 2 ^ w ∧ NZOf r c' ∧
  (c'.v = true ↔ SignedOut w (a.toInt - 1)) ∧ c'.c = c.c

/-- NEG (R212). -/
def Negated {w : Nat} (a r : BitVec w) (_ c' : Ccr) : Prop :=
  (a.toNat + r.toNat) % 2 ^ w = 0 ∧ NZOf r c' ∧
  (c'.v = true ↔ SignedOut w (-a.toInt)) ∧ (c'.c = true ↔ a.toNat ≠ 0)

/-- COM (R265). -/
def Complemented {w : Nat} (a r : BitVec w) (c c' : Ccr) : Prop :=
  a.toNat + r.toNat = 2 ^ w - 1 ∧ LoadFlagsOf r c c'

/-- ROL (R295). -/
def RotatedLeft {w : Nat} (a r : BitVec w) (c c' : Ccr) : Prop :=
  r.toNat = (2 * a.toNat + c.c.toNat) % 2 ^ w ∧ NZOf r c' ∧ c'.v = false ∧ c'.c = a.msb

/-- ROR (R296). -/
def RotatedRight {w : Nat} (a r : BitVec w) (c c' : Ccr) : Prop :=
  r.toNat = a.toNat / 2 + c.c.toNat * 2 ^ (w - 1) ∧ NZOf r c' ∧ c'.v = false ∧
  (c'.c = true ↔ a.toNat % 2 = 1)

/-- BSET, BCLR, BTGL: the selected bit becomes what `f` makes of it, the others stay, its old value goes to
C; a bit number beyond the operand selects nothing (R310 to R312, R315). -/
def BitChanged (f : Bool → Bool) (n : Nat) {w : Nat} (a r : BitVec w) (_ c' : Ccr) : Prop :=
  (∀ k < w, r.getLsbD k = if k = n then f (a.getLsbD k) else a.getLsbD k) ∧
  NZOf r c' ∧ c'.v = false ∧ c'.c = a.getLsbD n

/-- A shift of a source of `ws` bits by `n` into `wd` bits, said of the exact shifted integer: ASL and LSL
multiply, ASR and LSR divide with floor; V says that the result does not fit, C is the last bit shifted out
of the working width (R290 to R294; log entry 26). -/
def ShiftedTo (k : ShiftKind) {ws wd : Nat} (v : BitVec ws) (n : Nat) (r : BitVec wd) (c c' : Ccr) : Prop :=
  let x : Int := if k.signed then v.toInt else v.toNat
  let exact (m : Nat) : Int := match k with
    | .asl | .lsl => x * 2 ^ m
    | .asr | .lsr => x / 2 ^ m
  (r.toNat : Int) = exact n % 2 ^ wd ∧
  (c'.n = match k with
    | .asl => !v.msb
    | _ => r.msb) ∧
  (c'.z = true ↔ r.toNat = 0) ∧
  (c'.v = true ↔ RangeOut k.signed wd (exact n)) ∧
  (if n = 0 then c'.c = c.c
   else (c'.c = true ↔ match k with
    | .asl | .lsl => exact (n - 1) / 2 ^ (max ws wd - 1) % 2 = 1
    | .asr | .lsr => exact (n - 1) % 2 = 1))

/-- A field of the source at the low end of the result (R313). -/
def FieldExtracted {ws wd : Nat} (src : BitVec ws) (wdt off : Nat) (r : BitVec wd) : Prop :=
  ∀ k < wd, r.getLsbD k = (decide (k < wdt) && src.getLsbD (off + k))

/-- The low bits of the source in the destination's field, its other bits kept (R314). -/
def FieldInserted {ws wd : Nat} (src : BitVec ws) (wdt off : Nat) (old r : BitVec wd) : Prop :=
  ∀ k < wd, r.getLsbD k =
    if off ≤ k ∧ k < off + wdt then src.getLsbD (k - off) else old.getLsbD k

/-! ## Registers as TFR, EXG, PSH and PUL take them -/

/-- Nothing but the CCR differs (and the PC). -/
structure CcrOnly (s t : State) : Prop where
  data : DataSame s t []
  index : IndexAs s t
  machine : MachineSame s t
  bytes : BytesSame s t 0 0

/-- A CPU register as a number (R176); a reserved code is none. -/
def State.cpuNat (s : State) : CpuReg → Nat
  | .d r => (s.getD r).toNat
  | .x => s.x.toNat
  | .y => s.y.toNat
  | .s => s.sp.toNat
  | .cch => s.ccr.word.toNat / 256
  | .ccl => s.ccr.word.toNat % 256
  | .ccw => s.ccr.word.toNat
  | .resB | .resF => 0

/-- A number of `ws` bits sign-extended to `wd` bits. -/
def sextNat (ws wd v : Nat) : Nat := if v < 2 ^ (ws - 1) then v else v + 2 ^ wd - 2 ^ ws

/-- One CPU register holds a number modulo its width, the CCR parts through `WriteCCR`; nothing else differs
(R176). -/
def CpuWritten (s t : State) (dst : CpuReg) (v : Nat) : Prop :=
  match dst with
  | .d r => (t.getD r).toNat = v % 2 ^ r.bits ∧ s.ccr.FlagsSame t.ccr ∧ RegFrame s s t [r]
  | .x => s.ccr.FlagsSame t.ccr ∧ RegFrame s { s with x := BitVec.ofNat 24 v } t []
  | .y => s.ccr.FlagsSame t.ccr ∧ RegFrame s { s with y := BitVec.ofNat 24 v } t []
  | .s => s.ccr.FlagsSame t.ccr ∧ RegFrame s { s with sp := BitVec.ofNat 24 v } t []
  | .cch => t.ccr = s.ccr.writeMasked (BitVec.ofNat 16 (v % 256 * 256)) true false ∧ CcrOnly s t
  | .ccl => t.ccr = s.ccr.writeMasked (BitVec.ofNat 16 (v % 256)) false true ∧ CcrOnly s t
  | .ccw => t.ccr = s.ccr.writeMasked (BitVec.ofNat 16 v) true true ∧ CcrOnly s t
  | .resB | .resF => t.ccr = s.ccr ∧ CcrOnly s t

/-- The order in which PUL ALL pulls (R169); PSH ALL pushes in the reverse order (R168). -/
def stackOrder : List StackReg :=
  [.cch, .ccl, .d .d0, .d .d1, .d .d2, .d .d3, .d .d4, .d .d5, .d .d6, .d .d7, .xy .x, .xy .y]

/-- The mask (1 or 2) and the bit of a register in `pb` (R168). -/
def maskBit : StackReg → Bool × Nat
  | .cch => (false, 5)
  | .ccl => (false, 4)
  | .d .d0 => (false, 3)
  | .d .d1 => (false, 2)
  | .d .d2 => (false, 1)
  | .d .d3 => (false, 0)
  | .d .d4 => (true, 5)
  | .d .d5 => (true, 4)
  | .d .d6 => (true, 3)
  | .d .d7 => (true, 2)
  | .xy .x => (true, 1)
  | .xy .y => (true, 0)

/-- Whether `pb` names a register: by its bit, or, with no bit set, all of them or the four of 16 bits
(R168). -/
def stackSelected (row2 : Bool) (mask : BitVec 6) (r : StackReg) : Bool :=
  if mask = 0 then !row2 || [StackReg.d .d2, .d .d3, .d .d4, .d .d5].contains r
  else (maskBit r).1 == row2 && mask.getLsbD (maskBit r).2

/-- The registers that `pb` names, the lowest address first. -/
def stackNamed (row2 : Bool) (mask : BitVec 6) : List StackReg :=
  stackOrder.filter (stackSelected row2 mask)

/-- The bytes of a register on the stack (R168). -/
def stackBytes : StackReg → Nat
  | .cch | .ccl => 1
  | .d r => r.size.bytes
  | .xy _ => 3

def stackTotal (l : List StackReg) : Nat := (l.map stackBytes).sum

/-- What PSH stores for a register (R168). -/
def State.stackNat (s : State) : StackReg → Nat
  | .cch => s.ccr.word.toNat / 256
  | .ccl => s.ccr.word.toNat % 256
  | .d r => (s.getD r).toNat
  | .xy r => (s.getXY r).toNat

/-! ## Branches and loops -/

/-- The offset of a relative branch (R89). -/
def relInt : Rel → Int
  | .short off => off.toInt
  | .long off => off.toInt

/-- `Target` of R340. -/
def State.relTarget (s : State) (rel : Rel) : Addr := BitVec.ofInt 24 (s.pc.toNat + relInt rel)

/-- A branch: nothing but the PC differs (R340). -/
def BranchesOn (cond : Bool) (i : Instr) (rel : Rel) (s : State) : Prop :=
  exec i s = .next { s with
    pc := if cond then s.relTarget rel else s.pc + BitVec.ofNat 24 (encode i).length }

/-- The conditions of DBcc and TBcc on the value that counts (R361). -/
def LoopTaken (c : LoopCond) {w : Nat} (r : BitVec w) : Prop :=
  match c with
  | .ne => r.toInt ≠ 0
  | .eq => r.toInt = 0
  | .pl => 0 ≤ r.toInt
  | .mi => r.toInt < 0
  | .gt => 0 < r.toInt
  | .le => r.toInt ≤ 0
  | .never6 | .never7 => False

/-- Where a loop or bit branch instruction goes on. -/
def LoopsTo (taken : Prop) (i : Instr) (rel : Rel) (s t : State) : Prop :=
  (taken → t.pc = s.relTarget rel) ∧
  (¬taken → t.pc = s.pc + BitVec.ofNat 24 (encode i).length)

/-- The two runs of bytes have one in common (R52). -/
def Overlap (a : Addr) (n : Nat) (b : Addr) (m : Nat) : Prop :=
  ∃ j < n, ∃ k < m, a + BitVec.ofNat 24 j = b + BitVec.ofNat 24 k

/-- How many bytes of an instruction are fetched before it acts: all but the offset of a DBcc on a general
operand, which R361 fetches after the counter is written. -/
def firstFetch : Instr → Nat
  | .dbccOpr _ _ o _ => 2 + o.enc.length
  | i => (encode i).length

/-- The offset at `a` in memory as it is in `t` (R66, R89). -/
def State.OffsetAt (t : State) (a : Addr) (rel : Rel) : Prop :=
  ∀ k (b : Byte), rel.enc[k]? = some b → t.map.isMemory (a + BitVec.ofNat 24 k).toNat = true →
    t.mem.read (a + BitVec.ofNat 24 k).toNat = b

/-! ## The `mb` instructions -/

/-- The ten instructions of the `mb` postbyte, without their signedness (R230). -/
inductive MathName where
  | mul | mac | div | mod | qmul
  deriving DecidableEq, Repr

/-- Their operand forms (R230). -/
inductive MathForm where
  | reg (j : DReg) (k : MathSrc)
  | oprB (j : DReg) (o : Opr)
  | oprW (j : DReg) (o : Opr)
  | oprL (j : DReg) (o : Opr)
  | oprOpr (s1 : Size) (o1 : Opr) (s2 : Size) (o2 : Opr)
  deriving DecidableEq, Repr

/-- The instruction of a name, a signedness, a destination and a form. -/
def mathInstr (n : MathName) (signed : Bool) (d : DReg) (f : MathForm) : Instr :=
  match n, signed, f with
  | .mul, true, .reg j k => .muls d j k
  | .mul, true, .oprB j o => .mulsB d j o
  | .mul, true, .oprW j o => .mulsW d j o
  | .mul, true, .oprL j o => .mulsL d j o
  | .mul, true, .oprOpr s1 o1 s2 o2 => .mulsOO d s1 o1 s2 o2
  | .mul, false, .reg j k => .mulu d j k
  | .mul, false, .oprB j o => .muluB d j o
  | .mul, false, .oprW j o => .muluW d j o
  | .mul, false, .oprL j o => .muluL d j o
  | .mul, false, .oprOpr s1 o1 s2 o2 => .muluOO d s1 o1 s2 o2
  | .mac, true, .reg j k => .macs d j k
  | .mac, true, .oprB j o => .macsB d j o
  | .mac, true, .oprW j o => .macsW d j o
  | .mac, true, .oprL j o => .macsL d j o
  | .mac, true, .oprOpr s1 o1 s2 o2 => .macsOO d s1 o1 s2 o2
  | .mac, false, .reg j k => .macu d j k
  | .mac, false, .oprB j o => .macuB d j o
  | .mac, false, .oprW j o => .macuW d j o
  | .mac, false, .oprL j o => .macuL d j o
  | .mac, false, .oprOpr s1 o1 s2 o2 => .macuOO d s1 o1 s2 o2
  | .div, true, .reg j k => .divs d j k
  | .div, true, .oprB j o => .divsB d j o
  | .div, true, .oprW j o => .divsW d j o
  | .div, true, .oprL j o => .divsL d j o
  | .div, true, .oprOpr s1 o1 s2 o2 => .divsOO d s1 o1 s2 o2
  | .div, false, .reg j k => .divu d j k
  | .div, false, .oprB j o => .divuB d j o
  | .div, false, .oprW j o => .divuW d j o
  | .div, false, .oprL j o => .divuL d j o
  | .div, false, .oprOpr s1 o1 s2 o2 => .divuOO d s1 o1 s2 o2
  | .mod, true, .reg j k => .mods d j k
  | .mod, true, .oprB j o => .modsB d j o
  | .mod, true, .oprW j o => .modsW d j o
  | .mod, true, .oprL j o => .modsL d j o
  | .mod, true, .oprOpr s1 o1 s2 o2 => .modsOO d s1 o1 s2 o2
  | .mod, false, .reg j k => .modu d j k
  | .mod, false, .oprB j o => .moduB d j o
  | .mod, false, .oprW j o => .moduW d j o
  | .mod, false, .oprL j o => .moduL d j o
  | .mod, false, .oprOpr s1 o1 s2 o2 => .moduOO d s1 o1 s2 o2
  | .qmul, true, .reg j k => .qmuls d j k
  | .qmul, true, .oprB j o => .qmulsB d j o
  | .qmul, true, .oprW j o => .qmulsW d j o
  | .qmul, true, .oprL j o => .qmulsL d j o
  | .qmul, true, .oprOpr s1 o1 s2 o2 => .qmulsOO d s1 o1 s2 o2
  | .qmul, false, .reg j k => .qmulu d j k
  | .qmul, false, .oprB j o => .qmuluB d j o
  | .qmul, false, .oprW j o => .qmuluW d j o
  | .qmul, false, .oprL j o => .qmuluL d j o
  | .qmul, false, .oprOpr s1 o1 s2 o2 => .qmuluOO d s1 o1 s2 o2

/-- A general operand as an `mb` instruction takes it: a register at its own width (D19, log entry 23), a short
immediate or memory at the coded size (`MbOpr`, R230). -/
def State.mbOperand (s : State) (o : Opr) (sz : Size) : Val :=
  match s.oprLoc o sz.bytes with
  | .imm e => ⟨sz.bits, immE4Value sz.bits e⟩
  | .reg r => ⟨r.bits, s.getD r⟩
  | .mem ea => ⟨sz.bits, (s.oprMoved o sz.bytes).load ea sz⟩

/-- The first operand (R230). -/
def MathForm.first (f : MathForm) (s : State) : Val :=
  match f with
  | .reg j _ | .oprB j _ | .oprW j _ | .oprL j _ => ⟨j.bits, s.getD j⟩
  | .oprOpr s1 o1 _ _ => s.mbOperand o1 s1

/-- The second operand (R230); after a first general operand it is found in the state that one leaves
(R120). -/
def MathForm.second (f : MathForm) (s : State) : Val :=
  match f with
  | .reg _ (.reg r) => ⟨r.bits, s.getD r⟩
  | .reg _ (.imm1 v) => ⟨8, v⟩
  | .reg _ (.imm2 v) => ⟨16, v⟩
  | .reg _ (.imm4 v) => ⟨32, v⟩
  | .oprB _ o => s.mbOperand o .b
  | .oprW _ o => s.mbOperand o .w
  | .oprL _ o => s.mbOperand o .l
  | .oprOpr s1 o1 s2 o2 => (s.oprDone o1 s1).mbOperand o2 s2

/-- The state once the operands are decoded and read. -/
def MathForm.moved (f : MathForm) (s : State) : State :=
  match f with
  | .reg _ _ => s
  | .oprB _ o => s.oprDone o .b
  | .oprW _ o => s.oprDone o .w
  | .oprL _ o => s.oprDone o .l
  | .oprOpr s1 o1 s2 o2 => (s.oprDone o1 s1).oprDone o2 s2

/-- The integer an operand stands for (R230). -/
def Val.intOf (signed : Bool) (x : Val) : Int := if signed then x.v.toInt else x.v.toNat

/-! ## The stack frame of an exception -/

/-- The frame of R403 at `a`: the context of `s` and the return address, stored in supervisor state (R404). -/
structure FrameHolds (s t : State) (a : Addr) (rtn : Addr) : Prop where
  ccr : StoredAs true s t a 2 s.ccr.word.toNat
  d0 : StoredAs true s t (a + 2) 1 s.d0.toNat
  d1 : StoredAs true s t (a + 3) 1 s.d1.toNat
  d2 : StoredAs true s t (a + 4) 2 s.d2.toNat
  d3 : StoredAs true s t (a + 6) 2 s.d3.toNat
  d4 : StoredAs true s t (a + 8) 2 s.d4.toNat
  d5 : StoredAs true s t (a + 10) 2 s.d5.toNat
  d6 : StoredAs true s t (a + 12) 4 s.d6.toNat
  d7 : StoredAs true s t (a + 16) 4 s.d7.toNat
  x : StoredAs true s t (a + 20) 3 s.x.toNat
  y : StoredAs true s t (a + 23) 3 s.y.toNat
  rtn : StoredAs true s t (a + 26) 3 rtn.toNat

/-- The registers that an exception entry keeps. -/
structure RegistersSame (s t : State) : Prop where
  data : DataSame s t []
  x : t.x = s.x
  y : t.y = s.y

/-- Exception entry (R403 to R405): 29 bytes below SP hold the old context, SP is 29 lower, everything else
but the CCR, the PC and what the kind says is as before. -/
structure ContextStacked (s t : State) (rtn : Addr) : Prop where
  sp : t.sp = s.sp - 29
  frame : FrameHolds s t (s.sp - 29) rtn
  registers : RegistersSame s t
  bytes : BytesSame s t (s.sp - 29) 29
  vec : t.vec = s.vec
  enbdm : t.enbdm = s.enbdm
  inputs : t.inputs = s.inputs
  map : t.map = s.map
  machineRequest : t.machineRequest = s.machineRequest

/-- What the entry does to the CCR: I set, U cleared, S, N, Z, V, C kept; IPL and X as given (R404). -/
def EnteredCcr (c c' : Ccr) (ipl : BitVec 3) (xm : Bool) : Prop :=
  c'.i = true ∧ c'.u = false ∧ c'.ipl = ipl ∧ c'.xm = xm ∧ c'.s = c.s ∧ c.FlagsSame c'

/-- What an instruction, an exception or a reset leaves of the parts that are no register of the CPU. -/
structure SurroundingsSame (s t : State) : Prop where
  vec : t.vec = s.vec
  enbdm : t.enbdm = s.enbdm
  inputs : t.inputs = s.inputs
  map : t.map = s.map

/-- The read of a vector, in supervisor state (R402, R404, R440). -/
def vectorRead (va : Addr) : Effect := .access ⟨.read, true, va, 3⟩

/-- The stores of the frame of R403 at `a`, in supervisor state, latest first, each after a move of SP (R58,
R404). -/
def frameTrace (a : Addr) : List Effect :=
  framePulls.flatMap fun p => [.access ⟨.write, true, a + BitVec.ofNat 24 p.1, p.2⟩, .spWritten]

/-- X after an interrupt of a kind (R404). -/
def irqXm (k : IrqKind) (c : Ccr) : Bool :=
  match k with
  | .xirq => true
  | .irq => c.xm

/-- LEA's result in its register; X, Y and SP otherwise as in `p` (R170). -/
def LeaWritten (s p t : State) (r : LeaDst) (a : Addr) : Prop :=
  match r with
  | .d6 => t.d6.toNat = a.toNat ∧ RegFrame s p t [.d6]
  | .d7 => t.d7.toNat = a.toNat ∧ RegFrame s p t [.d7]
  | .x => RegFrame s { p with x := a } t []
  | .y => RegFrame s { p with y := a } t []
  | .s => RegFrame s { p with sp := a } t []

/-- Whether an automatic submode moves the register that LEA loads (R170). -/
def leaSame (r : LeaDst) (m : AutoMode) : Bool :=
  match r, autoReg m with
  | .x, .x => true
  | .y, .y => true
  | .s, .s => true
  | _, _ => false

/-- MOV by its size (R167). -/
def movInstr (sz : Size) (src : MovSrc) (dst : Opr) : Instr :=
  match sz with
  | .b => .movB src dst
  | .w => .movW src dst
  | .p => .movP src dst
  | .l => .movL src dst

/-- The operand and the bit number of a `bm` instruction (R128, R315). -/
def bmNumber (s : State) : BmArg → Nat
  | .reg _ n => n.toNat
  | .opr _ n _ => n.toNat
  | .oprReg _ dn _ => (s.getD dn).toNat % 32

/-- What a `bm` instruction tests (R315). -/
def bmTested (s : State) : BmArg → Val
  | .reg r _ => ⟨r.bits, s.getD r⟩
  | .opr sz _ o => s.mbOperand o sz.size
  | .oprReg sz _ o => s.mbOperand o sz.size

/-- The state once a `bm` operand is decoded and read. -/
def bmDone (s : State) : BmArg → State
  | .reg _ _ => s
  | .opr sz _ o => s.oprDone o sz.size
  | .oprReg sz _ o => s.oprDone o sz.size

/-- BSET, BCLR, BTGL in all their forms (R315). -/
def BmRuns (i : Instr) (f : Bool → Bool) (m : BmArg) (s : State) : Prop :=
  match m with
  | .reg r _ => Runs i s fun t =>
      BitChanged f (bmNumber s m) (s.getD r) (t.getD r) s.ccr t.ccr ∧ RegFrame s s t [r]
  | .opr sz _ o => RmwRuns i o sz.size s (BitChanged f (bmNumber s m))
  | .oprReg sz _ o => RmwRuns i o sz.size s (BitChanged f (bmNumber s m))

/-- A shift into a register (R290). -/
def ShiftRuns (i : Instr) (k : ShiftKind) (d : DReg) (x : Val) (n : ShiftBy) (s p : State) : Prop :=
  Runs i s fun t =>
    ShiftedTo k x.v (p.shiftCount n) (t.getD d) s.ccr t.ccr ∧ RegFrame s (p.countMoved n) t [d]

/-- The shifts of a general operand (R290). -/
def ShiftOprRuns (i : Instr) (k : ShiftKind) (f : ShiftOpr) (s : State) : Prop :=
  match f with
  | .toReg d sz o n => ShiftRuns i k d (s.mbOperand o sz) n s (s.oprDone o sz)
  | .inPlace sz o two =>
    RmwRuns i o sz s fun a r c c' => ShiftedTo k a (if two then 2 else 1) r c c'

/-- No reset, machine exception or interrupt stands before the instruction at hand. -/
def State.Undisturbed (s : State) : Prop :=
  s.runState = .running ∧ s.input.reset = .none ∧ s.input.machineException = false ∧
  s.machineRequest = false ∧ interruptPending s.input.irqs s.irqShadow s.ccr = none

/-! ## The end of a step -/

/-- An access has an address of a class. -/
def Access.Touches (map : MemMap) (a : Access) (c : AddrClass) : Prop :=
  ∃ k < a.bytes, map.classAt (a.addr + BitVec.ofNat 24 k).toNat = c

/-- The map refuses an access of the step that ended in `t` (D6, U6). -/
def State.MapRefuses (t : State) : Prop :=
  ∃ a, .access a ∈ t.trace ∧
    (a.Touches t.map .unimplemented ∨ (a.kind = .write ∧ a.Touches t.map .romRefused))

/-- An access of the step that ended in `t` makes the MMC raise the machine exception (D5, D6). -/
def State.MapRaises (t : State) : Prop :=
  ∃ a, .access a ∈ t.trace ∧ a.Touches t.map .unimplementedRaising

/-- What a step answers that does what leads to `t`: a refusal by name where the map refuses an access, else `t`
with the MMC's request noted and one entry of the outside world's list used up (D5, D6, R415). -/
def StepsTo (s t : State) : Prop :=
  (t.MapRefuses → step s = .refused .unimplementedAddress ∨ step s = .refused .romWrite) ∧
  (¬t.MapRefuses → ∃ q : Bool, (q = true ↔ t.machineRequest = true ∨ t.MapRaises) ∧
    step s = .next { t with inputs := t.inputs.tail, machineRequest := q })

/-- An access of the step that ended in `t` has written to an address. -/
def State.WroteTo (t : State) (b : Addr) : Prop :=
  ∃ a, .access a ∈ t.trace ∧ a.kind = .write ∧ (b - a.addr).toNat < a.bytes

end Sys2Proof.Machine
end

