-- ==== Sys2Proof/Certificates/Slice0/Obligations.lean ====
section
/-! DEFINITION. The statements for the provers. Each docstring names the rules it rests on. -/

section

open Sys2Proof Sys2Proof.Machine

/-! ## Encoding -/

/-- Decoding what the encoder writes gives the instruction back (an alias: its core instruction), and leaves
the bytes after it (30_encoding.md). -/
def Obligations.DecodeOfEncode : Prop :=
  ∀ (i : Instr) (rest : List Byte), i.wf = true → decode (encode i ++ rest) = .ok (i.core, rest)

/-- Every eleven bytes begin with an instruction: it is well formed and no alias, and exactly the bytes of
its length are used, 1 to 11 (R81, R92, R121, R136). -/
def Obligations.DecodeTotal : Prop :=
  ∀ bs : List Byte, 11 ≤ bs.length → ∃ (i : Instr) (n : Nat),
    decode bs = .ok (i, bs.drop n) ∧ 1 ≤ n ∧ n ≤ 11 ∧ i.wf = true ∧ i.core = i ∧ (encode i).length = n

/-- Words written out from the spec's encodings and examples decode to what they stand for. -/
def Obligations.DecodedWords : Prop :=
  decode [0x94, 0x80] = .ok (.ldD .d0 (.imm 0x80), []) ∧
  decode [0x1D, 0xE7, 0x88] = .ok (.movW (.opr (.auto .postIncX)) (.regIdx .d2 .x), []) ∧
  decode [0x60, 0x71] = .ok (.add .d2 (.opr (.immE4 1)), []) ∧
  decode [0x4E, 0x81] = .ok (.muls .d6 .d2 (.reg .d3), []) ∧
  decode [0x68, 0xBD] = .ok (.and .d2 (.opr (.reg .d1)), []) ∧
  decode [0x16, 0x90, 0x76] = .ok (.asr .d6 .d2 (.count false (.immE4 6)), []) ∧
  decode [0xEC, 0xC5, 0x50] = .ok (.bclr (.oprReg .w .d0 (.idx .y 0)), []) ∧
  decode [0x1B, 0x08, 0xB0, 0x88] = .ok (.bfins .d2 .d0 (.imm 4 8), []) ∧
  decode [0x1B, 0x2C, 0x71] = .ok (.maxs .d0 (.immE4 1), []) ∧
  decode [0x0B, 0x80, 0x7D] = .ok (.dbcc .ne (.d .d2) (.short 0x7D), []) ∧
  decode [0x1B, 0x90] = .ok (.rti, []) ∧
  decode [0x1B, 0xFF] = .ok (.trap 0xFF, [])

/-- A second name does what the words it stands for do, and does it (R135, R168, R169, R178, R179, R268 to
R273, R357, R358). -/
def Obligations.AliasesRunTheirCore : Prop :=
  ∀ (s : State) (rel : Rel) (src dst : CpuReg),
    let same (a b : Instr) : Prop := encode a = encode b ∧ ∃ t, exec a s = .next t ∧ exec b s = .next t
    same (.bhs rel) (.bcc rel) ∧ same (.blo rel) (.bcs rel) ∧
    same .clc (.andcc 0xFE) ∧ same .cli (.andcc 0xEF) ∧ same .clv (.andcc 0xFD) ∧
    same .sec (.orcc 0x01) ∧ same .sei (.orcc 0x10) ∧ same .sev (.orcc 0x02) ∧
    same (.zex src dst) (.tfr src dst) ∧ same (.sex src dst) (.exg src dst) ∧
    same .pshAll (.psh false 0) ∧ same .pshAll16b (.psh true 0) ∧
    same .pulAll (.pul false 0) ∧ same .pulAll16b (.pul true 0)

/-! ## The step -/

/-- With nothing before it, a step of a running CPU is `exec` of the instruction that the bytes at PC decode to,
the fetch of its bytes being the step's first access (for a DBcc on a general
operand, of those before its offset, R361); around it the step only updates the interrupt shadow, asks
the memory map about the accesses made, and uses up one entry of the outside world's list (R415, D6). The step's
trace is the model's own (log entry 39), the map's refusals are log entry 3. -/
def Obligations.StepRunsInstruction : Prop :=
  ∀ (s : State) (i : Instr) (rest : List Byte),
    s.Undisturbed → decode s.fetchBytes = .ok (i, rest) → i.wf = true →
    let b := s.begun.fetched i
    b = { s with freeCount := s.freeCount + s.trace.length,
                 trace := [.access ⟨.fetch, !s.ccr.u, s.pc, firstFetch i⟩] } ∧
    (∀ t, exec i b = .next t → StepsTo s { t with irqShadow := nextShadow i s.ccr t.ccr }) ∧
    (∀ r, exec i b = .refused r → step s = .refused r) ∧
    (∀ f, exec i b = .fault f → step s = .fault f)

/-- A step runs the well-formed instruction whose encoding stands in RAM or ROM at PC, byte by byte, addresses
modulo 2^24, whatever follows it (R52, R66, R80). What the memory map then says of the accesses made is D6, log
entry 3. -/
def Obligations.StepRunsPlacedInstruction : Prop :=
  ∀ (s t : State) (i : Instr),
    s.Undisturbed → i.wf = true →
    (∀ (k : Nat) (b : Byte), (encode i)[k]? = some b →
      s.map.isMemory (s.pc + BitVec.ofNat 24 k).toNat = true ∧
      s.mem.read (s.pc + BitVec.ofNat 24 k).toNat = b) →
    exec i.core (s.begun.fetched i.core) = .next t →
    StepsTo s { t with irqShadow := nextShadow i s.ccr t.ccr }

/-- Every step keeps memory in its canonical form (20_memory.md; the form is the model's own). -/
def Obligations.StepKeepsMemoryCanonical : Prop :=
  ∀ s t : State, s.Inv → step s = .next t → t.Inv

/-- Reset leaves the invariant, and what R450 gives a value for (PC from the reset vector, the CCR's system
bits, run_state, irq_shadow). -/
def Obligations.ResetState : Prop :=
  let s := State.reset
  s.Inv ∧ s.pc = s.load 0xFFFFFD .p ∧ s.ccr.u = false ∧ s.ccr.ipl = 0 ∧ s.ccr.s = true ∧
  s.ccr.xm = true ∧ s.ccr.i = true ∧ s.runState = .running ∧ s.irqShadow = false

/-- X goes from 0 to 1 only by reset, by a machine exception, or by taking an XIRQ request, at the boundary or
inside RTI: the request that the step has taken last (R22, R414). The MMC's request is D5, log entry 3; the two
moments at which the oracle answers are log entry 12. -/
def Obligations.XMaskRisesByEntryAlone : Prop :=
  ∀ s t : State, step s = .next t → s.ccr.xm = false → t.ccr.xm = true →
    s.input.reset ≠ .none ∨ s.input.machineException = true ∨ s.machineRequest = true ∨
    ∃ x, (s.input.irqs.xirq = some x ∨ s.input.rtiIrqs.xirq = some x) ∧ t.taken = x :: s.taken

/-- In user state no instruction changes U, IPL, S, X or I but the four software exceptions, and RTI where an
interrupt is pending, under masks that RTI cannot change then (R18, R441). -/
def Obligations.UserStateKeepsSystemBits : Prop :=
  ∀ (i : Instr) (s t : State), exec i s = .next t → s.ccr.u = true →
    i ≠ .swi → i ≠ .sys → (∀ tn, i ≠ .trap tn) → i ≠ .spare →
    (i = .rti → interruptPending s.input.rtiIrqs false s.ccr = none) → s.ccr.SystemSame t.ccr

/-- Interrupt recognition at the boundary of a running CPU and the entry it makes: an XIRQ where X is 0, else an
I-bit request where I and the shadow are 0, else the instruction at PC; the I-bit request is the interrupt
module's answer to the IPL at hand; the return address is PC (R404, R406, R410, R414 to R416; the hidden shadow
is the spec's decision D29, log entry 34, the oracle is D3, log entry 12). The accesses are the vector's read and
the stores of the frame, and no other; the memory map answers for them (D6, log entry 3; the trace is the model's
own, log entry 39). -/
def Obligations.InterruptRecognition : Prop :=
  ∀ s : State, s.runState = .running → s.input.reset = .none → s.input.machineException = false →
    s.machineRequest = false →
    let irq := s.input.irqs.irqAt s.ccr.ipl
    let taken (k : IrqKind) (req : Request) : Prop := ∃ u, StepsTo s u ∧
      ContextStacked s u s.pc ∧ EnteredCcr s.ccr u.ccr req.level (irqXm k s.ccr) ∧
      u.pc = s.load req.vecaddr .p ∧ u.runState = .running ∧ u.irqShadow = false ∧
      u.taken = req :: s.taken ∧ u.trace = frameTrace (s.sp - 29) ++ [vectorRead req.vecaddr]
    (∀ x, s.input.irqs.xirq = some x → s.ccr.xm = false → taken .xirq x) ∧
    (∀ r, irq = some r → s.ccr.i = false → s.irqShadow = false →
      (s.input.irqs.xirq = none ∨ s.ccr.xm = true) → taken .irq r) ∧
    ((s.input.irqs.xirq = none ∨ s.ccr.xm = true) → (irq = none ∨ s.ccr.i = true ∨ s.irqShadow = true) →
      step s = usedInput (settle (runInstruction s.begun)))

/-- The machine exception: X and I set, U cleared, PC from its vector; nothing is stacked and nothing else
changes (R430). The vector's read is the one access; the MMC's request and the map's answer are D5 and D6, log
entry 3, the trace is the model's own, log entry 39. -/
def Obligations.MachineExceptionEntry : Prop :=
  ∀ s : State, s.runState = .running → s.input.reset = .none →
    (s.input.machineException = true ∨ s.machineRequest = true) →
    ∃ u, StepsTo s u ∧ u.pc = s.load s.vec.machineException .p ∧
      u.ccr.xm = true ∧ u.ccr.i = true ∧ u.ccr.u = false ∧ u.ccr.ipl = s.ccr.ipl ∧
      u.ccr.s = s.ccr.s ∧ s.ccr.FlagsSame u.ccr ∧ u.irqShadow = false ∧ u.runState = .running ∧
      u.sp = s.sp ∧ RegistersSame s u ∧ u.mem = s.mem ∧ SurroundingsSame s u ∧ u.taken = s.taken ∧
      u.machineRequest = false ∧ u.trace = [vectorRead s.vec.machineException]

/-- A CPU that waits or is stopped: an enabled interrupt is taken over the frame that is on the stack already,
whatever the shadow; with none and no 'continue', nothing happens (R420, R436; the spec's decision D22, log
entries 15 and 28). The vector's read is the one access, and nothing around the CPU changes; the memory map's
answer is D6, log entry 3, the trace is the model's own, log entry 39. -/
def Obligations.WakeFromStandby : Prop :=
  ∀ s : State, (s.runState = .waiting ∨ s.runState = .stopped) → s.input.reset = .none →
    let irq := s.input.irqs.irqAt s.ccr.ipl
    let taken (k : IrqKind) (req : Request) : Prop := ∃ u, StepsTo s u ∧
      EnteredCcr s.ccr u.ccr req.level (irqXm k s.ccr) ∧ u.pc = s.load req.vecaddr .p ∧
      u.runState = .running ∧ u.irqShadow = false ∧ u.taken = req :: s.taken ∧
      u.sp = s.sp ∧ RegistersSame s u ∧ u.mem = s.mem ∧ SurroundingsSame s u ∧
      u.machineRequest = s.machineRequest ∧ u.trace = [vectorRead req.vecaddr]
    (∀ x, s.input.irqs.xirq = some x → s.ccr.xm = false → taken .xirq x) ∧
    (∀ r, irq = some r → s.ccr.i = false →
      (s.input.irqs.xirq = none ∨ s.ccr.xm = true) → taken .irq r) ∧
    ((s.input.irqs.xirq = none ∨ s.ccr.xm = true) → (irq = none ∨ s.ccr.i = true) →
      s.input.wakeContinue = false → step s = .next s.begun.nextInput)

/-- WAI or STOP and then the 'continue' exit: as if the instruction had been a NOP, but for the 29 bytes
written below SP (R385, R386, R421; the spec's decision D22, log entry 28). -/
def Obligations.StandbyThenContinue : Prop :=
  ∀ (i : Instr) (s t u : State), (i = .wai ∨ i = .stop) → s.ccr.u = false →
    (i = .stop → s.ccr.s = false) → exec i s = .next t →
    t.input.reset = .none → interruptPending t.input.irqs false t.ccr = none → t.input.wakeContinue = true →
    step t = .next u →
    u.pc = s.pc + 2 ∧ u.sp = s.sp ∧ u.ccr = s.ccr ∧ u.runState = .running ∧ RegistersSame s u ∧
    BytesSame s u (s.sp - 29) 29

/-- A reset request is honoured in every run state: the values R450 and R451 give, SP and memory kept at a
boundary. In the middle of what the step does, every byte but the RAM that the abandoned rest could have written
is kept, and SP where that could not have written it; of an instruction the spec gives no effect (U2), every
byte but RAM is (R452, U7; what the others hold is open, log entry 14). Nothing around the CPU changes, and the
reset vector's read is the one access; the map's answer is D6, log entry 3, the trace is the model's own, log
entry 39. -/
def Obligations.ResetRequest : Prop :=
  ∀ s : State,
    let fresh (t : State) : Prop := t.ccr.u = false ∧ t.ccr.ipl = 0 ∧ t.ccr.s = true ∧
      t.ccr.xm = true ∧ t.ccr.i = true ∧ t.runState = .running ∧ t.irqShadow = false ∧
      t.machineRequest = false ∧ t.Reads 0xFFFFFD 3 t.pc.toNat ∧ SurroundingsSame s t ∧
      t.taken = s.taken ∧ t.trace = [vectorRead 0xFFFFFD]
    (s.input.reset = .boundary → ∃ t, StepsTo s t ∧ fresh t ∧ t.sp = s.sp ∧ t.mem = s.mem) ∧
    (s.input.reset = .midInstruction →
      (∀ w, boundaryStep s.begun = .next w → ∃ t, StepsTo s t ∧ fresh t ∧
        (.spWritten ∉ w.trace → t.sp = s.sp) ∧
        ∀ a : Addr, ¬w.WroteTo a ∨ s.map.isRam a.toNat = false →
          t.mem.read a.toNat = s.mem.read a.toNat) ∧
      (∀ r, boundaryStep s.begun = .refused r → ∃ t, StepsTo s t ∧ fresh t ∧
        ∀ a : Addr, s.map.isRam a.toNat = false → t.mem.read a.toNat = s.mem.read a.toNat))

/-- The shadow after an instruction: set by an ANDCC that has cleared I, and by nothing else (R411; the hidden
bit is the spec's decision D29, log entry 34). -/
def Obligations.InterruptShadow : Prop :=
  ∀ (s t : State) (i : Instr) (rest : List Byte),
    s.Undisturbed → decode s.fetchBytes = .ok (i, rest) → step s = .next t →
    (t.irqShadow = true ↔ (∃ m, i = .andcc m) ∧ s.ccr.i = true ∧ t.ccr.i = false)

/-- NOP; BGND, which halts where the debug controller is enabled and is a NOP where it is not; a halted CPU
stays as it is until 'Go' (R387, R388; the spec's decision D7, log entry 35). -/
def Obligations.NopAndBackground : Prop :=
  ∀ s : State, encode .nop = [0x01] ∧ encode .bgnd = [0x00] ∧
    exec .nop s = .next { s with pc := s.pc + 1 } ∧
    exec .bgnd s = .next { s with
      pc := s.pc + 1, runState := if s.enbdm then .halted else s.runState } ∧
    (s.runState = .halted → s.input.reset = .none →
      step s = .next { s.begun with
        inputs := s.inputs.tail, runState := if s.input.go then .running else .halted })

/-! ## Memory, stack, CCR -/

/-- Loads and stores, byte by byte, most significant first, addresses modulo 2^24, through the memory map: a
load gives what RAM and ROM hold; a store changes RAM alone and no byte outside its own; where all of it is RAM,
a load gives the value back; each is noted as an access of the step (R52 to R55, D6). The map is log entry 3,
the trace the model's own, log entry 39. -/
def Obligations.MemoryBytes : Prop :=
  ∀ (s : State) (a : Addr) (sz : Size) (v : BitVec sz.bits),
    let t := s.store a sz v
    s.Reads a sz.bytes (s.load a sz).toNat ∧ Stored s t a sz.bytes v.toNat ∧ BytesSame s t a sz.bytes ∧
    (s.RamAt a sz.bytes → t.load a sz = v) ∧
    t = { s with mem := t.mem, trace := .access ⟨.write, !s.ccr.u, a, sz.bytes⟩ :: s.trace } ∧
    s.loaded a sz = { s with trace := .access ⟨.read, !s.ccr.u, a, sz.bytes⟩ :: s.trace }

/-- Push and Pull: SP moves by the bytes of the value, before the store and after the load; on a stack in RAM
the value comes back (R58). Stores go through the memory map (D6, log entry 3) and are noted in the trace (the
model's own, log entry 39). -/
def Obligations.PushAndPull : Prop :=
  ∀ (s : State) (sz : Size) (v : BitVec sz.bits),
    let below := s.sp - BitVec.ofNat 24 sz.bytes
    let t := s.push sz v
    t = { s with sp := below, mem := t.mem,
                 trace := .access ⟨.write, !s.ccr.u, below, sz.bytes⟩ :: .spWritten :: s.trace } ∧
    Stored s t below sz.bytes v.toNat ∧ BytesSame s t below sz.bytes ∧
    s.Reads s.sp sz.bytes (s.pullValue sz).toNat ∧
    s.pullMove sz = { s with sp := s.sp + BitVec.ofNat 24 sz.bytes,
                             trace := .spWritten :: .access ⟨.read, !s.ccr.u, s.sp, sz.bytes⟩ :: s.trace } ∧
    (t.pullMove sz).sp = s.sp ∧ (s.RamAt below sz.bytes → t.pullValue sz = v)

/-- `WriteCCR`, on the sixteen bits as read (R17, R19). -/
def Obligations.WriteCcrFilter : Prop :=
  ∀ (s : State) (new : BitVec 16) (hi lo : Bool),
    let mask : BitVec 16 := (if hi then 0xFF00 else 0) ||| (if lo then 0x00FF else 0)
    let writable : BitVec 16 :=
      if s.ccr.u then 0x000F else 0x879F ||| (if new.getLsbD 6 then 0 else 0x0040)
    let m := mask &&& writable
    (s.writeCcr new hi lo).ccr.word = (s.ccr.word &&& ~~~m) ||| (new &&& m) ∧
    s.writeCcr new hi lo = { s with ccr := (s.writeCcr new hi lo).ccr }

/-! ## Operands -/

/-- The submodes that give their address outright, on exact integers modulo 2^24; they move no register
(R103, R105, R107, R109 to R112, R114, R115). -/
def Obligations.DirectSubmodes : Prop :=
  ∀ (s : State) (n : Nat),
    let off (r : DReg) : Int := match r with
      | .d2 | .d3 | .d4 | .d5 => (s.getD r).toInt
      | .d0 | .d1 | .d6 | .d7 => (s.getD r).toNat
    let base (b : XYSP) : Int := match b with
      | .x => s.x.toNat
      | .y => s.y.toNat
      | .s => s.sp.toNat
      | .pc => s.pc.toNat
    let at' (o : Opr) (ea : Int) : Prop :=
      s.place o = .direct (BitVec.ofInt 24 ea) ∧ s.oprLoc o n = .mem (BitVec.ofInt 24 ea) ∧
      s.oprMoved o n = s
    (∀ b u, at' (.idx b u) ((s.getXYS b).toNat + u.toNat)) ∧
    (∀ r b, at' (.regIdx r b) ((s.getXYS b).toNat + off r)) ∧
    (∀ b o, at' (.idx1 b o) (base b + o.toInt)) ∧
    (∀ a, at' (.ext1 a) a.toNat) ∧
    (∀ o r, at' (.idx2Reg o r) (o.toNat + off r)) ∧
    (∀ a, at' (.ext2 a) a.toNat) ∧
    (∀ b o, at' (.idx3 b o) (base b + o.toInt)) ∧
    (∀ o r, at' (.idx3Reg o r) (o.toNat + off r)) ∧
    (∀ a, at' (.ext3 a) a.toNat)

/-- The indirect submodes read a 24-bit pointer at the address they form; the automatic ones move their register
by the operand's size, before or after (R104, R106, R108, R113, R116). The trace is the model's own (log entry
39). -/
def Obligations.IndirectAutoSubmodes : Prop :=
  ∀ (s : State) (n : Nat),
    let w : Addr := BitVec.ofNat 24 n
    let thru (o direct : Opr) : Prop := ∀ p, s.place direct = .direct p →
      s.place o = .indirect p ∧ s.oprLoc o n = .mem (s.load p .p) ∧ s.oprMoved o n = s.loaded p .p
    let moves (m : AutoMode) (ea : Addr) (t : State) : Prop :=
      s.oprLoc (.auto m) n = .mem ea ∧ s.oprMoved (.auto m) n = t
    (∀ r, thru (.regIdxInd r .x) (.regIdx r .x) ∧ thru (.regIdxInd r .y) (.regIdx r .y)) ∧
    (∀ b o, thru (.idx1Ind b o) (.idx1 b o)) ∧
    (∀ b o, thru (.idx3Ind b o) (.idx3 b o)) ∧
    (∀ a, thru (.ext3Ind a) (.ext3 a)) ∧
    moves .preDecX (s.x - w) { s with x := s.x - w } ∧
    moves .preDecY (s.y - w) { s with y := s.y - w } ∧
    moves .preIncX (s.x + w) { s with x := s.x + w } ∧
    moves .preIncY (s.y + w) { s with y := s.y + w } ∧
    moves .postDecX s.x { s with x := s.x - w } ∧
    moves .postDecY s.y { s with y := s.y - w } ∧
    moves .postIncX s.x { s with x := s.x + w } ∧
    moves .postIncY s.y { s with y := s.y + w } ∧
    moves .preDecS (s.sp - w) (s.setSp (s.sp - w)) ∧
    moves .postIncS s.sp (s.setSp (s.sp + w)) ∧
    (∀ v, s.setSp v = { s with sp := v, trace := .spWritten :: s.trace })

/-- The values of operands: the constants of a short immediate, a register truncated or zero-extended, memory;
immediates of a register's size; shift counts and bit-field parameters (R101, R102, R117, R200, R290, R313).
What a read gets from an address that holds no memory is open (D6, log entry 3). -/
def Obligations.OperandValues : Prop :=
  ∀ s : State,
    (∀ e n, s.oprLoc (.immE4 e) n = .imm e ∧ s.oprMoved (.immE4 e) n = s) ∧
    (∀ r n, s.oprLoc (.reg r) n = .reg r ∧ s.oprMoved (.reg r) n = s) ∧
    (∀ o sz, match s.oprLoc o sz.bytes with
      | .imm e => (s.oprValue o sz).toInt = if e.toNat = 0 then -1 else (e.toNat : Int)
      | .reg r => (s.oprValue o sz).toNat = (s.getD r).toNat % 2 ^ sz.bits
      | .mem ea => s.Reads ea sz.bytes (s.oprValue o sz).toNat ∧
          .access ⟨.read, !s.ccr.u, ea, sz.bytes⟩ ∈ (s.oprDone o sz).trace) ∧
    (∀ o sz, let t := s.oprDone o sz
      t = { s.oprMoved o sz.bytes with trace := t.trace }) ∧
    (∀ (d : DReg) v, (s.dValue d (.imm v)).toNat = v.toNat % 2 ^ d.bits ∧ s.dMoved d (.imm v) = s) ∧
    (∀ (d : DReg) o, s.dValue d (.opr o) = s.oprValue o d.size ∧
      s.dMoved d (.opr o) = s.oprDone o d.size) ∧
    (∀ v, s.pValue (.imm v) = v ∧ s.pMoved (.imm v) = s) ∧
    (∀ o, s.pValue (.opr o) = s.oprValue o .p ∧ s.pMoved (.opr o) = s.oprDone o .p) ∧
    (s.shiftCount (.fixed false) = 1 ∧ s.shiftCount (.fixed true) = 2) ∧
    (∀ n0 e, s.shiftCount (.count n0 (.immE4 e)) = 2 * e.toNat + n0.toNat) ∧
    (∀ n0 r, s.shiftCount (.count n0 (.reg r)) = (s.getD r).toNat % 32) ∧
    (∀ n0 o ea, s.oprLoc o 1 = .mem ea →
      s.shiftCount (.count n0 o) = (s.oprValue o .b).toNat % 32) ∧
    (∀ n0 o, s.countMoved (.count n0 o) = s.oprDone o .b) ∧
    (∀ w o, s.fieldWidth (.imm w o) = (if w.toNat = 0 then 32 else w.toNat) ∧
      s.fieldOffset (.imm w o) = o.toNat) ∧
    (∀ p, let v := (s.getD (dpReg p)).toNat
      s.fieldWidth (.dp p) = (if v / 32 % 32 = 0 then 32 else v / 32 % 32) ∧
      s.fieldOffset (.dp p) = v % 32)

/-! ## Data movement -/

/-- LD in all its forms (R161 to R163): the operand is found, and its automatic submode done, before the
register is written (the spec's decision D15, log entry 24). -/
def Obligations.LoadResult : Prop :=
  ∀ s : State,
    let toD (d : DReg) (src : LdSrc) (v : BitVec d.bits) (p : State) : Prop :=
      Runs (.ldD d src) s fun t =>
        t.getD d = v ∧ LoadFlagsOf v s.ccr t.ccr ∧ RegFrame s p t [d]
    let toXY (r : XY) (src : LdXYSrc) (v : Addr) (p : State) : Prop :=
      Runs (.ldXY r src) s fun t => LoadFlagsOf v s.ccr t.ccr ∧ RegFrame s (p.setXY r v) t []
    let toS (src : PSrc) (v : Addr) (p : State) : Prop :=
      Runs (.ldS src) s fun t => LoadFlagsOf v s.ccr t.ccr ∧ RegFrame s { p with sp := v } t []
    (∀ d v, toD d (.imm v) (v.setWidth d.bits) s ∧
      encode (.ldD d (.imm v)) = (0b10010#5 ++ d.code) :: beBytes d.size.bytes v.toNat) ∧
    (∀ d a, toD d (.ext a) (s.load a d.size) s ∧
      encode (.ldD d (.ext a)) = (0b10110#5 ++ d.code) :: beBytes 3 a.toNat) ∧
    (∀ d o, toD d (.opr o) (s.oprValue o d.size) (s.oprMoved o d.size.bytes) ∧
      encode (.ldD d (.opr o)) = (0b10100#5 ++ d.code) :: o.enc) ∧
    (∀ r v, toXY r (.imm v) v s ∧
      encode (.ldXY r (.imm v)) = (0b1001100#7 ++ BitVec.ofBool r.bit) :: beBytes 3 v.toNat) ∧
    (∀ r (v : BitVec 18), toXY r (.imm18 v) (v.setWidth 24) s ∧
      encode (.ldXY r (.imm18 v)) =
        (0b11#2 ++ v.extractLsb' 16 2 ++ 0b101#3 ++ BitVec.ofBool r.bit) :: beBytes 2 v.toNat) ∧
    (∀ r a, toXY r (.ext a) (s.load a .p) s ∧
      encode (.ldXY r (.ext a)) = (0b1011100#7 ++ BitVec.ofBool r.bit) :: beBytes 3 a.toNat) ∧
    (∀ r o, toXY r (.opr o) (s.oprValue o .p) (s.oprMoved o 3) ∧
      encode (.ldXY r (.opr o)) = (0b1010100#7 ++ BitVec.ofBool r.bit) :: o.enc) ∧
    (∀ v, toS (.imm v) v s ∧ encode (.ldS (.imm v)) = 0x1B :: 0x03 :: beBytes 3 v.toNat) ∧
    (∀ o, toS (.opr o) (s.oprValue o .p) (s.oprMoved o 3) ∧
      encode (.ldS (.opr o)) = 0x1B :: 0x00 :: o.enc)

/-- ST in all its forms: the value is the register's of before the operand is decoded, one write, the flags of
the value (R164 to R166; the order is the spec's decision D15, log entry 24); a short immediate is refused by
name: the spec gives no effect (U2), the model's choice of log entry 8. Stores go through the memory map (D6,
log entry 3) and are noted in the trace (the model's own, log entry 39). -/
def Obligations.StoreResult : Prop :=
  ∀ s : State,
    (∀ d a, StoresTo (.stD d (.ext a)) s s (.mem a) d.size (s.getD d) (LoadFlagsOf (s.getD d)) ∧
      encode (.stD d (.ext a)) = (0b11010#5 ++ d.code) :: beBytes 3 a.toNat) ∧
    (∀ d o, StoresTo (.stD d (.opr o)) s (s.oprMoved o d.size.bytes) (s.oprLoc o d.size.bytes) d.size
        (s.getD d) (LoadFlagsOf (s.getD d)) ∧
      encode (.stD d (.opr o)) = (0b11000#5 ++ d.code) :: o.enc) ∧
    (∀ r a, StoresTo (.stXY r (.ext a)) s s (.mem a) .p (s.getXY r) (LoadFlagsOf (s.getXY r)) ∧
      encode (.stXY r (.ext a)) = (0b1101100#7 ++ BitVec.ofBool r.bit) :: beBytes 3 a.toNat) ∧
    (∀ r o, StoresTo (.stXY r (.opr o)) s (s.oprMoved o 3) (s.oprLoc o 3) .p (s.getXY r)
        (LoadFlagsOf (s.getXY r)) ∧
      encode (.stXY r (.opr o)) = (0b1100100#7 ++ BitVec.ofBool r.bit) :: o.enc) ∧
    (∀ o, StoresTo (.stS o) s (s.oprMoved o 3) (s.oprLoc o 3) .p s.sp (LoadFlagsOf s.sp) ∧
      encode (.stS o) = 0x1B :: 0x01 :: o.enc)

/-- MOV: the source is complete before the destination is decoded; the CCR is unchanged; a short immediate into
a register fills all of it (R120, R167); a plain immediate into a wider register is zero-extended (the spec's
decision D14, log entry 23); a short immediate as destination is refused by name (U2, the model's choice of log
entry 8). Stores go through the memory map (D6, log entry 3) and are noted in the trace (the model's own, log
entry 39). -/
def Obligations.MoveResult : Prop :=
  ∀ (s : State) (sz : Size) (dst : Opr),
    let stores (src : MovSrc) (v : BitVec sz.bits) (p : State) : Prop :=
      StoresTo (movInstr sz src dst) s (p.oprMoved dst sz.bytes) (p.oprLoc dst sz.bytes) sz v
        Ccr.FlagsSame
    (∀ v, stores (.imm v) (v.setWidth sz.bits) s) ∧
    (∀ o, (∀ e r, ¬(o = .immE4 e ∧ dst = .reg r)) →
      stores (.opr o) (s.oprValue o sz) (s.oprDone o sz)) ∧
    (∀ e r, dst = .reg r → Runs (movInstr sz (.opr (.immE4 e)) dst) s fun t =>
      (t.getD r).toInt = (if e.toNat = 0 then -1 else (e.toNat : Int)) ∧
      s.ccr.FlagsSame t.ccr ∧ RegFrame s s t [r])

/-- PSH: the named registers below SP, in PUL's order from the lowest address up, nothing else changed (R168).
Stores go through the memory map (D6, log entry 3) and are noted in the trace (the model's own, log entry 39).
-/
def Obligations.PushListResult : Prop :=
  ∀ s : State,
    let pushes (i : Instr) (l : List StackReg) : Prop := Runs i s fun t =>
      let a := s.sp - BitVec.ofNat 24 (stackTotal l)
      (∀ pre r post, l = pre ++ r :: post →
        Stored s t (a + BitVec.ofNat 24 (stackTotal pre)) (stackBytes r) (s.stackNat r)) ∧
      s.ccr.FlagsSame t.ccr ∧ Frame s { s with sp := a } t [] a (stackTotal l)
    (∀ row2 mask, pushes (.psh row2 mask) (stackNamed row2 mask) ∧
      encode (.psh row2 mask) = [0x04, 0b0#1 ++ BitVec.ofBool row2 ++ mask]) ∧
    pushes .pshAll stackOrder ∧ pushes .pshAll16b [.d .d2, .d .d3, .d .d4, .d .d5]

/-- PUL: each named register takes its bytes from the stack, the CCR bytes through one `WriteCCR`; memory is
unchanged (R169; the single write is the spec's decision D28, log entry 33). What a read gets from an address
that holds no memory is open (D6, log entry 3). -/
def Obligations.PullListResult : Prop :=
  ∀ s : State,
    let pulls (i : Instr) (l : List StackReg) : Prop := Runs i s fun t =>
      let here (pre : List StackReg) : Addr := s.sp + BitVec.ofNat 24 (stackTotal pre)
      (∀ pre r post, l = pre ++ r :: post → match r with
        | .d q => s.Reads (here pre) (stackBytes r) (t.getD q).toNat
        | .xy q => s.Reads (here pre) (stackBytes r) (t.getXY q).toNat
        | .cch | .ccl => True) ∧
      DataSame s t (l.filterMap fun r => match r with
        | .d q => some q
        | _ => none) ∧
      (∀ q, StackReg.xy q ∉ l → t.getXY q = s.getXY q) ∧
      t.sp = here l ∧
      (∃ hi lo : Byte, (.cch ∈ l → s.Reads s.sp 1 hi.toNat) ∧
        (.ccl ∈ l → s.Reads (here (if StackReg.cch ∈ l then [.cch] else [])) 1 lo.toNat) ∧
        t.ccr = s.ccr.writeMasked (hi ++ lo) (decide (StackReg.cch ∈ l)) (decide (StackReg.ccl ∈ l))) ∧
      MachineSame s t ∧ BytesSame s t 0 0
    (∀ row2 mask, pulls (.pul row2 mask) (stackNamed row2 mask) ∧
      encode (.pul row2 mask) = [0x04, 0b1#1 ++ BitVec.ofBool row2 ++ mask]) ∧
    pulls .pulAll stackOrder ∧ pulls .pulAll16b [.d .d2, .d .d3, .d .d4, .d .d5]

/-- "PUL is the exact reverse of PSH with the same mask": after both, on a stack in RAM, in user state too,
every register, SP and the CCR are as at the start, and so is every byte outside those pushed (R169). Which
addresses are RAM is D6, log entry 3. -/
def Obligations.PushThenPull : Prop :=
  ∀ (row2 : Bool) (mask : BitVec 6) (s t : State), exec (.psh row2 mask) s = .next t →
    let n := stackTotal (stackNamed row2 mask)
    s.RamAt (s.sp - BitVec.ofNat 24 n) n →
    ∃ u, exec (.pul row2 mask) t = .next u ∧ RegistersSame s u ∧ u.sp = s.sp ∧ u.ccr = s.ccr ∧
      BytesSame s u (s.sp - BitVec.ofNat 24 n) n

/-- LEA: the address is the result; an indirect submode's pointer is not read; the automatic submodes move by
an amount the spec leaves open (1 to 4), but a post-modification of the register loaded is ignored; a short
immediate or a register gives some address (R119, R170, R171; D17, log entry 6; U1, log entry 7). -/
def Obligations.LeaResult : Prop :=
  ∃ k : Nat, 1 ≤ k ∧ k ≤ 4 ∧ ∀ (s : State) (r : LeaDst),
    (∀ o ea, s.place o = .direct ea ∨ s.place o = .indirect ea →
      Runs (.lea r o) s fun t => LeaWritten s s t r ea ∧ t.ccr = s.ccr) ∧
    (∀ m, Runs (.lea r (.auto m)) s fun t => t.ccr = s.ccr ∧
      if autoPre m then
        ∃ ea, s.oprLoc (.auto m) k = .mem ea ∧ LeaWritten s (s.oprMoved (.auto m) k) t r ea
      else
        LeaWritten s (if leaSame r m then s else s.oprMoved (.auto m) k) t r (s.getXYS (autoReg m))) ∧
    (∀ e, Runs (.lea r (.immE4 e)) s fun t => t.ccr = s.ccr ∧ ∃ a, LeaWritten s s t r a) ∧
    (∀ d, Runs (.lea r (.reg d)) s fun t => t.ccr = s.ccr ∧ ∃ a, LeaWritten s s t r a) ∧
    (∀ b (i : BitVec 8), Runs (.leaImm b i) s fun t => t.ccr = s.ccr ∧
      RegFrame s (s.setXYS b (BitVec.ofInt 24 ((s.getXYS b).toNat + i.toInt))) t [])

/-- CLR in all its forms: zero is written, nothing read, N = 0, Z = 1, V = 0, C = 0 (R172 to R174); a short
immediate is refused by name: the spec gives no effect (U2), the model's choice of log entry 8. Stores go
through the memory map (D6, log entry 3) and are noted in the trace (the model's own, log entry 39). -/
def Obligations.ClearResult : Prop :=
  ∀ s : State,
    (∀ o, StoresTo (.clrB o) s (s.oprMoved o 1) (s.oprLoc o 1) .b 0 ClearedFlags ∧
      encode (.clrB o) = 0xBC :: o.enc) ∧
    (∀ o, StoresTo (.clrW o) s (s.oprMoved o 2) (s.oprLoc o 2) .w 0 ClearedFlags ∧
      encode (.clrW o) = 0xBD :: o.enc) ∧
    (∀ o, StoresTo (.clrP o) s (s.oprMoved o 3) (s.oprLoc o 3) .p 0 ClearedFlags ∧
      encode (.clrP o) = 0xBE :: o.enc) ∧
    (∀ o, StoresTo (.clrL o) s (s.oprMoved o 4) (s.oprLoc o 4) .l 0 ClearedFlags ∧
      encode (.clrL o) = 0xBF :: o.enc) ∧
    (∀ d, Runs (.clrD d) s (fun t =>
        t.getD d = 0 ∧ ClearedFlags s.ccr t.ccr ∧ RegFrame s s t [d]) ∧
      encode (.clrD d) = [0b00111#5 ++ d.code]) ∧
    (∀ r, Runs (.clrXY r) s (fun t =>
        ClearedFlags s.ccr t.ccr ∧ RegFrame s (s.setXY r 0) t []) ∧
      encode (.clrXY r) = [0b1001101#7 ++ BitVec.ofBool r.bit])

/-- TFR and ZEX: the source, truncated or zero-extended, to the destination; equal codes and a reserved
destination change nothing (the spec's decision D21, log entry 27), a reserved source gives some value
(R176, R179; U4, log entry 10). -/
def Obligations.TransferResult : Prop :=
  ∀ (s : State) (src dst : CpuReg),
    let done (t : State) : Prop :=
      if src = dst ∨ dst.reserved = true then t.ccr = s.ccr ∧ CcrOnly s t
      else if src.reserved then ∃ v, CpuWritten s t dst v
      else CpuWritten s t dst (s.cpuNat src)
    Runs (.tfr src dst) s done ∧ Runs (.zex src dst) s done ∧
    encode (.tfr src dst) = [0x9E, src.code ++ dst.code]

/-- EXG and SEX: equal widths exchange, a narrower first register is sign-extended into the second, a wider
one exchanges with truncation and sign extension; the CCR parts as R177 says; reserved codes as for TFR
(R177, R178; U4, log entry 10; D21, log entry 27; D28, log entry 33). -/
def Obligations.ExchangeResult : Prop :=
  ∀ (s : State) (src dst : CpuReg),
    let a := s.cpuNat src
    let b := s.cpuNat dst
    let same (t : State) : Prop := t.ccr = s.ccr ∧ CcrOnly s t
    let done (t : State) : Prop :=
      if src = dst ∨ dst.reserved = true then same t
      else if src.reserved then ∃ v, CpuWritten s t dst v
      else if src = .ccw ∧ (dst = .cch ∨ dst = .ccl) then same t
      else if (src = .cch ∧ dst = .ccl) ∨ (src = .ccl ∧ dst = .cch) then
        CpuWritten s t .ccw (s.ccr.word.toNat % 256 * 256 + s.ccr.word.toNat / 256)
      else if src.bits < dst.bits then CpuWritten s t dst (sextNat src.bits dst.bits a)
      else ∃ u, CpuWritten s u dst a ∧ CpuWritten u t src (sextNat dst.bits src.bits b)
    Runs (.exg src dst) s done ∧ Runs (.sex src dst) s done ∧
    encode (.exg src dst) = [0xAE, src.code ++ dst.code]

/-! ## Arithmetic -/

/-- ADD and ADC (R201, R202). -/
def Obligations.AddResult : Prop :=
  ∀ (s : State) (d : DReg) (m : DSrc),
    let a := s.getD d
    let b := s.dValue d m
    Runs (.add d m) s (fun t => SumOf a b 0 (t.getD d) t.ccr ∧ (t.ccr.z = true ↔ t.getD d = 0) ∧
      RegFrame s (s.dMoved d m) t [d]) ∧
    Runs (.adc d m) s (fun t => SumOf a b s.ccr.c.toNat (t.getD d) t.ccr ∧
      (t.ccr.z = true ↔ s.ccr.z = true ∧ t.getD d = 0) ∧ RegFrame s (s.dMoved d m) t [d]) ∧
    match m with
    | .imm v =>
      encode (.add d m) = (0b01010#5 ++ d.code) :: beBytes d.size.bytes v.toNat ∧
      encode (.adc d m) = 0x1B :: (0b01010#5 ++ d.code) :: beBytes d.size.bytes v.toNat
    | .opr o =>
      encode (.add d m) = (0b01100#5 ++ d.code) :: o.enc ∧
      encode (.adc d m) = 0x1B :: (0b01100#5 ++ d.code) :: o.enc

/-- SUB and SBC (R203, R205). -/
def Obligations.SubtractResult : Prop :=
  ∀ (s : State) (d : DReg) (m : DSrc),
    let a := s.getD d
    let b := s.dValue d m
    Runs (.sub d m) s (fun t => DifferenceOf a b 0 (t.getD d) t.ccr ∧
      (t.ccr.z = true ↔ t.getD d = 0) ∧ RegFrame s (s.dMoved d m) t [d]) ∧
    Runs (.sbc d m) s (fun t => DifferenceOf a b s.ccr.c.toNat (t.getD d) t.ccr ∧
      (t.ccr.z = true ↔ s.ccr.z = true ∧ t.getD d = 0) ∧ RegFrame s (s.dMoved d m) t [d]) ∧
    match m with
    | .imm v =>
      encode (.sub d m) = (0b01110#5 ++ d.code) :: beBytes d.size.bytes v.toNat ∧
      encode (.sbc d m) = 0x1B :: (0b01110#5 ++ d.code) :: beBytes d.size.bytes v.toNat
    | .opr o =>
      encode (.sub d m) = (0b10000#5 ++ d.code) :: o.enc ∧
      encode (.sbc d m) = 0x1B :: (0b10000#5 ++ d.code) :: o.enc

/-- SUB D6,X,Y and SUB D6,Y,X: the difference of two unsigned 24-bit numbers as a signed 32-bit one (R204);
the flags, of the 32-bit subtraction, are the spec's decision D23 (log entry 29). -/
def Obligations.PointerDifference : Prop :=
  ∀ (s : State) (yMinusX : Bool),
    let a := if yMinusX then s.y else s.x
    let b := if yMinusX then s.x else s.y
    Runs (.subD6 yMinusX) s (fun t => t.d6.toInt = (a.toNat : Int) - b.toNat ∧
      (t.ccr.n = true ↔ a.toNat < b.toNat) ∧ (t.ccr.z = true ↔ a = b) ∧ t.ccr.v = false ∧
      (t.ccr.c = true ↔ a.toNat < b.toNat) ∧ RegFrame s s t [.d6]) ∧
    encode (.subD6 yMinusX) = [if yMinusX then 0xFE else 0xFD]

/-- CMP in all its forms: the flags of the subtraction, no register written but one an automatic submode
moves; X and Y are taken before the operand is decoded, SP after it (R208 to R211; the order for X and Y is
the model's, log entry 24). -/
def Obligations.CompareResult : Prop :=
  ∀ s : State,
    (∀ d m, Runs (.cmpD d m) s fun t =>
      CompareFlags (s.getD d) (s.dValue d m) t.ccr ∧ RegFrame s (s.dMoved d m) t []) ∧
    (∀ r m, Runs (.cmpXY r m) s fun t =>
      CompareFlags (s.getXY r) (s.pValue m) t.ccr ∧ RegFrame s (s.pMoved m) t []) ∧
    (∀ m, Runs (.cmpS m) s fun t =>
      CompareFlags (s.pMoved m).sp (s.pValue m) t.ccr ∧ RegFrame s (s.pMoved m) t []) ∧
    Runs .cmpXwithY s fun t => CompareFlags s.x s.y t.ccr ∧ RegFrame s s t []

/-- INC and DEC of a data register and of a general operand (R206, R207); a short immediate is refused by name:
the spec gives no effect (U2), the model's choice of log entry 8. Stores go through the memory map (D6, log
entry 3) and are noted in the trace (the model's own, log entry 39). -/
def Obligations.IncrementDecrement : Prop :=
  ∀ s : State,
    (∀ d, Runs (.incD d) s (fun t =>
        Incremented (s.getD d) (t.getD d) s.ccr t.ccr ∧ RegFrame s s t [d]) ∧
      encode (.incD d) = [0b00110#5 ++ d.code]) ∧
    (∀ d, Runs (.decD d) s (fun t =>
        Decremented (s.getD d) (t.getD d) s.ccr t.ccr ∧ RegFrame s s t [d]) ∧
      encode (.decD d) = [0b01000#5 ++ d.code]) ∧
    (∀ o, RmwRuns (.incB o) o .b s Incremented ∧ encode (.incB o) = 0x9C :: o.enc) ∧
    (∀ o, RmwRuns (.incW o) o .w s Incremented ∧ encode (.incW o) = 0x9D :: o.enc) ∧
    (∀ o, RmwRuns (.incL o) o .l s Incremented ∧ encode (.incL o) = 0x9F :: o.enc) ∧
    (∀ o, RmwRuns (.decB o) o .b s Decremented ∧ encode (.decB o) = 0xAC :: o.enc) ∧
    (∀ o, RmwRuns (.decW o) o .w s Decremented ∧ encode (.decW o) = 0xAD :: o.enc) ∧
    (∀ o, RmwRuns (.decL o) o .l s Decremented ∧ encode (.decL o) = 0xAF :: o.enc)

/-- NEG, COM and ABS (R212, R213, R265); a short immediate is refused by name: the spec gives no effect (U2),
the model's choice of log entry 8. Stores go through the memory map (D6, log entry 3) and are noted in the trace
(the model's own, log entry 39). -/
def Obligations.NegateComplementAbsolute : Prop :=
  ∀ s : State,
    (∀ o, RmwRuns (.negB o) o .b s Negated ∧ encode (.negB o) = 0xDC :: o.enc) ∧
    (∀ o, RmwRuns (.negW o) o .w s Negated ∧ encode (.negW o) = 0xDD :: o.enc) ∧
    (∀ o, RmwRuns (.negL o) o .l s Negated ∧ encode (.negL o) = 0xDF :: o.enc) ∧
    (∀ o, RmwRuns (.comB o) o .b s Complemented ∧ encode (.comB o) = 0xCC :: o.enc) ∧
    (∀ o, RmwRuns (.comW o) o .w s Complemented ∧ encode (.comW o) = 0xCD :: o.enc) ∧
    (∀ o, RmwRuns (.comL o) o .l s Complemented ∧ encode (.comL o) = 0xCF :: o.enc) ∧
    (∀ d, Runs (.abs d) s (fun t =>
        let a := (s.getD d).toInt
        let most := a = -(2 : Int) ^ (d.bits - 1)
        (most → t.getD d = s.getD d) ∧ (¬most → (t.getD d).toInt = |a|) ∧ NZOf (t.getD d) t.ccr ∧
        (t.ccr.v = true ↔ most) ∧ t.ccr.c = s.ccr.c ∧ RegFrame s s t [d]) ∧
      encode (.abs d) = [0x1B, 0b01000#5 ++ d.code])

/-! ## Multiply, divide, fractions -/

/-- MULS and MULU in all their forms: the exact product modulo the destination, V where it does not fit
(R230 to R232; the stored value on overflow is the spec's decision D26, log entry 31; a register operand is taken at
its own width whatever size is coded, D19, log entry 23). -/
def Obligations.MultiplyResult : Prop :=
  ∀ (s : State) (signed : Bool) (d : DReg) (f : MathForm),
    let p := (f.first s).intOf signed * (f.second s).intOf signed
    Runs (mathInstr .mul signed d f) s fun t =>
      ((t.getD d).toNat : Int) = p % 2 ^ d.bits ∧ NZOf (t.getD d) t.ccr ∧
      (t.ccr.v = true ↔ RangeOut signed d.bits p) ∧ t.ccr.c = false ∧
      RegFrame s (f.moved s) t [d]

/-- MACS and MACU in all their forms: the product added to the destination; V where the product does not fit
or the addition overflows, C where it carries (R230, R233, R234; the spec's decision D26, log entry 31; a register
operand is taken at its own width whatever size is coded, D19, log entry 23). -/
def Obligations.MultiplyAccumulateResult : Prop :=
  ∀ (s : State) (signed : Bool) (d : DReg) (f : MathForm),
    let p := (f.first s).intOf signed * (f.second s).intOf signed
    let acc := s.getD d
    Runs (mathInstr .mac signed d f) s fun t =>
      ((t.getD d).toNat : Int) = (acc.toNat + p) % 2 ^ d.bits ∧ NZOf (t.getD d) t.ccr ∧
      (t.ccr.c = true ↔ (2 : Int) ^ d.bits ≤ acc.toNat + p % 2 ^ d.bits) ∧
      (t.ccr.v = true ↔ RangeOut signed d.bits p ∨
        (if signed then SignedOut d.bits (acc.toInt + p) else t.ccr.c = true)) ∧
      RegFrame s (f.moved s) t [d]

/-- DIVS, DIVU, MODS and MODU in all their forms: the quotient truncated toward zero, the remainder that
`a = (a / b) * b + r` leaves; a zero divisor sets C, a result that does not fit sets V and clears C, and what
the destination and the other flags then hold is open (R230, R235 to R238; U3, log entry 9; a register operand is
taken at its own width whatever size is coded, D19, log entry 23). -/
def Obligations.DivideModuloResult : Prop :=
  ∀ (s : State) (signed : Bool) (d : DReg) (f : MathForm),
    let a := (f.first s).intOf signed
    let b := (f.second s).intOf signed
    let done (x : Int) (t : State) : Prop :=
      (if b = 0 then t.ccr.c = true
       else t.ccr.c = false ∧ (t.ccr.v = true ↔ RangeOut signed d.bits x) ∧
        (¬RangeOut signed d.bits x → ((t.getD d).toNat : Int) = x % 2 ^ d.bits ∧
          t.ccr.n = (t.getD d).msb ∧ (t.ccr.z = true ↔ x = 0))) ∧
      RegFrame s (f.moved s) t [d]
    Runs (mathInstr .div signed d f) s (done (Int.tdiv a b)) ∧
    Runs (mathInstr .mod signed d f) s (done (a - b * Int.tdiv a b))

/-- QMULS and QMULU in all their forms: the product of two left-aligned fractions, cut off; minus one times
minus one saturates and sets V (R230, R239, R240; the alignment is the spec's decision D27, log entry 32; a register
operand is taken, and aligned, at its own width whatever size is coded, D19, log entry 23). -/
def Obligations.FractionMultiplyResult : Prop :=
  ∀ (s : State) (signed : Bool) (d : DReg) (f : MathForm),
    let l := max (f.first s).w (f.second s).w
    let a := (f.first s).intOf signed * 2 ^ (l - (f.first s).w)
    let b := (f.second s).intOf signed * 2 ^ (l - (f.second s).w)
    let least := -(2 : Int) ^ (l - 1)
    Runs (mathInstr .qmul signed d f) s fun t =>
      (if signed = true ∧ a = least ∧ b = least then
        (t.getD d).toInt = (2 : Int) ^ (d.bits - 1) - 1 ∧ t.ccr.v = true
       else
        ((t.getD d).toNat : Int) =
          (if signed then a * b * 2 ^ (d.bits - 1) / 2 ^ (2 * l - 2) else a * b * 2 ^ d.bits / 2 ^ (2 * l))
            % 2 ^ d.bits ∧ t.ccr.v = false) ∧
      NZOf (t.getD d) t.ccr ∧ t.ccr.c = false ∧ RegFrame s (f.moved s) t [d]

/-- SAT and CLB (R241, R242). -/
def Obligations.SaturateAndCountLeading : Prop :=
  ∀ s : State,
    (∀ d, Runs (.sat d) s (fun t =>
        (t.getD d).toInt = (if s.ccr.v then
          (if s.ccr.n then (2 : Int) ^ (d.bits - 1) - 1 else -(2 : Int) ^ (d.bits - 1))
          else (s.getD d).toInt) ∧
        LoadFlagsOf (t.getD d) s.ccr t.ccr ∧ RegFrame s s t [d]) ∧
      encode (.sat d) = [0x1B, 0b10100#5 ++ d.code]) ∧
    (∀ src d, Runs (.clb src d) s fun t =>
      ∃ k : Nat, (t.getD d).toNat = k ∧ k < src.bits ∧
        (∀ j ≤ k, (s.getD src).getMsbD j = (s.getD src).msb) ∧
        (k + 1 < src.bits → (s.getD src).getMsbD (k + 1) ≠ (s.getD src).msb) ∧
        t.ccr.n = false ∧ (t.ccr.z = true ↔ k = 0) ∧ t.ccr.v = false ∧ t.ccr.c = s.ccr.c ∧
        RegFrame s s t [d])

/-! ## Logic, condition codes -/

/-- AND, OR, EOR and BIT (R260 to R264). -/
def Obligations.LogicalResult : Prop :=
  ∀ (s : State) (d : DReg) (m : DSrc),
    let a := s.getD d
    let b := s.dValue d m
    let bits (f : Bool → Bool → Bool) (r : BitVec d.bits) : Prop :=
      ∀ k < d.bits, r.getLsbD k = f (a.getLsbD k) (b.getLsbD k)
    let writes (i : Instr) (f : Bool → Bool → Bool) : Prop := Runs i s fun t =>
      bits f (t.getD d) ∧ LoadFlagsOf (t.getD d) s.ccr t.ccr ∧ RegFrame s (s.dMoved d m) t [d]
    writes (.and d m) Bool.and ∧ writes (.or d m) Bool.or ∧ writes (.eor d m) Bool.xor ∧
    Runs (.bit d m) s (fun t => (∃ r, bits Bool.and r ∧ LoadFlagsOf r s.ccr t.ccr) ∧
      RegFrame s (s.dMoved d m) t []) ∧
    match m with
    | .imm v =>
      encode (.and d m) = (0b01011#5 ++ d.code) :: beBytes d.size.bytes v.toNat ∧
      encode (.or d m) = (0b01111#5 ++ d.code) :: beBytes d.size.bytes v.toNat ∧
      encode (.eor d m) = 0x1B :: (0b01111#5 ++ d.code) :: beBytes d.size.bytes v.toNat ∧
      encode (.bit d m) = 0x1B :: (0b01011#5 ++ d.code) :: beBytes d.size.bytes v.toNat
    | .opr o =>
      encode (.and d m) = (0b01101#5 ++ d.code) :: o.enc ∧
      encode (.or d m) = (0b10001#5 ++ d.code) :: o.enc ∧
      encode (.eor d m) = 0x1B :: (0b10001#5 ++ d.code) :: o.enc ∧
      encode (.bit d m) = 0x1B :: (0b01101#5 ++ d.code) :: o.enc

/-- ANDCC, ORCC and the six names of single masks: S, X and I change in supervisor state alone, X is never
set, CCH never changes (R266 to R273). -/
def Obligations.CcrMaskResult : Prop :=
  ∀ s : State,
    let c := s.ccr
    let runs (i : Instr) (c' : Ccr) : Prop := Runs i s fun t => t.ccr = c' ∧ CcrOnly s t
    (∀ m : BitVec 8, runs (.andcc m) { c with
        s := c.s && (c.u || m.getLsbD 7), xm := c.xm && (c.u || m.getLsbD 6),
        i := c.i && (c.u || m.getLsbD 4), n := c.n && m.getLsbD 3, z := c.z && m.getLsbD 2,
        v := c.v && m.getLsbD 1, c := c.c && m.getLsbD 0 } ∧ encode (.andcc m) = [0xCE, m]) ∧
    (∀ m : BitVec 8, runs (.orcc m) { c with
        s := c.s || (!c.u && m.getLsbD 7), i := c.i || (!c.u && m.getLsbD 4),
        n := c.n || m.getLsbD 3, z := c.z || m.getLsbD 2, v := c.v || m.getLsbD 1,
        c := c.c || m.getLsbD 0 } ∧ encode (.orcc m) = [0xDE, m]) ∧
    (runs .clc { c with c := false } ∧ encode .clc = [0xCE, 0xFE]) ∧
    (runs .cli { c with i := c.i && c.u } ∧ encode .cli = [0xCE, 0xEF]) ∧
    (runs .clv { c with v := false } ∧ encode .clv = [0xCE, 0xFD]) ∧
    (runs .sec { c with c := true } ∧ encode .sec = [0xDE, 0x01]) ∧
    (runs .sei { c with i := c.i || !c.u } ∧ encode .sei = [0xDE, 0x10]) ∧
    (runs .sev { c with v := true } ∧ encode .sev = [0xDE, 0x02])

/-! ## Shifts, bits -/

/-- ASL, ASR, LSL, LSR in all their forms (R290 to R294; the flags of a count of 0 and of a wide count are the
spec's decisions D20 and D24, log entry 26; a register operand is taken at its own width whatever size is coded,
D19, log entry 23); a short immediate shifted in place is refused by name (U2, the model's choice of log entry
8). Stores go through the memory map (D6, log entry 3) and are noted in the trace (the model's own, log entry
39). -/
def Obligations.ShiftResult : Prop :=
  ∀ s : State,
    (∀ d src n, ShiftRuns (.asl d src n) .asl d ⟨src.bits, s.getD src⟩ n s s ∧
      ShiftRuns (.asr d src n) .asr d ⟨src.bits, s.getD src⟩ n s s ∧
      ShiftRuns (.lsl d src n) .lsl d ⟨src.bits, s.getD src⟩ n s s ∧
      ShiftRuns (.lsr d src n) .lsr d ⟨src.bits, s.getD src⟩ n s s) ∧
    (∀ f, ShiftOprRuns (.aslOpr f) .asl f s ∧ ShiftOprRuns (.asrOpr f) .asr f s ∧
      ShiftOprRuns (.lslOpr f) .lsl f s ∧ ShiftOprRuns (.lsrOpr f) .lsr f s)

/-- ROL and ROR (R295, R296); a short immediate, which R295 calls not appropriate, is refused by name (U2, the
model's choice of log entry 8). Stores go through the memory map (D6, log entry 3) and are noted in the trace
(the model's own, log entry 39). -/
def Obligations.RotateResult : Prop :=
  ∀ (s : State) (sz : Size) (o : Opr),
    RmwRuns (.rol sz o) o sz s RotatedLeft ∧ RmwRuns (.ror sz o) o sz s RotatedRight

/-- BSET, BCLR, BTGL in all their forms (R310 to R312, R315; a bit number beyond the operand is the spec's
decision D16, log entry 25; a register operand is taken at its own width whatever size is coded, D19, log entry
23); a short immediate is refused by name (U2, the model's choice of log entry 8). Stores go through the memory
map (D6, log entry 3) and are noted in the trace (the model's own, log entry 39). -/
def Obligations.BitModifyResult : Prop :=
  ∀ (s : State) (m : BmArg),
    BmRuns (.bset m) (fun _ => true) m s ∧ BmRuns (.bclr m) (fun _ => false) m s ∧
    BmRuns (.btgl m) not m s

/-- BFEXT and BFINS in all their forms (R313, R314; a field beyond the operand is the spec's decision D25, log
entry 30; a register operand is taken at its own width whatever size is coded, D19, log entry 23); a short
immediate as destination is refused by name (U2, the model's choice of log entry 8). Stores go through the
memory map (D6, log entry 3) and are noted in the trace (the model's own, log entry 39). -/
def Obligations.BitFieldResult : Prop :=
  ∀ s : State,
    let ext {ws : Nat} (v : BitVec ws) (p : BfParam) {w : Nat} (_ r : BitVec w) (c c' : Ccr) : Prop :=
      FieldExtracted v (s.fieldWidth p) (s.fieldOffset p) r ∧ LoadFlagsOf r c c'
    let ins {ws : Nat} (v : BitVec ws) (p : BfParam) {w : Nat} (a r : BitVec w) (c c' : Ccr) : Prop :=
      FieldInserted v (s.fieldWidth p) (s.fieldOffset p) a r ∧ LoadFlagsOf r c c'
    (∀ (d src : DReg) p, Runs (.bfext d src p) s (fun t =>
        ext (s.getD src) p (s.getD d) (t.getD d) s.ccr t.ccr ∧ RegFrame s s t [d]) ∧
      Runs (.bfins d src p) s (fun t =>
        ins (s.getD src) p (s.getD d) (t.getD d) s.ccr t.ccr ∧ RegFrame s s t [d])) ∧
    (∀ (d : DReg) sz o p, Runs (.bfextOpr (.fromOpr d sz o p)) s (fun t =>
        ext (s.mbOperand o sz).v p (s.getD d) (t.getD d) s.ccr t.ccr ∧
        RegFrame s (s.oprMoved o sz.bytes) t [d]) ∧
      Runs (.bfinsOpr (.fromOpr d sz o p)) s (fun t =>
        ins (s.mbOperand o sz).v p (s.getD d) (t.getD d) s.ccr t.ccr ∧
        RegFrame s (s.oprMoved o sz.bytes) t [d])) ∧
    (∀ (src : DReg) sz o p, RmwRuns (.bfextOpr (.toOpr sz o src p)) o sz s (ext (s.getD src) p) ∧
      RmwRuns (.bfinsOpr (.toOpr sz o src p)) o sz s (ins (s.getD src) p))

/-- MAXS, MAXU, MINS, MINU: the flags of the subtraction, the larger or smaller value (R330 to R334). -/
def Obligations.MinMaxResult : Prop :=
  ∀ (s : State) (d : DReg) (o : Opr),
    let a := s.getD d
    let b := s.oprValue o d.size
    let runs (i : Instr) (r : BitVec d.bits → Prop) : Prop := Runs i s fun t =>
      r (t.getD d) ∧ CompareFlags a b t.ccr ∧ RegFrame s (s.oprMoved o d.size.bytes) t [d]
    runs (.maxs d o) (fun r => r.toInt = max a.toInt b.toInt) ∧
    runs (.maxu d o) (fun r => r.toNat = max a.toNat b.toNat) ∧
    runs (.mins d o) (fun r => r.toInt = min a.toInt b.toInt) ∧
    runs (.minu d o) (fun r => r.toNat = min a.toNat b.toNat) ∧
    encode (.maxs d o) = 0x1B :: (0b00101#5 ++ d.code) :: o.enc ∧
    encode (.maxu d o) = 0x1B :: (0b00011#5 ++ d.code) :: o.enc ∧
    encode (.mins d o) = 0x1B :: (0b00100#5 ++ d.code) :: o.enc ∧
    encode (.minu d o) = 0x1B :: (0b00010#5 ++ d.code) :: o.enc

/-! ## Control flow -/

/-- BRA and the conditional branches: the condition on the flags decides between the target, from the
branch's own address, and the next instruction; nothing else changes (R340, R341, R343 to R358). -/
def Obligations.BranchResult : Prop :=
  ∀ (s : State) (rel : Rel),
    let n := s.ccr.n
    let z := s.ccr.z
    let v := s.ccr.v
    let c := s.ccr.c
    let on (i : Instr) (op : Byte) (cond : Bool) : Prop :=
      BranchesOn cond i rel s ∧ encode i = op :: rel.enc
    on (.bra rel) 0x20 true ∧ on (.bhi rel) 0x22 (!(c || z)) ∧ on (.bls rel) 0x23 (c || z) ∧
    on (.bcc rel) 0x24 (!c) ∧ on (.bcs rel) 0x25 c ∧ on (.bne rel) 0x26 (!z) ∧
    on (.beq rel) 0x27 z ∧ on (.bvc rel) 0x28 (!v) ∧ on (.bvs rel) 0x29 v ∧
    on (.bpl rel) 0x2A (!n) ∧ on (.bmi rel) 0x2B n ∧ on (.bge rel) 0x2C (!(n ^^ v)) ∧
    on (.blt rel) 0x2D (n ^^ v) ∧ on (.bgt rel) 0x2E (!(z || (n ^^ v))) ∧
    on (.ble rel) 0x2F (z || (n ^^ v)) ∧ on (.bhs rel) 0x24 (!c) ∧ on (.blo rel) 0x25 c

/-- After CMP Di, each branch of the table of R340 asks what the table says of the register and the operand,
signed or unsigned (R208, R340). -/
def Obligations.BranchAfterCompare : Prop :=
  ∀ (s t : State) (d : DReg) (m : DSrc) (rel : Rel), exec (.cmpD d m) s = .next t →
    let r := s.getD d
    let b := s.dValue d m
    BranchesOn (decide (b.toInt < r.toInt)) (.bgt rel) rel t ∧
    BranchesOn (decide (b.toInt ≤ r.toInt)) (.bge rel) rel t ∧
    BranchesOn (decide (r.toInt ≤ b.toInt)) (.ble rel) rel t ∧
    BranchesOn (decide (r.toInt < b.toInt)) (.blt rel) rel t ∧
    BranchesOn (decide (b.toNat < r.toNat)) (.bhi rel) rel t ∧
    BranchesOn (decide (b.toNat ≤ r.toNat)) (.bcc rel) rel t ∧
    BranchesOn (decide (r.toNat ≤ b.toNat)) (.bls rel) rel t ∧
    BranchesOn (decide (r.toNat < b.toNat)) (.bcs rel) rel t ∧
    BranchesOn (decide (r = b)) (.beq rel) rel t ∧
    BranchesOn (decide (r ≠ b)) (.bne rel) rel t

/-- BRCLR and BRSET: the tested bit to C, nothing else in the CCR, the operand only read (R359, R360; a bit
number beyond the operand is the spec's decision D16, log entry 25; a register operand is taken at its own width
whatever size is coded, D19, log entry 23). -/
def Obligations.BitBranchResult : Prop :=
  ∀ (s : State) (m : BmArg) (rel : Rel),
    let b := (bmTested s m).v.getLsbD (bmNumber s m)
    let runs (i : Instr) (want : Bool) : Prop := Gives i s fun t =>
      LoopsTo (b = want) i rel s t ∧ t.ccr = { s.ccr with c := b } ∧ RegFrame s (bmDone s m) t []
    runs (.brclr m rel) false ∧ runs (.brset m rel) true ∧
    encode (.brclr m rel) = 0x02 :: (m.enc ++ rel.enc) ∧
    encode (.brset m rel) = 0x03 :: (m.enc ++ rel.enc)

/-- DBcc and TBcc in all their forms: the counter less one, or as it is; the condition on it; the CCR unchanged;
the reserved conditions never branch (R361, R362). DBcc writes its counter before it fetches its offset: a
counter in memory that lies on the offset's bytes changes where it goes, and how many bytes are fetched. A
register of another width than the coded size takes the counter truncated or zero-extended (the spec's decision
D14, log entry 23); a short immediate as the counter is refused by name (U2, the model's choice of log entry 8).
Stores go through the memory map (D6, log entry 3) and are noted in the trace (the model's own, log entry 39).
-/
def Obligations.LoopResult : Prop :=
  ∀ (s : State) (c : LoopCond) (rel : Rel),
    (∀ d, Gives (.dbcc c (.d d) rel) s fun t => t.getD d = s.getD d - 1 ∧
      LoopsTo (LoopTaken c (s.getD d - 1)) (.dbcc c (.d d) rel) rel s t ∧
      t.ccr = s.ccr ∧ RegFrame s s t [d]) ∧
    (∀ r, Gives (.dbcc c (.xy r) rel) s fun t =>
      LoopsTo (LoopTaken c (s.getXY r - 1)) (.dbcc c (.xy r) rel) rel s t ∧
      t.ccr = s.ccr ∧ RegFrame s (s.setXY r (s.getXY r - 1)) t []) ∧
    (∀ sz o,
      let i : Instr := .dbccOpr c sz o rel
      let v := s.oprValue o sz - 1
      let a := s.pc + BitVec.ofNat 24 (2 + o.enc.length)
      match s.oprLoc o sz.bytes with
      | .imm _ => exec i s = .refused .immediateDestination
      | .reg q => Gives i s fun t => (t.getD q).toNat = v.toNat % 2 ^ q.bits ∧
          LoopsTo (LoopTaken c v) i rel s t ∧ t.ccr = s.ccr ∧ RegFrame s s t [q] ∧
          t.trace = .access ⟨.fetch, !s.ccr.u, a, rel.enc.length⟩ :: s.trace
      | .mem ea => Gives i s fun t => Stored s t ea sz.bytes v.toNat ∧
          t.ccr = s.ccr ∧ Frame s (s.oprMoved o sz.bytes) t [] ea sz.bytes ∧
          ∃ rel', (¬Overlap ea sz.bytes a rel.enc.length → rel' = rel) ∧
            (Overlap ea sz.bytes a rel.enc.length → t.OffsetAt a rel') ∧
            LoopsTo (LoopTaken c v) (.dbccOpr c sz o rel') rel' s t ∧
            t.trace = .access ⟨.fetch, !s.ccr.u, a, rel'.enc.length⟩ ::
              .access ⟨.write, !s.ccr.u, ea, sz.bytes⟩ :: (s.oprDone o sz).trace) ∧
    (∀ d, Gives (.tbcc c (.d d) rel) s fun t =>
      LoopsTo (LoopTaken c (s.getD d)) (.tbcc c (.d d) rel) rel s t ∧
      t.ccr = s.ccr ∧ RegFrame s s t []) ∧
    (∀ r, Gives (.tbcc c (.xy r) rel) s fun t =>
      LoopsTo (LoopTaken c (s.getXY r)) (.tbcc c (.xy r) rel) rel s t ∧
      t.ccr = s.ccr ∧ RegFrame s s t []) ∧
    (∀ sz o, Gives (.tbccOpr c sz o rel) s fun t =>
      LoopsTo (LoopTaken c (s.oprValue o sz)) (.tbccOpr c sz o rel) rel s t ∧
      t.ccr = s.ccr ∧ RegFrame s (s.oprMoved o sz.bytes) t [])

/-- JMP, JSR, BSR and RTS: the target of a direct submode is its address, of an indirect one the pointer's
value, taken before the return address is pushed; the automatic submodes move by an amount the spec leaves open
(R119, R342, R363 to R365; D17, log entry 6; D18, log entry 24; U1, log entry 7). Stores go through the memory
map (D6, log entry 3) and are noted in the trace (the model's own, log entry 39). -/
def Obligations.JumpCallReturn : Prop :=
  ∃ k : Nat, 1 ≤ k ∧ k ≤ 4 ∧ ∀ s : State,
    let jumps (o : ExtOpr) (p : State) (ea : Addr) : Prop :=
      Gives (.jmp o) s (fun t => t.pc = ea ∧ t.ccr = s.ccr ∧ RegFrame s p t []) ∧
      Gives (.jsr o) s (fun t => t.pc = ea ∧ t.ccr = s.ccr ∧
        Stored s t (p.sp - 3) 3 (s.pc + BitVec.ofNat 24 (encode (.jsr o)).length).toNat ∧
        Frame s { p with sp := p.sp - 3 } t [] (p.sp - 3) 3)
    (∀ a, jumps (.ext a) s a ∧ encode (.jmp (.ext a)) = 0xBA :: beBytes 3 a.toNat ∧
      encode (.jsr (.ext a)) = 0xBB :: beBytes 3 a.toNat) ∧
    (∀ o ea, s.place o = .direct ea → jumps (.opr o) s ea) ∧
    (∀ o ptr, s.place o = .indirect ptr → jumps (.opr o) s (s.load ptr .p)) ∧
    (∀ m ea, s.oprLoc (.auto m) k = .mem ea → jumps (.opr (.auto m)) (s.oprMoved (.auto m) k) ea) ∧
    (∀ e, ∃ ea, jumps (.opr (.immE4 e)) s ea) ∧
    (∀ d, ∃ ea, jumps (.opr (.reg d)) s ea) ∧
    (∀ o, encode (.jmp (.opr o)) = 0xAA :: o.enc ∧ encode (.jsr (.opr o)) = 0xAB :: o.enc) ∧
    (∀ rel, Gives (.bsr rel) s (fun t => t.pc = s.relTarget rel ∧ t.ccr = s.ccr ∧
        Stored s t (s.sp - 3) 3 (s.pc + BitVec.ofNat 24 (encode (.bsr rel)).length).toNat ∧
        Frame s { s with sp := s.sp - 3 } t [] (s.sp - 3) 3) ∧
      encode (.bsr rel) = 0x21 :: rel.enc) ∧
    Gives .rts s (fun t => s.Reads s.sp 3 t.pc.toNat ∧ t.ccr = s.ccr ∧
      RegFrame s { s with sp := s.sp + 3 } t []) ∧ encode .rts = [0x05]

/-! ## Exceptions, standby -/

/-- SWI, SYS, TRAP and SPARE, in either state: the frame with the address after the instruction and the old CCR,
I set, U cleared, PC from the instruction's own vector, read before the frame is written (R380 to R383, R403 to
R406). Stores go through the memory map (D6, log entry 3) and are noted in the trace (the model's own, log entry
39). -/
def Obligations.SoftwareExceptionEntry : Prop :=
  ∀ s : State,
    let enters (i : Instr) (vector : Addr) : Prop := Gives i s fun t =>
      ContextStacked s t (s.pc + BitVec.ofNat 24 (encode i).length) ∧
      EnteredCcr s.ccr t.ccr s.ccr.ipl s.ccr.xm ∧ t.pc = s.load vector .p ∧ t.runState = .running ∧
      t.irqShadow = s.irqShadow ∧ t.taken = s.taken
    (enters .swi s.vec.swi ∧ encode .swi = [0xFF]) ∧
    (enters .sys s.vec.sys ∧ encode .sys = [0x1B, 0x07]) ∧
    (∀ tn, enters (.trap tn) s.vec.trap ∧ encode (.trap tn) = [0x1B, tn]) ∧
    (enters .spare s.vec.spare ∧ encode .spare = [0xEF])

/-- RTI: the registers of the frame, the CCR through `WriteCCR` in one piece (the spec's decision D28, log entry
33); then the return address, or, with an interrupt pending under the restored CCR, its handler over the same
frame; memory is unchanged (R384, R435, R436). That the shadow does not hold this test back and is cleared by it
is DEDUCED (log entry 13). What a read gets from an address that holds no memory is open (D6, log entry 3). -/
def Obligations.ReturnFromInterrupt : Prop :=
  ∀ s : State, encode .rti = [0x1B, 0x90] ∧ Gives .rti s fun t => ∃ (ccw : BitVec 16) (rtn : Addr),
    let c := s.ccr.writeMasked ccw true true
    (s.Reads s.sp 2 ccw.toNat ∧ s.Reads (s.sp + 2) 1 t.d0.toNat ∧ s.Reads (s.sp + 3) 1 t.d1.toNat ∧
      s.Reads (s.sp + 4) 2 t.d2.toNat ∧ s.Reads (s.sp + 6) 2 t.d3.toNat ∧ s.Reads (s.sp + 8) 2 t.d4.toNat ∧
      s.Reads (s.sp + 10) 2 t.d5.toNat ∧ s.Reads (s.sp + 12) 4 t.d6.toNat ∧
      s.Reads (s.sp + 16) 4 t.d7.toNat ∧ s.Reads (s.sp + 20) 3 t.x.toNat ∧
      s.Reads (s.sp + 23) 3 t.y.toNat ∧ s.Reads (s.sp + 26) 3 rtn.toNat) ∧
    t.mem = s.mem ∧ t.map = s.map ∧ t.machineRequest = s.machineRequest ∧ t.runState = s.runState ∧
    t.vec = s.vec ∧ t.enbdm = s.enbdm ∧ t.inputs = s.inputs ∧
    match interruptPending s.input.rtiIrqs false c with
    | none => t.ccr = c ∧ t.pc = rtn ∧ t.sp = s.sp + 29 ∧ t.taken = s.taken ∧ t.irqShadow = s.irqShadow
    | some (k, req) => EnteredCcr c t.ccr req.level (irqXm k c) ∧ s.Reads req.vecaddr 3 t.pc.toNat ∧
        t.sp = s.sp ∧ t.taken = req :: s.taken ∧ t.irqShadow = false

/-- A software exception followed at once by RTI, with no interrupt pending, on a stack in RAM, comes back to
the next instruction with every register, SP and the whole CCR as they were, user state and a clear X included
(R384, R403, R404, R435; that RTI tests for interrupts whatever the shadow is DEDUCED, log entry 13). Which
addresses are RAM is D6, log entry 3. -/
def Obligations.ExceptionRoundTrip : Prop :=
  ∀ (i : Instr) (s t : State), (i = .swi ∨ i = .sys ∨ (∃ tn, i = .trap tn) ∨ i = .spare) →
    exec i s = .next t → interruptPending s.input.rtiIrqs false s.ccr = none → s.RamAt (s.sp - 29) 29 →
    ∃ u, exec .rti t = .next u ∧ u.pc = s.pc + BitVec.ofNat 24 (encode i).length ∧
      RegistersSame s u ∧ u.sp = s.sp ∧ u.ccr = s.ccr ∧ BytesSame s u (s.sp - 29) 29

/-- WAI and STOP: the context is stacked with the next address and the CPU stands by, the CCR unchanged; in user
state, and for STOP with S set, a NOP (R385, R386, R405). That PC holds the next address while the CPU stands by
is the model's choice (R385 and R386 assign no PC there; DEDUCED, log entry 28). Stores go through the memory
map (D6, log entry 3) and are noted in the trace (the model's own, log entry 39). -/
def Obligations.StandbyEntry : Prop :=
  ∀ s : State,
    let runs (i : Instr) (how : RunState) (nop : Bool) : Prop :=
      encode i = (if i = .wai then [0x1B, 0x06] else [0x1B, 0x05]) ∧
      Runs i s fun t => t.ccr = s.ccr ∧
        if nop then CcrOnly s t
        else ContextStacked s t (s.pc + 2) ∧ t.runState = how ∧ t.irqShadow = s.irqShadow ∧
          t.taken = s.taken
    runs .wai .waiting s.ccr.u ∧ runs .stop .stopped (s.ccr.u || s.ccr.s)

end
end

