-- ==== Sys2Proof/Laws/Ccr.lean ====
section
/-! SUPPORT. The CCR as a word and as fields, and what the filter of `WriteCCR` lets through. -/

namespace Sys2Proof.Machine

/-- Where each field of the CCR stands (R16, R17). -/
theorem Ccr.word_getLsbD (c : Ccr) (k : Nat) : c.word.getLsbD k =
    match k with
    | 0 => c.c
    | 1 => c.v
    | 2 => c.z
    | 3 => c.n
    | 4 => c.i
    | 6 => c.xm
    | 7 => c.s
    | 8 => c.ipl.getLsbD 0
    | 9 => c.ipl.getLsbD 1
    | 10 => c.ipl.getLsbD 2
    | 15 => c.u
    | _ => false := by
  rcases Nat.lt_or_ge k 16 with h | h
  · unfold Ccr.word
    interval_cases k <;> simp only [BitVec.getLsbD_append, BitVec.getLsbD_ofBool] <;> simp
  · rw [BitVec.getLsbD_of_ge _ _ h]
    split <;> first | omega | rfl

/-- A bit of a word is a bit of its number. -/
theorem getElem_eq_getLsbD {w : Nat} (v : BitVec w) (k : Nat) (h : k < w) : v[k] = v.getLsbD k :=
  (BitVec.getLsbD_eq_getElem h).symm

/-- A bit of a byte that stands in a word of zeros. -/
theorem getLsbD_setWidth_byte (b : BitVec 8) (k : Nat) :
    (b.setWidth 16).getLsbD k = b.getLsbD k := by
  rw [BitVec.getLsbD_setWidth]
  by_cases h : k < 16
  · simp [h]
  · rw [BitVec.getLsbD_of_ge b k (by omega)]
    simp

/-- What ANDCC leaves in the CCR (R266). -/
theorem andCcl_eq (s : State) (m : BitVec 8) :
    s.andCcl m = { s with ccr := { s.ccr with
      s := s.ccr.s && (s.ccr.u || m.getLsbD 7), xm := s.ccr.xm && (s.ccr.u || m.getLsbD 6),
      i := s.ccr.i && (s.ccr.u || m.getLsbD 4), n := s.ccr.n && m.getLsbD 3,
      z := s.ccr.z && m.getLsbD 2, v := s.ccr.v && m.getLsbD 1, c := s.ccr.c && m.getLsbD 0 } } := by
  unfold State.andCcl State.writeCcr Ccr.writeMasked
  simp only [getElem_eq_getLsbD, getLsbD_setWidth_byte, BitVec.getLsbD_and, BitVec.getLsbD_extractLsb',
    Ccr.word_getLsbD]
  cases s.ccr.u <;> simp

/-- What ORCC leaves in the CCR (R267). -/
theorem orCcl_eq (s : State) (m : BitVec 8) :
    s.orCcl m = { s with ccr := { s.ccr with
      s := s.ccr.s || (!s.ccr.u && m.getLsbD 7), i := s.ccr.i || (!s.ccr.u && m.getLsbD 4),
      n := s.ccr.n || m.getLsbD 3, z := s.ccr.z || m.getLsbD 2, v := s.ccr.v || m.getLsbD 1,
      c := s.ccr.c || m.getLsbD 0 } } := by
  unfold State.orCcl State.writeCcr Ccr.writeMasked
  simp only [getElem_eq_getLsbD, getLsbD_setWidth_byte, BitVec.getLsbD_or, BitVec.getLsbD_extractLsb',
    Ccr.word_getLsbD]
  cases s.ccr.u <;> simp
  cases s.ccr.xm <;> simp

/-- In supervisor state a whole CCR goes back as it was, but for X, which cannot rise (R19, R22). -/
theorem writeMasked_word (c old : Ccr) (hu : c.u = false) (hx : old.xm = true → c.xm = true) :
    c.writeMasked old.word true true = old := by
  have hi : old.word.extractLsb' 8 3 = old.ipl := by
    apply BitVec.eq_of_getLsbD_eq
    intro k hk
    rw [BitVec.getLsbD_extractLsb', Ccr.word_getLsbD]
    interval_cases k <;> simp
  unfold Ccr.writeMasked
  simp only [getElem_eq_getLsbD, Ccr.word_getLsbD, hu, hi]
  cases old
  simp only [Ccr.mk.injEq]
  revert hx
  cases c.xm <;> simp

/-- Writing back what the CCR holds changes nothing (R19). -/
theorem writeMasked_self (c : Ccr) (hi lo : Bool) : c.writeMasked c.word hi lo = c := by
  have hp : c.word.extractLsb' 8 3 = c.ipl := by
    apply BitVec.eq_of_getLsbD_eq
    intro k hk
    rw [BitVec.getLsbD_extractLsb', Ccr.word_getLsbD]
    interval_cases k <;> simp
  unfold Ccr.writeMasked
  simp only [getElem_eq_getLsbD, Ccr.word_getLsbD, hp]
  cases c
  cases hi <;> cases lo <;> simp

end Sys2Proof.Machine
end

