-- ==== Sys2Proof/Laws/Memory.lean ====
section
/-! SUPPORT. Memory: read after write, and every operation keeps the canonical form. -/

namespace Sys2Proof.Machine

/-! ## Read after write -/

theorem Memory.read_erase_same (m : Memory) (a : Nat) : (m.erase a).read a = Config.unwrittenByte := by
  induction m with
  | nil => rfl
  | cons c rest ih =>
    obtain ⟨k, v⟩ := c
    by_cases h : k = a
    · simpa [Memory.erase, h] using ih
    · simpa [Memory.erase, Memory.read, h] using ih

theorem Memory.read_erase_ne (m : Memory) (a b : Nat) (h : b ≠ a) : (m.erase a).read b = m.read b := by
  induction m with
  | nil => rfl
  | cons c rest ih =>
    obtain ⟨k, v⟩ := c
    by_cases hk : k = a
    · have : ¬ k = b := fun e => h (e.symm.trans hk)
      simpa [Memory.erase, Memory.read, hk, h.symm] using ih
    · by_cases hb : k = b
      · simp [Memory.erase, Memory.read, hb, h]
      · simpa [Memory.erase, Memory.read, hk, hb] using ih

theorem Memory.read_insertCell_ne (m : Memory) (a : Nat) (v : Byte) (b : Nat) (h : b ≠ a) :
    (Memory.insertCell a v m).read b = m.read b := by
  induction m with
  | nil => simp [Memory.insertCell, Memory.read, h.symm]
  | cons c rest ih =>
    obtain ⟨k, w⟩ := c
    unfold Memory.insertCell
    split
    · simp [Memory.read, h.symm]
    · simp [Memory.read, ih]

theorem Memory.read_insertCell_same (m : Memory) (a : Nat) (v : Byte) (h : ∀ c ∈ m, c.1 ≠ a) :
    (Memory.insertCell a v m).read a = v := by
  induction m with
  | nil => simp [Memory.insertCell, Memory.read]
  | cons c rest ih =>
    obtain ⟨k, w⟩ := c
    have hk : k ≠ a := h (k, w) (by simp)
    have hr : ∀ c ∈ rest, c.1 ≠ a := fun c hc => h c (by simp [hc])
    unfold Memory.insertCell
    split
    · simp [Memory.read]
    · simpa [Memory.read, hk] using ih hr

theorem Memory.erase_no_key (m : Memory) (a : Nat) : ∀ c ∈ m.erase a, c.1 ≠ a := by
  intro c hc
  have := (List.mem_filter.mp hc).2
  simpa using this

/-- A read after a write to the same place gives the value written. -/
@[simp] theorem Memory.read_write_same (m : Memory) (a : Nat) (v : Byte) : (m.write a v).read a = v := by
  unfold Memory.write
  split
  · next h => rw [Memory.read_erase_same, h]
  · exact Memory.read_insertCell_same _ _ _ (Memory.erase_no_key m a)

/-- A write leaves every other place alone. -/
theorem Memory.read_write_ne (m : Memory) (a : Nat) (v : Byte) (b : Nat) (h : b ≠ a) :
    (m.write a v).read b = m.read b := by
  unfold Memory.write
  split
  · exact Memory.read_erase_ne m a b h
  · rw [Memory.read_insertCell_ne _ _ _ _ h, Memory.read_erase_ne _ _ _ h]

/-! ## The canonical form -/

theorem Memory.wfFrom_mono {m : Memory} {lo lo' : Nat} (h : lo ≤ lo') (hm : Memory.wfFrom lo' m = true) :
    Memory.wfFrom lo m = true := by
  cases m with
  | nil => rfl
  | cons c rest =>
    obtain ⟨k, v⟩ := c
    simp only [Memory.wfFrom, Bool.and_eq_true, decide_eq_true_eq] at hm ⊢
    exact ⟨⟨⟨le_trans h hm.1.1.1, hm.1.1.2⟩, hm.1.2⟩, hm.2⟩

theorem Memory.wfFrom_erase {m : Memory} {lo : Nat} (a : Nat) (hm : Memory.wfFrom lo m = true) :
    Memory.wfFrom lo (m.erase a) = true := by
  induction m generalizing lo with
  | nil => rfl
  | cons c rest ih =>
    obtain ⟨k, v⟩ := c
    simp only [Memory.wfFrom, Bool.and_eq_true, decide_eq_true_eq] at hm
    have hr := ih hm.2
    by_cases hk : k = a
    · simp only [Memory.erase, List.filter, hk, bne_self_eq_false]
      exact Memory.wfFrom_mono (Nat.le_succ_of_le hm.1.1.1) (by simpa [hk, Memory.erase] using hr)
    · have : (k != a) = true := by simpa using hk
      simp only [Memory.erase, List.filter, this]
      simp only [Memory.wfFrom, Bool.and_eq_true, decide_eq_true_eq]
      exact ⟨hm.1, hr⟩

theorem Memory.wfFrom_insertCell {m : Memory} {lo a : Nat} {v : Byte} (hlo : lo ≤ a) (ha : a < 2 ^ 24)
    (hv : v ≠ Config.unwrittenByte) (hk : ∀ c ∈ m, c.1 ≠ a) (hm : Memory.wfFrom lo m = true) :
    Memory.wfFrom lo (Memory.insertCell a v m) = true := by
  induction m generalizing lo with
  | nil => simpa [Memory.insertCell, Memory.wfFrom, hlo, hv] using ha
  | cons c rest ih =>
    obtain ⟨k, w⟩ := c
    simp only [Memory.wfFrom, Bool.and_eq_true, decide_eq_true_eq] at hm
    have hne : k ≠ a := hk (k, w) (by simp)
    unfold Memory.insertCell
    split
    · next hlt =>
      simp only [Memory.wfFrom, Bool.and_eq_true, decide_eq_true_eq]
      exact ⟨⟨⟨hlo, ha⟩, by simpa using hv⟩, ⟨⟨Nat.succ_le_of_lt hlt, hm.1.1.2⟩, hm.1.2⟩, hm.2⟩
    · next hge =>
      simp only [Memory.wfFrom, Bool.and_eq_true, decide_eq_true_eq]
      refine ⟨hm.1, ih ?_ (fun c hc => hk c (by simp [hc])) hm.2⟩
      have : ¬ a < k := hge
      omega

/-- A write of one byte keeps the canonical form. -/
theorem Memory.wf_write {m : Memory} (a : Nat) (v : Byte) (ha : a < 2 ^ 24) (hm : m.wf = true) :
    (m.write a v).wf = true := by
  unfold Memory.write
  split
  · exact Memory.wfFrom_erase a hm
  · next hv =>
    exact Memory.wfFrom_insertCell (Nat.zero_le a) ha hv (Memory.erase_no_key m a)
      (Memory.wfFrom_erase a hm)

/-- Bytes stored from an address on keep the canonical form. -/
theorem Memory.wf_writeBytes (ok : Nat → Bool) {m : Memory} (a : Addr) (bs : List Byte) (hm : m.wf = true) :
    (m.writeBytes ok a bs).wf = true := by
  induction bs generalizing m a with
  | nil => exact hm
  | cons b bs ih =>
    refine ih _ ?_
    split
    · exact Memory.wf_write _ _ a.isLt hm
    · exact hm

/-- `MemWrite` keeps the canonical form. -/
theorem Memory.wf_store (ok : Nat → Bool) {m : Memory} (a : Addr) (sz : Size) (v : BitVec sz.bits)
    (hm : m.wf = true) : (m.store ok a sz v).wf = true :=
  Memory.wf_writeBytes ok a _ hm

/-! ## Runs of bytes -/

/-- Bytes outside a stored run read as before. -/
theorem Memory.read_writeBytes_outside (ok : Nat → Bool) (m : Memory) (a : Addr) (bs : List Byte) (b : Addr)
    (h : ∀ k, k < bs.length → b ≠ a + BitVec.ofNat 24 k) :
    (m.writeBytes ok a bs).read b.toNat = m.read b.toNat := by
  induction bs generalizing m a with
  | nil => rfl
  | cons x bs ih =>
    have h0 : b ≠ a := by simpa using h 0 (by simp)
    have hne : b.toNat ≠ a.toNat := fun e => h0 (BitVec.eq_of_toNat_eq e)
    rw [Memory.writeBytes, ih]
    · split
      · exact Memory.read_write_ne _ _ _ _ hne
      · rfl
    intro k hk
    have := h (k + 1) (by simpa using hk)
    intro e
    apply this
    rw [e, BitVec.add_assoc]
    congr 1
    apply BitVec.eq_of_toNat_eq
    simp [Nat.add_comm]

/-- Byte `k` of a stored run is read back where the run may be stored, the run being shorter than the address
space; elsewhere it is as before. -/
theorem Memory.read_writeBytes_inside (ok : Nat → Bool) (m : Memory) (a : Addr) (bs : List Byte)
    (hlen : bs.length ≤ 2 ^ 24) (k : Nat) (hk : k < bs.length) :
    (m.writeBytes ok a bs).read (a + BitVec.ofNat 24 k).toNat =
      if ok (a + BitVec.ofNat 24 k).toNat then bs[k] else m.read (a + BitVec.ofNat 24 k).toNat := by
  induction bs generalizing m a k with
  | nil => simp at hk
  | cons x bs ih =>
    rw [Memory.writeBytes]
    cases k with
    | zero =>
      have h0 : a + BitVec.ofNat 24 0 = a := by simp
      rw [h0, Memory.read_writeBytes_outside]
      · split
        · simp
        · rfl
      · intro j hj e
        have hj' : j + 1 < 2 ^ 24 := by simp at hlen; omega
        have e2 := congrArg BitVec.toNat e
        have h1 : (1 : Addr).toNat = 1 := rfl
        simp only [BitVec.toNat_add, BitVec.toNat_ofNat, h1] at e2
        have ha := a.isLt
        omega
    | succ k =>
      have hkk : k < bs.length := by simpa using hk
      have hl : bs.length ≤ 2 ^ 24 := by simp at hlen; omega
      have e : a + BitVec.ofNat 24 (k + 1) = a + 1 + BitVec.ofNat 24 k := by
        apply BitVec.eq_of_toNat_eq
        have h1 : (1 : Addr).toNat = 1 := rfl
        simp only [BitVec.toNat_add, BitVec.toNat_ofNat, h1]
        omega
      have hne : (a + 1 + BitVec.ofNat 24 k).toNat ≠ a.toNat := by
        have ha := a.isLt
        have h1 : (1 : Addr).toNat = 1 := rfl
        have : k + 1 < 2 ^ 24 := by simp at hlen; omega
        simp only [BitVec.toNat_add, BitVec.toNat_ofNat, h1]
        omega
      rw [e, ih _ _ hl k hkk]
      split
      · rfl
      · split
        · exact Memory.read_write_ne _ _ _ _ hne
        · rfl

/-! ## Byte order -/

@[simp] theorem beBytes_length (n v : Nat) : (beBytes n v).length = n := by
  induction n with
  | zero => rfl
  | succ n ih => simp [beBytes, ih]

theorem beVal_lt (bs : List Byte) : beVal bs < 256 ^ bs.length := by
  induction bs with
  | nil => simp [beVal]
  | cons b bs ih =>
    have hb := b.isLt
    simp only [beVal, List.length_cons, Nat.pow_succ]
    have h : b.toNat + 1 ≤ 256 := hb
    calc b.toNat * 256 ^ bs.length + beVal bs < b.toNat * 256 ^ bs.length + 256 ^ bs.length := by omega
      _ = (b.toNat + 1) * 256 ^ bs.length := by ring
      _ ≤ 256 * 256 ^ bs.length := Nat.mul_le_mul_right _ h
      _ = 256 ^ bs.length * 256 := by ring

/-- The bytes of a number spell its low bytes. -/
theorem beVal_beBytes (n v : Nat) : beVal (beBytes n v) = v % 256 ^ n := by
  induction n with
  | zero => simp [beBytes, beVal, Nat.mod_one]
  | succ n ih =>
    have h8 : (2 : Nat) ^ 8 = 256 := rfl
    rw [beBytes, beVal, ih, beBytes_length, BitVec.toNat_ofNat, h8, Nat.pow_succ (n := 256) (m := n), Nat.mod_mul]
    ring

/-- The bytes of a number, one by one (R55). -/
theorem beBytes_getElem (n v k : Nat) (hk : k < n) :
    ((beBytes n v)[k]'(by rw [beBytes_length]; exact hk)).toNat = v / 256 ^ (n - 1 - k) % 256 := by
  induction n generalizing k with
  | zero => omega
  | succ n ih =>
    cases k with
    | zero => simp [beBytes]
    | succ k =>
      simp only [beBytes, List.getElem_cons_succ]
      rw [ih k (by omega)]
      congr 3
      omega

/-- A list of bytes is the bytes of its number. -/
theorem beBytes_beVal (bs : List Byte) : beBytes bs.length (beVal bs) = bs := by
  induction bs with
  | nil => rfl
  | cons b bs ih =>
    have hl := beVal_lt bs
    have hb := b.isLt
    have hpos : 0 < 256 ^ bs.length := by positivity
    have e : beVal (b :: bs) = b.toNat * 256 ^ bs.length + beVal bs := rfl
    have mod : ∀ n v x : Nat, beBytes n (x * 256 ^ n + v) = beBytes n v := by
      intro n
      induction n with
      | zero => intros; rfl
      | succ n ihn =>
        intro v x
        have h8 : (256 : Nat) ^ (n + 1) = 256 * 256 ^ n := by ring
        have hp : 0 < 256 ^ n := by positivity
        have e1 : x * 256 ^ (n + 1) + v = (256 * x) * 256 ^ n + v := by rw [h8]; ring
        rw [beBytes, beBytes, e1, ihn]
        congr 1
        apply BitVec.eq_of_toNat_eq
        rw [BitVec.toNat_ofNat, BitVec.toNat_ofNat, Nat.mul_comm (256 * x), Nat.mul_add_div hp]
        omega
    rw [List.length_cons, beBytes, e, mod, ih]
    congr 1
    apply BitVec.eq_of_toNat_eq
    rw [BitVec.toNat_ofNat, Nat.mul_comm, Nat.mul_add_div hpos, Nat.div_eq_of_lt hl]
    omega

/-! ## Runs of bytes read -/

@[simp] theorem bytesFrom_length (rd : Nat → Byte) (a : Addr) (n : Nat) : (bytesFrom rd a n).length = n := by
  induction n generalizing a with
  | zero => rfl
  | succ n ih => simp [bytesFrom, ih]

/-- The `k`-th of `n` bytes read lies `k` addresses on. -/
theorem bytesFrom_getElem (rd : Nat → Byte) (a : Addr) (n k : Nat) (hk : k < (bytesFrom rd a n).length) :
    (bytesFrom rd a n)[k] = rd (a + BitVec.ofNat 24 k).toNat := by
  induction n generalizing a k with
  | zero => simp [bytesFrom] at hk
  | succ n ih =>
    cases k with
    | zero => simp [bytesFrom]
    | succ k =>
      simp only [bytesFrom, List.getElem_cons_succ]
      rw [ih]
      congr 2
      apply BitVec.eq_of_toNat_eq
      simp [BitVec.toNat_add]
      omega

/-- A load as the number its bytes spell (R54). -/
theorem loadFrom_toNat (rd : Nat → Byte) (a : Addr) (sz : Size) :
    (loadFrom rd a sz).toNat = beVal (bytesFrom rd a sz.bytes) := by
  have h : 256 ^ sz.bytes = 2 ^ sz.bits := by cases sz <;> rfl
  have := beVal_lt (bytesFrom rd a sz.bytes)
  rw [loadFrom, BitVec.toNat_ofNat, Nat.mod_eq_of_lt]
  rwa [bytesFrom_length, h] at this

end Sys2Proof.Machine
end

