-- ==== Sys2Proof/Laws/Decode.lean ====
section
/-! SUPPORT. Decoding the parts of an instruction gives back what encoding them wrote, and how long the
parts are. -/

namespace Sys2Proof

open Machine (beVal beBytes)

/-! ## Readers -/

@[simp] theorem Parse.done_apply {α : Type} (a : α) (bs : List Byte) : Parse.done a bs = .ok (a, bs) := rfl

@[simp] theorem Parse.byte_cons (b : Byte) (bs : List Byte) : Parse.byte (b :: bs) = .ok (b, bs) := rfl

theorem Parse.bind_ok {α β : Type} {p : Parse α} {f : α → Parse β} {bs rest : List Byte} {a : α}
    (h : p bs = .ok (a, rest)) : (p.bind f) bs = f a rest := by
  simp [Parse.bind, h]

theorem Parse.map_ok {α β : Type} {p : Parse α} {f : α → β} {bs rest : List Byte} {a : α}
    (h : p bs = .ok (a, rest)) : (Parse.map f p) bs = .ok (f a, rest) := by
  simp [Parse.map, Parse.bind, h]

/-- A value of `n` bytes is read back modulo 2^8n. -/
theorem Parse.value_beBytes (n w v : Nat) (rest : List Byte) :
    Parse.value n w (beBytes n v ++ rest) = .ok (BitVec.ofNat w (v % 256 ^ n), rest) := by
  have h1 : (beBytes n v ++ rest).take n = beBytes n v := by
    rw [List.take_append_of_le_length (by simp)]
    exact List.take_of_length_le (by simp)
  have h2 : (beBytes n v ++ rest).drop n = rest := by
    rw [List.drop_append_of_le_length (by simp), List.drop_of_length_le (by simp), List.nil_append]
  simp [Parse.value, h1, h2, Machine.beVal_beBytes]

theorem Parse.value_whole (n w : Nat) (v : BitVec w) (rest : List Byte) (h : v.toNat < 256 ^ n) :
    Parse.value n w (beBytes n v.toNat ++ rest) = .ok (v, rest) := by
  rw [Parse.value_beBytes, Nat.mod_eq_of_lt h, BitVec.ofNat_toNat, BitVec.setWidth_eq]

/-- The low bytes of a wider value. -/
theorem Parse.value_low (n w m : Nat) (v : BitVec m) (rest : List Byte) (hw : 2 ^ w = 256 ^ n) :
    Parse.value n w (beBytes n v.toNat ++ rest) = .ok (v.setWidth w, rest) := by
  rw [Parse.value_beBytes, ← hw]
  congr 2
  apply BitVec.eq_of_toNat_eq
  simp

/-- A value is its high part followed by its low part. -/
theorem split_low {h l : Nat} (v : BitVec (h + l)) : v.extractLsb' l h ++ v.setWidth l = v := by
  ext i hi
  simp only [BitVec.getElem_append, BitVec.getElem_setWidth, BitVec.getElem_extractLsb',
    BitVec.getLsbD_eq_getElem hi]
  split
  · rfl
  · next h' =>
    have : l + (i - l) = i := by omega
    rw [this, BitVec.getLsbD_eq_getElem hi]

/-! ## Codes -/

@[simp] theorem dreg_code (r : DReg) : dreg r.code = r := by cases r <;> rfl
theorem code_dreg (c : BitVec 3) : (dreg c).code = c := by revert c; decide
@[simp] theorem sizeOf2_code (z : Size) : sizeOf2 z.code = z := by cases z <;> rfl
theorem code_sizeOf2 (c : BitVec 2) : (sizeOf2 c).code = c := by revert c; decide
@[simp] theorem cpuRegOf_code (c : CpuReg) : cpuRegOf c.code = c := by
  cases c with
  | d r => cases r <;> rfl
  | _ => rfl
@[simp] theorem dpOf_code (p : Dp) : dpOf p.code = p := by cases p <;> rfl
@[simp] theorem loopCondOf_code (c : LoopCond) : loopCondOf c.code = c := by cases c <;> rfl

/-- The sixteen submodes and the 256 postbytes stand for one another (R121). -/
theorem xbMode_code (m : XbMode) : xbMode m.code = m := by
  cases m with
  | immE4 e => revert e; decide
  | reg r => cases r <;> rfl
  | idx b off => revert off; cases b <;> decide
  | auto m => cases m <;> rfl
  | regIdx r b => cases r <;> cases b <;> rfl
  | regIdxInd r b => cases r <;> cases b <;> rfl
  | idx1 b s => revert s; cases b <;> decide
  | idx1Ind b s => revert s; cases b <;> decide
  | ext1 hi => revert hi; decide
  | idx2Reg hi r => revert hi; cases r <;> decide
  | ext2 hi => revert hi; decide
  | idx3 b => cases b <;> rfl
  | idx3Ind b => cases b <;> rfl
  | idx3Reg r => cases r <;> rfl
  | ext3 => rfl
  | ext3Ind => rfl

theorem mbMode_code (signed : Bool) (m : MbMode) : mbMode (m.code signed) = m ∧ (m.code signed)[7] = signed := by
  cases m with
  | reg j k => cases signed <;> cases j <;> cases k <;> decide
  | regOpr j z => cases signed <;> cases j <;> cases z <;> decide
  | regImm j z => cases signed <;> cases j <;> cases z <;> decide
  | oprOpr s1 s2 => cases signed <;> cases s1 <;> cases s2 <;> decide

theorem lbMode_code (dec : Bool) (m : LbMode) : lbMode (m.code dec) = m ∧ (m.code dec)[7] = dec := by
  cases m with
  | ctr c r =>
    cases r with
    | d r => cases dec <;> cases c <;> cases r <;> decide
    | xy r => cases dec <;> cases c <;> cases r <;> decide
  | opr c z => cases dec <;> cases c <;> cases z <;> decide

theorem sbMode_code (m : SbMode) : sbMode m.code = m := by
  cases m with
  | regN a l t s => cases a <;> cases l <;> cases t <;> cases s <;> rfl
  | regCount a l n s => cases a <;> cases l <;> cases n <;> cases s <;> rfl
  | oprN a l t z => cases a <;> cases l <;> cases t <;> cases z <;> rfl
  | rot l z => cases l <;> cases z <;> rfl
  | oprCount a l n z => cases a <;> cases l <;> cases n <;> cases z <;> rfl
  | inPlace a l t z => cases a <;> cases l <;> cases t <;> cases z <;> rfl

theorem bbMode_code (ins : Bool) (m : BbMode) : bbMode (m.code ins) = m ∧ (m.code ins)[7] = ins := by
  cases m with
  | regDp s p => cases ins <;> cases s <;> cases p <;> decide
  | regImm s w => revert w; cases ins <;> cases s <;> decide
  | oprDp t z p => cases ins <;> cases t <;> cases z <;> cases p <;> decide
  | oprImm t z w => revert w; cases ins <;> cases t <;> cases z <;> decide

/-- `bm` gives back an operand and a bit number that lies in it (R128). -/
theorem bmMode_code_reg (r : DReg) (n : BitVec 5) (h : n.toNat < r.bits) :
    bmMode (BmMode.reg r n).code = .reg r n := by
  revert n; cases r <;> decide

theorem bmMode_code_opr (z : BWL) (n : BitVec 5) (h : n.toNat < z.size.bits) :
    bmMode (BmMode.opr z n).code = .opr z n := by
  revert n; cases z <;> decide

theorem bmMode_code_oprReg (z : BWL) (d : DReg) : bmMode (BmMode.oprReg z d).code = .oprReg z d := by
  cases z <;> cases d <;> rfl

/-! ## Parts -/

theorem parseOpr_enc (o : Opr) (rest : List Byte) : parseOpr (o.enc ++ rest) = .ok (o, rest) := by
  have hx : ∀ bs, parseOpr (o.mode.code :: bs) = parseXb o.mode bs := fun bs => by
    rw [parseOpr, Parse.bind_ok (Parse.byte_cons _ _), xbMode_code]
  rw [Opr.enc, List.cons_append, hx]
  cases o with
  | immE4 _ | reg _ | idx _ _ | auto _ | regIdx _ _ | regIdxInd _ _ => rfl
  | idx1 base off =>
    rw [Opr.mode, Opr.ext, parseXb, Parse.map_ok (Parse.value_low 1 8 _ off rest rfl)]
    exact congrArg (fun x => Except.ok (Opr.idx1 base x, rest)) (split_low (h := 1) (l := 8) off)
  | idx1Ind base off =>
    rw [Opr.mode, Opr.ext, parseXb, Parse.map_ok (Parse.value_low 1 8 _ off rest rfl)]
    exact congrArg (fun x => Except.ok (Opr.idx1Ind base x, rest)) (split_low (h := 1) (l := 8) off)
  | ext1 a =>
    rw [Opr.mode, Opr.ext, parseXb, Parse.map_ok (Parse.value_low 1 8 _ a rest rfl)]
    exact congrArg (fun x => Except.ok (Opr.ext1 x, rest)) (split_low (h := 6) (l := 8) a)
  | idx2Reg off r =>
    rw [Opr.mode, Opr.ext, parseXb, Parse.map_ok (Parse.value_low 2 16 _ off rest rfl)]
    exact congrArg (fun x => Except.ok (Opr.idx2Reg x r, rest)) (split_low (h := 2) (l := 16) off)
  | ext2 a =>
    rw [Opr.mode, Opr.ext, parseXb, Parse.map_ok (Parse.value_low 2 16 _ a rest rfl)]
    exact congrArg (fun x => Except.ok (Opr.ext2 x, rest)) (split_low (h := 2) (l := 16) a)
  | idx3 _ off | idx3Ind _ off =>
    exact Parse.map_ok (Parse.value_whole 3 24 off rest (by simpa using off.isLt))
  | idx3Reg off r => exact Parse.map_ok (Parse.value_whole 3 24 off rest (by simpa using off.isLt))
  | ext3 a | ext3Ind a => exact Parse.map_ok (Parse.value_whole 3 24 a rest (by simpa using a.isLt))

theorem parseRel_enc (r : Rel) (rest : List Byte) : parseRel (r.enc ++ rest) = .ok (r, rest) := by
  cases r with
  | short off =>
    rw [Rel.enc, List.singleton_append, parseRel, Parse.bind_ok (Parse.byte_cons _ _)]
    have h : ∀ off : BitVec 7, (0b0#1 ++ off : BitVec 8)[7] = false ∧ field (0b0#1 ++ off) 0 7 = off := by decide
    rw [if_neg (by simp [(h off).1]), (h off).2]
    rfl
  | long off =>
    rw [Rel.enc, List.cons_append, parseRel, Parse.bind_ok (Parse.byte_cons _ _)]
    have h : ∀ x : BitVec 7, (0b1#1 ++ x : BitVec 8)[7] = true ∧ field (0b1#1 ++ x) 0 7 = x := by decide
    rw [if_pos (h _).1, (h _).2, Parse.map_ok (Parse.value_low 1 8 _ off rest rfl)]
    exact congrArg (fun x => Except.ok (Rel.long x, rest)) (split_low (h := 7) (l := 8) off)

/-- Two bytes begin with an offset, which is spelt by them. -/
theorem parseRel_two (b c : Byte) :
    ∃ rel rest, parseRel [b, c] = .ok (rel, rest) ∧ rel.enc ++ rest = [b, c] := by
  have enc : ∃ rel rest, Rel.enc rel ++ rest = [b, c] := by
    have h0 : ∀ b : Byte, b[7] = false → (0b0#1 ++ field b 0 7 : BitVec 8) = b := by decide
    have h1 : ∀ b : Byte, b[7] = true → (0b1#1 ++ field b 0 7 : BitVec 8) = b := by decide
    cases hb : b[7]
    · exact ⟨.short (field b 0 7), [c], by rw [Rel.enc, h0 b hb]; rfl⟩
    · have hv : ∀ x : BitVec 7, (x ++ c : BitVec 15).toNat = x.toNat * 256 + c.toNat := by
        intro x
        rw [BitVec.toNat_append, ← Nat.shiftLeft_add_eq_or_of_lt c.isLt, Nat.shiftLeft_eq]
      have hl := c.isLt
      have hx : ∀ x : BitVec 7, (x ++ c : BitVec 15).extractLsb' 8 7 = x := by
        intro x
        apply BitVec.eq_of_toNat_eq
        rw [BitVec.extractLsb'_toNat, hv, Nat.shiftRight_eq_div_pow]
        omega
      have hc : ∀ x : BitVec 7, beBytes 1 (x ++ c : BitVec 15).toNat = [c] := by
        intro x
        simp only [beBytes, List.cons.injEq, and_true]
        apply BitVec.eq_of_toNat_eq
        rw [hv, BitVec.toNat_ofNat]
        omega
      exact ⟨.long (field b 0 7 ++ c), [], by rw [Rel.enc, hx, h1 b hb, hc]; rfl⟩
  obtain ⟨rel, rest, h⟩ := enc
  exact ⟨rel, rest, by rw [← h, parseRel_enc], h⟩
theorem parse24_enc (a : BitVec 24) (rest : List Byte) : parse24 (enc24 a ++ rest) = .ok (a, rest) :=
  Parse.value_whole 3 24 a rest (by simpa using a.isLt)

theorem parseImm_enc (z : Size) (v : BitVec 32) (rest : List Byte) (h : immFits z.bits v = true) :
    parseImm z.bytes (encImm z v ++ rest) = .ok (v, rest) := by
  apply Parse.value_whole
  have h' : v.toNat < 2 ^ z.bits := by simpa [immFits] using h
  have e : 2 ^ z.bits = 256 ^ z.bytes := by cases z <;> rfl
  exact e ▸ h'

theorem parseBm_enc (m : BmArg) (rest : List Byte) (h : m.wf = true) :
    parseBm (m.enc ++ rest) = .ok (m, rest) := by
  cases m with
  | reg r n =>
    rw [BmArg.enc, List.singleton_append, parseBm, Parse.bind_ok (Parse.byte_cons _ _),
      bmMode_code_reg r n (by simpa [BmArg.wf] using h)]
    rfl
  | opr z n o =>
    rw [BmArg.enc, List.cons_append, parseBm, Parse.bind_ok (Parse.byte_cons _ _),
      bmMode_code_opr z n (by simpa [BmArg.wf] using h)]
    exact Parse.map_ok (parseOpr_enc o rest)
  | oprReg z d o =>
    rw [BmArg.enc, List.cons_append, parseBm, Parse.bind_ok (Parse.byte_cons _ _), bmMode_code_oprReg]
    exact Parse.map_ok (parseOpr_enc o rest)

theorem parseMb_enc (f : Bool → MbArgs → Instr) (signed : Bool) (a : MbArgs) (rest : List Byte) :
    parseMb f (a.enc signed ++ rest) = .ok (f signed a, rest) := by
  have h : parseMbArgs a.mode (a.tail ++ rest) = .ok (a, rest) := by
    cases a with
    | math j k =>
      cases k with
      | reg k => rfl
      | imm1 v => exact Parse.map_ok (Parse.value_whole 1 8 v rest (by simpa using v.isLt))
      | imm2 v => exact Parse.map_ok (Parse.value_whole 2 16 v rest (by simpa using v.isLt))
      | imm4 v => exact Parse.map_ok (Parse.value_whole 4 32 v rest (by simpa using v.isLt))
    | opr j z o => exact Parse.map_ok (parseOpr_enc o rest)
    | oprOpr s1 o1 s2 o2 =>
      show (Parse.bind parseOpr _) (o1.enc ++ o2.enc ++ rest) = _
      rw [List.append_assoc, Parse.bind_ok (parseOpr_enc o1 _)]
      exact Parse.map_ok (parseOpr_enc o2 rest)
  rw [MbArgs.enc, List.cons_append, parseMb, Parse.bind_ok (Parse.byte_cons _ _),
    (mbMode_code signed a.mode).1, (mbMode_code signed a.mode).2]
  exact Parse.map_ok h

/-! ## Lengths -/

@[simp] theorem Opr.enc_length (o : Opr) : o.enc.length = 1 + o.ext.length := by
  simp [Opr.enc, Nat.add_comm]

theorem Opr.ext_length_le (o : Opr) : o.ext.length ≤ 3 := by cases o <;> simp [Opr.ext]

theorem Rel.enc_length_le (r : Rel) : 1 ≤ r.enc.length ∧ r.enc.length ≤ 2 := by
  cases r <;> simp [Rel.enc]

theorem BmArg.enc_length_le (m : BmArg) : 1 ≤ m.enc.length ∧ m.enc.length ≤ 5 := by
  cases m with
  | reg r n => simp [BmArg.enc]
  | opr z n o => have := o.ext_length_le; simp [BmArg.enc]; omega
  | oprReg z d o => have := o.ext_length_le; simp [BmArg.enc]; omega

theorem MbArgs.enc_length_le (a : MbArgs) (signed : Bool) :
    1 ≤ (a.enc signed).length ∧ (a.enc signed).length ≤ 9 := by
  cases a with
  | math j k => cases k <;> simp [MbArgs.enc, MbArgs.tail]
  | opr j z o => have := o.ext_length_le; simp [MbArgs.enc, MbArgs.tail]; omega
  | oprOpr s1 o1 s2 o2 =>
    have := o1.ext_length_le
    have := o2.ext_length_le
    simp [MbArgs.enc, MbArgs.tail]
    omega

@[simp] theorem enc24_length (a : BitVec 24) : (enc24 a).length = 3 := by simp [enc24]

theorem encImm_length (z : Size) (v : BitVec 32) : (encImm z v).length = z.bytes := by simp [encImm]

theorem Opr.enc_length_le (o : Opr) : 1 ≤ o.enc.length ∧ o.enc.length ≤ 4 := by
  have := o.ext_length_le; simp; omega

theorem Size.bytes_le (z : Size) : 1 ≤ z.bytes ∧ z.bytes ≤ 4 := by cases z <;> decide

theorem encDSrc_length_le (a b : BitVec 5) (d : DReg) (m : DSrc) :
    2 ≤ (encDSrc a b d m).length ∧ (encDSrc a b d m).length ≤ 5 := by
  cases m with
  | imm v => have := d.size.bytes_le; simp [encDSrc, encImm_length]; omega
  | opr o => have := o.enc_length_le; simp only [encDSrc, List.length_cons]; omega

theorem encMov_length_le (a b : Byte) (z : Size) (src : MovSrc) (dst : Opr) :
    2 ≤ (encMov a b z src dst).length ∧ (encMov a b z src dst).length ≤ 9 := by
  have hd := dst.enc_length_le
  cases src with
  | imm v =>
    have := z.bytes_le
    simp only [encMov, List.length_cons, List.length_append, encImm_length]; omega
  | opr o =>
    have := o.enc_length_le
    simp only [encMov, List.length_cons, List.length_append]; omega

theorem encShiftReg_length_le (a l : Bool) (s : DReg) (n : ShiftBy) :
    1 ≤ (encShiftReg a l s n).length ∧ (encShiftReg a l s n).length ≤ 5 := by
  cases n with
  | fixed t => simp [encShiftReg]
  | count n0 o => have := o.enc_length_le; simp only [encShiftReg, List.length_cons]; omega

theorem encShiftOpr_length_le (a l : Bool) (f : ShiftOpr) :
    2 ≤ (encShiftOpr a l f).length ∧ (encShiftOpr a l f).length ≤ 10 := by
  cases f with
  | toReg d z o n =>
    have := o.enc_length_le
    cases n with
    | fixed t => simp only [encShiftOpr, List.length_cons]; omega
    | count n0 c =>
      have := c.enc_length_le
      simp only [encShiftOpr, List.length_cons, List.length_append]; omega
  | inPlace z o t => have := o.enc_length_le; simp only [encShiftOpr, List.length_cons]; omega

theorem encBfReg_length_le (ins : Bool) (s : DReg) (p : BfParam) :
    1 ≤ (encBfReg ins s p).length ∧ (encBfReg ins s p).length ≤ 2 := by
  cases p <;> simp [encBfReg]

theorem encBfOpr_length_le (ins t : Bool) (z : Size) (o : Opr) (p : BfParam) :
    2 ≤ (encBfOpr ins t z o p).length ∧ (encBfOpr ins t z o p).length ≤ 6 := by
  have := o.enc_length_le
  cases p <;> simp only [encBfOpr, List.length_cons] <;> omega

theorem encBfOprForm_length_le (ins : Bool) (f : BfOpr) :
    3 ≤ (encBfOprForm ins f).length ∧ (encBfOprForm ins f).length ≤ 7 := by
  cases f with
  | fromOpr d z o p =>
    have := encBfOpr_length_le ins false z o p
    simp only [encBfOprForm, List.length_cons]; omega
  | toOpr z o s p =>
    have := encBfOpr_length_le ins true z o p
    simp only [encBfOprForm, List.length_cons]; omega

theorem encLoop_length_le (dec : Bool) (c : LoopCond) (r : LoopCtr) (rel : Rel) :
    3 ≤ (encLoop dec c r rel).length ∧ (encLoop dec c r rel).length ≤ 4 := by
  have := rel.enc_length_le
  simp only [encLoop, List.length_cons]; omega

theorem encLoopOpr_length_le (dec : Bool) (c : LoopCond) (z : Size) (o : Opr) (rel : Rel) :
    4 ≤ (encLoopOpr dec c z o rel).length ∧ (encLoopOpr dec c z o rel).length ≤ 8 := by
  have := rel.enc_length_le
  have := o.enc_length_le
  simp only [encLoopOpr, List.length_cons, List.length_append]; omega

end Sys2Proof
end

