-- ==== Sys2Proof/Laws/Flags.lean ====
section
/-! SUPPORT. What the shared flag and result operations compute, said in integers, one lemma each. -/

namespace Sys2Proof.Machine

/-! ## Values of one width -/

theorem msb_iff {w : Nat} (a : BitVec w) : a.msb = true ↔ 2 ^ (w - 1) ≤ a.toNat := by
  rw [BitVec.msb_eq_decide]
  simp

theorem pow_split {w : Nat} (hw : 0 < w) : 2 ^ w = 2 * 2 ^ (w - 1) := by
  obtain ⟨k, rfl⟩ : ∃ k, w = k + 1 := ⟨w - 1, by omega⟩
  simp [Nat.pow_succ, Nat.mul_comm]

theorem ipow_split {w : Nat} (hw : 0 < w) : (2 : Int) ^ w = 2 * 2 ^ (w - 1) := by
  exact_mod_cast pow_split hw

/-- The two readings of a value. -/
theorem toInt_cases {w : Nat} (a : BitVec w) :
    (a.msb = false ∧ a.toInt = a.toNat ∧ a.toNat < 2 ^ (w - 1)) ∨
    (a.msb = true ∧ a.toInt = (a.toNat : Int) - 2 ^ w ∧ 2 ^ (w - 1) ≤ a.toNat) := by
  have h := msb_iff a
  rw [BitVec.toInt_eq_msb_cond]
  cases hm : a.msb
  · left; rw [hm] at h; simp at h; simp; omega
  · right; rw [hm] at h; simp at h; simp; omega

theorem ipow_eq (n : Nat) : (2 : Int) ^ n = ((2 ^ n : Nat) : Int) := by push_cast; rfl

theorem beq_zero_iff {w : Nat} (r : BitVec w) : (r == 0) = true ↔ r.toNat = 0 := by
  rw [beq_iff_eq, ← BitVec.toNat_inj]
  simp

/-- A residue is the number itself or one modulus less. -/
theorem mod_once {x P : Nat} (h : x < 2 * P) : x % P = x ∨ x % P + P = x := by
  rcases Nat.lt_or_ge x P with h1 | h1
  · left; exact Nat.mod_eq_of_lt h1
  · right; rw [Nat.mod_eq_sub_mod h1, Nat.mod_eq_of_lt (by omega)]; omega

/-! ## Sums and differences -/

/-- `AddFlags`. -/
theorem addFlags_sum {w : Nat} (hw : 0 < w) (a b : BitVec w) (cin : Bool) (c : Ccr) :
    SumOf a b cin.toNat (addFlags a b cin c).1 (addFlags a b cin c).2 ∧
    (addFlags a b cin c).2.z = ((addFlags a b cin c).1 == 0) := by
  refine ⟨⟨?_, rfl, ?_, ?_⟩, rfl⟩
  · simp [addFlags]
  · simp only [addFlags, SignedOut]
    have h2 := pow_split hw
    have hc : cin.toNat ≤ 1 := by cases cin <;> simp
    have ha := a.isLt
    have hb := b.isLt
    generalize hr : BitVec.ofNat w (a.toNat + b.toNat + cin.toNat) = r
    have hrn : r.toNat = (a.toNat + b.toNat + cin.toNat) % 2 ^ w := by rw [← hr]; simp
    have hmod := mod_once (x := a.toNat + b.toNat + cin.toNat) (P := 2 ^ w) (by omega)
    rw [← hrn] at hmod
    have hp := ipow_eq (w - 1)
    have hpw := ipow_eq w
    rcases toInt_cases a with ⟨h1, h3, h5⟩ | ⟨h1, h3, h5⟩ <;>
    rcases toInt_cases b with ⟨k1, k3, k5⟩ | ⟨k1, k3, k5⟩ <;>
    rcases toInt_cases r with ⟨l1, l3, l5⟩ | ⟨l1, l3, l5⟩ <;>
    rw [h1, k1, l1, h3, k3] <;> simp <;> omega
  · simp [addFlags]

/-- `SubFlags`. -/
theorem subFlags_difference {w : Nat} (hw : 0 < w) (a b : BitVec w) (bin : Bool) (c : Ccr) :
    DifferenceOf a b bin.toNat (subFlags a b bin c).1 (subFlags a b bin c).2 ∧
    (subFlags a b bin c).2.z = ((subFlags a b bin c).1 == 0) := by
  have h2 := pow_split hw
  have hc : bin.toNat ≤ 1 := by cases bin <;> simp
  have ha := a.isLt
  have hb := b.isLt
  have hp := ipow_eq (w - 1)
  have hpw := ipow_eq w
  have hpos : 0 < 2 ^ (w - 1) := Nat.two_pow_pos _
  have hd : ((subFlags a b bin c).1.toNat : Int) = ((a.toNat : Int) - b.toNat - bin.toNat) % 2 ^ w := by
    simp only [subFlags]
    have e : a - b - BitVec.ofNat w bin.toNat = BitVec.ofInt w ((a.toNat : Int) - b.toNat - bin.toNat) := by
      have h : ∀ n : Nat, BitVec.ofInt w (n : Int) = BitVec.ofNat w n := fun n => BitVec.ofInt_natCast w n
      rw [sub_eq_add_neg (a := (a.toNat : Int) - b.toNat), sub_eq_add_neg (a := (a.toNat : Int)), BitVec.ofInt_add, BitVec.ofInt_add, BitVec.ofInt_neg,
        BitVec.ofInt_neg, h, h, h]
      simp [BitVec.sub_eq_add_neg]
    rw [e, BitVec.toNat_ofInt, Int.toNat_of_nonneg (Int.emod_nonneg _ (by positivity)), hpw]
  refine ⟨⟨hd, rfl, ?_, by simp [subFlags]⟩, rfl⟩
  generalize hr : (subFlags a b bin c).1 = r at hd
  have hv : (subFlags a b bin c).2.v = (a.msb != b.msb && r.msb != a.msb) := by rw [← hr]; rfl
  rw [hv]
  simp only [SignedOut]
  have hrl := r.isLt
  have hmod : (r.toNat : Int) = a.toNat - b.toNat - bin.toNat ∨
      (r.toNat : Int) = a.toNat - b.toNat - bin.toNat + 2 ^ w := by
    rcases lt_or_ge ((a.toNat : Int) - b.toNat - bin.toNat) 0 with h | h
    · right
      rw [hd, ← Int.add_emod_right, Int.emod_eq_of_lt (by omega) (by omega)]
    · left
      rw [hd, Int.emod_eq_of_lt h (by omega)]
  rcases toInt_cases a with ⟨h1, h3, h5⟩ | ⟨h1, h3, h5⟩ <;>
  rcases toInt_cases b with ⟨k1, k3, k5⟩ | ⟨k1, k3, k5⟩ <;>
  rcases toInt_cases r with ⟨l1, l3, l5⟩ | ⟨l1, l3, l5⟩ <;>
  rw [h1, k1, l1, h3, k3] <;> simp <;> omega

/-- The flags of a comparison. -/
theorem subFlags_compare {w : Nat} (hw : 0 < w) (a b : BitVec w) (c : Ccr) :
    CompareFlags a b (subFlags a b false c).2 := by
  have h := subFlags_difference hw a b false c
  refine ⟨⟨_, h.1⟩, ?_⟩
  simp [subFlags]
  exact sub_eq_zero

/-! ## One operand -/

theorem incOp_incremented {w : Nat} (hw : 1 < w) (a : BitVec w) (c : Ccr) :
    Incremented a (incOp a c).1 c (incOp a c).2 := by
  have h2 := pow_split (w := w) (by omega)
  have h3 := pow_split (w := w - 1) (by omega)
  have hpos : 0 < 2 ^ (w - 1 - 1) := Nat.two_pow_pos _
  have ha := a.isLt
  have hp := ipow_eq (w - 1)
  have hpw := ipow_eq w
  refine ⟨?_, ⟨rfl, beq_zero_iff _⟩, ?_, rfl⟩
  · simp only [incOp, BitVec.toNat_add]
    rw [show (1 : BitVec w).toNat = 1 % 2 ^ w from BitVec.toNat_ofNat .., Nat.mod_eq_of_lt (a := 1) (by omega)]
  · simp only [incOp, SignedOut, decide_eq_true_eq]
    rcases toInt_cases a with ⟨h1, h3, h5⟩ | ⟨h1, h3, h5⟩ <;> rw [h3] <;> omega

theorem decOp_decremented {w : Nat} (hw : 1 < w) (a : BitVec w) (c : Ccr) :
    Decremented a (decOp a c).1 c (decOp a c).2 := by
  have h2 := pow_split (w := w) (by omega)
  have h3 := pow_split (w := w - 1) (by omega)
  have hpos : 0 < 2 ^ (w - 1 - 1) := Nat.two_pow_pos _
  have ha := a.isLt
  have hp := ipow_eq (w - 1)
  have hpw := ipow_eq w
  refine ⟨?_, ⟨rfl, beq_zero_iff _⟩, ?_, rfl⟩
  · simp only [decOp, BitVec.toNat_sub]
    rw [show (1 : BitVec w).toNat = 1 % 2 ^ w from BitVec.toNat_ofNat .., Nat.mod_eq_of_lt (a := 1) (by omega),
      Nat.add_comm]
  · simp only [decOp, SignedOut, decide_eq_true_eq]
    rcases toInt_cases a with ⟨h1, h3, h5⟩ | ⟨h1, h3, h5⟩ <;> rw [h3] <;> omega

theorem negOp_negated {w : Nat} (hw : 0 < w) (a : BitVec w) (c : Ccr) :
    Negated a (negOp a c).1 c (negOp a c).2 := by
  have h := subFlags_difference hw 0 a false c
  obtain ⟨⟨h1, h2, h3, h4⟩, h5⟩ := h
  simp only [negOp]
  refine ⟨?_, ⟨h2, by rw [h5]; exact beq_zero_iff _⟩, ?_, ?_⟩
  · have e : (subFlags 0 a false c).1 = -a := by simp [subFlags]
    rw [e, BitVec.toNat_neg]
    have ha := a.isLt
    rcases Nat.eq_zero_or_pos a.toNat with h0 | h0
    · simp [h0]
    · rw [Nat.mod_eq_of_lt (a := 2 ^ w - a.toNat) (by omega)]
      rw [show a.toNat + (2 ^ w - a.toNat) = 2 ^ w by omega]
      simp
  · rw [h3]; simp
  · rw [h4]; simp; omega

theorem comOp_complemented {w : Nat} (a : BitVec w) (c : Ccr) :
    Complemented a (comOp a c).1 c (comOp a c).2 := by
  have ha := a.isLt
  refine ⟨?_, ⟨rfl, beq_zero_iff _⟩, rfl, rfl⟩
  simp only [comOp, BitVec.toNat_not]
  omega

theorem rolOp_rotated {w : Nat} (hw : 0 < w) (a : BitVec w) (c : Ccr) :
    RotatedLeft a (rolOp a c).1 c (rolOp a c).2 := by
  refine ⟨?_, ⟨rfl, beq_zero_iff _⟩, rfl, rfl⟩
  obtain ⟨k, rfl⟩ : ∃ k, w = k + 1 := ⟨w - 1, by omega⟩
  have hc : c.c.toNat < 2 ^ 1 := by cases c.c <;> simp
  have hk : 0 < 2 ^ k := Nat.two_pow_pos _
  have hP : 2 ^ (k + 1) = 2 * 2 ^ k := by rw [Nat.pow_succ]; omega
  simp only [rolOp, BitVec.toNat_or, BitVec.toNat_shiftLeft, BitVec.toNat_ofNat, Nat.shiftLeft_eq]
  rw [Nat.mod_eq_of_lt (a := c.c.toNat) (by omega), hP, Nat.pow_one, Nat.mul_comm a.toNat 2,
    Nat.mul_mod_mul_left]
  have e : (2 * (a.toNat % 2 ^ k)) ||| c.c.toNat = 2 * (a.toNat % 2 ^ k) + c.c.toNat := by
    have := Nat.two_pow_add_eq_or_of_lt (i := 1) hc (a.toNat % 2 ^ k)
    simpa using this.symm
  rw [e]
  have := Nat.mod_lt a.toNat hk
  have h1 : (2 * a.toNat + c.c.toNat) % (2 * 2 ^ k) = 2 * (a.toNat % 2 ^ k) + c.c.toNat := by
    have hd : (2 * a.toNat + c.c.toNat) / 2 = a.toNat := by omega
    have hr : (2 * a.toNat + c.c.toNat) % 2 = c.c.toNat := by omega
    rw [Nat.mod_mul, hd, hr]
    omega
  exact h1.symm

theorem rorOp_rotated {w : Nat} (hw : 0 < w) (a : BitVec w) (c : Ccr) :
    RotatedRight a (rorOp a c).1 c (rorOp a c).2 := by
  refine ⟨?_, ⟨rfl, beq_zero_iff _⟩, rfl, ?_⟩
  · obtain ⟨k, rfl⟩ : ∃ k, w = k + 1 := ⟨w - 1, by omega⟩
    have hk : 0 < 2 ^ k := Nat.two_pow_pos _
    have hP : 2 ^ (k + 1) = 2 * 2 ^ k := by rw [Nat.pow_succ]; omega
    have ha := a.isLt
    have hc : c.c.toNat ≤ 1 := by cases c.c <;> simp
    have hm : c.c.toNat * 2 ^ k < 2 ^ (k + 1) := by
      rw [hP]; exact Nat.mul_lt_mul_of_lt_of_le (by omega) (le_refl _) hk
    simp only [rorOp, BitVec.toNat_or, BitVec.toNat_shiftLeft, BitVec.toNat_ushiftRight, BitVec.toNat_ofNat,
      Nat.shiftLeft_eq, Nat.shiftRight_eq_div_pow, Nat.pow_one, Nat.add_sub_cancel]
    rw [Nat.mod_eq_of_lt (a := c.c.toNat) (by omega), Nat.mod_eq_of_lt hm, Nat.or_comm]
    have hl : a.toNat / 2 < 2 ^ k := by omega
    have := Nat.two_pow_add_eq_or_of_lt hl c.c.toNat
    rw [Nat.mul_comm c.c.toNat, ← this]
    omega
  · simp only [rorOp, BitVec.getLsbD]
    rw [Nat.testBit_zero]
    simp

/-- BSET, BCLR, BTGL change one bit. -/
theorem bitOp_changed {w : Nat} (n : Nat) (a : BitVec w) (c : Ccr) :
    BitChanged (fun _ => true) n a (bsetOp n a c).1 c (bsetOp n a c).2 ∧
    BitChanged (fun _ => false) n a (bclrOp n a c).1 c (bclrOp n a c).2 ∧
    BitChanged not n a (btglOp n a c).1 c (btglOp n a c).2 := by
  have hb : ∀ k, k < w → (bitMask w n).getLsbD k = decide (k = n) := by
    intro k hk
    simp only [bitMask, BitVec.getLsbD_ofNat, hk, decide_true, Bool.true_and, Nat.testBit_two_pow]
    simp [eq_comm]
  refine ⟨⟨?_, ⟨rfl, beq_zero_iff _⟩, rfl, rfl⟩, ⟨?_, ⟨rfl, beq_zero_iff _⟩, rfl, rfl⟩,
    ⟨?_, ⟨rfl, beq_zero_iff _⟩, rfl, rfl⟩⟩
  · intro k hk
    simp only [bsetOp, BitVec.getLsbD_or, hb k hk]
    by_cases h : k = n <;> simp [h]
  · intro k hk
    simp only [bclrOp, BitVec.getLsbD_and, BitVec.getLsbD_not, hb k hk, hk, decide_true, Bool.true_and]
    by_cases h : k = n <;> simp [h]
  · intro k hk
    simp only [btglOp, BitVec.getLsbD_xor, hb k hk]
    by_cases h : k = n <;> simp [h]

/-! ## Bit fields -/

theorem extractField_extracted {ws : Nat} (src : BitVec ws) (wdt off wd : Nat) :
    FieldExtracted src wdt off (extractField src wdt off wd) := by
  intro k hk
  rw [extractField, BitVec.getLsbD_ofNat, Nat.testBit_mod_two_pow, Nat.testBit_div_two_pow, Nat.add_comm]
  simp [hk, BitVec.getLsbD]

theorem insertField_inserted {ws wd : Nat} (src : BitVec ws) (dv : BitVec wd) (wdt off : Nat) :
    FieldInserted src wdt off dv (insertField src dv wdt off) := by
  intro k hk
  have hm : ((2 ^ wdt - 1) * 2 ^ off).testBit k = (decide (off ≤ k) && decide (k - off < wdt)) := by
    rw [Nat.mul_comm, Nat.testBit_two_pow_mul, Nat.testBit_two_pow_sub_one]
  have hf : (src.toNat % 2 ^ wdt * 2 ^ off).testBit k =
      (decide (off ≤ k) && (decide (k - off < wdt) && src.toNat.testBit (k - off))) := by
    rw [Nat.mul_comm, Nat.testBit_two_pow_mul, Nat.testBit_mod_two_pow]
  simp only [insertField, BitVec.getLsbD_or, BitVec.getLsbD_and, BitVec.getLsbD_not, BitVec.getLsbD_ofNat,
    hk, decide_true, Bool.true_and, hm, hf]
  by_cases h1 : off ≤ k <;> by_cases h2 : k - off < wdt
  · have h3 : k < off + wdt := by omega
    simp [h1, h2, h3, BitVec.getLsbD]
  · have h3 : ¬k < off + wdt := by omega
    simp [h1, h2, h3]
  · simp [h1]
  · simp [h1]

end Sys2Proof.Machine
end

