-- ==== Sys2Proof/Laws/State.lean ====
section
/-! SUPPORT. One lemma per field and update of the state, so that no proof unfolds an update. -/

namespace Sys2Proof.Machine

/-! ## Data registers -/

@[simp] theorem getD_setD_same (s : State) (r : DReg) (v : BitVec r.bits) : (s.setD r v).getD r = v := by
  cases r <;> rfl

theorem getD_setD_ne (s : State) (r q : DReg) (v : BitVec r.bits) (h : q ≠ r) :
    (s.setD r v).getD q = s.getD q := by
  cases r <;> cases q <;> first | rfl | exact absurd rfl h

@[simp] theorem setD_x (s : State) (r : DReg) (v : BitVec r.bits) : (s.setD r v).x = s.x := by
  cases r <;> rfl
@[simp] theorem setD_y (s : State) (r : DReg) (v : BitVec r.bits) : (s.setD r v).y = s.y := by
  cases r <;> rfl
@[simp] theorem setD_sp (s : State) (r : DReg) (v : BitVec r.bits) : (s.setD r v).sp = s.sp := by
  cases r <;> rfl
@[simp] theorem setD_pc (s : State) (r : DReg) (v : BitVec r.bits) : (s.setD r v).pc = s.pc := by
  cases r <;> rfl
@[simp] theorem setD_ccr (s : State) (r : DReg) (v : BitVec r.bits) : (s.setD r v).ccr = s.ccr := by
  cases r <;> rfl
@[simp] theorem setD_runState (s : State) (r : DReg) (v : BitVec r.bits) :
    (s.setD r v).runState = s.runState := by
  cases r <;> rfl
@[simp] theorem setD_irqShadow (s : State) (r : DReg) (v : BitVec r.bits) :
    (s.setD r v).irqShadow = s.irqShadow := by
  cases r <;> rfl
@[simp] theorem setD_mem (s : State) (r : DReg) (v : BitVec r.bits) : (s.setD r v).mem = s.mem := by
  cases r <;> rfl
@[simp] theorem setD_vec (s : State) (r : DReg) (v : BitVec r.bits) : (s.setD r v).vec = s.vec := by
  cases r <;> rfl
@[simp] theorem setD_enbdm (s : State) (r : DReg) (v : BitVec r.bits) : (s.setD r v).enbdm = s.enbdm := by
  cases r <;> rfl
@[simp] theorem setD_inputs (s : State) (r : DReg) (v : BitVec r.bits) : (s.setD r v).inputs = s.inputs := by
  cases r <;> rfl
@[simp] theorem setD_taken (s : State) (r : DReg) (v : BitVec r.bits) : (s.setD r v).taken = s.taken := by
  cases r <;> rfl
@[simp] theorem setD_map (s : State) (r : DReg) (v : BitVec r.bits) : (s.setD r v).map = s.map := by
  cases r <;> rfl
@[simp] theorem setD_machineRequest (s : State) (r : DReg) (v : BitVec r.bits) :
    (s.setD r v).machineRequest = s.machineRequest := by
  cases r <;> rfl
@[simp] theorem setD_trace (s : State) (r : DReg) (v : BitVec r.bits) : (s.setD r v).trace = s.trace := by
  cases r <;> rfl
@[simp] theorem setD_freeCount (s : State) (r : DReg) (v : BitVec r.bits) :
    (s.setD r v).freeCount = s.freeCount := by
  cases r <;> rfl

/-! ## Index registers and the stack pointer -/

@[simp] theorem getXY_setXY_same (s : State) (r : XY) (v : Addr) : (s.setXY r v).getXY r = v := by
  cases r <;> rfl
theorem getXY_setXY_ne (s : State) (r q : XY) (v : Addr) (h : q ≠ r) :
    (s.setXY r v).getXY q = s.getXY q := by
  cases r <;> cases q <;> first | rfl | exact absurd rfl h
@[simp] theorem getXYS_setXYS_same (s : State) (r : XYS) (v : Addr) : (s.setXYS r v).getXYS r = v := by
  cases r <;> rfl
theorem getXYS_setXYS_ne (s : State) (r q : XYS) (v : Addr) (h : q ≠ r) :
    (s.setXYS r v).getXYS q = s.getXYS q := by
  cases r <;> cases q <;> first | rfl | exact absurd rfl h
@[simp] theorem setXY_getD (s : State) (r : XY) (v : Addr) (q : DReg) : (s.setXY r v).getD q = s.getD q := by
  cases r <;> cases q <;> rfl
@[simp] theorem setXYS_getD (s : State) (r : XYS) (v : Addr) (q : DReg) : (s.setXYS r v).getD q = s.getD q := by
  cases r <;> cases q <;> rfl
@[simp] theorem setD_getXY (s : State) (r : DReg) (v : BitVec r.bits) (q : XY) :
    (s.setD r v).getXY q = s.getXY q := by
  cases r <;> cases q <;> rfl
@[simp] theorem setD_getXYS (s : State) (r : DReg) (v : BitVec r.bits) (q : XYS) :
    (s.setD r v).getXYS q = s.getXYS q := by
  cases r <;> cases q <;> rfl
@[simp] theorem setXY_d0 (s : State) (r : XY) (v : Addr) : (s.setXY r v).d0 = s.d0 := by cases r <;> rfl
@[simp] theorem setXY_d1 (s : State) (r : XY) (v : Addr) : (s.setXY r v).d1 = s.d1 := by cases r <;> rfl
@[simp] theorem setXY_d2 (s : State) (r : XY) (v : Addr) : (s.setXY r v).d2 = s.d2 := by cases r <;> rfl
@[simp] theorem setXY_d3 (s : State) (r : XY) (v : Addr) : (s.setXY r v).d3 = s.d3 := by cases r <;> rfl
@[simp] theorem setXY_d4 (s : State) (r : XY) (v : Addr) : (s.setXY r v).d4 = s.d4 := by cases r <;> rfl
@[simp] theorem setXY_d5 (s : State) (r : XY) (v : Addr) : (s.setXY r v).d5 = s.d5 := by cases r <;> rfl
@[simp] theorem setXY_d6 (s : State) (r : XY) (v : Addr) : (s.setXY r v).d6 = s.d6 := by cases r <;> rfl
@[simp] theorem setXY_d7 (s : State) (r : XY) (v : Addr) : (s.setXY r v).d7 = s.d7 := by cases r <;> rfl
@[simp] theorem setXY_pc (s : State) (r : XY) (v : Addr) : (s.setXY r v).pc = s.pc := by cases r <;> rfl
@[simp] theorem setXY_ccr (s : State) (r : XY) (v : Addr) : (s.setXY r v).ccr = s.ccr := by cases r <;> rfl
@[simp] theorem setXY_runState (s : State) (r : XY) (v : Addr) :
    (s.setXY r v).runState = s.runState := by cases r <;> rfl
@[simp] theorem setXY_irqShadow (s : State) (r : XY) (v : Addr) :
    (s.setXY r v).irqShadow = s.irqShadow := by cases r <;> rfl
@[simp] theorem setXY_mem (s : State) (r : XY) (v : Addr) : (s.setXY r v).mem = s.mem := by cases r <;> rfl
@[simp] theorem setXY_vec (s : State) (r : XY) (v : Addr) : (s.setXY r v).vec = s.vec := by cases r <;> rfl
@[simp] theorem setXY_enbdm (s : State) (r : XY) (v : Addr) :
    (s.setXY r v).enbdm = s.enbdm := by cases r <;> rfl
@[simp] theorem setXY_inputs (s : State) (r : XY) (v : Addr) :
    (s.setXY r v).inputs = s.inputs := by cases r <;> rfl
@[simp] theorem setXY_taken (s : State) (r : XY) (v : Addr) :
    (s.setXY r v).taken = s.taken := by cases r <;> rfl
@[simp] theorem setXY_map (s : State) (r : XY) (v : Addr) : (s.setXY r v).map = s.map := by cases r <;> rfl
@[simp] theorem setXY_machineRequest (s : State) (r : XY) (v : Addr) :
    (s.setXY r v).machineRequest = s.machineRequest := by cases r <;> rfl
@[simp] theorem setXY_trace (s : State) (r : XY) (v : Addr) :
    (s.setXY r v).trace = s.trace := by cases r <;> rfl
@[simp] theorem setXY_freeCount (s : State) (r : XY) (v : Addr) :
    (s.setXY r v).freeCount = s.freeCount := by cases r <;> rfl
@[simp] theorem setXY_sp (s : State) (r : XY) (v : Addr) : (s.setXY r v).sp = s.sp := by cases r <;> rfl
@[simp] theorem setXYS_d0 (s : State) (r : XYS) (v : Addr) : (s.setXYS r v).d0 = s.d0 := by cases r <;> rfl
@[simp] theorem setXYS_d1 (s : State) (r : XYS) (v : Addr) : (s.setXYS r v).d1 = s.d1 := by cases r <;> rfl
@[simp] theorem setXYS_d2 (s : State) (r : XYS) (v : Addr) : (s.setXYS r v).d2 = s.d2 := by cases r <;> rfl
@[simp] theorem setXYS_d3 (s : State) (r : XYS) (v : Addr) : (s.setXYS r v).d3 = s.d3 := by cases r <;> rfl
@[simp] theorem setXYS_d4 (s : State) (r : XYS) (v : Addr) : (s.setXYS r v).d4 = s.d4 := by cases r <;> rfl
@[simp] theorem setXYS_d5 (s : State) (r : XYS) (v : Addr) : (s.setXYS r v).d5 = s.d5 := by cases r <;> rfl
@[simp] theorem setXYS_d6 (s : State) (r : XYS) (v : Addr) : (s.setXYS r v).d6 = s.d6 := by cases r <;> rfl
@[simp] theorem setXYS_d7 (s : State) (r : XYS) (v : Addr) : (s.setXYS r v).d7 = s.d7 := by cases r <;> rfl
@[simp] theorem setXYS_pc (s : State) (r : XYS) (v : Addr) : (s.setXYS r v).pc = s.pc := by cases r <;> rfl
@[simp] theorem setXYS_ccr (s : State) (r : XYS) (v : Addr) : (s.setXYS r v).ccr = s.ccr := by cases r <;> rfl
@[simp] theorem setXYS_runState (s : State) (r : XYS) (v : Addr) :
    (s.setXYS r v).runState = s.runState := by cases r <;> rfl
@[simp] theorem setXYS_irqShadow (s : State) (r : XYS) (v : Addr) :
    (s.setXYS r v).irqShadow = s.irqShadow := by cases r <;> rfl
@[simp] theorem setXYS_mem (s : State) (r : XYS) (v : Addr) : (s.setXYS r v).mem = s.mem := by cases r <;> rfl
@[simp] theorem setXYS_vec (s : State) (r : XYS) (v : Addr) : (s.setXYS r v).vec = s.vec := by cases r <;> rfl
@[simp] theorem setXYS_enbdm (s : State) (r : XYS) (v : Addr) :
    (s.setXYS r v).enbdm = s.enbdm := by cases r <;> rfl
@[simp] theorem setXYS_inputs (s : State) (r : XYS) (v : Addr) :
    (s.setXYS r v).inputs = s.inputs := by cases r <;> rfl
@[simp] theorem setXYS_taken (s : State) (r : XYS) (v : Addr) :
    (s.setXYS r v).taken = s.taken := by cases r <;> rfl
@[simp] theorem setXYS_map (s : State) (r : XYS) (v : Addr) : (s.setXYS r v).map = s.map := by cases r <;> rfl
@[simp] theorem setXYS_machineRequest (s : State) (r : XYS) (v : Addr) :
    (s.setXYS r v).machineRequest = s.machineRequest := by cases r <;> rfl
@[simp] theorem setXYS_freeCount (s : State) (r : XYS) (v : Addr) :
    (s.setXYS r v).freeCount = s.freeCount := by cases r <;> rfl

/-! ## `accessed` -/

@[simp] theorem accessed_d0 (s : State) (k : AccessKind) (a : Addr) (n : Nat) :
    (s.accessed k a n).d0 = s.d0 := rfl
@[simp] theorem accessed_d1 (s : State) (k : AccessKind) (a : Addr) (n : Nat) :
    (s.accessed k a n).d1 = s.d1 := rfl
@[simp] theorem accessed_d2 (s : State) (k : AccessKind) (a : Addr) (n : Nat) :
    (s.accessed k a n).d2 = s.d2 := rfl
@[simp] theorem accessed_d3 (s : State) (k : AccessKind) (a : Addr) (n : Nat) :
    (s.accessed k a n).d3 = s.d3 := rfl
@[simp] theorem accessed_d4 (s : State) (k : AccessKind) (a : Addr) (n : Nat) :
    (s.accessed k a n).d4 = s.d4 := rfl
@[simp] theorem accessed_d5 (s : State) (k : AccessKind) (a : Addr) (n : Nat) :
    (s.accessed k a n).d5 = s.d5 := rfl
@[simp] theorem accessed_d6 (s : State) (k : AccessKind) (a : Addr) (n : Nat) :
    (s.accessed k a n).d6 = s.d6 := rfl
@[simp] theorem accessed_d7 (s : State) (k : AccessKind) (a : Addr) (n : Nat) :
    (s.accessed k a n).d7 = s.d7 := rfl
@[simp] theorem accessed_x (s : State) (k : AccessKind) (a : Addr) (n : Nat) : (s.accessed k a n).x = s.x := rfl
@[simp] theorem accessed_y (s : State) (k : AccessKind) (a : Addr) (n : Nat) : (s.accessed k a n).y = s.y := rfl
@[simp] theorem accessed_sp (s : State) (k : AccessKind) (a : Addr) (n : Nat) :
    (s.accessed k a n).sp = s.sp := rfl
@[simp] theorem accessed_pc (s : State) (k : AccessKind) (a : Addr) (n : Nat) :
    (s.accessed k a n).pc = s.pc := rfl
@[simp] theorem accessed_ccr (s : State) (k : AccessKind) (a : Addr) (n : Nat) :
    (s.accessed k a n).ccr = s.ccr := rfl
@[simp] theorem accessed_runState (s : State) (k : AccessKind) (a : Addr) (n : Nat) :
    (s.accessed k a n).runState = s.runState := rfl
@[simp] theorem accessed_irqShadow (s : State) (k : AccessKind) (a : Addr) (n : Nat) :
    (s.accessed k a n).irqShadow = s.irqShadow := rfl
@[simp] theorem accessed_mem (s : State) (k : AccessKind) (a : Addr) (n : Nat) :
    (s.accessed k a n).mem = s.mem := rfl
@[simp] theorem accessed_map (s : State) (k : AccessKind) (a : Addr) (n : Nat) :
    (s.accessed k a n).map = s.map := rfl
@[simp] theorem accessed_vec (s : State) (k : AccessKind) (a : Addr) (n : Nat) :
    (s.accessed k a n).vec = s.vec := rfl
@[simp] theorem accessed_enbdm (s : State) (k : AccessKind) (a : Addr) (n : Nat) :
    (s.accessed k a n).enbdm = s.enbdm := rfl
@[simp] theorem accessed_inputs (s : State) (k : AccessKind) (a : Addr) (n : Nat) :
    (s.accessed k a n).inputs = s.inputs := rfl
@[simp] theorem accessed_taken (s : State) (k : AccessKind) (a : Addr) (n : Nat) :
    (s.accessed k a n).taken = s.taken := rfl
@[simp] theorem accessed_machineRequest (s : State) (k : AccessKind) (a : Addr) (n : Nat) :
    (s.accessed k a n).machineRequest = s.machineRequest := rfl
@[simp] theorem accessed_trace (s : State) (k : AccessKind) (a : Addr) (n : Nat) :
    (s.accessed k a n).trace = .access ⟨k, !s.ccr.u, a, n⟩ :: s.trace := rfl
@[simp] theorem accessed_freeCount (s : State) (k : AccessKind) (a : Addr) (n : Nat) :
    (s.accessed k a n).freeCount = s.freeCount := rfl
@[simp] theorem accessed_getD (s : State) (k : AccessKind) (a : Addr) (n : Nat) (r : DReg) :
    (s.accessed k a n).getD r = s.getD r := by cases r <;> rfl
@[simp] theorem accessed_getXY (s : State) (k : AccessKind) (a : Addr) (n : Nat) (r : XY) :
    (s.accessed k a n).getXY r = s.getXY r := by cases r <;> rfl
@[simp] theorem accessed_getXYS (s : State) (k : AccessKind) (a : Addr) (n : Nat) (r : XYS) :
    (s.accessed k a n).getXYS r = s.getXYS r := by cases r <;> rfl

/-! ## `loaded` -/

@[simp] theorem loaded_d0 (s : State) (a : Addr) (sz : Size) : (s.loaded a sz).d0 = s.d0 := rfl
@[simp] theorem loaded_d1 (s : State) (a : Addr) (sz : Size) : (s.loaded a sz).d1 = s.d1 := rfl
@[simp] theorem loaded_d2 (s : State) (a : Addr) (sz : Size) : (s.loaded a sz).d2 = s.d2 := rfl
@[simp] theorem loaded_d3 (s : State) (a : Addr) (sz : Size) : (s.loaded a sz).d3 = s.d3 := rfl
@[simp] theorem loaded_d4 (s : State) (a : Addr) (sz : Size) : (s.loaded a sz).d4 = s.d4 := rfl
@[simp] theorem loaded_d5 (s : State) (a : Addr) (sz : Size) : (s.loaded a sz).d5 = s.d5 := rfl
@[simp] theorem loaded_d6 (s : State) (a : Addr) (sz : Size) : (s.loaded a sz).d6 = s.d6 := rfl
@[simp] theorem loaded_d7 (s : State) (a : Addr) (sz : Size) : (s.loaded a sz).d7 = s.d7 := rfl
@[simp] theorem loaded_x (s : State) (a : Addr) (sz : Size) : (s.loaded a sz).x = s.x := rfl
@[simp] theorem loaded_y (s : State) (a : Addr) (sz : Size) : (s.loaded a sz).y = s.y := rfl
@[simp] theorem loaded_sp (s : State) (a : Addr) (sz : Size) : (s.loaded a sz).sp = s.sp := rfl
@[simp] theorem loaded_pc (s : State) (a : Addr) (sz : Size) : (s.loaded a sz).pc = s.pc := rfl
@[simp] theorem loaded_ccr (s : State) (a : Addr) (sz : Size) : (s.loaded a sz).ccr = s.ccr := rfl
@[simp] theorem loaded_runState (s : State) (a : Addr) (sz : Size) :
    (s.loaded a sz).runState = s.runState := rfl
@[simp] theorem loaded_irqShadow (s : State) (a : Addr) (sz : Size) :
    (s.loaded a sz).irqShadow = s.irqShadow := rfl
@[simp] theorem loaded_mem (s : State) (a : Addr) (sz : Size) : (s.loaded a sz).mem = s.mem := rfl
@[simp] theorem loaded_map (s : State) (a : Addr) (sz : Size) : (s.loaded a sz).map = s.map := rfl
@[simp] theorem loaded_vec (s : State) (a : Addr) (sz : Size) : (s.loaded a sz).vec = s.vec := rfl
@[simp] theorem loaded_enbdm (s : State) (a : Addr) (sz : Size) : (s.loaded a sz).enbdm = s.enbdm := rfl
@[simp] theorem loaded_inputs (s : State) (a : Addr) (sz : Size) : (s.loaded a sz).inputs = s.inputs := rfl
@[simp] theorem loaded_taken (s : State) (a : Addr) (sz : Size) : (s.loaded a sz).taken = s.taken := rfl
@[simp] theorem loaded_machineRequest (s : State) (a : Addr) (sz : Size) :
    (s.loaded a sz).machineRequest = s.machineRequest := rfl
@[simp] theorem loaded_trace (s : State) (a : Addr) (sz : Size) :
    (s.loaded a sz).trace = .access ⟨.read, !s.ccr.u, a, sz.bytes⟩ :: s.trace := rfl
@[simp] theorem loaded_freeCount (s : State) (a : Addr) (sz : Size) :
    (s.loaded a sz).freeCount = s.freeCount := rfl
@[simp] theorem loaded_getD (s : State) (a : Addr) (sz : Size) (r : DReg) :
    (s.loaded a sz).getD r = s.getD r := by cases r <;> rfl
@[simp] theorem loaded_getXY (s : State) (a : Addr) (sz : Size) (r : XY) :
    (s.loaded a sz).getXY r = s.getXY r := by cases r <;> rfl
@[simp] theorem loaded_getXYS (s : State) (a : Addr) (sz : Size) (r : XYS) :
    (s.loaded a sz).getXYS r = s.getXYS r := by cases r <;> rfl

/-! ## `setSp` -/

@[simp] theorem setSp_d0 (s : State) (v : Addr) : (s.setSp v).d0 = s.d0 := rfl
@[simp] theorem setSp_d1 (s : State) (v : Addr) : (s.setSp v).d1 = s.d1 := rfl
@[simp] theorem setSp_d2 (s : State) (v : Addr) : (s.setSp v).d2 = s.d2 := rfl
@[simp] theorem setSp_d3 (s : State) (v : Addr) : (s.setSp v).d3 = s.d3 := rfl
@[simp] theorem setSp_d4 (s : State) (v : Addr) : (s.setSp v).d4 = s.d4 := rfl
@[simp] theorem setSp_d5 (s : State) (v : Addr) : (s.setSp v).d5 = s.d5 := rfl
@[simp] theorem setSp_d6 (s : State) (v : Addr) : (s.setSp v).d6 = s.d6 := rfl
@[simp] theorem setSp_d7 (s : State) (v : Addr) : (s.setSp v).d7 = s.d7 := rfl
@[simp] theorem setSp_x (s : State) (v : Addr) : (s.setSp v).x = s.x := rfl
@[simp] theorem setSp_y (s : State) (v : Addr) : (s.setSp v).y = s.y := rfl
@[simp] theorem setSp_sp (s : State) (v : Addr) : (s.setSp v).sp = v := rfl
@[simp] theorem setSp_pc (s : State) (v : Addr) : (s.setSp v).pc = s.pc := rfl
@[simp] theorem setSp_ccr (s : State) (v : Addr) : (s.setSp v).ccr = s.ccr := rfl
@[simp] theorem setSp_runState (s : State) (v : Addr) : (s.setSp v).runState = s.runState := rfl
@[simp] theorem setSp_irqShadow (s : State) (v : Addr) : (s.setSp v).irqShadow = s.irqShadow := rfl
@[simp] theorem setSp_mem (s : State) (v : Addr) : (s.setSp v).mem = s.mem := rfl
@[simp] theorem setSp_map (s : State) (v : Addr) : (s.setSp v).map = s.map := rfl
@[simp] theorem setSp_vec (s : State) (v : Addr) : (s.setSp v).vec = s.vec := rfl
@[simp] theorem setSp_enbdm (s : State) (v : Addr) : (s.setSp v).enbdm = s.enbdm := rfl
@[simp] theorem setSp_inputs (s : State) (v : Addr) : (s.setSp v).inputs = s.inputs := rfl
@[simp] theorem setSp_taken (s : State) (v : Addr) : (s.setSp v).taken = s.taken := rfl
@[simp] theorem setSp_machineRequest (s : State) (v : Addr) :
    (s.setSp v).machineRequest = s.machineRequest := rfl
@[simp] theorem setSp_trace (s : State) (v : Addr) : (s.setSp v).trace = .spWritten :: s.trace := rfl
@[simp] theorem setSp_freeCount (s : State) (v : Addr) : (s.setSp v).freeCount = s.freeCount := rfl
@[simp] theorem setSp_getD (s : State) (v : Addr) (r : DReg) :
    (s.setSp v).getD r = s.getD r := by cases r <;> rfl
@[simp] theorem setSp_getXY (s : State) (v : Addr) (r : XY) :
    (s.setSp v).getXY r = s.getXY r := by cases r <;> rfl

/-! ## `begun` -/

@[simp] theorem begun_d0 (s : State) : (s.begun).d0 = s.d0 := rfl
@[simp] theorem begun_d1 (s : State) : (s.begun).d1 = s.d1 := rfl
@[simp] theorem begun_d2 (s : State) : (s.begun).d2 = s.d2 := rfl
@[simp] theorem begun_d3 (s : State) : (s.begun).d3 = s.d3 := rfl
@[simp] theorem begun_d4 (s : State) : (s.begun).d4 = s.d4 := rfl
@[simp] theorem begun_d5 (s : State) : (s.begun).d5 = s.d5 := rfl
@[simp] theorem begun_d6 (s : State) : (s.begun).d6 = s.d6 := rfl
@[simp] theorem begun_d7 (s : State) : (s.begun).d7 = s.d7 := rfl
@[simp] theorem begun_x (s : State) : (s.begun).x = s.x := rfl
@[simp] theorem begun_y (s : State) : (s.begun).y = s.y := rfl
@[simp] theorem begun_sp (s : State) : (s.begun).sp = s.sp := rfl
@[simp] theorem begun_pc (s : State) : (s.begun).pc = s.pc := rfl
@[simp] theorem begun_ccr (s : State) : (s.begun).ccr = s.ccr := rfl
@[simp] theorem begun_runState (s : State) : (s.begun).runState = s.runState := rfl
@[simp] theorem begun_irqShadow (s : State) : (s.begun).irqShadow = s.irqShadow := rfl
@[simp] theorem begun_mem (s : State) : (s.begun).mem = s.mem := rfl
@[simp] theorem begun_map (s : State) : (s.begun).map = s.map := rfl
@[simp] theorem begun_vec (s : State) : (s.begun).vec = s.vec := rfl
@[simp] theorem begun_enbdm (s : State) : (s.begun).enbdm = s.enbdm := rfl
@[simp] theorem begun_inputs (s : State) : (s.begun).inputs = s.inputs := rfl
@[simp] theorem begun_taken (s : State) : (s.begun).taken = s.taken := rfl
@[simp] theorem begun_machineRequest (s : State) : (s.begun).machineRequest = s.machineRequest := rfl
@[simp] theorem begun_trace (s : State) : (s.begun).trace = [] := rfl
@[simp] theorem begun_freeCount (s : State) : (s.begun).freeCount = s.freeCount + s.trace.length := rfl
@[simp] theorem begun_getD (s : State) (r : DReg) : (s.begun).getD r = s.getD r := by cases r <;> rfl
@[simp] theorem begun_getXY (s : State) (r : XY) : (s.begun).getXY r = s.getXY r := by cases r <;> rfl
@[simp] theorem begun_getXYS (s : State) (r : XYS) : (s.begun).getXYS r = s.getXYS r := by cases r <;> rfl

/-! ## `store` -/

@[simp] theorem store_d0 (s : State) (a : Addr) (sz : Size) (v : BitVec sz.bits) :
    (s.store a sz v).d0 = s.d0 := rfl
@[simp] theorem store_d1 (s : State) (a : Addr) (sz : Size) (v : BitVec sz.bits) :
    (s.store a sz v).d1 = s.d1 := rfl
@[simp] theorem store_d2 (s : State) (a : Addr) (sz : Size) (v : BitVec sz.bits) :
    (s.store a sz v).d2 = s.d2 := rfl
@[simp] theorem store_d3 (s : State) (a : Addr) (sz : Size) (v : BitVec sz.bits) :
    (s.store a sz v).d3 = s.d3 := rfl
@[simp] theorem store_d4 (s : State) (a : Addr) (sz : Size) (v : BitVec sz.bits) :
    (s.store a sz v).d4 = s.d4 := rfl
@[simp] theorem store_d5 (s : State) (a : Addr) (sz : Size) (v : BitVec sz.bits) :
    (s.store a sz v).d5 = s.d5 := rfl
@[simp] theorem store_d6 (s : State) (a : Addr) (sz : Size) (v : BitVec sz.bits) :
    (s.store a sz v).d6 = s.d6 := rfl
@[simp] theorem store_d7 (s : State) (a : Addr) (sz : Size) (v : BitVec sz.bits) :
    (s.store a sz v).d7 = s.d7 := rfl
@[simp] theorem store_x (s : State) (a : Addr) (sz : Size) (v : BitVec sz.bits) :
    (s.store a sz v).x = s.x := rfl
@[simp] theorem store_y (s : State) (a : Addr) (sz : Size) (v : BitVec sz.bits) :
    (s.store a sz v).y = s.y := rfl
@[simp] theorem store_sp (s : State) (a : Addr) (sz : Size) (v : BitVec sz.bits) :
    (s.store a sz v).sp = s.sp := rfl
@[simp] theorem store_pc (s : State) (a : Addr) (sz : Size) (v : BitVec sz.bits) :
    (s.store a sz v).pc = s.pc := rfl
@[simp] theorem store_ccr (s : State) (a : Addr) (sz : Size) (v : BitVec sz.bits) :
    (s.store a sz v).ccr = s.ccr := rfl
@[simp] theorem store_runState (s : State) (a : Addr) (sz : Size) (v : BitVec sz.bits) :
    (s.store a sz v).runState = s.runState := rfl
@[simp] theorem store_irqShadow (s : State) (a : Addr) (sz : Size) (v : BitVec sz.bits) :
    (s.store a sz v).irqShadow = s.irqShadow := rfl
@[simp] theorem store_mem (s : State) (a : Addr) (sz : Size) (v : BitVec sz.bits) :
    (s.store a sz v).mem = s.mem.store s.map.isRam a sz v := rfl
@[simp] theorem store_vec (s : State) (a : Addr) (sz : Size) (v : BitVec sz.bits) :
    (s.store a sz v).vec = s.vec := rfl
@[simp] theorem store_enbdm (s : State) (a : Addr) (sz : Size) (v : BitVec sz.bits) :
    (s.store a sz v).enbdm = s.enbdm := rfl
@[simp] theorem store_inputs (s : State) (a : Addr) (sz : Size) (v : BitVec sz.bits) :
    (s.store a sz v).inputs = s.inputs := rfl
@[simp] theorem store_taken (s : State) (a : Addr) (sz : Size) (v : BitVec sz.bits) :
    (s.store a sz v).taken = s.taken := rfl
@[simp] theorem store_map (s : State) (a : Addr) (sz : Size) (v : BitVec sz.bits) :
    (s.store a sz v).map = s.map := rfl
@[simp] theorem store_machineRequest (s : State) (a : Addr) (sz : Size) (v : BitVec sz.bits) :
    (s.store a sz v).machineRequest = s.machineRequest := rfl
@[simp] theorem store_trace (s : State) (a : Addr) (sz : Size) (v : BitVec sz.bits) :
    (s.store a sz v).trace = .access ⟨.write, !s.ccr.u, a, sz.bytes⟩ :: s.trace := rfl
@[simp] theorem store_freeCount (s : State) (a : Addr) (sz : Size) (v : BitVec sz.bits) :
    (s.store a sz v).freeCount = s.freeCount := rfl
@[simp] theorem store_getD (s : State) (a : Addr) (sz : Size) (v : BitVec sz.bits) (r : DReg) :
    (s.store a sz v).getD r = s.getD r := by cases r <;> rfl
@[simp] theorem store_getXY (s : State) (a : Addr) (sz : Size) (v : BitVec sz.bits) (r : XY) :
    (s.store a sz v).getXY r = s.getXY r := by cases r <;> rfl
@[simp] theorem store_getXYS (s : State) (a : Addr) (sz : Size) (v : BitVec sz.bits) (r : XYS) :
    (s.store a sz v).getXYS r = s.getXYS r := by cases r <;> rfl

/-! ## `push` -/

@[simp] theorem push_d0 (s : State) (sz : Size) (v : BitVec sz.bits) : (s.push sz v).d0 = s.d0 := rfl
@[simp] theorem push_d1 (s : State) (sz : Size) (v : BitVec sz.bits) : (s.push sz v).d1 = s.d1 := rfl
@[simp] theorem push_d2 (s : State) (sz : Size) (v : BitVec sz.bits) : (s.push sz v).d2 = s.d2 := rfl
@[simp] theorem push_d3 (s : State) (sz : Size) (v : BitVec sz.bits) : (s.push sz v).d3 = s.d3 := rfl
@[simp] theorem push_d4 (s : State) (sz : Size) (v : BitVec sz.bits) : (s.push sz v).d4 = s.d4 := rfl
@[simp] theorem push_d5 (s : State) (sz : Size) (v : BitVec sz.bits) : (s.push sz v).d5 = s.d5 := rfl
@[simp] theorem push_d6 (s : State) (sz : Size) (v : BitVec sz.bits) : (s.push sz v).d6 = s.d6 := rfl
@[simp] theorem push_d7 (s : State) (sz : Size) (v : BitVec sz.bits) : (s.push sz v).d7 = s.d7 := rfl
@[simp] theorem push_x (s : State) (sz : Size) (v : BitVec sz.bits) : (s.push sz v).x = s.x := rfl
@[simp] theorem push_y (s : State) (sz : Size) (v : BitVec sz.bits) : (s.push sz v).y = s.y := rfl
@[simp] theorem push_sp (s : State) (sz : Size) (v : BitVec sz.bits) :
    (s.push sz v).sp = s.sp - BitVec.ofNat 24 sz.bytes := rfl
@[simp] theorem push_pc (s : State) (sz : Size) (v : BitVec sz.bits) : (s.push sz v).pc = s.pc := rfl
@[simp] theorem push_ccr (s : State) (sz : Size) (v : BitVec sz.bits) : (s.push sz v).ccr = s.ccr := rfl
@[simp] theorem push_runState (s : State) (sz : Size) (v : BitVec sz.bits) :
    (s.push sz v).runState = s.runState := rfl
@[simp] theorem push_irqShadow (s : State) (sz : Size) (v : BitVec sz.bits) :
    (s.push sz v).irqShadow = s.irqShadow := rfl
@[simp] theorem push_mem (s : State) (sz : Size) (v : BitVec sz.bits) : (s.push sz v).mem =
    s.mem.store s.map.isRam (s.sp - BitVec.ofNat 24 sz.bytes) sz v := rfl
@[simp] theorem push_vec (s : State) (sz : Size) (v : BitVec sz.bits) : (s.push sz v).vec = s.vec := rfl
@[simp] theorem push_enbdm (s : State) (sz : Size) (v : BitVec sz.bits) : (s.push sz v).enbdm = s.enbdm := rfl
@[simp] theorem push_inputs (s : State) (sz : Size) (v : BitVec sz.bits) :
    (s.push sz v).inputs = s.inputs := rfl
@[simp] theorem push_taken (s : State) (sz : Size) (v : BitVec sz.bits) : (s.push sz v).taken = s.taken := rfl
@[simp] theorem push_map (s : State) (sz : Size) (v : BitVec sz.bits) : (s.push sz v).map = s.map := rfl
@[simp] theorem push_machineRequest (s : State) (sz : Size) (v : BitVec sz.bits) :
    (s.push sz v).machineRequest = s.machineRequest := rfl
@[simp] theorem push_trace (s : State) (sz : Size) (v : BitVec sz.bits) : (s.push sz v).trace =
    .access ⟨.write, !s.ccr.u, s.sp - BitVec.ofNat 24 sz.bytes, sz.bytes⟩ :: .spWritten :: s.trace := rfl
@[simp] theorem push_freeCount (s : State) (sz : Size) (v : BitVec sz.bits) :
    (s.push sz v).freeCount = s.freeCount := rfl
@[simp] theorem push_getD (s : State) (sz : Size) (v : BitVec sz.bits) (r : DReg) :
    (s.push sz v).getD r = s.getD r := by cases r <;> rfl
@[simp] theorem push_getXY (s : State) (sz : Size) (v : BitVec sz.bits) (r : XY) :
    (s.push sz v).getXY r = s.getXY r := by cases r <;> rfl

/-! ## `pullMove` -/

@[simp] theorem pullMove_d0 (s : State) (sz : Size) : (s.pullMove sz).d0 = s.d0 := rfl
@[simp] theorem pullMove_d1 (s : State) (sz : Size) : (s.pullMove sz).d1 = s.d1 := rfl
@[simp] theorem pullMove_d2 (s : State) (sz : Size) : (s.pullMove sz).d2 = s.d2 := rfl
@[simp] theorem pullMove_d3 (s : State) (sz : Size) : (s.pullMove sz).d3 = s.d3 := rfl
@[simp] theorem pullMove_d4 (s : State) (sz : Size) : (s.pullMove sz).d4 = s.d4 := rfl
@[simp] theorem pullMove_d5 (s : State) (sz : Size) : (s.pullMove sz).d5 = s.d5 := rfl
@[simp] theorem pullMove_d6 (s : State) (sz : Size) : (s.pullMove sz).d6 = s.d6 := rfl
@[simp] theorem pullMove_d7 (s : State) (sz : Size) : (s.pullMove sz).d7 = s.d7 := rfl
@[simp] theorem pullMove_x (s : State) (sz : Size) : (s.pullMove sz).x = s.x := rfl
@[simp] theorem pullMove_y (s : State) (sz : Size) : (s.pullMove sz).y = s.y := rfl
@[simp] theorem pullMove_sp (s : State) (sz : Size) :
    (s.pullMove sz).sp = s.sp + BitVec.ofNat 24 sz.bytes := rfl
@[simp] theorem pullMove_pc (s : State) (sz : Size) : (s.pullMove sz).pc = s.pc := rfl
@[simp] theorem pullMove_ccr (s : State) (sz : Size) : (s.pullMove sz).ccr = s.ccr := rfl
@[simp] theorem pullMove_runState (s : State) (sz : Size) : (s.pullMove sz).runState = s.runState := rfl
@[simp] theorem pullMove_irqShadow (s : State) (sz : Size) : (s.pullMove sz).irqShadow = s.irqShadow := rfl
@[simp] theorem pullMove_mem (s : State) (sz : Size) : (s.pullMove sz).mem = s.mem := rfl
@[simp] theorem pullMove_vec (s : State) (sz : Size) : (s.pullMove sz).vec = s.vec := rfl
@[simp] theorem pullMove_enbdm (s : State) (sz : Size) : (s.pullMove sz).enbdm = s.enbdm := rfl
@[simp] theorem pullMove_inputs (s : State) (sz : Size) : (s.pullMove sz).inputs = s.inputs := rfl
@[simp] theorem pullMove_taken (s : State) (sz : Size) : (s.pullMove sz).taken = s.taken := rfl
@[simp] theorem pullMove_map (s : State) (sz : Size) : (s.pullMove sz).map = s.map := rfl
@[simp] theorem pullMove_machineRequest (s : State) (sz : Size) :
    (s.pullMove sz).machineRequest = s.machineRequest := rfl
@[simp] theorem pullMove_trace (s : State) (sz : Size) : (s.pullMove sz).trace =
    .spWritten :: .access ⟨.read, !s.ccr.u, s.sp, sz.bytes⟩ :: s.trace := rfl
@[simp] theorem pullMove_freeCount (s : State) (sz : Size) : (s.pullMove sz).freeCount = s.freeCount := rfl
@[simp] theorem pullMove_getD (s : State) (sz : Size) (r : DReg) :
    (s.pullMove sz).getD r = s.getD r := by cases r <;> rfl
@[simp] theorem pullMove_getXY (s : State) (sz : Size) (r : XY) :
    (s.pullMove sz).getXY r = s.getXY r := by cases r <;> rfl

/-! ## `writeCcr` -/

@[simp] theorem writeCcr_d0 (s : State) (new : BitVec 16) (hi lo : Bool) :
    (s.writeCcr new hi lo).d0 = s.d0 := rfl
@[simp] theorem writeCcr_d1 (s : State) (new : BitVec 16) (hi lo : Bool) :
    (s.writeCcr new hi lo).d1 = s.d1 := rfl
@[simp] theorem writeCcr_d2 (s : State) (new : BitVec 16) (hi lo : Bool) :
    (s.writeCcr new hi lo).d2 = s.d2 := rfl
@[simp] theorem writeCcr_d3 (s : State) (new : BitVec 16) (hi lo : Bool) :
    (s.writeCcr new hi lo).d3 = s.d3 := rfl
@[simp] theorem writeCcr_d4 (s : State) (new : BitVec 16) (hi lo : Bool) :
    (s.writeCcr new hi lo).d4 = s.d4 := rfl
@[simp] theorem writeCcr_d5 (s : State) (new : BitVec 16) (hi lo : Bool) :
    (s.writeCcr new hi lo).d5 = s.d5 := rfl
@[simp] theorem writeCcr_d6 (s : State) (new : BitVec 16) (hi lo : Bool) :
    (s.writeCcr new hi lo).d6 = s.d6 := rfl
@[simp] theorem writeCcr_d7 (s : State) (new : BitVec 16) (hi lo : Bool) :
    (s.writeCcr new hi lo).d7 = s.d7 := rfl
@[simp] theorem writeCcr_x (s : State) (new : BitVec 16) (hi lo : Bool) : (s.writeCcr new hi lo).x = s.x := rfl
@[simp] theorem writeCcr_y (s : State) (new : BitVec 16) (hi lo : Bool) : (s.writeCcr new hi lo).y = s.y := rfl
@[simp] theorem writeCcr_sp (s : State) (new : BitVec 16) (hi lo : Bool) :
    (s.writeCcr new hi lo).sp = s.sp := rfl
@[simp] theorem writeCcr_pc (s : State) (new : BitVec 16) (hi lo : Bool) :
    (s.writeCcr new hi lo).pc = s.pc := rfl
@[simp] theorem writeCcr_ccr (s : State) (new : BitVec 16) (hi lo : Bool) :
    (s.writeCcr new hi lo).ccr = s.ccr.writeMasked new hi lo := rfl
@[simp] theorem writeCcr_runState (s : State) (new : BitVec 16) (hi lo : Bool) :
    (s.writeCcr new hi lo).runState = s.runState := rfl
@[simp] theorem writeCcr_irqShadow (s : State) (new : BitVec 16) (hi lo : Bool) :
    (s.writeCcr new hi lo).irqShadow = s.irqShadow := rfl
@[simp] theorem writeCcr_mem (s : State) (new : BitVec 16) (hi lo : Bool) :
    (s.writeCcr new hi lo).mem = s.mem := rfl
@[simp] theorem writeCcr_vec (s : State) (new : BitVec 16) (hi lo : Bool) :
    (s.writeCcr new hi lo).vec = s.vec := rfl
@[simp] theorem writeCcr_enbdm (s : State) (new : BitVec 16) (hi lo : Bool) :
    (s.writeCcr new hi lo).enbdm = s.enbdm := rfl
@[simp] theorem writeCcr_inputs (s : State) (new : BitVec 16) (hi lo : Bool) :
    (s.writeCcr new hi lo).inputs = s.inputs := rfl
@[simp] theorem writeCcr_taken (s : State) (new : BitVec 16) (hi lo : Bool) :
    (s.writeCcr new hi lo).taken = s.taken := rfl
@[simp] theorem writeCcr_map (s : State) (new : BitVec 16) (hi lo : Bool) :
    (s.writeCcr new hi lo).map = s.map := rfl
@[simp] theorem writeCcr_machineRequest (s : State) (new : BitVec 16) (hi lo : Bool) :
    (s.writeCcr new hi lo).machineRequest = s.machineRequest := rfl
@[simp] theorem writeCcr_trace (s : State) (new : BitVec 16) (hi lo : Bool) :
    (s.writeCcr new hi lo).trace = s.trace := rfl
@[simp] theorem writeCcr_freeCount (s : State) (new : BitVec 16) (hi lo : Bool) :
    (s.writeCcr new hi lo).freeCount = s.freeCount := rfl
@[simp] theorem writeCcr_getD (s : State) (new : BitVec 16) (hi lo : Bool) (r : DReg) :
    (s.writeCcr new hi lo).getD r = s.getD r := by cases r <;> rfl
@[simp] theorem writeCcr_getXY (s : State) (new : BitVec 16) (hi lo : Bool) (r : XY) :
    (s.writeCcr new hi lo).getXY r = s.getXY r := by cases r <;> rfl
@[simp] theorem writeCcr_getXYS (s : State) (new : BitVec 16) (hi lo : Bool) (r : XYS) :
    (s.writeCcr new hi lo).getXYS r = s.getXYS r := by cases r <;> rfl

/-! ## `drewN` -/

@[simp] theorem drewN_d0 (s : State) (n : Nat) : (s.drewN n).d0 = s.d0 := rfl
@[simp] theorem drewN_d1 (s : State) (n : Nat) : (s.drewN n).d1 = s.d1 := rfl
@[simp] theorem drewN_d2 (s : State) (n : Nat) : (s.drewN n).d2 = s.d2 := rfl
@[simp] theorem drewN_d3 (s : State) (n : Nat) : (s.drewN n).d3 = s.d3 := rfl
@[simp] theorem drewN_d4 (s : State) (n : Nat) : (s.drewN n).d4 = s.d4 := rfl
@[simp] theorem drewN_d5 (s : State) (n : Nat) : (s.drewN n).d5 = s.d5 := rfl
@[simp] theorem drewN_d6 (s : State) (n : Nat) : (s.drewN n).d6 = s.d6 := rfl
@[simp] theorem drewN_d7 (s : State) (n : Nat) : (s.drewN n).d7 = s.d7 := rfl
@[simp] theorem drewN_x (s : State) (n : Nat) : (s.drewN n).x = s.x := rfl
@[simp] theorem drewN_y (s : State) (n : Nat) : (s.drewN n).y = s.y := rfl
@[simp] theorem drewN_sp (s : State) (n : Nat) : (s.drewN n).sp = s.sp := rfl
@[simp] theorem drewN_pc (s : State) (n : Nat) : (s.drewN n).pc = s.pc := rfl
@[simp] theorem drewN_ccr (s : State) (n : Nat) : (s.drewN n).ccr = s.ccr := rfl
@[simp] theorem drewN_runState (s : State) (n : Nat) : (s.drewN n).runState = s.runState := rfl
@[simp] theorem drewN_irqShadow (s : State) (n : Nat) : (s.drewN n).irqShadow = s.irqShadow := rfl
@[simp] theorem drewN_mem (s : State) (n : Nat) : (s.drewN n).mem = s.mem := rfl
@[simp] theorem drewN_vec (s : State) (n : Nat) : (s.drewN n).vec = s.vec := rfl
@[simp] theorem drewN_enbdm (s : State) (n : Nat) : (s.drewN n).enbdm = s.enbdm := rfl
@[simp] theorem drewN_inputs (s : State) (n : Nat) : (s.drewN n).inputs = s.inputs := rfl
@[simp] theorem drewN_taken (s : State) (n : Nat) : (s.drewN n).taken = s.taken := rfl
@[simp] theorem drewN_map (s : State) (n : Nat) : (s.drewN n).map = s.map := rfl
@[simp] theorem drewN_machineRequest (s : State) (n : Nat) :
    (s.drewN n).machineRequest = s.machineRequest := rfl
@[simp] theorem drewN_trace (s : State) (n : Nat) : (s.drewN n).trace = s.trace := rfl
@[simp] theorem drewN_freeCount (s : State) (n : Nat) : (s.drewN n).freeCount = s.freeCount + n := rfl
@[simp] theorem drewN_getD (s : State) (n : Nat) (r : DReg) :
    (s.drewN n).getD r = s.getD r := by cases r <;> rfl
@[simp] theorem drewN_getXY (s : State) (n : Nat) (r : XY) :
    (s.drewN n).getXY r = s.getXY r := by cases r <;> rfl
@[simp] theorem drewN_getXYS (s : State) (n : Nat) (r : XYS) :
    (s.drewN n).getXYS r = s.getXYS r := by cases r <;> rfl

/-! ## Updates of the fields a meaning writes last -/

@[simp] theorem with_pc_getD (s : State) (v : Addr) (r : DReg) :
    ({ s with pc := v } : State).getD r = s.getD r := by cases r <;> rfl
@[simp] theorem with_pc_getXY (s : State) (v : Addr) (r : XY) :
    ({ s with pc := v } : State).getXY r = s.getXY r := by cases r <;> rfl
@[simp] theorem with_pc_getXYS (s : State) (v : Addr) (r : XYS) :
    ({ s with pc := v } : State).getXYS r = s.getXYS r := by cases r <;> rfl
@[simp] theorem with_pc_load (s : State) (v : Addr) (a : Addr) (sz : Size) :
    ({ s with pc := v } : State).load a sz = s.load a sz := rfl
@[simp] theorem with_ccr_getD (s : State) (v : Ccr) (r : DReg) :
    ({ s with ccr := v } : State).getD r = s.getD r := by cases r <;> rfl
@[simp] theorem with_ccr_getXY (s : State) (v : Ccr) (r : XY) :
    ({ s with ccr := v } : State).getXY r = s.getXY r := by cases r <;> rfl
@[simp] theorem with_ccr_getXYS (s : State) (v : Ccr) (r : XYS) :
    ({ s with ccr := v } : State).getXYS r = s.getXYS r := by cases r <;> rfl
@[simp] theorem with_ccr_load (s : State) (v : Ccr) (a : Addr) (sz : Size) :
    ({ s with ccr := v } : State).load a sz = s.load a sz := rfl
@[simp] theorem with_runState_getD (s : State) (v : RunState) (r : DReg) :
    ({ s with runState := v } : State).getD r = s.getD r := by cases r <;> rfl
@[simp] theorem with_runState_getXY (s : State) (v : RunState) (r : XY) :
    ({ s with runState := v } : State).getXY r = s.getXY r := by cases r <;> rfl
@[simp] theorem with_runState_getXYS (s : State) (v : RunState) (r : XYS) :
    ({ s with runState := v } : State).getXYS r = s.getXYS r := by cases r <;> rfl
@[simp] theorem with_runState_load (s : State) (v : RunState) (a : Addr) (sz : Size) :
    ({ s with runState := v } : State).load a sz = s.load a sz := rfl
@[simp] theorem with_irqShadow_getD (s : State) (v : Bool) (r : DReg) :
    ({ s with irqShadow := v } : State).getD r = s.getD r := by cases r <;> rfl
@[simp] theorem with_irqShadow_getXY (s : State) (v : Bool) (r : XY) :
    ({ s with irqShadow := v } : State).getXY r = s.getXY r := by cases r <;> rfl
@[simp] theorem with_irqShadow_getXYS (s : State) (v : Bool) (r : XYS) :
    ({ s with irqShadow := v } : State).getXYS r = s.getXYS r := by cases r <;> rfl
@[simp] theorem with_irqShadow_load (s : State) (v : Bool) (a : Addr) (sz : Size) :
    ({ s with irqShadow := v } : State).load a sz = s.load a sz := rfl

/-! ## `load` sees memory, the map and the number of the access alone -/

/-- A load in a state with the same memory, map and count of accesses. -/
theorem load_congr {s t : State} (hm : t.mem = s.mem) (hp : t.map = s.map)
    (hn : t.freeCount + t.trace.length = s.freeCount + s.trace.length) (a : Addr) (sz : Size) :
    t.load a sz = s.load a sz := by
  have : t.readByte = s.readByte := by
    funext b
    simp [State.readByte, hm, hp, hn]
  rw [State.load, this]
  rfl

@[simp] theorem setD_load (s : State) (r : DReg) (v : BitVec r.bits) (a : Addr) (sz : Size) :
    (s.setD r v).load a sz = s.load a sz := by cases r <;> rfl
@[simp] theorem setXY_load (s : State) (r : XY) (v : Addr) (a : Addr) (sz : Size) :
    (s.setXY r v).load a sz = s.load a sz := by cases r <;> rfl
@[simp] theorem begun_load (s : State) (a : Addr) (sz : Size) : s.begun.load a sz = s.load a sz :=
  load_congr rfl rfl rfl a sz
@[simp] theorem begun_fetchBytes (s : State) : s.begun.fetchBytes = s.fetchBytes := by
  have : s.begun.readByte = s.readByte := by
    funext b
    simp [State.readByte]
  rw [State.fetchBytes, this]
  rfl

/-! ## The ends of a meaning -/

theorem advance_eq (s : State) (i : Instr) : s.advance i = .next { s with pc := s.pcNext i } := rfl
theorem goto_eq (s : State) (a : Addr) : s.goto a = .next { s with pc := a } := rfl
@[simp] theorem pcNext_pc (s : State) (i : Instr) : s.pcNext i = s.pc + BitVec.ofNat 24 i.length := rfl

end Sys2Proof.Machine
end

