-- ==== Sys2Proof/Laws/Ops.lean ====
section
/-! SUPPORT. What the shared operations over memory, stack and operands can do, said once. -/

namespace Sys2Proof.Machine

/-! ## Addresses and sizes -/

theorem Size.bytes_pos (sz : Size) : 1 ≤ sz.bytes := by cases sz <;> decide
theorem Size.bytes_le_four (sz : Size) : sz.bytes ≤ 4 := by cases sz <;> decide
theorem Size.pow_bytes (sz : Size) : 256 ^ sz.bytes = 2 ^ sz.bits := by cases sz <;> rfl

/-- The address `k` on is that far away. -/
theorem addr_add_sub (a : Addr) (k : Nat) (hk : k < 2 ^ 24) : (a + BitVec.ofNat 24 k - a).toNat = k := by
  have := a.isLt
  simp
  omega

/-- Every address is some distance on. -/
theorem addr_eq_add (a b : Addr) : b = a + BitVec.ofNat 24 (b - a).toNat := by
  apply BitVec.eq_of_toNat_eq
  have := a.isLt
  have := b.isLt
  simp [BitVec.toNat_add]
  omega

theorem addr_add_ofNat (a : Addr) (x y : Nat) :
    a + BitVec.ofNat 24 x + BitVec.ofNat 24 y = a + BitVec.ofNat 24 (x + y) := by
  rw [BitVec.add_assoc, BitVec.ofNat_add]

/-! ## Loads -/

/-- Byte `k` of a load is what stands behind its address (R54). -/
theorem byteOf_loadFrom (rd : Nat → Byte) (a : Addr) (sz : Size) (k : Nat) (hk : k < sz.bytes) :
    byteOf sz.bytes (loadFrom rd a sz).toNat k = (rd (a + BitVec.ofNat 24 k).toNat).toNat := by
  have h := beBytes_beVal (bytesFrom rd a sz.bytes)
  rw [bytesFrom_length] at h
  rw [byteOf, ← beBytes_getElem _ _ _ hk]
  simp only [loadFrom_toNat, h, bytesFrom_getElem]

/-- A number of `n` bytes is told by its bytes. -/
theorem eq_of_byteOf {sz : Size} {v w : BitVec sz.bits}
    (h : ∀ k < sz.bytes, byteOf sz.bytes v.toNat k = byteOf sz.bytes w.toNat k) : v = w := by
  apply BitVec.eq_of_toNat_eq
  have e : beBytes sz.bytes v.toNat = beBytes sz.bytes w.toNat := by
    apply List.ext_getElem (by simp)
    intro k h1 h2
    rw [beBytes_length] at h1
    apply BitVec.eq_of_toNat_eq
    rw [beBytes_getElem _ _ _ h1, beBytes_getElem _ _ _ h1]
    exact h k h1
  have e2 := congrArg beVal e
  rwa [beVal_beBytes, beVal_beBytes, Size.pow_bytes, Nat.mod_eq_of_lt v.isLt, Nat.mod_eq_of_lt w.isLt] at e2

/-- A load gives what RAM and ROM hold (R54). -/
theorem load_reads (s : State) (a : Addr) (sz : Size) : s.Reads a sz.bytes (s.load a sz).toNat := by
  intro k hk hm
  rw [State.load, byteOf_loadFrom _ _ _ _ hk, State.readByte, if_pos hm]

theorem isMemory_of_isRam {map : MemMap} {a : Nat} (h : map.isRam a = true) : map.isMemory a = true := by
  unfold MemMap.isRam at h
  unfold MemMap.isMemory
  cases hc : map.classAt a <;> simp_all [AddrClass.takesWrites, AddrClass.keeps]

/-- What reads as two numbers is one, where all of it is memory. -/
theorem Reads.unique {s : State} {a : Addr} {sz : Size} {v w : BitVec sz.bits}
    (hm : ∀ k < sz.bytes, s.map.isMemory (a + BitVec.ofNat 24 k).toNat = true)
    (h : s.Reads a sz.bytes v.toNat) (g : s.Reads a sz.bytes w.toNat) : v = w :=
  eq_of_byteOf fun k hk => by rw [h k hk (hm k hk), g k hk (hm k hk)]

/-- `Reads` depends on map and memory alone. -/
theorem Reads.congr {s t : State} {a : Addr} {n v : Nat} (h : s.Reads a n v) (hm : t.mem = s.mem)
    (hp : t.map = s.map) : t.Reads a n v := by
  unfold State.Reads
  rw [hm, hp]
  exact h

/-- A load in any state with the same map and memory. -/
theorem load_reads_of {s t : State} (hm : t.mem = s.mem) (hp : t.map = s.map) (a : Addr) (sz : Size) :
    s.Reads a sz.bytes (t.load a sz).toNat := Reads.congr (load_reads t a sz) hm.symm hp.symm

/-! ## Stores -/

/-- The bytes of a store (R55, D6). -/
theorem Memory.read_store_inside (ok : Nat → Bool) (m : Memory) (a : Addr) (sz : Size) (v : BitVec sz.bits)
    (k : Nat) (hk : k < sz.bytes) :
    ((m.store ok a sz v).read (a + BitVec.ofNat 24 k).toNat).toNat =
      if ok (a + BitVec.ofNat 24 k).toNat then byteOf sz.bytes v.toNat k
      else (m.read (a + BitVec.ofNat 24 k).toNat).toNat := by
  have h4 := Size.bytes_le_four sz
  rw [Memory.store, Memory.read_writeBytes_inside ok m a _ (by rw [beBytes_length]; omega) k
    (by rw [beBytes_length]; exact hk)]
  split
  · exact beBytes_getElem _ _ _ hk
  · rfl

/-- A store leaves every byte outside its own. -/
theorem Memory.read_store_outside (ok : Nat → Bool) (m : Memory) (a : Addr) (sz : Size) (v : BitVec sz.bits)
    (b : Addr) (h : sz.bytes ≤ (b - a).toNat) : (m.store ok a sz v).read b.toNat = m.read b.toNat := by
  apply Memory.read_writeBytes_outside
  intro k hk he
  rw [beBytes_length] at hk
  have h4 := Size.bytes_le_four sz
  rw [he, addr_add_sub a k (by omega)] at h
  omega

/-- A store is what statements call one. -/
theorem store_stored (s : State) (a : Addr) (sz : Size) (v : BitVec sz.bits) :
    Stored s (s.store a sz v) a sz.bytes v.toNat where
  bytes k hk := Memory.read_store_inside _ _ _ _ _ k hk
  noted := by simp

/-- `StoredAs` looks at memory and map before, memory and trace after. -/
theorem StoredAs.congr {sup : Bool} {s s' t t' : State} {a : Addr} {n v : Nat} (h : StoredAs sup s t a n v)
    (hm : s'.mem = s.mem) (hp : s'.map = s.map) (hm' : t'.mem = t.mem)
    (ht : ∀ e ∈ t.trace, e ∈ t'.trace) : StoredAs sup s' t' a n v where
  bytes k hk := by
    rw [hm, hp, hm']
    exact h.bytes k hk
  noted := ht _ h.noted

/-- What is stored stays where its bytes are written no more. -/
theorem StoredAs.keep {sup : Bool} {s t t' : State} {a : Addr} {n v : Nat} (h : StoredAs sup s t a n v)
    (hm : ∀ k < n, t'.mem.read (a + BitVec.ofNat 24 k).toNat = t.mem.read (a + BitVec.ofNat 24 k).toNat)
    (ht : ∀ e ∈ t.trace, e ∈ t'.trace) : StoredAs sup s t' a n v where
  bytes k hk := by
    rw [hm k hk]
    exact h.bytes k hk
  noted := ht _ h.noted

/-- A load of what was stored in RAM. -/
theorem StoredAs.load {sup : Bool} {s t : State} {a : Addr} {sz : Size} {v : BitVec sz.bits}
    (h : StoredAs sup s t a sz.bytes v.toNat) (hp : t.map = s.map) (hr : s.RamAt a sz.bytes) :
    t.load a sz = v := by
  refine eq_of_byteOf fun k hk => ?_
  have hram := hr k hk
  rw [load_reads t a sz k hk (by rw [hp]; exact isMemory_of_isRam hram), h.bytes k hk, if_pos hram]

/-! ## Decoding and reading a general operand moves an index register at most -/

section
variable (s : State) (o : Opr) (n : Nat)

@[simp] theorem oprMoved_pc : (s.oprMoved o n).pc = s.pc := by
  unfold State.oprMoved
  split <;> simp [State.autoMoved]
@[simp] theorem oprMoved_ccr : (s.oprMoved o n).ccr = s.ccr := by
  unfold State.oprMoved
  split <;> simp [State.autoMoved]
@[simp] theorem oprMoved_mem : (s.oprMoved o n).mem = s.mem := by
  unfold State.oprMoved
  split <;> simp [State.autoMoved]
@[simp] theorem oprMoved_runState : (s.oprMoved o n).runState = s.runState := by
  unfold State.oprMoved
  split <;> simp [State.autoMoved]
@[simp] theorem oprMoved_irqShadow : (s.oprMoved o n).irqShadow = s.irqShadow := by
  unfold State.oprMoved
  split <;> simp [State.autoMoved]
@[simp] theorem oprMoved_map : (s.oprMoved o n).map = s.map := by
  unfold State.oprMoved
  split <;> simp [State.autoMoved]
@[simp] theorem oprMoved_vec : (s.oprMoved o n).vec = s.vec := by
  unfold State.oprMoved
  split <;> simp [State.autoMoved]
@[simp] theorem oprMoved_enbdm : (s.oprMoved o n).enbdm = s.enbdm := by
  unfold State.oprMoved
  split <;> simp [State.autoMoved]
@[simp] theorem oprMoved_inputs : (s.oprMoved o n).inputs = s.inputs := by
  unfold State.oprMoved
  split <;> simp [State.autoMoved]
@[simp] theorem oprMoved_taken : (s.oprMoved o n).taken = s.taken := by
  unfold State.oprMoved
  split <;> simp [State.autoMoved]
@[simp] theorem oprMoved_machineRequest : (s.oprMoved o n).machineRequest = s.machineRequest := by
  unfold State.oprMoved
  split <;> simp [State.autoMoved]
@[simp] theorem oprMoved_freeCount : (s.oprMoved o n).freeCount = s.freeCount := by
  unfold State.oprMoved
  split <;> simp [State.autoMoved]
@[simp] theorem oprMoved_getD (r : DReg) : (s.oprMoved o n).getD r = s.getD r := by
  unfold State.oprMoved
  split <;> simp [State.autoMoved]
@[simp] theorem oprMoved_input : (s.oprMoved o n).input = s.input := by simp [State.input]

end

section
variable (s : State) (l : Loc) (sz : Size)

@[simp] theorem locDone_pc : (s.locDone l sz).pc = s.pc := by cases l <;> rfl
@[simp] theorem locDone_ccr : (s.locDone l sz).ccr = s.ccr := by cases l <;> rfl
@[simp] theorem locDone_mem : (s.locDone l sz).mem = s.mem := by cases l <;> rfl
@[simp] theorem locDone_runState : (s.locDone l sz).runState = s.runState := by cases l <;> rfl
@[simp] theorem locDone_irqShadow : (s.locDone l sz).irqShadow = s.irqShadow := by cases l <;> rfl
@[simp] theorem locDone_map : (s.locDone l sz).map = s.map := by cases l <;> rfl
@[simp] theorem locDone_vec : (s.locDone l sz).vec = s.vec := by cases l <;> rfl
@[simp] theorem locDone_enbdm : (s.locDone l sz).enbdm = s.enbdm := by cases l <;> rfl
@[simp] theorem locDone_inputs : (s.locDone l sz).inputs = s.inputs := by cases l <;> rfl
@[simp] theorem locDone_taken : (s.locDone l sz).taken = s.taken := by cases l <;> rfl
@[simp] theorem locDone_machineRequest : (s.locDone l sz).machineRequest = s.machineRequest := by cases l <;> rfl
@[simp] theorem locDone_freeCount : (s.locDone l sz).freeCount = s.freeCount := by cases l <;> rfl
@[simp] theorem locDone_x : (s.locDone l sz).x = s.x := by cases l <;> rfl
@[simp] theorem locDone_y : (s.locDone l sz).y = s.y := by cases l <;> rfl
@[simp] theorem locDone_sp : (s.locDone l sz).sp = s.sp := by cases l <;> rfl
@[simp] theorem locDone_getD (r : DReg) : (s.locDone l sz).getD r = s.getD r := by cases l <;> simp [State.locDone]

end

section
variable (s : State) (o : Opr) (sz : Size)

@[simp] theorem oprDone_pc : (s.oprDone o sz).pc = s.pc := by simp [State.oprDone]
@[simp] theorem oprDone_ccr : (s.oprDone o sz).ccr = s.ccr := by simp [State.oprDone]
@[simp] theorem oprDone_mem : (s.oprDone o sz).mem = s.mem := by simp [State.oprDone]
@[simp] theorem oprDone_runState : (s.oprDone o sz).runState = s.runState := by simp [State.oprDone]
@[simp] theorem oprDone_irqShadow : (s.oprDone o sz).irqShadow = s.irqShadow := by simp [State.oprDone]
@[simp] theorem oprDone_map : (s.oprDone o sz).map = s.map := by simp [State.oprDone]
@[simp] theorem oprDone_vec : (s.oprDone o sz).vec = s.vec := by simp [State.oprDone]
@[simp] theorem oprDone_enbdm : (s.oprDone o sz).enbdm = s.enbdm := by simp [State.oprDone]
@[simp] theorem oprDone_inputs : (s.oprDone o sz).inputs = s.inputs := by simp [State.oprDone]
@[simp] theorem oprDone_taken : (s.oprDone o sz).taken = s.taken := by simp [State.oprDone]
@[simp] theorem oprDone_machineRequest : (s.oprDone o sz).machineRequest = s.machineRequest := by simp [State.oprDone]
@[simp] theorem oprDone_freeCount : (s.oprDone o sz).freeCount = s.freeCount := by simp [State.oprDone]
@[simp] theorem oprDone_x : (s.oprDone o sz).x = (s.oprMoved o sz.bytes).x := by simp [State.oprDone]
@[simp] theorem oprDone_y : (s.oprDone o sz).y = (s.oprMoved o sz.bytes).y := by simp [State.oprDone]
@[simp] theorem oprDone_sp : (s.oprDone o sz).sp = (s.oprMoved o sz.bytes).sp := by simp [State.oprDone]
@[simp] theorem oprDone_getD (r : DReg) : (s.oprDone o sz).getD r = s.getD r := by simp [State.oprDone]

end

section
variable (s : State) (d : DReg) (m : DSrc)

@[simp] theorem dMoved_pc : (s.dMoved d m).pc = s.pc := by cases m <;> simp [State.dMoved]
@[simp] theorem dMoved_ccr : (s.dMoved d m).ccr = s.ccr := by cases m <;> simp [State.dMoved]
@[simp] theorem dMoved_mem : (s.dMoved d m).mem = s.mem := by cases m <;> simp [State.dMoved]
@[simp] theorem dMoved_getD (r : DReg) : (s.dMoved d m).getD r = s.getD r := by
  cases m <;> simp [State.dMoved]

end

section
variable (s : State) (m : PSrc)

@[simp] theorem pMoved_pc : (s.pMoved m).pc = s.pc := by cases m <;> simp [State.pMoved]
@[simp] theorem pMoved_ccr : (s.pMoved m).ccr = s.ccr := by cases m <;> simp [State.pMoved]
@[simp] theorem pMoved_mem : (s.pMoved m).mem = s.mem := by cases m <;> simp [State.pMoved]
@[simp] theorem pMoved_getD (r : DReg) : (s.pMoved m).getD r = s.getD r := by
  cases m <;> simp [State.pMoved]

end

end Sys2Proof.Machine
end

