-- ==== Sys2Proof/Laws/Frame.lean ====
section
/-! SUPPORT. How the frames of statements follow from the way meanings build their next state. -/

namespace Sys2Proof.Machine

/-- `p` differs from `s` in X, Y, SP and the model's counter at most: what decoding an operand leaves. -/
structure Decoded (s p : State) : Prop where
  data : ∀ r, p.getD r = s.getD r
  pc : p.pc = s.pc
  ccr : p.ccr = s.ccr
  mem : p.mem = s.mem
  machine : MachineSame s p

theorem MachineSame.refl (s : State) : MachineSame s s := ⟨rfl, rfl, rfl, rfl, rfl, rfl, rfl, rfl⟩

theorem MachineSame.trans {s p t : State} (h : MachineSame s p) (k : MachineSame p t) : MachineSame s t :=
  ⟨k.1.trans h.1, k.2.trans h.2, k.3.trans h.3, k.4.trans h.4, k.5.trans h.5, k.6.trans h.6, k.7.trans h.7,
   k.8.trans h.8⟩

theorem Decoded.refl (s : State) : Decoded s s := ⟨fun _ => rfl, rfl, rfl, rfl, .refl s⟩

theorem Decoded.trans {s p q : State} (h : Decoded s p) (k : Decoded p q) : Decoded s q where
  data r := (k.data r).trans (h.data r)
  pc := k.pc.trans h.pc
  ccr := k.ccr.trans h.ccr
  mem := k.mem.trans h.mem
  machine := h.machine.trans k.machine

theorem decoded_oprMoved (s : State) (o : Opr) (n : Nat) : Decoded s (s.oprMoved o n) where
  data r := by simp
  pc := by simp
  ccr := by simp
  mem := by simp
  machine := ⟨by simp, by simp, by simp, by simp, by simp, by simp, by simp, by simp⟩

theorem decoded_oprDone (s : State) (o : Opr) (sz : Size) : Decoded s (s.oprDone o sz) where
  data r := by simp
  pc := by simp
  ccr := by simp
  mem := by simp
  machine := ⟨by simp, by simp, by simp, by simp, by simp, by simp, by simp, by simp⟩

theorem decoded_loaded (s : State) (a : Addr) (sz : Size) : Decoded s (s.loaded a sz) where
  data r := by simp
  pc := rfl
  ccr := rfl
  mem := rfl
  machine := ⟨rfl, rfl, rfl, rfl, rfl, rfl, rfl, rfl⟩

theorem decoded_dMoved (s : State) (d : DReg) (m : DSrc) : Decoded s (s.dMoved d m) := by
  cases m
  · exact .refl s
  · exact decoded_oprDone _ _ _

theorem decoded_pMoved (s : State) (m : PSrc) : Decoded s (s.pMoved m) := by
  cases m
  · exact .refl s
  · exact decoded_oprDone _ _ _

theorem decoded_countMoved (s : State) (n : ShiftBy) : Decoded s (s.countMoved n) := by
  cases n
  · exact .refl s
  · exact decoded_oprDone _ _ _

theorem decoded_bmMoved (s : State) (m : BmArg) : Decoded s (s.bmMoved m) := by
  cases m
  · exact .refl s
  · exact decoded_oprDone _ _ _
  · exact decoded_oprDone _ _ _

/-- A frame sees X, Y and SP of the state it names. -/
theorem Frame.index_congr {s p q t : State} {l : List DReg} {a : Addr} {n : Nat} (h : Frame s p t l a n)
    (hx : q.x = p.x) (hy : q.y = p.y) (hs : q.sp = p.sp) : Frame s q t l a n :=
  ⟨h.data, ⟨h.index.1.trans hx.symm, h.index.2.1.trans hy.symm, h.index.2.2.trans hs.symm⟩, h.system, h.machine,
   h.bytes⟩

theorem Frame.of_oprDone {s t : State} {o : Opr} {sz : Size} {l : List DReg} {a : Addr} {n : Nat}
    (h : Frame s (s.oprDone o sz) t l a n) : Frame s (s.oprMoved o sz.bytes) t l a n :=
  h.index_congr (by simp) (by simp) (by simp)

theorem BytesSame.of_mem {s t : State} (h : t.mem = s.mem) (a : Addr) (n : Nat) : BytesSame s t a n := by
  intro b _
  rw [h]

theorem Ccr.SystemSame.refl (c : Ccr) : c.SystemSame c := ⟨rfl, rfl, rfl, rfl, rfl⟩
theorem Ccr.FlagsSame.refl (c : Ccr) : c.FlagsSame c := ⟨rfl, rfl, rfl, rfl⟩

/-- A result in a data register. -/
theorem frame_setD {s p : State} (h : Decoded s p) (d : DReg) (v : BitVec d.bits) (c' : Ccr) (a : Addr)
    (hs : s.ccr.SystemSame c') :
    RegFrame s p { p.setD d v with ccr := c', pc := a } [d] where
  data r hr := by
    have hr' : r ≠ d := by simpa using hr
    have := getD_setD_ne p d r v hr'
    have e : ({ p.setD d v with ccr := c', pc := a } : State).getD r = (p.setD d v).getD r := by
      cases r <;> rfl
    rw [e, this, h.data]
  index := ⟨by simp, by simp, by simp⟩
  system := hs
  machine := h.machine.trans ⟨by simp, by simp, by simp, by simp, by simp, by simp, by simp, by simp⟩
  bytes := .of_mem (by simp [h.mem]) _ _

/-- Flags alone. -/
theorem frame_flags {s p : State} (h : Decoded s p) (c' : Ccr) (a : Addr) (hs : s.ccr.SystemSame c') :
    RegFrame s p { p with ccr := c', pc := a } [] where
  data r _ := by
    have e : ({ p with ccr := c', pc := a } : State).getD r = p.getD r := by cases r <;> rfl
    rw [e, h.data]
  index := ⟨rfl, rfl, rfl⟩
  system := hs
  machine := h.machine.trans ⟨rfl, rfl, rfl, rfl, rfl, rfl, rfl, rfl⟩
  bytes := .of_mem h.mem _ _

/-- A result in memory. -/
theorem frame_store {s p : State} (h : Decoded s p) (ea : Addr) (sz : Size) (v : BitVec sz.bits) (c' : Ccr)
    (a : Addr) (hs : s.ccr.SystemSame c') :
    Frame s p { p.store ea sz v with ccr := c', pc := a } [] ea sz.bytes where
  data r _ := by
    have e : ({ p.store ea sz v with ccr := c', pc := a } : State).getD r = p.getD r := by
      cases r <;> rfl
    rw [e, h.data]
  index := ⟨rfl, rfl, rfl⟩
  system := hs
  machine := h.machine.trans ⟨rfl, rfl, rfl, rfl, rfl, rfl, rfl, rfl⟩
  bytes b hb := by
    show (p.mem.store p.map.isRam ea sz v).read b.toNat = _
    rw [Memory.read_store_outside _ _ _ _ _ _ hb, h.mem]

/-- What a result in memory stores. -/
theorem Decoded.stored {s p : State} (h : Decoded s p) (ea : Addr) (sz : Size) (v : BitVec sz.bits) (c' : Ccr)
    (a : Addr) : Stored s { p.store ea sz v with ccr := c', pc := a } ea sz.bytes v.toNat := by
  have := (store_stored p ea sz v).congr h.mem.symm h.machine.map.symm
    (t' := { p.store ea sz v with ccr := c', pc := a }) rfl fun _ => id
  rwa [h.ccr] at this

@[simp] theorem getD_with_ccr_pc (p : State) (c' : Ccr) (a : Addr) (r : DReg) :
    ({ p with ccr := c', pc := a } : State).getD r = p.getD r := by cases r <;> rfl

/-! ## Completed instructions -/

/-- An instruction that ends with a value in a data register and a CCR. -/
theorem setD_runs {s p : State} (h : Decoded s p) (d : DReg) (v : BitVec d.bits) (c' : Ccr) (i : Instr)
    (hi : exec i s = State.advance { p.setD d v with ccr := c' } i) (hs : s.ccr.SystemSame c')
    (post : State → Prop) (hpost : ∀ t, t.getD d = v → t.ccr = c' → RegFrame s p t [d] → post t) :
    Runs i s post := by
  refine ⟨_, hi, ?_, hpost _ ?_ rfl (frame_setD h d v c' _ hs)⟩
  · simp [State.pcNext, Instr.length, h.pc]
  · exact (getD_with_ccr_pc (p.setD d v) c' _ d).trans (by simp)

/-- An instruction that ends with a CCR alone. -/
theorem flags_runs {s p : State} (h : Decoded s p) (c' : Ccr) (i : Instr)
    (hi : exec i s = State.advance { p with ccr := c' } i) (hs : s.ccr.SystemSame c')
    (post : State → Prop) (hpost : ∀ t, t.ccr = c' → RegFrame s p t [] → post t) :
    Runs i s post :=
  ⟨_, hi, by simp [State.pcNext, Instr.length, h.pc], hpost _ rfl (frame_flags h c' _ hs)⟩

/-- An instruction that ends with a value in memory and a CCR. -/
theorem store_runs {s p : State} (h : Decoded s p) (ea : Addr) (sz : Size) (v : BitVec sz.bits) (c' : Ccr)
    (i : Instr) (hi : exec i s = State.advance { p.store ea sz v with ccr := c' } i)
    (hs : s.ccr.SystemSame c') (post : State → Prop)
    (hpost : ∀ t, Stored s t ea sz.bytes v.toNat → t.ccr = c' → Frame s p t [] ea sz.bytes → post t) :
    Runs i s post :=
  ⟨_, hi, by simp [State.pcNext, Instr.length, h.pc],
    hpost _ (h.stored ea sz v c' _) rfl (frame_store h ea sz v c' _ hs)⟩

/-! ## The shared forms -/

/-- An instruction that changes an operand in its place is what its operation does to the value and the CCR. -/
theorem modify_runs (reads : Bool) (o : Opr) (sz : Size) (f : {w : Nat} → BitVec w → Ccr → BitVec w × Ccr)
    (i : Instr) (s : State) (hi : exec i s = modify reads o sz f i s)
    (post : ∀ {w : Nat}, BitVec w → BitVec w → Ccr → Ccr → Prop)
    (hs : ∀ {w : Nat} (a : BitVec w), s.ccr.SystemSame (f a s.ccr).2)
    (hpost : ∀ {w : Nat} (a : BitVec w), w = 8 ∨ w = 16 ∨ w = 24 ∨ w = 32 → post a (f a s.ccr).1 s.ccr (f a s.ccr).2) :
    RmwRuns i o sz s post := by
  have hd := decoded_oprMoved s o sz.bytes
  unfold RmwRuns
  unfold modify at hi
  cases hl : s.oprLoc o sz.bytes with
  | imm e => rw [hl] at hi; exact hi
  | reg r =>
    simp only [hl] at hi
    refine ⟨_, hi, ?_, ?_, ?_⟩
    · simp [State.pcNext, Instr.length]
    · simp only [getD_with_ccr_pc, getD_setD_same, hd.data, hd.ccr]
      exact hpost _ (by cases r <;> simp [DReg.bits])
    · exact frame_setD hd r _ _ _ (by rw [hd.ccr]; exact hs _)
  | mem ea =>
    simp only [hl] at hi
    have hu : Decoded s (if reads then (s.oprMoved o sz.bytes).loaded ea sz else s.oprMoved o sz.bytes) := by
      cases reads
      · exact hd
      · exact hd.trans (decoded_loaded _ _ _)
    have hx : IndexAs (s.oprMoved o sz.bytes)
        (if reads then (s.oprMoved o sz.bytes).loaded ea sz else s.oprMoved o sz.bytes) := by
      cases reads <;> exact ⟨rfl, rfl, rfl⟩
    refine store_runs hu ea sz _ _ i hi ?_ _ fun t h1 h2 h3 => ⟨_, ?_, h1, ?_⟩
    · rw [hd.ccr]
      exact hs _
    · rw [h2, hd.ccr]
      exact hpost _ (by cases sz <;> simp [Size.bits])
    · exact h3.index_congr hx.1.symm hx.2.1.symm hx.2.2.symm

/-- A read-modify-write instruction. -/
theorem rmw_runs (o : Opr) (sz : Size) (f : {w : Nat} → BitVec w → Ccr → BitVec w × Ccr) (i : Instr)
    (s : State) (hi : exec i s = rmw o sz f i s)
    (post : ∀ {w : Nat}, BitVec w → BitVec w → Ccr → Ccr → Prop)
    (hs : ∀ {w : Nat} (a : BitVec w), s.ccr.SystemSame (f a s.ccr).2)
    (hpost : ∀ {w : Nat} (a : BitVec w), w = 8 ∨ w = 16 ∨ w = 24 ∨ w = 32 → post a (f a s.ccr).1 s.ccr (f a s.ccr).2) :
    RmwRuns i o sz s post := modify_runs true o sz f i s hi post hs hpost

/-- A register instruction that keeps its result. -/
theorem aluD_runs (d : DReg) (m : DSrc) (f : BitVec d.bits → BitVec d.bits → Ccr → BitVec d.bits × Ccr)
    (i : Instr) (s : State) (hi : exec i s = aluD d m f i s)
    (hs : ∀ a b, s.ccr.SystemSame (f a b s.ccr).2) (post : State → Prop)
    (hpost : ∀ t, t.getD d = (f (s.getD d) (s.dValue d m) s.ccr).1 →
      t.ccr = (f (s.getD d) (s.dValue d m) s.ccr).2 → RegFrame s (s.dMoved d m) t [d] → post t) :
    Runs i s post := by
  have hd := decoded_dMoved s d m
  refine ⟨_, hi, ?_, hpost _ ?_ ?_ ?_⟩
  · simp [State.pcNext, Instr.length]
  · exact (getD_with_ccr_pc ((s.dMoved d m).setD d _) _ _ _).trans (by simp)
  · simp
  · exact frame_setD hd d _ _ _ (by rw [hd.ccr]; exact hs _ _)

/-- A register instruction that keeps its flags alone. -/
theorem testD_runs (d : DReg) (m : DSrc) (f : BitVec d.bits → BitVec d.bits → Ccr → BitVec d.bits × Ccr)
    (i : Instr) (s : State) (hi : exec i s = testD d m f i s)
    (hs : ∀ a b, s.ccr.SystemSame (f a b s.ccr).2) (post : State → Prop)
    (hpost : ∀ t, t.ccr = (f (s.getD d) (s.dValue d m) s.ccr).2 →
      RegFrame s (s.dMoved d m) t [] → post t) :
    Runs i s post := by
  have hd := decoded_dMoved s d m
  refine ⟨_, hi, ?_, hpost _ ?_ ?_⟩
  · simp [State.pcNext, Instr.length]
  · simp
  · exact frame_flags hd _ _ (by rw [hd.ccr]; exact hs _ _)

/-- A one-register instruction. -/
theorem unaryD_runs (d : DReg) (f : BitVec d.bits → Ccr → BitVec d.bits × Ccr) (i : Instr) (s : State)
    (hi : exec i s = unaryD d f i s) (hs : ∀ a, s.ccr.SystemSame (f a s.ccr).2) (post : State → Prop)
    (hpost : ∀ t, t.getD d = (f (s.getD d) s.ccr).1 → t.ccr = (f (s.getD d) s.ccr).2 →
      RegFrame s s t [d] → post t) :
    Runs i s post := by
  refine ⟨_, hi, ?_, hpost _ ?_ ?_ ?_⟩
  · simp [State.pcNext, Instr.length]
  · exact (getD_with_ccr_pc (s.setD d _) _ _ _).trans (by simp)
  · rfl
  · exact frame_setD (.refl s) d _ _ _ (hs _)

/-- What the trace says is outside every frame. -/
theorem Frame.traced {s p t : State} {ds : List DReg} {a : Addr} {n : Nat} (h : Frame s p t ds a n)
    (tr : List Effect) : Frame s p { t with trace := tr } ds a n :=
  ⟨fun r hr => by have := h.data r hr; cases r <;> exact this, h.index, h.system,
    ⟨h.machine.runState, h.machine.irqShadow, h.machine.vec, h.machine.enbdm, h.machine.inputs, h.machine.taken,
      h.machine.map, h.machine.machineRequest⟩, h.bytes⟩

end Sys2Proof.Machine
end

