-- ==== Sys2Proof/Laws/Math.lean ====
section
/-! SUPPORT. What the operations of the `mb` instructions, ABS, SAT and CLB compute, one lemma each. -/

namespace Sys2Proof.Machine

theorem toNat_ofInt_emod (w : Nat) (x : Int) : ((BitVec.ofInt w x).toNat : Int) = x % 2 ^ w := by
  rw [BitVec.toNat_ofInt, Int.toNat_of_nonneg (Int.emod_nonneg _ (by positivity)), ipow_eq]

theorem fits_iff (signed : Bool) (w : Nat) (x : Int) : fits signed w x = true ↔ ¬RangeOut signed w x := by
  cases signed <;> simp [fits, RangeOut, SignedOut, UnsignedOut]

theorem not_fits_iff (signed : Bool) (w : Nat) (x : Int) :
    (!fits signed w x) = true ↔ RangeOut signed w x := by
  have := fits_iff signed w x
  cases h : fits signed w x <;> simp [h] at this ⊢ <;> exact this

/-- A value in signed range is the reading of its low bits. -/
theorem toInt_ofInt_of_fits {w : Nat} (hw : 0 < w) (x : Int) (h : ¬SignedOut w x) :
    (BitVec.ofInt w x).toInt = x := by
  have h2 := ipow_split hw
  simp only [SignedOut, not_or, not_lt, not_le] at h
  rw [BitVec.toInt_ofInt]
  have hp := ipow_eq w
  rw [Int.bmod_def]
  have hpos : (0 : Int) < 2 ^ (w - 1) := by positivity
  rw [← hp]
  rcases lt_or_ge x 0 with h0 | h0
  · rw [← Int.add_emod_right, Int.emod_eq_of_lt (by omega) (by omega)]
    split <;> omega
  · rw [Int.emod_eq_of_lt (by omega) (by omega)]
    split <;> omega

/-- MULS, MULU. -/
theorem mulOp_product (signed : Bool) {wd : Nat} (a b : Int) (c : Ccr) :
    let rc := mulOp signed (wd := wd) a b c
    (rc.1.toNat : Int) = a * b % 2 ^ wd ∧ NZOf rc.1 rc.2 ∧
    (rc.2.v = true ↔ RangeOut signed wd (a * b)) ∧ rc.2.c = false :=
  ⟨toNat_ofInt_emod wd _, ⟨rfl, beq_zero_iff _⟩, not_fits_iff signed wd _, rfl⟩

/-- MACS, MACU. -/
theorem macOp_sum (signed : Bool) {wd : Nat} (hw : 0 < wd) (acc : BitVec wd) (a b : Int) (c : Ccr) :
    let rc := macOp signed acc a b c
    (rc.1.toNat : Int) = (acc.toNat + a * b) % 2 ^ wd ∧ NZOf rc.1 rc.2 ∧
    (rc.2.c = true ↔ (2 : Int) ^ wd ≤ acc.toNat + a * b % 2 ^ wd) ∧
    (rc.2.v = true ↔ RangeOut signed wd (a * b) ∨
      (if signed then SignedOut wd (acc.toInt + a * b) else rc.2.c = true)) := by
  obtain ⟨⟨h1, h2, h3, h4⟩, h5⟩ := addFlags_sum hw acc (BitVec.ofInt wd (a * b)) false c
  have hp := toNat_ofInt_emod wd (a * b)
  have hpw := ipow_eq wd
  refine ⟨?_, ⟨h2, ?_⟩, ?_, ?_⟩
  · show ((addFlags acc _ false c).1.toNat : Int) = _
    rw [h1]
    push_cast
    rw [hp]
    simp
  · show (addFlags acc _ false c).2.z = true ↔ _
    rw [h5]
    exact beq_zero_iff _
  · show (addFlags acc _ false c).2.c = true ↔ _
    rw [h4, ← hp, hpw]
    simp
    omega
  · have hv : (macOp signed acc a b c).2.v =
        ((if signed then (addFlags acc (BitVec.ofInt wd (a * b)) false c).2.v
          else (addFlags acc (BitVec.ofInt wd (a * b)) false c).2.c) || !fits signed wd (a * b)) := rfl
    have hc : (macOp signed acc a b c).2.c = (addFlags acc (BitVec.ofInt wd (a * b)) false c).2.c := rfl
    rw [hv, hc]
    rw [Bool.or_eq_true, not_fits_iff]
    cases signed
    · simp [or_comm]
    · simp only [if_true, h3]
      by_cases hr : RangeOut true wd (a * b)
      · simp [hr]
      · have hs : ¬SignedOut wd (a * b) := by simpa [RangeOut] using hr
        rw [toInt_ofInt_of_fits hw _ hs]
        simp [hr]

/-- QMULS, QMULU. -/
theorem qmulOp_fraction (signed : Bool) {wd : Nat} (hw : 0 < wd) (a : Int) (wa : Nat) (b : Int) (wb : Nat)
    (c : Ccr) :
    let rc := qmulOp signed (wd := wd) a wa b wb c
    let l := max wa wb
    let a' := a * 2 ^ (l - wa)
    let b' := b * 2 ^ (l - wb)
    let least := -(2 : Int) ^ (l - 1)
    (if signed = true ∧ a' = least ∧ b' = least then
      rc.1.toInt = (2 : Int) ^ (wd - 1) - 1 ∧ rc.2.v = true
     else (rc.1.toNat : Int) =
        (if signed then a' * b' * 2 ^ (wd - 1) / 2 ^ (2 * l - 2) else a' * b' * 2 ^ wd / 2 ^ (2 * l))
          % 2 ^ wd ∧ rc.2.v = false) ∧
    NZOf rc.1 rc.2 ∧ rc.2.c = false := by
  intro rc l a' b' least
  refine ⟨?_, ⟨rfl, beq_zero_iff _⟩, rfl⟩
  have hrc : rc = qmulOp signed (wd := wd) a wa b wb c := rfl
  split
  · rename_i h
    obtain ⟨rfl, h1, h2⟩ := h
    have hs : (true && decide (a' = least) && decide (b' = least)) = true := by simp [h1, h2]
    constructor
    · have : rc.1 = BitVec.ofNat wd (2 ^ (wd - 1) - 1) := by
        rw [hrc]; simp only [qmulOp]; exact if_pos hs
      rw [this]
      have hp := pow_split hw
      have hpos : 0 < 2 ^ (wd - 1) := Nat.two_pow_pos _
      have hi := ipow_eq (wd - 1)
      have hn : (BitVec.ofNat wd (2 ^ (wd - 1) - 1)).toNat = 2 ^ (wd - 1) - 1 := by
        rw [BitVec.toNat_ofNat, Nat.mod_eq_of_lt (by omega)]
      rcases toInt_cases (BitVec.ofNat wd (2 ^ (wd - 1) - 1)) with ⟨k1, k3, k5⟩ | ⟨k1, k3, k5⟩ <;> rw [k3] <;> omega
    · exact hs
  · rename_i h
    have hs : (signed && decide (a' = least) && decide (b' = least)) = false := by
      rw [Bool.eq_false_iff]
      intro hh
      apply h
      simpa [and_assoc] using hh
    constructor
    · have : rc.1 = if signed then BitVec.ofInt wd (a' * b' * 2 ^ (wd - 1) / 2 ^ (2 * l - 2))
          else BitVec.ofInt wd (a' * b' * 2 ^ wd / 2 ^ (2 * l)) := by
        rw [hrc]; simp only [qmulOp]
        exact if_neg (by rw [Bool.eq_false_iff] at hs; exact hs)
      rw [this]
      cases signed <;> simp only [Bool.false_eq_true, if_true, if_false, toNat_ofInt_emod]
    · exact hs

/-- ABS. -/
theorem absOp_absolute {w : Nat} (hw : 0 < w) (a : BitVec w) (c : Ccr) :
    let rc := absOp a c
    let most := a.toInt = -(2 : Int) ^ (w - 1)
    (most → rc.1 = a) ∧ (¬most → rc.1.toInt = |a.toInt|) ∧ NZOf rc.1 rc.2 ∧ (rc.2.v = true ↔ most) ∧
    rc.2.c = c.c := by
  intro rc most
  have hrc : rc.1 = if decide (a.toNat = 2 ^ (w - 1)) then a else if a.msb then -a else a := rfl
  have h2 := pow_split hw
  have hp := ipow_eq (w - 1)
  have hpw := ipow_eq w
  have ha := a.isLt
  have hm : most ↔ a.toNat = 2 ^ (w - 1) := by
    rcases toInt_cases a with ⟨h1, h3, h5⟩ | ⟨h1, h3, h5⟩ <;> simp only [most, h3] <;> omega
  refine ⟨?_, ?_, ⟨rfl, beq_zero_iff _⟩, ?_, rfl⟩
  · intro h
    rw [hrc]
    simp [hm.mp h]
  · intro h
    have hn : ¬a.toNat = 2 ^ (w - 1) := fun e => h (hm.mpr e)
    rw [hrc]
    simp only [hn, decide_false, Bool.false_eq_true, if_false]
    rcases toInt_cases a with ⟨h1, h3, h5⟩ | ⟨h1, h3, h5⟩
    · simp only [h1, Bool.false_eq_true, if_false]
      rw [abs_of_nonneg (by omega)]
    · simp only [h1, if_true]
      rw [abs_of_neg (by omega)]
      have hneg : (-a).toNat = 2 ^ w - a.toNat := by
        rw [BitVec.toNat_neg, Nat.mod_eq_of_lt (by omega)]
      rcases toInt_cases (-a) with ⟨k1, k3, k5⟩ | ⟨k1, k3, k5⟩ <;> rw [k3, h3] <;> omega
  · rw [hm]
    exact decide_eq_true_iff

/-- SAT. -/
theorem satOp_saturated {w : Nat} (hw : 0 < w) (a : BitVec w) (c : Ccr) :
    let rc := satOp a c
    rc.1.toInt = (if c.v then (if c.n then (2 : Int) ^ (w - 1) - 1 else -(2 : Int) ^ (w - 1)) else a.toInt) ∧
    LoadFlagsOf rc.1 c rc.2 := by
  intro rc
  refine ⟨?_, ⟨rfl, beq_zero_iff _⟩, rfl, rfl⟩
  have hp := pow_split hw
  have hpos : 0 < 2 ^ (w - 1) := Nat.two_pow_pos _
  have hi := ipow_eq (w - 1)
  have hiw := ipow_eq w
  have hrc : rc.1 = if c.v then (if c.n then BitVec.ofNat w (2 ^ (w - 1) - 1) else BitVec.ofNat w (2 ^ (w - 1)))
    else a := rfl
  rw [hrc]
  cases c.v
  · simp
  · cases c.n
    · simp only [if_true, Bool.false_eq_true, if_false]
      have hn : (BitVec.ofNat w (2 ^ (w - 1))).toNat = 2 ^ (w - 1) := by
        rw [BitVec.toNat_ofNat, Nat.mod_eq_of_lt (by omega)]
      rcases toInt_cases (BitVec.ofNat w (2 ^ (w - 1))) with ⟨k1, k3, k5⟩ | ⟨k1, k3, k5⟩ <;> rw [k3] <;> omega
    · simp only [if_true]
      have hn : (BitVec.ofNat w (2 ^ (w - 1) - 1)).toNat = 2 ^ (w - 1) - 1 := by
        rw [BitVec.toNat_ofNat, Nat.mod_eq_of_lt (by omega)]
      rcases toInt_cases (BitVec.ofNat w (2 ^ (w - 1) - 1)) with ⟨k1, k3, k5⟩ | ⟨k1, k3, k5⟩ <;> rw [k3] <;> omega

/-- The element where a `takeWhile` stops. -/
theorem takeWhile_stop {α : Type} (p : α → Bool) (l : List α) (h : (l.takeWhile p).length < l.length) :
    p l[(l.takeWhile p).length] = false := by
  induction l with
  | nil => simp at h
  | cons x xs ih =>
    by_cases hx : p x = true
    · simp only [List.takeWhile_cons_of_pos hx, List.length_cons, List.getElem_cons_succ]
      exact ih (by simpa [List.takeWhile_cons_of_pos hx] using h)
    · simp only [List.takeWhile_cons_of_neg hx, List.length_nil, List.getElem_cons_zero]
      simpa using hx

/-- CLB: the leading bits that equal the first, less one. -/
theorem countLeading_spec {w : Nat} (hw : 0 < w) (a : BitVec w) :
    countLeading a < w ∧ (∀ j ≤ countLeading a, a.getMsbD j = a.msb) ∧
    (countLeading a + 1 < w → a.getMsbD (countLeading a + 1) ≠ a.msb) := by
  have hlen : (bitsMsb a).length = w := by simp [bitsMsb]
  have hget : ∀ j (h : j < (bitsMsb a).length), (bitsMsb a)[j] = a.getMsbD j := by
    intro j h
    simp [bitsMsb]
  have h0 : a.getMsbD 0 = a.msb := rfl
  unfold countLeading
  generalize hL : bitsMsb a = L at *
  cases L with
  | nil => simp at hlen; omega
  | cons b bs =>
    have hb : b = a.msb := by have := hget 0 (by simp); simpa [h0] using this
    simp only [leadingRun]
    have hk : 1 + (bs.takeWhile (· == b)).length - 1 = (bs.takeWhile (· == b)).length := by omega
    rw [hk]
    have hle : (bs.takeWhile (· == b)).length ≤ bs.length := (List.takeWhile_prefix _).length_le
    refine ⟨by simp at hlen; omega, ?_, ?_⟩
    · intro j hj
      cases j with
      | zero => exact h0
      | succ j =>
        have hj' : j < (bs.takeWhile (· == b)).length := by omega
        have e := hget (j + 1) (by simp; omega)
        rw [List.getElem_cons_succ] at e
        have e2 : (bs.takeWhile (· == b))[j] = bs[j] := (List.takeWhile_prefix _).getElem hj'
        have e3 := List.mem_takeWhile_imp (List.getElem_mem hj')
        rw [← e, ← e2, ← hb]
        simpa using e3
    · intro hlt
      have hj : (bs.takeWhile (· == b)).length < bs.length := by simp at hlen; omega
      have e := hget ((bs.takeWhile (· == b)).length + 1) (by simp; omega)
      rw [List.getElem_cons_succ] at e
      rw [← e, ← hb]
      have := takeWhile_stop (· == b) bs hj
      simpa using this

end Sys2Proof.Machine
end

