-- ==== Sys2Proof/Laws/Shift.lean ====
section
/-! SUPPORT. What the four shifts compute, bit by bit and as exact integers. -/

namespace Sys2Proof.Machine

/-- One more position, taken last. -/
theorem ShiftKind.times_succ (k : ShiftKind) {w : Nat} (n : Nat) (t : ShiftStep w) :
    k.times (n + 1) t = k.once (k.times n t) := by
  induction n generalizing t with
  | zero => rfl
  | succ n ih => rw [ShiftKind.times, ih]; rfl

theorem toInt_ofInt_iff {w : Nat} (hw : 0 < w) (y : Int) :
    (BitVec.ofInt w y).toInt = y ↔ ¬SignedOut w y := by
  refine ⟨fun h => ?_, toInt_ofInt_of_fits hw y⟩
  have h1 := (BitVec.ofInt w y).toInt_lt
  have h2 := (BitVec.ofInt w y).le_toInt
  rw [h] at h1 h2
  simp only [SignedOut, not_or, not_lt, not_le]
  exact ⟨h2, h1⟩

theorem toNat_ofInt_iff {w : Nat} (y : Int) :
    ((BitVec.ofInt w y).toNat : Int) = y ↔ ¬UnsignedOut w y := by
  rw [toNat_ofInt_emod]
  simp only [UnsignedOut, not_or, not_lt, not_le]
  have hpos : (0 : Int) < 2 ^ w := by positivity
  constructor
  · intro h
    have h1 := Int.emod_nonneg y (ne_of_gt hpos)
    have h2 := Int.emod_lt_of_pos y hpos
    omega
  · rintro ⟨h1, h2⟩
    exact Int.emod_eq_of_lt h1 h2

/-- The MSB of an integer's low bits. -/
theorem msb_ofInt {w : Nat} (hw : 0 < w) (y : Int) :
    (BitVec.ofInt w y).msb = true ↔ y / 2 ^ (w - 1) % 2 = 1 := by
  rw [msb_iff]
  have h := toNat_ofInt_emod w y
  have h2 := ipow_split hw
  have hp := ipow_eq (w - 1)
  have hpos : (0 : Int) < 2 ^ (w - 1) := by positivity
  rw [h2] at h
  generalize (BitVec.ofInt w y).toNat = T at *
  generalize (2 : Nat) ^ (w - 1) = Q at *
  generalize (2 : Int) ^ (w - 1) = P at *
  have hy := Int.emod_add_mul_ediv y (2 * P)
  have hr0 := Int.emod_nonneg y (show (2 * P) ≠ 0 by omega)
  have hr1 := Int.emod_lt_of_pos y (show 0 < 2 * P by omega)
  have hd : y / P = y % (2 * P) / P + 2 * (y / (2 * P)) := by
    conv_lhs => rw [← hy]
    rw [show 2 * P * (y / (2 * P)) = P * (2 * (y / (2 * P))) by ring, Int.add_mul_ediv_left _ _ (by omega)]
  rw [hd, Int.add_mul_emod_self_left]
  rcases lt_or_ge (y % (2 * P)) P with hlt | hge
  · rw [Int.ediv_eq_zero_of_lt hr0 hlt]
    simp
    omega
  · have : y % (2 * P) / P = 1 := by
      rw [Int.ediv_eq_iff_of_pos hpos]; omega
    rw [this]
    simp
    omega

/-- Cutting an integer's low bits. -/
theorem setWidth_ofInt {ww wd : Nat} (h : wd ≤ ww) (y : Int) :
    (BitVec.ofInt ww y).setWidth wd = BitVec.ofInt wd y := by
  apply BitVec.eq_of_toNat_eq
  have h1 := toNat_ofInt_emod ww y
  have h2 := toNat_ofInt_emod wd y
  have : (((BitVec.ofInt ww y).setWidth wd).toNat : Int) = (BitVec.ofInt wd y).toNat := by
    rw [BitVec.toNat_setWidth, Int.natCast_mod, h1, h2, ← ipow_eq,
      Int.emod_emod_of_dvd _ (pow_dvd_pow 2 h)]
  exact_mod_cast this

/-- Truncation is seen exactly where the integer does not fit the destination. -/
theorem truncated_iff (k : ShiftKind) {ww wd : Nat} (hwd : 0 < wd) (h : wd ≤ ww) (y : Int)
    (hy : ¬RangeOut k.signed ww y) :
    (k.extend ww ((BitVec.ofInt ww y).setWidth wd) != BitVec.ofInt ww y) = true ↔ RangeOut k.signed wd y := by
  rw [bne_iff_ne, setWidth_ofInt h]
  unfold ShiftKind.extend
  cases hs : k.signed
  · simp only [hs, RangeOut, Bool.false_eq_true, if_false] at hy ⊢
    have e := (toNat_ofInt_iff (w := ww) y).mpr hy
    rw [← not_iff_not, not_not, ← toNat_ofInt_iff, ← BitVec.toNat_inj, BitVec.toNat_setWidth,
      Nat.mod_eq_of_lt (lt_of_lt_of_le (BitVec.isLt _) (Nat.pow_le_pow_right (by omega) h))]
    omega
  · simp only [hs, RangeOut, if_true] at hy ⊢
    have e := toInt_ofInt_of_fits (w := ww) (by omega) y hy
    rw [← not_iff_not, not_not, ← toInt_ofInt_iff hwd, ← BitVec.toInt_inj,
      BitVec.toInt_signExtend_of_le h, e]

theorem ofInt_toInt_eq {w : Nat} (a : BitVec w) : BitVec.ofInt w a.toInt = a := BitVec.ofInt_toInt ..

theorem signedOut_mono {w w' : Nat} (h : w ≤ w') {y : Int} (ho : SignedOut w' y) : SignedOut w y := by
  have hp : (2 : Int) ^ (w - 1) ≤ 2 ^ (w' - 1) := by
    exact_mod_cast Nat.pow_le_pow_right (by omega : 0 < 2) (by omega)
  simp only [SignedOut] at ho ⊢
  omega

theorem unsignedOut_mono {w w' : Nat} (h : w ≤ w') {y : Int} (ho : UnsignedOut w' y) : UnsignedOut w y := by
  have hp : (2 : Int) ^ w ≤ 2 ^ w' := by
    exact_mod_cast Nat.pow_le_pow_right (by omega : 0 < 2) h
  simp only [UnsignedOut] at ho ⊢
  omega

theorem rangeOut_mono (signed : Bool) {w w' : Nat} (h : w ≤ w') {y : Int} (ho : RangeOut signed w' y) :
    RangeOut signed w y := by
  cases signed
  · exact unsignedOut_mono h ho
  · exact signedOut_mono h ho

/-! ## Left -/

theorem shl_one_ofInt (w : Nat) (y : Int) : (BitVec.ofInt w y) <<< 1 = BitVec.ofInt w (y * 2) := by
  apply BitVec.eq_of_toNat_eq
  have h1 := toNat_ofInt_emod w y
  have h2 := toNat_ofInt_emod w (y * 2)
  have : (((BitVec.ofInt w y) <<< 1).toNat : Int) = (BitVec.ofInt w (y * 2)).toNat := by
    rw [BitVec.toNat_shiftLeft, Nat.shiftLeft_eq, h2, Int.natCast_mod, ← ipow_eq]
    push_cast
    rw [h1, Int.mul_emod, Int.emod_emod, ← Int.mul_emod]
  exact_mod_cast this

/-- ASL and LSL after `n` positions. -/
theorem left_times (k : ShiftKind) (hk : k = .asl ∨ k = .lsl) {w : Nat} (hw : 0 < w) (x : Int)
    (hx : ¬RangeOut k.signed w x) (c : Bool) (n : Nat) :
    let t := k.times n { r := BitVec.ofInt w x, c := c, ovf := false }
    t.r = BitVec.ofInt w (x * 2 ^ n) ∧ (t.ovf = true ↔ RangeOut k.signed w (x * 2 ^ n)) ∧
    (n ≠ 0 → (t.c = true ↔ x * 2 ^ (n - 1) / 2 ^ (w - 1) % 2 = 1)) ∧ (n = 0 → t.c = c) := by
  induction n with
  | zero => simpa [ShiftKind.times] using hx
  | succ n ih =>
    obtain ⟨h1, h2, -, -⟩ := ih
    have h2w := ipow_split hw
    have hpos : (0 : Int) < 2 ^ (w - 1) := by positivity
    intro t
    have ht : t = k.once (k.times n { r := BitVec.ofInt w x, c := c, ovf := false }) := ShiftKind.times_succ ..
    generalize ho : k.times n { r := BitVec.ofInt w x, c := c, ovf := false } = o at *
    have hy : x * 2 ^ (n + 1) = x * 2 ^ n * 2 := by rw [pow_succ]; ring
    rw [hy]
    generalize hyv : x * 2 ^ n = y at *
    have hm := msb_ofInt hw y
    have hm2 := msb_ofInt hw (y * 2)
    rcases hk with rfl | rfl
    · refine ⟨by rw [ht]; simp only [ShiftKind.once, h1]; exact shl_one_ofInt w y, ?_, ?_, by simp⟩
      · have hov : t.ovf = (o.ovf || (BitVec.ofInt w (y * 2)).msb != (BitVec.ofInt w y).msb) := by
          rw [ht]; simp only [ShiftKind.once, h1, shl_one_ofInt]
        rw [hov, Bool.or_eq_true, h2]
        simp only [ShiftKind.signed, RangeOut, if_true, SignedOut]
        by_cases hin : y < -(2 : Int) ^ (w - 1) ∨ (2 : Int) ^ (w - 1) ≤ y
        · simp only [hin, true_or, true_iff]; omega
        · have hf := toInt_ofInt_of_fits hw y hin
          rcases toInt_cases (BitVec.ofInt w y) with ⟨a1, a2, a3⟩ | ⟨a1, a2, a3⟩
          · rw [a1]
            simp only [hin, false_or, bne_iff_ne, ne_eq, Bool.not_eq_false]
            rw [hm2]
            have hy0 : 0 ≤ y := by omega
            rcases lt_or_ge (y * 2) (2 ^ (w - 1)) with hl | hl
            · rw [Int.ediv_eq_zero_of_lt (by omega) hl]
              simp; omega
            · have : y * 2 / 2 ^ (w - 1) = 1 := by rw [Int.ediv_eq_iff_of_pos hpos]; omega
              rw [this]; simp; omega
          · rw [a1]
            simp only [hin, false_or, bne_iff_ne, ne_eq, Bool.not_eq_true]
            rw [← Bool.not_eq_true, hm2]
            have hlt := (BitVec.ofInt w y).isLt
            have hpw := ipow_eq w
            have hy0 : y < 0 := by omega
            rcases lt_or_ge (y * 2) (-2 ^ (w - 1)) with hl | hl
            · have : y * 2 / 2 ^ (w - 1) = -2 := by rw [Int.ediv_eq_iff_of_pos hpos]; omega
              rw [this]; simp; omega
            · have : y * 2 / 2 ^ (w - 1) = -1 := by rw [Int.ediv_eq_iff_of_pos hpos]; omega
              rw [this]; simp; omega
      · intro _
        have : t.c = (BitVec.ofInt w y).msb := by rw [ht]; simp only [ShiftKind.once, h1]
        rw [this]
        simpa [hyv] using hm
    · refine ⟨by rw [ht]; simp only [ShiftKind.once, h1]; exact shl_one_ofInt w y, ?_, ?_, by simp⟩
      · have hov : t.ovf = (o.ovf || (BitVec.ofInt w y).msb) := by
          rw [ht]; simp only [ShiftKind.once, h1]
        rw [hov, Bool.or_eq_true, h2]
        simp only [ShiftKind.signed, RangeOut, Bool.false_eq_true, if_false, UnsignedOut]
        by_cases hin : y < 0 ∨ (2 : Int) ^ w ≤ y
        · simp only [hin, true_or, true_iff]; omega
        · have hf := (toNat_ofInt_iff (w := w) y).mpr hin
          have hp := ipow_eq (w - 1)
          rw [msb_iff]
          simp only [hin, false_or]
          omega
      · intro _
        have : t.c = (BitVec.ofInt w y).msb := by rw [ht]; simp only [ShiftKind.once, h1]
        rw [this]
        simpa [hyv] using hm

/-! ## Right -/

theorem div_pow_succ (x : Int) (n : Nat) : x / 2 ^ (n + 1) = x / 2 ^ n / 2 := by
  rw [pow_succ, Int.ediv_ediv_of_nonneg (by positivity)]

theorem not_signedOut_half {w : Nat} {y : Int} (h : ¬SignedOut w y) : ¬SignedOut w (y / 2) := by
  simp only [SignedOut, not_or, not_lt, not_le] at h ⊢
  have hpos : (0 : Int) < 2 ^ (w - 1) := by positivity
  omega

theorem not_unsignedOut_half {w : Nat} {y : Int} (h : ¬UnsignedOut w y) : ¬UnsignedOut w (y / 2) := by
  simp only [UnsignedOut, not_or, not_lt, not_le] at h ⊢
  omega

theorem lsb_ofInt {w : Nat} (hw : 0 < w) (y : Int) : (BitVec.ofInt w y).getLsbD 0 = true ↔ y % 2 = 1 := by
  have h := toNat_ofInt_emod w y
  have h2 := ipow_split hw
  rw [BitVec.getLsbD, Nat.testBit_zero, decide_eq_true_iff]
  have h3 : y % 2 ^ w % 2 = y % 2 := Int.emod_emod_of_dvd _ (by rw [h2]; exact dvd_mul_right _ _)
  rw [← h] at h3
  omega

/-- ASR and LSR after `n` positions. -/
theorem right_times (k : ShiftKind) (hk : k = .asr ∨ k = .lsr) {w : Nat} (hw : 0 < w) (x : Int)
    (hx : ¬RangeOut k.signed w x) (c : Bool) (n : Nat) :
    let t := k.times n { r := BitVec.ofInt w x, c := c, ovf := false }
    t.r = BitVec.ofInt w (x / 2 ^ n) ∧ ¬RangeOut k.signed w (x / 2 ^ n) ∧
    (n ≠ 0 → (t.c = true ↔ x / 2 ^ (n - 1) % 2 = 1)) ∧ (n = 0 → t.c = c) := by
  induction n with
  | zero => simpa [ShiftKind.times] using hx
  | succ n ih =>
    obtain ⟨h1, h2, -, -⟩ := ih
    intro t
    have ht : t = k.once (k.times n { r := BitVec.ofInt w x, c := c, ovf := false }) := ShiftKind.times_succ ..
    generalize ho : k.times n { r := BitVec.ofInt w x, c := c, ovf := false } = o at *
    rw [div_pow_succ]
    generalize hyv : x / 2 ^ n = y at *
    have hb := lsb_ofInt hw y
    rcases hk with rfl | rfl
    · have h2' : ¬SignedOut w y := h2
      have hf := toInt_ofInt_of_fits hw y h2'
      refine ⟨?_, not_signedOut_half h2', ?_, by simp⟩
      · rw [ht]
        simp only [ShiftKind.once, h1]
        apply BitVec.eq_of_toInt_eq
        rw [BitVec.toInt_sshiftRight, hf, toInt_ofInt_of_fits hw _ (not_signedOut_half h2'),
          Int.shiftRight_eq_div_pow]
        simp
      · intro _
        have : t.c = (BitVec.ofInt w y).getLsbD 0 := by rw [ht]; simp only [ShiftKind.once, h1]
        rw [this, hb]
        simp [hyv]
    · have h2' : ¬UnsignedOut w y := h2
      have hf := (toNat_ofInt_iff (w := w) y).mpr h2'
      have hg := (toNat_ofInt_iff (w := w) (y / 2)).mpr (not_unsignedOut_half h2')
      refine ⟨?_, not_unsignedOut_half h2', ?_, by simp⟩
      · rw [ht]
        simp only [ShiftKind.once, h1]
        apply BitVec.eq_of_toNat_eq
        rw [BitVec.toNat_ushiftRight, Nat.shiftRight_eq_div_pow]
        omega
      · intro _
        have : t.c = (BitVec.ofInt w y).getLsbD 0 := by rw [ht]; simp only [ShiftKind.once, h1]
        rw [this, hb]
        simp [hyv]

theorem asr_ovf {w : Nat} (k : ShiftKind) (hk : k = .asr ∨ k = .lsr) (n : Nat) (t : ShiftStep w) :
    (k.times n t).ovf = t.ovf := by
  induction n with
  | zero => rfl
  | succ n ih => rw [ShiftKind.times_succ]; rcases hk with rfl | rfl <;> exact ih

/-! ## The shift of a source into a destination -/

/-- A source, extended to the working width, is its own integer. -/
theorem extend_eq (k : ShiftKind) {ws : Nat} (ww : Nat) (h : ws ≤ ww) (hws : 0 < ws) (v : BitVec ws) :
    k.extend ww v = BitVec.ofInt ww (if k.signed then v.toInt else v.toNat) ∧
    ¬RangeOut k.signed ww (if k.signed then v.toInt else v.toNat) := by
  unfold ShiftKind.extend
  cases k.signed
  · have hl := v.isLt
    have hp : 2 ^ ws ≤ 2 ^ ww := Nat.pow_le_pow_right (by omega) h
    have hi := ipow_eq ww
    have hr : ¬UnsignedOut ww (v.toNat : Int) := by simp only [UnsignedOut]; omega
    simp only [Bool.false_eq_true, if_false, RangeOut]
    refine ⟨BitVec.eq_of_toNat_eq ?_, hr⟩
    rw [BitVec.toNat_setWidth, Nat.mod_eq_of_lt (by omega)]
    have := (toNat_ofInt_iff (w := ww) v.toNat).mpr hr
    omega
  · have hr : ¬SignedOut ws v.toInt := (toInt_ofInt_iff hws _).mp (by rw [ofInt_toInt_eq])
    have hr' : ¬SignedOut ww v.toInt := fun ho => hr (signedOut_mono h ho)
    simp only [if_true, RangeOut]
    refine ⟨BitVec.eq_of_toInt_eq ?_, hr'⟩
    rw [BitVec.toInt_signExtend_of_le h, toInt_ofInt_of_fits (by omega) _ hr']

/-- The parts of a shift, from the extended source. -/
theorem shiftOp_parts (k : ShiftKind) {ws : Nat} (wd : Nat) (v : BitVec ws) (n : Nat) (c : Ccr)
    (x : BitVec (max ws wd)) : k.extend (max ws wd) v = x →
    let t := k.times n { r := x, c := c.c, ovf := false }
    let truncated := k.extend (max ws wd) (t.r.setWidth wd) != t.r
    (shiftOp k wd v n c).1 = t.r.setWidth wd ∧
    (shiftOp k wd v n c).2.n = (match k with
      | .asl => !v.msb
      | _ => (t.r.setWidth wd).msb) ∧
    (shiftOp k wd v n c).2.z = (t.r.setWidth wd == 0) ∧
    (shiftOp k wd v n c).2.v = (match k with
      | .asl | .lsl => t.ovf || truncated
      | .asr | .lsr => truncated) ∧
    (shiftOp k wd v n c).2.c = t.c := by
  rintro rfl
  exact ⟨rfl, by cases k <;> rfl, rfl, by cases k <;> rfl, rfl⟩

/-- ASL, ASR, LSL, LSR. -/
theorem shiftOp_shifted (k : ShiftKind) {ws wd : Nat} (hws : 0 < ws) (hwd : 0 < wd) (v : BitVec ws) (n : Nat)
    (c : Ccr) :
    ShiftedTo k v n (shiftOp k wd v n c).1 c (shiftOp k wd v n c).2 := by
  have hle : wd ≤ max ws wd := le_max_right _ _
  obtain ⟨he, hr⟩ := extend_eq k (max ws wd) (le_max_left _ _) hws v
  generalize hx : (if k.signed then v.toInt else (v.toNat : Int)) = x at he hr
  have hw : 0 < max ws wd := by omega
  unfold ShiftedTo
  simp only [hx]
  obtain ⟨e1, e2, e3, e4, e5⟩ := shiftOp_parts k wd v n c _ he
  rw [e1, e2, e3, e4, e5]
  rcases (show (k = .asl ∨ k = .lsl) ∨ (k = .asr ∨ k = .lsr) by cases k <;> simp) with hk | hk
  · obtain ⟨h1, h2, h3, h4⟩ := left_times k hk hw x hr c.c n
    have htr := truncated_iff k hwd hle (x * 2 ^ n)
    generalize k.times n { r := BitVec.ofInt (max ws wd) x, c := c.c, ovf := false } = t at *
    have hV : (t.ovf || (k.extend (max ws wd) (t.r.setWidth wd) != t.r)) = true ↔ RangeOut k.signed wd (x * 2 ^ n) := by
      rw [Bool.or_eq_true, h2, h1]
      by_cases hin : RangeOut k.signed (max ws wd) (x * 2 ^ n)
      · simp [hin, rangeOut_mono k.signed hle hin]
      · rw [htr hin]; simp [hin]
    have hR : ((t.r.setWidth wd).toNat : Int) = x * 2 ^ n % 2 ^ wd := by
      rw [h1, setWidth_ofInt hle, toNat_ofInt_emod]
    have hC : if n = 0 then t.c = c.c else (t.c = true ↔ x * 2 ^ (n - 1) / 2 ^ (max ws wd - 1) % 2 = 1) := by
      split
      · rename_i h; exact h4 h
      · rename_i h; exact h3 h
    rcases hk with rfl | rfl
    · exact ⟨hR, rfl, beq_zero_iff _, hV, hC⟩
    · exact ⟨hR, rfl, beq_zero_iff _, hV, hC⟩
  · obtain ⟨h1, h2, h3, h4⟩ := right_times k hk hw x hr c.c n
    have htr := truncated_iff k hwd hle (x / 2 ^ n) h2
    generalize k.times n { r := BitVec.ofInt (max ws wd) x, c := c.c, ovf := false } = t at *
    rw [← h1] at htr
    have hR : ((t.r.setWidth wd).toNat : Int) = x / 2 ^ n % 2 ^ wd := by
      rw [h1, setWidth_ofInt hle, toNat_ofInt_emod]
    have hC : if n = 0 then t.c = c.c else (t.c = true ↔ x / 2 ^ (n - 1) % 2 = 1) := by
      split
      · rename_i h; exact h4 h
      · rename_i h; exact h3 h
    rcases hk with rfl | rfl
    · exact ⟨hR, rfl, beq_zero_iff _, htr, hC⟩
    · exact ⟨hR, rfl, beq_zero_iff _, htr, hC⟩

end Sys2Proof.Machine
end

