-- ==== Sys2Proof/Laws/Forms.lean ====
section
/-! SUPPORT. What an instruction of each shared form does, said once: stores, shifts into a register, bit
fields, the `mb` instructions, branches, calls, transfers. -/

namespace Sys2Proof.Machine

theorem DReg.bits_pos (d : DReg) : 1 < d.bits := by cases d <;> decide
theorem Size.bits_pos (z : Size) : 1 < z.bits := by cases z <;> decide

/-- An operand at its own width is the same before and after an automatic submode has moved its register. -/
theorem locVal_oprMoved (s : State) (o : Opr) (sz : Size) :
    (s.oprMoved o sz.bytes).locVal (s.oprLoc o sz.bytes) sz = s.mbOperand o sz := by
  have hd := decoded_oprMoved s o sz.bytes
  unfold State.locVal State.mbOperand
  cases s.oprLoc o sz.bytes <;> simp [hd.data]

theorem mbOperand_pos (s : State) (o : Opr) (sz : Size) : 1 < (s.mbOperand o sz).w := by
  unfold State.mbOperand
  cases s.oprLoc o sz.bytes with
  | imm e => exact Size.bits_pos sz
  | reg r => exact DReg.bits_pos r
  | mem ea => exact Size.bits_pos sz

/-! ## Registers written on the way -/

theorem Decoded.setXYS {s p : State} (h : Decoded s p) (r : XYS) (v : Addr) : Decoded s (p.setXYS r v) where
  data q := by simp [h.data]
  pc := by simp [h.pc]
  ccr := by simp [h.ccr]
  mem := by simp [h.mem]
  machine := h.machine.trans ⟨by simp, by simp, by simp, by simp, by simp, by simp, by simp, by simp⟩

theorem Decoded.setXY {s p : State} (h : Decoded s p) (r : XY) (v : Addr) : Decoded s (p.setXY r v) where
  data q := by simp [h.data]
  pc := by simp [h.pc]
  ccr := by simp [h.ccr]
  mem := by simp [h.mem]
  machine := h.machine.trans ⟨by simp, by simp, by simp, by simp, by simp, by simp, by simp, by simp⟩

theorem Decoded.setSp {s p : State} (h : Decoded s p) (v : Addr) : Decoded s (p.setSp v) :=
  h.setXYS .s v

theorem Decoded.drew {s p : State} (h : Decoded s p) : Decoded s p.drew where
  data q := by
    rw [← h.data]
    cases q <;> rfl
  pc := h.pc
  ccr := h.ccr
  mem := h.mem
  machine := h.machine.trans ⟨rfl, rfl, rfl, rfl, rfl, rfl, rfl, rfl⟩

/-! ## Stores -/

/-- A value written to a decoded operand. -/
theorem locWrite_storesTo {s p : State} (hp : Decoded s p) (i : Instr) (l : Loc) (sz : Size)
    (v : BitVec sz.bits) (flags : Ccr → Ccr → Prop) (c' : Ccr)
    (h : exec i s = p.locWrite l sz v fun t => State.advance { t with ccr := c' } i)
    (hc : flags s.ccr c') (hs : s.ccr.SystemSame c') : StoresTo i s p l sz v flags := by
  unfold StoresTo
  cases l with
  | imm e => exact h
  | reg r =>
    refine setD_runs hp r (v.setWidth r.bits) c' i h hs _ fun t h1 h2 h3 => ⟨?_, ?_, h3⟩
    · rw [h1]
      simp
    · rw [h2]
      exact hc
  | mem ea =>
    refine store_runs hp ea sz v c' i h hs _ fun t h1 h2 h3 => ⟨h1, ?_, h3⟩
    rw [h2]
    exact hc

/-! ## Shifts and bit fields -/

/-- A shift into a register. -/
theorem shiftInto_runs (k : ShiftKind) (d : DReg) (x : Val) (hx : 0 < x.w) (n : ShiftBy) (i : Instr)
    (s p : State) (hp : Decoded s p) (h : exec i s = shiftInto k d x n i p) : ShiftRuns i k d x n s p := by
  have hd := hp.trans (decoded_countMoved p n)
  refine setD_runs hd d _ _ i h ?_ _ fun t h1 h2 h3 => ⟨?_, h3⟩
  · rw [hd.ccr]
    exact ⟨rfl, rfl, rfl, rfl, rfl⟩
  · rw [h1, h2, hd.ccr]
    have hb := DReg.bits_pos d
    exact shiftOp_shifted k hx (by omega) x.v (p.shiftCount n) s.ccr

/-- A bit field put into a register. -/
theorem fieldToReg_runs (ins : Bool) (d : DReg) (x : Val) (w o : Nat) (i : Instr) (s p : State)
    (hp : Decoded s p) (h : exec i s = fieldToReg ins d x w o i p) :
    Runs i s fun t =>
      ((if ins then FieldInserted x.v w o (s.getD d) (t.getD d) else FieldExtracted x.v w o (t.getD d)) ∧
        LoadFlagsOf (t.getD d) s.ccr t.ccr) ∧ RegFrame s p t [d] := by
  refine setD_runs hp d _ _ i h ?_ _ fun t h1 h2 h3 => ⟨⟨?_, ?_⟩, h3⟩
  · rw [hp.ccr]
    exact ⟨rfl, rfl, rfl, rfl, rfl⟩
  · rw [h1]
    cases ins
    · exact extractField_extracted _ _ _ _
    · simp only [if_true, hp.data]
      exact insertField_inserted _ _ _ _
  · rw [h1, h2, hp.ccr]
    exact ⟨⟨rfl, beq_zero_iff _⟩, rfl, rfl⟩

/-! ## The `mb` instructions -/

/-- What each name does with its two operands. -/
def MathName.op : MathName → Bool → MathOp
  | .mul, g => multiply g
  | .mac, g => multiplyAccumulate g
  | .div, g => divide g
  | .mod, g => modulo g
  | .qmul, g => fractionMultiply g

/-- All fifty `mb` instructions in one equation. -/
theorem math_exec (n : MathName) (g : Bool) (d : DReg) (f : MathForm) (s : State) :
    exec (mathInstr n g d f) s =
      State.advance (n.op g d ((f.first s).math g) ((f.second s).math g) (f.moved s)) (mathInstr n g d f) := by
  have h1 : ∀ s : State, ∀ o sz, s.oprMath g o sz = (s.mbOperand o sz).math g := fun s o sz => by
    rw [State.oprMath, locVal_oprMoved]
  cases f with
  | reg j k => cases k <;> cases n <;> cases g <;> rfl
  | oprB j o => simp only [MathForm.first, MathForm.second, MathForm.moved, ← h1]; cases n <;> cases g <;> rfl
  | oprW j o => simp only [MathForm.first, MathForm.second, MathForm.moved, ← h1]; cases n <;> cases g <;> rfl
  | oprL j o => simp only [MathForm.first, MathForm.second, MathForm.moved, ← h1]; cases n <;> cases g <;> rfl
  | oprOpr s1 o1 s2 o2 =>
    simp only [MathForm.first, MathForm.second, MathForm.moved, ← h1]
    cases n <;> cases g <;> rfl

theorem decoded_mathMoved (f : MathForm) (s : State) : Decoded s (f.moved s) := by
  cases f with
  | reg => exact .refl s
  | oprOpr => exact (decoded_oprDone _ _ _).trans (decoded_oprDone _ _ _)
  | _ => exact decoded_oprDone _ _ _

/-- An `mb` instruction that leaves a value in its destination and a CCR, and has drawn `k` free values. -/
theorem math_runs (n : MathName) (g : Bool) (d : DReg) (f : MathForm) (s : State)
    (rc : BitVec d.bits × Ccr) (k : Nat)
    (h : n.op g d ((f.first s).math g) ((f.second s).math g) (f.moved s) = ((f.moved s).setDCcr d rc).drewN k)
    (hs : s.ccr.SystemSame rc.2) (post : State → Prop)
    (hpost : ∀ t, t.getD d = rc.1 → t.ccr = rc.2 → RegFrame s (f.moved s) t [d] → post t) :
    Runs (mathInstr n g d f) s post := by
  have hd := decoded_mathMoved f s
  have e := math_exec n g d f s
  rw [h] at e
  have key := frame_setD hd d rc.1 rc.2 ((f.moved s).pcNext (mathInstr n g d f)) hs
  refine ⟨_, e, ?_, hpost _ ?_ ?_ ?_⟩
  · simp [State.pcNext, Instr.length, hd.pc, State.setDCcr]
  · have same : ∀ (q : State) (c : Ccr) (a : Addr) (m : Nat),
        ({ q with ccr := c, pc := a, freeCount := m } : State).getD d = q.getD d := by
      intros
      cases d <;> rfl
    exact (same _ _ _ _).trans (getD_setD_same _ _ _)
  · rfl
  · constructor
    · intro r hr
      rw [← key.data r hr]
      cases r <;> rfl
    · exact key.index
    · exact key.system
    · exact key.machine.trans ⟨rfl, rfl, rfl, rfl, rfl, rfl, rfl, rfl⟩
    · exact key.bytes

/-! ## Branches and calls -/

/-- The target of a branch, said in integers (R340). -/
theorem branchTarget_eq (s : State) (rel : Rel) : s.branchTarget rel = s.relTarget rel := by
  cases rel <;> simp [State.branchTarget, relOffset, State.relTarget, relInt] <;>
    rw [BitVec.ofInt_add] <;> congr 1 <;> simp

/-- A branch that changes nothing but the PC. -/
theorem branchIf_on (cond : Bool) (i : Instr) (rel : Rel) (s : State) (h : exec i s = branchIf cond rel i s) :
    BranchesOn cond i rel s := by
  unfold BranchesOn
  rw [h, branchIf, branchTarget_eq]
  cases cond <;> rfl

/-- A branch at the end of an instruction that has changed other things. -/
theorem branchIf_loops (cond : Bool) (taken : Prop) (hc : cond = true ↔ taken) (rel : Rel) (i : Instr)
    (s q : State) (hq : q.pc = s.pc) :
    ∃ v, branchIf cond rel i q = .next { q with pc := v } ∧
      ∀ t : State, t.pc = v → LoopsTo taken i rel s t := by
  unfold branchIf
  have e : q.branchTarget rel = s.relTarget rel := by
    rw [← branchTarget_eq]
    unfold State.branchTarget
    rw [hq]
  cases cond
  · refine ⟨q.pcNext i, rfl, fun t ht => ⟨fun h => ?_, fun _ => ?_⟩⟩
    · simp at hc
      exact absurd h hc
    · rw [ht, State.pcNext, hq]
      rfl
  · exact ⟨q.branchTarget rel, rfl, fun t ht => ⟨fun _ => by rw [ht, e], fun h => absurd (hc.mp rfl) h⟩⟩

/-- The condition of DBcc and TBcc, said in integers (R361). -/
theorem loopHolds_iff (c : LoopCond) {w : Nat} (hw : 0 < w) (r : BitVec w) :
    loopHolds c r = true ↔ LoopTaken c r := by
  have hz : (r == 0) = true ↔ r.toInt = 0 := by
    rw [beq_iff_eq, ← BitVec.toInt_inj]
    simp
  have hn : r.msb = true ↔ r.toInt < 0 := by
    have := r.isLt
    have := pow_split hw
    have := ipow_eq w
    rcases toInt_cases r with ⟨a1, a2, a3⟩ | ⟨a1, a2, a3⟩ <;> rw [a1] <;> simp <;> omega
  simp only [loopHolds]
  generalize (r == 0) = z at *
  generalize r.msb = n at *
  generalize hg : r.toInt = i at *
  cases z <;> cases n <;> cases c <;> simp [LoopTaken, hg] at * <;> omega

/-- Whether two runs of bytes meet (R52). -/
theorem runsMeet_iff (a : Addr) (n : Nat) (b : Addr) (m : Nat) : runsMeet a n b m = true ↔ Overlap a n b m := by
  simp only [runsMeet, addressRun, List.any_eq_true, List.contains_eq_mem, decide_eq_true_eq, List.mem_map,
    List.mem_range, Overlap]
  constructor
  · rintro ⟨x, ⟨j, hj, rfl⟩, k, hk, e⟩
    exact ⟨j, hj, k, hk, (BitVec.eq_of_toNat_eq e).symm⟩
  · rintro ⟨j, hj, k, hk, e⟩
    exact ⟨_, ⟨j, hj, rfl⟩, k, hk, by rw [e]⟩

/-- What is fetched before an instruction acts (R80, R361). -/
theorem fetchedFirst_eq (i : Instr) : fetchedFirst i = firstFetch i := by cases i <;> rfl

/-- Fetching the offset adds one access to the trace and changes nothing else (R89, R361). -/
theorem loopFetched_traced (s : State) (o : Opr) (rel : Rel) :
    s.loopFetched o rel =
      { s with trace := .access ⟨.fetch, !s.ccr.u, s.relAddr o, rel.enc.length⟩ :: s.trace } := rfl

/-- What `rb [r1]` is fetched as spells what memory holds (R66, R89). -/
theorem relFetched_at (t : State) (a : Addr) (rel : Rel) : t.OffsetAt a (t.relFetched a rel) := by
  have hb : bytesFrom t.readByte a 2 = [t.readByte a.toNat, t.readByte (a + 1).toNat] := rfl
  obtain ⟨rel', rest, hp, he⟩ := parseRel_two (t.readByte a.toNat) (t.readByte (a + 1).toNat)
  have hr : t.relFetched a rel = rel' := by rw [State.relFetched, hb, hp]
  rw [hr]
  intro k b hk hm
  rw [← hb] at he
  have h2 : (rel'.enc ++ rest)[k]? = some b := by
    rw [List.getElem?_append_left (List.getElem?_eq_some_iff.mp hk).1]
    exact hk
  rw [he] at h2
  obtain ⟨hlt, h3⟩ := List.getElem?_eq_some_iff.mp h2
  rw [bytesFrom_getElem, State.readByte, if_pos hm] at h3
  exact h3

/-- The PC alone may differ in a frame. -/
theorem Frame.of_pc {s q p t : State} {l : List DReg} {a : Addr} {n : Nat} (h : Frame s p q l a n) (v : Addr)
    (e : t = { q with pc := v }) : Frame s p t l a n := by
  subst e
  exact ⟨fun r hr => by
      rw [← h.data r hr]
      cases r <;> rfl,
    h.index, h.system,
    h.machine.trans ⟨rfl, rfl, rfl, rfl, rfl, rfl, rfl, rfl⟩, h.bytes⟩

/-- A call: the return address below SP, the PC at the target. -/
theorem call_gives (i : Instr) (s p : State) (hp : Decoded s p) (ea rtn : Addr)
    (h : exec i s = (p.push .p rtn).goto ea) :
    Gives i s fun t => t.pc = ea ∧ t.ccr = s.ccr ∧ Stored s t (p.sp - 3) 3 rtn.toNat ∧
      Frame s { p with sp := p.sp - 3 } t [] (p.sp - 3) 3 :=
  have hd := hp.setSp (p.sp - 3)
  ⟨_, h, rfl, hp.ccr, hd.stored (p.sp - 3) .p rtn p.ccr ea,
    (frame_store hd (p.sp - 3) .p rtn p.ccr ea (by
      rw [hp.ccr]
      exact .refl _)).index_congr rfl rfl rfl⟩

/-! ## Transfers -/

/-- `CpuRead` as a number (R176). -/
theorem cpuRead_toNat (s : State) (c : CpuReg) : (s.cpuRead c).toNat = s.cpuNat c := by
  cases c with
  | d r => rfl
  | cch => have := s.ccr.word.isLt; simp [State.cpuRead, State.cpuNat, Nat.shiftRight_eq_div_pow]; show _ % 256 = _; omega
  | ccl => simp [State.cpuRead, State.cpuNat]; rfl
  | _ => rfl

theorem CcrOnly.of_ccr (s : State) (c : Ccr) (a : Addr) (n : Nat) : CcrOnly s { s with ccr := c, pc := a, freeCount := n } :=
  ⟨fun r _ => by cases r <;> rfl, ⟨rfl, rfl, rfl⟩, ⟨rfl, rfl, rfl, rfl, rfl, rfl, rfl, rfl⟩, fun _ _ => rfl⟩

/-- `CpuWrite` writes a number modulo the register's width (R176). -/
theorem cpuWrite_written (s : State) (dst : CpuReg) (hd : dst.reserved = false) (v : Nat) (w : BitVec dst.bits) (hw : w.toNat = v % 2 ^ dst.bits) (a : Addr) (n : Nat) :
    CpuWritten s { s.cpuWrite dst w with pc := a, freeCount := n } dst v := by
  cases dst with
  | d r =>
    have key := frame_setD (.refl s) r w s.ccr a (.refl _)
    refine ⟨?_, ?_, ?_⟩
    · have : ({ s.cpuWrite (.d r) w with pc := a, freeCount := n } : State).getD r = w := by cases r <;> rfl
      rw [this]; exact hw
    · cases r <;> exact ⟨rfl, rfl, rfl, rfl⟩
    · cases r <;> exact { data := fun q hq => by rw [← key.data q hq]; cases q <;> rfl, index := ⟨rfl, rfl, rfl⟩, system := .refl _, machine := ⟨rfl, rfl, rfl, rfl, rfl, rfl, rfl, rfl⟩, bytes := fun _ _ => rfl }
  | x =>
    have : w = BitVec.ofNat 24 v := BitVec.eq_of_toNat_eq (by simpa using hw)
    subst this
    exact ⟨⟨rfl, rfl, rfl, rfl⟩, { data := fun q hq => by cases q <;> rfl, index := ⟨rfl, rfl, rfl⟩, system := .refl _, machine := ⟨rfl, rfl, rfl, rfl, rfl, rfl, rfl, rfl⟩, bytes := fun _ _ => rfl }⟩
  | y =>
    have : w = BitVec.ofNat 24 v := BitVec.eq_of_toNat_eq (by simpa using hw)
    subst this
    exact ⟨⟨rfl, rfl, rfl, rfl⟩, { data := fun q hq => by cases q <;> rfl, index := ⟨rfl, rfl, rfl⟩, system := .refl _, machine := ⟨rfl, rfl, rfl, rfl, rfl, rfl, rfl, rfl⟩, bytes := fun _ _ => rfl }⟩
  | s =>
    have : w = BitVec.ofNat 24 v := BitVec.eq_of_toNat_eq (by simpa using hw)
    subst this
    exact ⟨⟨rfl, rfl, rfl, rfl⟩, { data := fun q hq => by cases q <;> rfl, index := ⟨rfl, rfl, rfl⟩, system := .refl _, machine := ⟨rfl, rfl, rfl, rfl, rfl, rfl, rfl, rfl⟩, bytes := fun _ _ => rfl }⟩
  | cch =>
    have hw : w.toNat = v % 256 := hw
    have : (w.setWidth 16 <<< 8 : BitVec 16) = BitVec.ofNat 16 (v % 256 * 256) := BitVec.eq_of_toNat_eq (by simp [hw, Nat.shiftLeft_eq])
    refine ⟨?_, CcrOnly.of_ccr s _ a n⟩
    rw [← this]; rfl
  | ccl =>
    have hw : w.toNat = v % 256 := hw
    have : (w.setWidth 16 : BitVec 16) = BitVec.ofNat 16 (v % 256) := BitVec.eq_of_toNat_eq (by simp [hw])
    refine ⟨?_, CcrOnly.of_ccr s _ a n⟩
    rw [← this]; rfl
  | ccw =>
    have : w = BitVec.ofNat 16 v := BitVec.eq_of_toNat_eq (by simpa using hw)
    subst this
    exact ⟨rfl, CcrOnly.of_ccr s _ a n⟩
  | resB => cases hd
  | resF => cases hd

theorem cpuWrite_pc (s : State) (c : CpuReg) (v : BitVec c.bits) : (s.cpuWrite c v).pc = s.pc := by
  cases c with
  | d r => cases r <;> rfl
  | _ => rfl

theorem cpuWrite_free (s : State) (c : CpuReg) (v : BitVec c.bits) : (s.cpuWrite c v).freeCount = s.freeCount := by
  cases c with
  | d r => cases r <;> rfl
  | _ => rfl

/-- Sign extension as a number. -/
theorem toNat_signExtend_sext {w : Nat} (hw : 0 < w) (v : BitVec w) (w' : Nat) (h : w ≤ w') : (v.signExtend w').toNat = sextNat w w' v.toNat % 2 ^ w' := by
  have hi := BitVec.toInt_signExtend_of_le (x := v) h
  have hp : 2 ^ w ≤ 2 ^ w' := Nat.pow_le_pow_right (by omega) h
  have hs := pow_split hw
  have l1 := v.isLt
  have l2 := (v.signExtend w').isLt
  have e1 := ipow_eq w
  have e2 := ipow_eq w'
  unfold sextNat
  rcases toInt_cases v with ⟨a1, a2, a3⟩ | ⟨a1, a2, a3⟩ <;>
  rcases toInt_cases (v.signExtend w') with ⟨b1, b2, b3⟩ | ⟨b1, b2, b3⟩
  · rw [if_pos a3, Nat.mod_eq_of_lt (by omega)]; omega
  · exfalso; omega
  · exfalso; omega
  · rw [if_neg (by omega), Nat.mod_eq_of_lt (by omega)]; omega

end Sys2Proof.Machine
end

