-- ==== Sys2Proof/Laws/Stack.lean ====
section
/-! SUPPORT. What a run of pushes leaves, and what taking an exception and returning from one do, said once. -/

namespace Sys2Proof.Machine

/-! ## Runs of pushes -/

/-- A value and its size on the stack. -/
abbrev Pushed := (sz : Size) × BitVec sz.bits

/-- The values of a list pushed so that the first one lies lowest. -/
def State.pushAll (s : State) (l : List Pushed) : State := l.reverse.foldl (fun s p => s.push p.1 p.2) s

def pushTotal (l : List Pushed) : Nat := (l.map fun p => p.1.bytes).sum

/-- After a run of pushes: SP is lower by the bytes pushed, each value stands in its place, nothing else has
changed. -/
structure PushedRun (s t : State) (l : List Pushed) : Prop where
  form : t = { s with sp := s.sp - BitVec.ofNat 24 (pushTotal l), mem := t.mem, trace := t.trace }
  holds : ∀ pre p post, l = pre ++ p :: post →
    Stored s t (t.sp + BitVec.ofNat 24 (pushTotal pre)) p.1.bytes p.2.toNat
  bytes : BytesSame s t t.sp (pushTotal l)
  trace : ∀ e ∈ s.trace, e ∈ t.trace

theorem pushTotal_cons (p : Pushed) (l : List Pushed) : pushTotal (p :: l) = p.1.bytes + pushTotal l := by
  simp [pushTotal]

theorem pushAll_cons (s : State) (p : Pushed) (l : List Pushed) :
    s.pushAll (p :: l) = (s.pushAll l).push p.1 p.2 := by simp [State.pushAll]

theorem pushAll_run (s : State) (l : List Pushed) (hl : pushTotal l < 2 ^ 20) :
    PushedRun s (s.pushAll l) l := by
  induction l with
  | nil => exact ⟨by simp [State.pushAll, pushTotal], by simp, fun _ _ => rfl, fun _ => id⟩
  | cons p l ih =>
    rw [pushTotal_cons] at hl
    obtain ⟨hf, hv, hb, ht⟩ := ih (by omega)
    rw [pushAll_cons]
    generalize s.pushAll l = t at *
    have hsp : t.sp = s.sp - BitVec.ofNat 24 (pushTotal l) := by rw [hf]
    have hspt : (t.push p.1 p.2).sp = t.sp - BitVec.ofNat 24 p.1.bytes := rfl
    have hm : (t.push p.1 p.2).mem = t.mem.store t.map.isRam (t.sp - BitVec.ofNat 24 p.1.bytes) p.1 p.2 := rfl
    have hmap : t.map = s.map := by rw [hf]
    have hccr : t.ccr = s.ccr := by rw [hf]
    have h4 := Size.bytes_le_four p.1
    have hslt := s.sp.isLt
    have htlt := t.sp.isLt
    have hspt' : (t.push p.1 p.2).sp = s.sp - BitVec.ofNat 24 (p.1.bytes + pushTotal l) := by
      rw [hspt, hsp]
      apply BitVec.eq_of_toNat_eq
      simp
      omega
    have below : ∀ k < p.1.bytes,
        (t.sp - BitVec.ofNat 24 p.1.bytes + BitVec.ofNat 24 k - t.sp).toNat = 2 ^ 24 - p.1.bytes + k := by
      intro k hk
      simp
      omega
    refine ⟨?_, ?_, ?_, ?_⟩
    · rw [pushTotal_cons, ← hspt']
      unfold State.push State.store State.accessed State.setSp
      rw [hf]
    · intro pre q post hq
      cases pre with
      | nil =>
        simp only [List.nil_append, List.cons.injEq] at hq
        obtain ⟨rfl, rfl⟩ := hq
        rw [hspt]
        refine ⟨fun k hk => ?_, ?_⟩
        · have e : t.sp - BitVec.ofNat 24 p.1.bytes + BitVec.ofNat 24 (pushTotal []) =
              t.sp - BitVec.ofNat 24 p.1.bytes := by simp [pushTotal]
          rw [e, hm, Memory.read_store_inside _ _ _ _ _ _ hk, hmap, hb]
          rw [below k hk]
          omega
        · simp [pushTotal, hccr]
      | cons r pre =>
        simp only [List.cons_append, List.cons.injEq] at hq
        obtain ⟨rfl, hq⟩ := hq
        have hle : pushTotal pre + q.1.bytes ≤ pushTotal l := by rw [hq]; simp [pushTotal]
        have ea : t.sp - BitVec.ofNat 24 p.1.bytes + BitVec.ofNat 24 (p.1.bytes + pushTotal pre) =
            t.sp + BitVec.ofNat 24 (pushTotal pre) := by
          apply BitVec.eq_of_toNat_eq
          simp
          omega
        rw [pushTotal_cons, hspt, ea]
        refine (hv pre q post hq).keep (fun k hk => ?_) fun e he => by simp [he]
        rw [hm, Memory.read_store_outside]
        have : t.sp + BitVec.ofNat 24 (pushTotal pre) + BitVec.ofNat 24 k - (t.sp - BitVec.ofNat 24 p.1.bytes) =
            BitVec.ofNat 24 (p.1.bytes + pushTotal pre + k) := by
          apply BitVec.eq_of_toNat_eq
          simp
          omega
        rw [this]
        simp
        omega
    · intro b hb'
      rw [pushTotal_cons, hspt] at hb'
      have hblt := b.isLt
      rw [hm, Memory.read_store_outside, hb b]
      · rw [BitVec.toNat_sub] at hb' ⊢
        rw [BitVec.toNat_sub] at hb'
        simp at hb'
        omega
      · omega
    · intro e he
      simp [ht e he]

/-! ## The frame of an exception -/

/-- The frame of R403, the lowest value first. -/
def frameList (s : State) (rtn : Addr) (ccw : BitVec 16) : List Pushed :=
  [⟨.w, ccw⟩, ⟨.b, s.d0⟩, ⟨.b, s.d1⟩, ⟨.w, s.d2⟩, ⟨.w, s.d3⟩, ⟨.w, s.d4⟩, ⟨.w, s.d5⟩, ⟨.l, s.d6⟩,
   ⟨.l, s.d7⟩, ⟨.p, s.x⟩, ⟨.p, s.y⟩, ⟨.p, rtn⟩]

theorem stackContext_eq (s : State) (rtn : Addr) (ccw : BitVec 16) :
    s.stackContext rtn ccw = s.pushAll (frameList s rtn ccw) := by
  simp [State.stackContext, State.pushAll, frameList]

/-- `StackContext`: 29 bytes below SP hold the frame, SP and memory are all that changes (R403). -/
theorem stackContext_spec (s : State) (rtn : Addr) (ccw : BitVec 16) (hu : s.ccr.u = false) (c : Ccr)
    (hc : c.word = ccw) :
    s.stackContext rtn ccw =
      { s with sp := s.sp - 29, mem := (s.stackContext rtn ccw).mem, trace := (s.stackContext rtn ccw).trace } ∧
    FrameHolds { s with ccr := c } (s.stackContext rtn ccw) (s.sp - 29) rtn ∧
    BytesSame s (s.stackContext rtn ccw) (s.sp - 29) 29 ∧
    ∀ e ∈ s.trace, e ∈ (s.stackContext rtn ccw).trace := by
  have h := pushAll_run s (frameList s rtn ccw) (by simp [frameList, pushTotal, Size.bytes])
  rw [← stackContext_eq] at h
  have ht : pushTotal (frameList s rtn ccw) = 29 := rfl
  have hsp : (s.stackContext rtn ccw).sp = s.sp - 29 := by
    have := h.form
    rw [this, ht]
    rfl
  have hh := h.holds
  have hb := h.bytes
  rw [hsp] at hh hb
  refine ⟨by have := h.form; rwa [ht] at this, ?_, hb, h.trace⟩
  have at' : ∀ pre p post (n : Nat), frameList s rtn ccw = pre ++ p :: post → pushTotal pre = n →
      StoredAs true { s with ccr := c } (s.stackContext rtn ccw) (s.sp - 29 + BitVec.ofNat 24 n) p.1.bytes
        p.2.toNat := by
    rintro pre p post n hl rfl
    have := (hh pre p post hl).congr (s' := { s with ccr := c }) rfl rfl rfl fun _ => id
    rwa [hu] at this
  constructor
  · rw [hc]
    simpa using at' [] ⟨.w, ccw⟩ _ 0 rfl rfl
  · exact at' ((frameList s rtn ccw).take 1) ⟨.b, s.d0⟩ _ 2 rfl rfl
  · exact at' ((frameList s rtn ccw).take 2) ⟨.b, s.d1⟩ _ 3 rfl rfl
  · exact at' ((frameList s rtn ccw).take 3) ⟨.w, s.d2⟩ _ 4 rfl rfl
  · exact at' ((frameList s rtn ccw).take 4) ⟨.w, s.d3⟩ _ 6 rfl rfl
  · exact at' ((frameList s rtn ccw).take 5) ⟨.w, s.d4⟩ _ 8 rfl rfl
  · exact at' ((frameList s rtn ccw).take 6) ⟨.w, s.d5⟩ _ 10 rfl rfl
  · exact at' ((frameList s rtn ccw).take 7) ⟨.l, s.d6⟩ _ 12 rfl rfl
  · exact at' ((frameList s rtn ccw).take 8) ⟨.l, s.d7⟩ _ 16 rfl rfl
  · exact at' ((frameList s rtn ccw).take 9) ⟨.p, s.x⟩ _ 20 rfl rfl
  · exact at' ((frameList s rtn ccw).take 10) ⟨.p, s.y⟩ _ 23 rfl rfl
  · exact at' ((frameList s rtn ccw).take 11) ⟨.p, rtn⟩ _ 26 rfl rfl

/-- The accesses of `StackContext`: the stores of the frame, each after a move of SP (R403). -/
theorem stackContext_trace (s : State) (rtn : Addr) (ccw : BitVec 16) (hu : s.ccr.u = false) :
    (s.stackContext rtn ccw).trace = frameTrace (s.sp - 29) ++ s.trace := by
  simp only [State.stackContext, State.push, State.store, State.setSp, State.accessed, Size.bytes, hu, frameTrace,
    framePulls, List.flatMap_cons, List.flatMap_nil, List.cons_append, List.nil_append, List.append_nil,
    List.cons.injEq, Effect.access.injEq, Access.mk.injEq, true_and, and_true, Bool.not_false,
    BitVec.sub_eq_add_neg, BitVec.add_assoc]
  exact ⟨rfl, rfl, rfl, rfl, rfl, rfl, rfl, rfl, rfl, rfl, rfl, rfl⟩

/-- What a frame holds of a state. -/
def State.context (s : State) :=
  (s.ccr, s.d0, s.d1, s.d2, s.d3, s.d4, s.d5, s.d6, s.d7, s.x, s.y, s.mem, s.map)

/-- A frame depends on the context before, on memory and the trace after. -/
theorem FrameHolds.congr {s s' t t' : State} {a rtn : Addr} (h : FrameHolds s t a rtn)
    (e : s'.context = s.context) (hm : t'.mem = t.mem) (ht : ∀ e ∈ t.trace, e ∈ t'.trace) :
    FrameHolds s' t' a rtn := by
  simp only [State.context, Prod.mk.injEq] at e
  obtain ⟨e1, e2, e3, e4, e5, e6, e7, e8, e9, e10, e11, e12, e13⟩ := e
  have key : ∀ {b n v}, StoredAs true s t b n v → StoredAs true s' t' b n v := fun k => k.congr e12 e13 hm ht
  constructor
  · rw [e1]
    exact key h.ccr
  · rw [e2]
    exact key h.d0
  · rw [e3]
    exact key h.d1
  · rw [e4]
    exact key h.d2
  · rw [e5]
    exact key h.d3
  · rw [e6]
    exact key h.d4
  · rw [e7]
    exact key h.d5
  · rw [e8]
    exact key h.d6
  · rw [e9]
    exact key h.d7
  · rw [e10]
    exact key h.x
  · rw [e11]
    exact key h.y
  · exact key h.rtn

/-- `ExceptionEntry` (R403, R404, R414). -/
theorem exceptionEntry_spec (s : State) (kind : ExceptionKind) (rtn : Addr) :
    let t := s.exceptionEntry kind rtn
    ContextStacked s t rtn ∧ t.ccr = s.ccr.enter kind ∧ t.pc = s.load (s.vecAddr kind) .p ∧
    t.runState = .running ∧ t.irqShadow = s.irqShadow ∧ t.taken = kind.taken s.taken := by
  obtain ⟨hf, hh, hb, -⟩ :=
    stackContext_spec (s.inSupervisor.loaded (s.vecAddr kind) .p) rtn s.ccr.word rfl s.ccr rfl
  have e : s.exceptionEntry kind rtn =
      { (s.inSupervisor.loaded (s.vecAddr kind) .p).stackContext rtn s.ccr.word with
        ccr := s.ccr.enter kind, pc := s.load (s.vecAddr kind) .p, runState := .running,
        taken := kind.taken s.taken } := rfl
  simp only [e]
  generalize (s.inSupervisor.loaded (s.vecAddr kind) .p).stackContext rtn s.ccr.word = u at *
  refine ⟨⟨?_, hh.congr rfl rfl fun _ => id, ⟨fun r _ => ?_, ?_, ?_⟩, hb, ?_, ?_, ?_, ?_, ?_⟩,
    by trivial, by trivial, by trivial, ?_, by trivial⟩
  · rw [hf]
    rfl
  · rw [hf]
    cases r <;> rfl
  all_goals
    rw [hf]
    rfl

/-- The accesses of `ExceptionEntry`: the vector's read, then the stores of the frame (R404). -/
theorem exceptionEntry_trace (s : State) (kind : ExceptionKind) (rtn : Addr) :
    (s.exceptionEntry kind rtn).trace = frameTrace (s.sp - 29) ++ vectorRead (s.vecAddr kind) :: s.trace :=
  stackContext_trace (s.inSupervisor.loaded (s.vecAddr kind) .p) rtn s.ccr.word rfl

/-- What an interrupt makes of the CCR (R404, R416). -/
theorem enter_interrupt (c : Ccr) (k : IrqKind) (req : Request) :
    EnteredCcr c (c.enter (.interrupt k req)) req.level (irqXm k c) := by
  cases k <;> exact ⟨rfl, rfl, rfl, rfl, rfl, rfl, rfl, rfl, rfl⟩

/-- `TakeInterruptNoStack` (R436). -/
theorem takeInterruptNoStack_spec (s : State) (k : IrqKind) (req : Request) :
    let t := s.takeInterruptNoStack k req
    t.ccr = s.ccr.enter (.interrupt k req) ∧ t.pc = s.load req.vecaddr .p ∧ t.irqShadow = false ∧
    t.taken = req :: s.taken ∧ t.sp = s.sp ∧ RegistersSame s t ∧ t.mem = s.mem ∧ t.runState = s.runState ∧
    t.map = s.map ∧ t.vec = s.vec ∧ t.enbdm = s.enbdm ∧ t.inputs = s.inputs ∧
    t.machineRequest = s.machineRequest ∧ t.trace = vectorRead req.vecaddr :: s.trace :=
  ⟨rfl, rfl, rfl, rfl, rfl, ⟨fun r _ => by cases r <;> rfl, rfl, rfl⟩, rfl, rfl, rfl, rfl, rfl, rfl, rfl, rfl⟩

/-! ## Returning from an exception -/

/-- The accesses of the pulls change the trace alone. -/
theorem framePulled_form (s : State) : s.framePulled = { s with trace := s.framePulled.trace } := by
  have key : ∀ (f : State → Nat × Nat → State), (∀ t p, f t p = { t with trace := (f t p).trace }) →
      ∀ (l : List (Nat × Nat)) (t : State), l.foldl f t = { t with trace := (l.foldl f t).trace } := by
    intro f hf l
    induction l with
    | nil => intro t; rfl
    | cons p l ih =>
      intro t
      rw [List.foldl_cons, ih]
      generalize (List.foldl f (f t p) l).trace = x
      rw [hf]
  exact key _ (fun _ _ => rfl) framePulls s

/-- RTI's restore, where the frame of a context stands in RAM: the old registers, the old CCR through `WriteCCR`
(R384, R403). -/
theorem restoreContext_of_frame (m s : State) (rtn : Addr) (h : FrameHolds s m m.sp rtn) (hp : m.map = s.map)
    (hr : s.RamAt m.sp 29) :
    m.restoreContext = { m with
      ccr := m.ccr.writeMasked s.ccr.word true true, d0 := s.d0, d1 := s.d1, d2 := s.d2, d3 := s.d3,
      d4 := s.d4, d5 := s.d5, d6 := s.d6, d7 := s.d7, x := s.x, y := s.y, sp := m.sp + 29,
      trace := m.restoreContext.trace } ∧ m.load (m.sp + 26) .p = rtn := by
  have at' : ∀ (o : Nat) (sz : Size) (v : BitVec sz.bits), o + sz.bytes ≤ 29 →
      StoredAs true s m (m.sp + BitVec.ofNat 24 o) sz.bytes v.toNat → m.load (m.sp + BitVec.ofNat 24 o) sz = v :=
    fun o sz v ho hv => hv.load hp fun k hk => by
      rw [addr_add_ofNat]
      exact hr _ (by omega)
  have e0 : m.load m.sp .w = s.ccr.word := by
    have := at' 0 .w s.ccr.word (by decide) (by simpa using h.ccr)
    simpa using this
  have e1 : m.load (m.sp + 2) .b = s.d0 := at' 2 .b s.d0 (by decide) h.d0
  have e2 : m.load (m.sp + 3) .b = s.d1 := at' 3 .b s.d1 (by decide) h.d1
  have e3 : m.load (m.sp + 4) .w = s.d2 := at' 4 .w s.d2 (by decide) h.d2
  have e4 : m.load (m.sp + 6) .w = s.d3 := at' 6 .w s.d3 (by decide) h.d3
  have e5 : m.load (m.sp + 8) .w = s.d4 := at' 8 .w s.d4 (by decide) h.d4
  have e6 : m.load (m.sp + 10) .w = s.d5 := at' 10 .w s.d5 (by decide) h.d5
  have e7 : m.load (m.sp + 12) .l = s.d6 := at' 12 .l s.d6 (by decide) h.d6
  have e8 : m.load (m.sp + 16) .l = s.d7 := at' 16 .l s.d7 (by decide) h.d7
  have e9 : m.load (m.sp + 20) .p = s.x := at' 20 .p s.x (by decide) h.x
  have e10 : m.load (m.sp + 23) .p = s.y := at' 23 .p s.y (by decide) h.y
  refine ⟨?_, at' 26 .p rtn (by decide) h.rtn⟩
  unfold State.restoreContext
  rw [e0, e1, e2, e3, e4, e5, e6, e7, e8, e9, e10, framePulled_form]
  rfl

/-- RTI with no interrupt pending under the restored CCR (R384, R435). -/
theorem returnFromException_plain (s : State)
    (h : interruptPending s.input.rtiIrqs false (s.ccr.writeMasked (s.load s.sp .w) true true) = none) :
    s.returnFromException = { s.restoreContext with pc := s.load (s.sp + 26) .p } := by
  unfold State.returnFromException
  have : s.restoreContext.ccr = s.ccr.writeMasked (s.load s.sp .w) true true := rfl
  simp only [this, h]

/-- RTI with an interrupt pending: its handler over the same frame (R384, R436). -/
theorem returnFromException_interrupt (s : State) (k : IrqKind) (req : Request)
    (h : interruptPending s.input.rtiIrqs false (s.ccr.writeMasked (s.load s.sp .w) true true) =
      some (k, req)) :
    s.returnFromException = (s.restoreContext.setSp s.sp).takeInterruptNoStack k req := by
  unfold State.returnFromException
  have hc : s.restoreContext.ccr = s.ccr.writeMasked (s.load s.sp .w) true true := rfl
  have hs : s.restoreContext.sp - frameBytes = s.sp := by
    show s.sp + frameBytes - frameBytes = s.sp
    simp
  simp only [hc, h, hs]

end Sys2Proof.Machine
end

