-- ==== Sys2Proof/Laws/Keeps.lean ====
section
/-! SUPPORT. The canonical form of memory through the shared operations, X through every write of the CCR, and
what the end of a step can do. -/

namespace Sys2Proof.Machine

/-! ## Memory -/

theorem State.Inv.of_mem {s t : State} (h : t.mem = s.mem) (hs : s.Inv) : t.Inv := by
  unfold State.Inv
  rw [h]
  exact hs

theorem State.Inv.store {s : State} (hs : s.Inv) (a : Addr) (sz : Size) (v : BitVec sz.bits) :
    (s.store a sz v).Inv := Memory.wf_store _ a sz v hs

theorem State.Inv.push {s : State} (hs : s.Inv) (sz : Size) (v : BitVec sz.bits) : (s.push sz v).Inv :=
  Memory.wf_store _ _ sz v hs

theorem State.Inv.pushAll {s : State} (hs : s.Inv) (l : List Pushed) : (s.pushAll l).Inv := by
  induction l with
  | nil => exact hs
  | cons p l ih =>
    rw [pushAll_cons]
    exact ih.push _ _

theorem State.Inv.pushReg {s : State} (hs : s.Inv) (r : StackReg) : (s.pushReg r).Inv := by
  cases r <;> exact hs.push _ _

theorem State.Inv.pushList {s : State} (hs : s.Inv) (l : List StackReg) : (s.pushList l).Inv := by
  unfold State.pushList
  induction l.reverse generalizing s with
  | nil => exact hs
  | cons r l ih => exact ih (hs.pushReg r)

theorem State.Inv.stackContext {s : State} (hs : s.Inv) (rtn : Addr) (ccw : BitVec 16) :
    (s.stackContext rtn ccw).Inv := by
  rw [stackContext_eq]
  exact hs.pushAll _

theorem State.Inv.exceptionEntry {s : State} (hs : s.Inv) (k : ExceptionKind) (rtn : Addr) :
    (s.exceptionEntry k rtn).Inv := by
  have hb : (s.inSupervisor.loaded (s.vecAddr k) .p).Inv := State.Inv.of_mem rfl hs
  exact State.Inv.of_mem rfl (hb.stackContext rtn s.ccr.word)

theorem State.Inv.locWrite {s : State} (hs : s.Inv) (l : Loc) (sz : Size) (v : BitVec sz.bits)
    (k : State → Result) (t : State) (h : s.locWrite l sz v k = .next t)
    (hk : ∀ u : State, u.Inv → k u = .next t → t.Inv) : t.Inv := by
  cases l with
  | imm e => cases h
  | reg r => exact hk _ (State.Inv.of_mem (by simp [State.regWrite]) hs) h
  | mem ea => exact hk _ (hs.store _ _ _) h

theorem State.Inv.oprMoved {s : State} (hs : s.Inv) (o : Opr) (n : Nat) : (s.oprMoved o n).Inv :=
  State.Inv.of_mem (by simp) hs

theorem State.Inv.oprDone {s : State} (hs : s.Inv) (o : Opr) (sz : Size) : (s.oprDone o sz).Inv :=
  State.Inv.of_mem (by simp) hs

theorem State.Inv.modify {s t : State} (hs : s.Inv) (reads : Bool) (o : Opr) (sz : Size)
    (f : {w : Nat} → BitVec w → Ccr → BitVec w × Ccr) (i : Instr) (h : modify reads o sz f i s = .next t) :
    t.Inv := by
  unfold Machine.modify at h
  cases hl : s.oprLoc o sz.bytes with
  | imm e => rw [hl] at h; cases h
  | reg r =>
    rw [hl] at h
    cases h
    exact State.Inv.of_mem (by simp) hs
  | mem ea =>
    rw [hl] at h
    cases h
    have hu : (if reads then (s.oprMoved o sz.bytes).loaded ea sz else s.oprMoved o sz.bytes).Inv :=
      State.Inv.of_mem (by cases reads <;> simp) hs
    exact State.Inv.of_mem rfl (hu.store _ _ _)

theorem State.Inv.rmw {s t : State} (hs : s.Inv) (o : Opr) (sz : Size)
    (f : {w : Nat} → BitVec w → Ccr → BitVec w × Ccr) (i : Instr) (h : rmw o sz f i s = .next t) : t.Inv :=
  hs.modify true o sz f i h

theorem Memory.wf_freed {m : Memory} (k : Nat) (l : List Nat) (hl : ∀ a ∈ l, a < 2 ^ 24) (hm : m.wf = true) :
    (m.freed k l).wf = true := by
  unfold Memory.freed
  induction l generalizing m with
  | nil => exact hm
  | cons a l ih =>
    exact ih (fun b hb => hl b (List.mem_cons_of_mem _ hb))
      (Memory.wf_write a _ (hl a List.mem_cons_self) hm)

/-- The addresses a trace stores to lie in the address space. -/
theorem ramStored_lt (map : MemMap) (trace : List Effect) : ∀ a ∈ map.ramStored trace, a < 2 ^ 24 := by
  intro a ha
  have h := (List.mem_filter.mp ha).1
  obtain ⟨e, -, he⟩ := List.mem_flatMap.mp h
  have run : ∀ b n, a ∈ addressRun b n → a < 2 ^ 24 := by
    intro b n hb
    obtain ⟨k, -, rfl⟩ := List.mem_map.mp hb
    exact BitVec.isLt _
  cases e with
  | spWritten => cases he
  | access x =>
    obtain ⟨kind, sup, b, n⟩ := x
    cases kind
    · cases he
    · cases he
    · exact run _ _ he

theorem State.Inv.abandon {s : State} (hs : s.Inv) (t : State) : (s.abandon t).Inv :=
  Memory.wf_freed _ _ (ramStored_lt _ _) hs

theorem State.Inv.abandonUnknown {s : State} (hs : s.Inv) : s.abandonUnknown.Inv := by
  have h : ∀ a ∈ s.allRam, a < 2 ^ 24 := by
    intro a ha
    rw [State.allRam, List.mem_filter] at ha
    exact List.mem_range.mp ha.1
  unfold State.abandonUnknown
  generalize s.allRam = l at *
  exact Memory.wf_freed _ _ h hs

theorem State.Inv.warmReset {s : State} (hs : s.Inv) : s.warmReset.Inv := State.Inv.of_mem rfl hs

/-! ## X and the other system bits -/

/-- No write of the CCR raises X (R19, R22). -/
theorem writeMasked_xm (c : Ccr) (new : BitVec 16) (hi lo : Bool) (h : c.xm = false) :
    (c.writeMasked new hi lo).xm = false := by
  simp [Ccr.writeMasked, h]

/-- In user state no write of the CCR changes a system bit (R18, R19). -/
theorem writeMasked_user (c : Ccr) (new : BitVec 16) (hi lo : Bool) (h : c.u = true) :
    c.SystemSame (c.writeMasked new hi lo) := by
  simp [Ccr.writeMasked, h, Ccr.SystemSame]

/-- An XIRQ is pending only where one is presented and X is clear; an I-bit interrupt only where I is clear
(R410). -/
theorem interruptPending_some {a : IrqAnswer} {sh : Bool} {c : Ccr} {k : IrqKind} {r : Request}
    (h : interruptPending a sh c = some (k, r)) :
    (k = .xirq ∧ a.xirq = some r ∧ c.xm = false) ∨
    (k = .irq ∧ a.irqAt c.ipl = some r ∧ c.i = false ∧ sh = false ∧ (a.xirq = none ∨ c.xm = true)) := by
  unfold interruptPending at h
  generalize a.irqAt c.ipl = i at *
  generalize a.xirq = x at *
  cases x <;> cases i <;> cases hx : c.xm <;> cases hi : c.i <;> cases sh <;> simp_all

/-- What the test looks at of the CCR (R410). -/
theorem interruptPending_congr {a : IrqAnswer} {sh : Bool} {c c' : Ccr} (hx : c'.xm = c.xm) (hi : c'.i = c.i)
    (hl : c'.ipl = c.ipl) : interruptPending a sh c' = interruptPending a sh c := by
  unfold interruptPending
  rw [hx, hi, hl]

/-! ## The end of a step -/

theorem mem_accesses {t : State} {a : Access} : a ∈ t.accesses ↔ .access a ∈ t.trace := by
  unfold State.accesses
  rw [List.mem_filterMap]
  constructor
  · rintro ⟨e, he, h⟩
    cases e with
    | access b =>
      cases h
      exact List.mem_reverse.mp he
    | spWritten => cases h
  · intro h
    exact ⟨_, List.mem_reverse.mpr h, rfl⟩

theorem touches_iff {map : MemMap} {a : Access} {c : AddrClass} :
    (a.classes map).contains c = true ↔ a.Touches map c := by
  simp [Access.classes, addressRun, Access.Touches]

/-- Whether the map refuses an access (D6, U6). -/
theorem refused_isSome {map : MemMap} {a : Access} : (a.refused map).isSome = true ↔
    a.Touches map .unimplemented ∨ (a.kind = .write ∧ a.Touches map .romRefused) := by
  unfold Access.refused
  rw [← touches_iff, ← touches_iff]
  split
  · next h =>
    rw [h]
    simp
  · next h => split <;> simp_all

theorem refused_cases {map : MemMap} {a : Access} {r : Refusal} (h : a.refused map = some r) :
    r = .unimplementedAddress ∨ r = .romWrite := by
  unfold Access.refused at h
  split at h
  · cases h
    exact .inl rfl
  · split at h
    · cases h
      exact .inr rfl
    · cases h

/-- What a step comes to: the map's answers, one entry of the outside world's list used up. -/
theorem stepsTo_of_settle {s t : State} (h : step s = usedInput (settle (.next t))) : StepsTo s t := by
  have key : t.MapRefuses ↔ ∃ r, t.accesses.findSome? (Access.refused t.map) = some r := by
    rw [← Option.isSome_iff_exists, List.findSome?_isSome_iff]
    constructor
    · rintro ⟨a, ha, hr⟩
      exact ⟨a, mem_accesses.mpr ha, refused_isSome.mpr hr⟩
    · rintro ⟨a, ha, hr⟩
      exact ⟨a, mem_accesses.mp ha, refused_isSome.mp hr⟩
  refine ⟨fun hm => ?_, fun hm => ?_⟩
  · obtain ⟨r, hr⟩ := key.mp hm
    simp only [settle, hr, usedInput] at h
    obtain ⟨a, -, -⟩ := hm
    obtain ⟨b, -, hb⟩ := List.exists_of_findSome?_eq_some hr
    rcases refused_cases hb with rfl | rfl
    · exact .inl h
    · exact .inr h
  · have hn : t.accesses.findSome? (Access.refused t.map) = none := by
      rw [← Option.not_isSome_iff_eq_none, Option.isSome_iff_exists]
      exact fun he => hm (key.mpr he)
    simp only [settle, hn, usedInput] at h
    refine ⟨_, ?_, h⟩
    rw [Bool.or_eq_true, List.any_eq_true]
    refine or_congr_right ⟨?_, ?_⟩
    · rintro ⟨a, ha, hr⟩
      exact ⟨a, mem_accesses.mp ha, touches_iff.mp hr⟩
    · rintro ⟨a, ha, hr⟩
      exact ⟨a, mem_accesses.mpr ha, touches_iff.mpr hr⟩

/-- A step that has made no access (D6). -/
theorem settle_quiet {t : State} (h : t.trace = []) : settle (.next t) = .next t := by
  cases t
  simp only at h
  subst h
  simp [settle, State.accesses]

/-- A step that has a next state has one that the rest of it led to. -/
theorem settle_next {r : Result} {t : State} (h : usedInput (settle r) = .next t) :
    ∃ u, r = .next u ∧ ∃ q, t = { u with inputs := u.inputs.tail, machineRequest := q } := by
  cases r with
  | next u =>
    refine ⟨u, rfl, ?_⟩
    simp only [settle] at h
    split at h
    · cases h
    · cases h
      exact ⟨_, rfl⟩
  | fault f => cases h
  | refused r => cases h

end Sys2Proof.Machine
end

