-- ==== Sys2Proof/Laws/Lists.lean ====
section
/-! SUPPORT. The lists of PSH and PUL: what a run of pushes or pulls leaves (R168, R169). -/

namespace Sys2Proof.Machine

/-! ## Registers on the stack -/

/-- The size of a register on the stack (R168). -/
def StackReg.size : StackReg → Size
  | .cch | .ccl => .b
  | .d r => r.size
  | .xy _ => .p

/-- What PSH stores for a register, with its size (R168). -/
def State.stackItem (s : State) (r : StackReg) : Pushed :=
  match r with
  | .cch => ⟨.b, s.ccr.word.extractLsb' 8 8⟩
  | .ccl => ⟨.b, s.ccr.word.extractLsb' 0 8⟩
  | .d r => ⟨r.size, s.getD r⟩
  | .xy r => ⟨.p, s.getXY r⟩

theorem stackItem_size (s : State) (r : StackReg) : (s.stackItem r).1 = r.size := by cases r <;> rfl
theorem stackItem_bytes (s : State) (r : StackReg) : (s.stackItem r).1.bytes = stackBytes r := by
  cases r <;> rfl

theorem stackItem_toNat (s : State) (r : StackReg) : (s.stackItem r).2.toNat = s.stackNat r := by
  cases r with
  | cch =>
    have := s.ccr.word.isLt
    show (s.ccr.word.extractLsb' 8 8).toNat = _
    simp only [BitVec.extractLsb'_toNat, State.stackNat, Nat.shiftRight_eq_div_pow]
    omega
  | ccl =>
    show (s.ccr.word.extractLsb' 0 8).toNat = _
    simp [State.stackNat]
  | _ => rfl

theorem pushReg_eq (s : State) (r : StackReg) : s.pushReg r = s.push (s.stackItem r).1 (s.stackItem r).2 := by
  cases r <;> rfl

theorem stackItem_push (s : State) (sz : Size) (v : BitVec sz.bits) (r : StackReg) :
    (s.push sz v).stackItem r = s.stackItem r := by
  cases r with
  | d r => cases r <;> rfl
  | xy r => cases r <;> rfl
  | _ => rfl

/-- PSH of a list is one run of pushes (R168). -/
theorem pushList_eq (s : State) (l : List StackReg) : s.pushList l = s.pushAll (l.map s.stackItem) := by
  have key : ∀ (l : List StackReg) (t : State), (∀ r, t.stackItem r = s.stackItem r) →
      l.foldl State.pushReg t = (l.map s.stackItem).foldl (fun s p => s.push p.1 p.2) t := by
    intro l
    induction l with
    | nil => intros; rfl
    | cons r l ih =>
      intro t ht
      rw [List.foldl_cons, List.map_cons, List.foldl_cons, pushReg_eq, ht]
      exact ih _ fun q => by rw [stackItem_push, ht]
  unfold State.pushList State.pushAll
  rw [← List.map_reverse]
  exact key _ s fun _ => rfl

theorem stackTotal_cons (r : StackReg) (l : List StackReg) :
    stackTotal (r :: l) = stackBytes r + stackTotal l := by simp [stackTotal]

theorem pushTotal_items (s : State) (l : List StackReg) : pushTotal (l.map s.stackItem) = stackTotal l := by
  induction l with
  | nil => rfl
  | cons r l ih => rw [List.map_cons, pushTotal_cons, ih, stackTotal_cons, stackItem_bytes]

/-- What PSH of a list leaves (R168). -/
theorem pushList_run (s : State) (l : List StackReg) (hl : stackTotal l < 2 ^ 20) :
    PushedRun s (s.pushList l) (l.map s.stackItem) := by
  rw [pushList_eq]
  exact pushAll_run s _ (by rwa [pushTotal_items])

/-- The lists of the two masks, and the lists of the statements (R168). -/
theorem stackList_eq_named : ∀ (row2 : Bool) (mask : BitVec 6), stackList row2 mask = stackNamed row2 mask := by
  decide

theorem stackTotal_named : ∀ (row2 : Bool) (mask : BitVec 6), stackTotal (stackNamed row2 mask) < 64 := by
  decide

theorem stackNamed_nodup : ∀ (row2 : Bool) (mask : BitVec 6), (stackNamed row2 mask).Nodup := by decide

/-! ## Pulls -/

/-- What a run of pulls leaves, the CCR not yet written (R169). -/
structure Pulled (s t : State) (l : List StackReg) : Prop where
  sp : t.sp = s.sp + BitVec.ofNat 24 (stackTotal l)
  mem : t.mem = s.mem
  pc : t.pc = s.pc
  ccr : t.ccr = s.ccr
  machine : MachineSame s t
  dval : ∀ pre q post, l = pre ++ .d q :: post → .d q ∉ post →
    s.Reads (s.sp + BitVec.ofNat 24 (stackTotal pre)) q.size.bytes (t.getD q).toNat
  xval : ∀ pre q post, l = pre ++ .xy q :: post → .xy q ∉ post →
    s.Reads (s.sp + BitVec.ofNat 24 (stackTotal pre)) 3 (t.getXY q).toNat
  dsame : ∀ q, .d q ∉ l → t.getD q = s.getD q
  xsame : ∀ q, .xy q ∉ l → t.getXY q = s.getXY q

/-- A run of pulls, with the CCR bytes gathered (R169). -/
def pullFold (l : List StackReg) (s : State) (new : BitVec 16) : State × BitVec 16 :=
  l.foldl (fun p r => p.1.pullReg p.2 r) (s, new)

/-- One pull. -/
theorem pullReg_pulled (s : State) (new : BitVec 16) (r : StackReg) : Pulled s (s.pullReg new r).1 [r] := by
  have tot : BitVec.ofNat 24 (stackTotal [r]) = BitVec.ofNat 24 (s.stackItem r).1.bytes := by
    rw [stackItem_bytes s]
    simp [stackTotal]
  have single : ∀ (pre post : List StackReg) x, [r] = pre ++ x :: post → pre = [] ∧ x = r := by
    intro pre post x h
    cases pre with
    | nil => simpa using (List.cons.inj h).1.symm
    | cons y ys => simp at h
  have here : s.sp + BitVec.ofNat 24 (stackTotal []) = s.sp := by simp [stackTotal]
  have noD : ∀ {P : Prop} (pre post : List StackReg) q, r ≠ .d q → [r] = pre ++ .d q :: post → P :=
    fun pre post q hr h => absurd (single _ _ _ h).2.symm hr
  have noXY : ∀ {P : Prop} (pre post : List StackReg) q, r ≠ .xy q → [r] = pre ++ .xy q :: post → P :=
    fun pre post q hr h => absurd (single _ _ _ h).2.symm hr
  cases r with
  | cch =>
    exact ⟨by rw [tot]; rfl, rfl, rfl, rfl, ⟨rfl, rfl, rfl, rfl, rfl, rfl, rfl, rfl⟩,
      fun pre q post h _ => noD pre post q (by simp) h, fun pre q post h _ => noXY pre post q (by simp) h,
      fun q _ => by cases q <;> rfl, fun q _ => by cases q <;> rfl⟩
  | ccl =>
    exact ⟨by rw [tot]; rfl, rfl, rfl, rfl, ⟨rfl, rfl, rfl, rfl, rfl, rfl, rfl, rfl⟩,
      fun pre q post h _ => noD pre post q (by simp) h, fun pre q post h _ => noXY pre post q (by simp) h,
      fun q _ => by cases q <;> rfl, fun q _ => by cases q <;> rfl⟩
  | d r =>
    refine ⟨by rw [tot]; simp [State.pullReg, State.stackItem], by simp [State.pullReg],
      by simp [State.pullReg], by simp [State.pullReg],
      (⟨by simp [State.pullReg], by simp [State.pullReg], by simp [State.pullReg], by simp [State.pullReg],
        by simp [State.pullReg], by simp [State.pullReg], by simp [State.pullReg], by simp [State.pullReg]⟩),
      fun pre q post h _ => ?_, fun pre q post h _ => noXY pre post q (by simp) h, fun q hq => ?_,
      fun q _ => ?_⟩
    · obtain ⟨rfl, h⟩ := single _ _ _ h
      cases h
      have e : (s.pullReg new (.d r)).1.getD r = s.load s.sp r.size := getD_setD_same _ _ _
      rw [here, e]
      exact load_reads _ _ _
    · have : q ≠ r := by rintro rfl; simp at hq
      exact (getD_setD_ne _ _ _ _ this).trans (by simp)
    · exact (setD_getXY _ _ _ _).trans (by simp)
  | xy r =>
    refine ⟨by rw [tot]; simp [State.pullReg, State.stackItem], by simp [State.pullReg],
      by simp [State.pullReg], by simp [State.pullReg],
      (⟨by simp [State.pullReg], by simp [State.pullReg], by simp [State.pullReg], by simp [State.pullReg],
        by simp [State.pullReg], by simp [State.pullReg], by simp [State.pullReg], by simp [State.pullReg]⟩),
      fun pre q post h _ => noD pre post q (by simp) h, fun pre q post h _ => ?_, fun q _ => ?_,
      fun q hq => ?_⟩
    · obtain ⟨rfl, h⟩ := single _ _ _ h
      cases h
      have e : (s.pullReg new (.xy r)).1.getXY r = s.load s.sp .p := getXY_setXY_same _ _ _
      rw [here, e]
      exact load_reads s s.sp .p
    · exact (setXY_getD _ _ _ _).trans (by simp)
    · have : q ≠ r := by rintro rfl; simp at hq
      exact (getXY_setXY_ne _ _ _ _ this).trans (by simp)

/-- A run of pulls. -/
theorem pullFold_pulled (l : List StackReg) (s : State) (new : BitVec 16) :
    Pulled s (pullFold l s new).1 l := by
  induction l generalizing s new with
  | nil =>
    exact ⟨by simp [pullFold, stackTotal], rfl, rfl, rfl, .refl s, by simp, by simp, fun _ _ => rfl,
      fun _ _ => rfl⟩
  | cons r l ih =>
    have h1 := pullReg_pulled s new r
    have h2 := ih (s.pullReg new r).1 (s.pullReg new r).2
    have e : pullFold (r :: l) s new = pullFold l (s.pullReg new r).1 (s.pullReg new r).2 := rfl
    rw [e]
    generalize (pullFold l (s.pullReg new r).1 (s.pullReg new r).2).1 = t at *
    generalize (s.pullReg new r).1 = u at *
    have tot : stackTotal [r] = stackBytes r := by simp [stackTotal]
    have hsp : u.sp = s.sp + BitVec.ofNat 24 (stackBytes r) := by rw [h1.sp, tot]
    have there : ∀ {pre n v}, u.Reads (u.sp + BitVec.ofNat 24 (stackTotal pre)) n v →
        s.Reads (s.sp + BitVec.ofNat 24 (stackTotal (r :: pre))) n v := by
      intro pre n v h
      rw [hsp, addr_add_ofNat, ← stackTotal_cons] at h
      exact Reads.congr h h1.mem.symm h1.machine.map.symm
    refine ⟨?_, by rw [h2.mem, h1.mem], by rw [h2.pc, h1.pc], by rw [h2.ccr, h1.ccr],
      h1.machine.trans h2.machine, ?_, ?_, ?_, ?_⟩
    · rw [h2.sp, hsp, addr_add_ofNat, stackTotal_cons]
    · intro pre q post h hn
      cases pre with
      | nil =>
        simp only [List.nil_append, List.cons.injEq] at h
        obtain ⟨rfl, rfl⟩ := h
        rw [h2.dsame q hn]
        exact h1.dval [] q [] rfl (by simp)
      | cons x pre =>
        simp only [List.cons_append, List.cons.injEq] at h
        obtain ⟨rfl, h⟩ := h
        exact there (h2.dval pre q post h hn)
    · intro pre q post h hn
      cases pre with
      | nil =>
        simp only [List.nil_append, List.cons.injEq] at h
        obtain ⟨rfl, rfl⟩ := h
        rw [h2.xsame q hn]
        exact h1.xval [] q [] rfl (by simp)
      | cons x pre =>
        simp only [List.cons_append, List.cons.injEq] at h
        obtain ⟨rfl, h⟩ := h
        exact there (h2.xval pre q post h hn)
    · intro q hq
      simp only [List.mem_cons, not_or] at hq
      rw [h2.dsame q hq.2, h1.dsame q (by simpa using hq.1)]
    · intro q hq
      simp only [List.mem_cons, not_or] at hq
      rw [h2.xsame q hq.2, h1.xsame q (by simpa using hq.1)]

theorem pullFold_new (l : List StackReg) (s : State) (new : BitVec 16) (h1 : .cch ∉ l) (h2 : .ccl ∉ l) : (pullFold l s new).2 = new := by
  induction l generalizing s new with
  | nil => rfl
  | cons r l ih =>
    simp only [List.mem_cons, not_or] at h1 h2
    have e : pullFold (r :: l) s new = pullFold l (s.pullReg new r).1 (s.pullReg new r).2 := rfl
    rw [e, ih _ _ h1.2 h2.2]
    cases r with
    | cch => exact absurd rfl h1.1
    | ccl => exact absurd rfl h2.1
    | _ => rfl

/-- `WriteCCR` looks at the bytes it writes alone (R19). -/
theorem writeMasked_congr (c : Ccr) (new new' : BitVec 16) (hi lo : Bool) (h1 : hi = true → ∀ k, 8 ≤ k → k < 16 → new.getLsbD k = new'.getLsbD k)
   (h2 : lo = true → ∀ k, k < 8 → new.getLsbD k = new'.getLsbD k) : c.writeMasked new hi lo = c.writeMasked new' hi lo := by
  have e1 : hi = true → new.extractLsb' 8 3 = new'.extractLsb' 8 3 := by
    intro h
    apply BitVec.eq_of_getLsbD_eq
    intro k hk
    rw [BitVec.getLsbD_extractLsb', BitVec.getLsbD_extractLsb', h1 h _ (by omega) (by omega)]
  unfold Ccr.writeMasked
  simp only [getElem_eq_getLsbD]
  cases hi <;> cases lo <;> simp only [Bool.false_and, Bool.true_and, Bool.false_eq_true, if_false, forall_const, if_true] at *
  · rw [h2 0 (by omega), h2 1 (by omega), h2 2 (by omega), h2 3 (by omega), h2 4 (by omega), h2 6 (by omega), h2 7 (by omega)]
  · rw [e1, h1 15 (by omega) (by omega)]
  · rw [e1, h1 15 (by omega) (by omega), h2 0 (by omega), h2 1 (by omega), h2 2 (by omega), h2 3 (by omega), h2 4 (by omega), h2 6 (by omega), h2 7 (by omega)]

end Sys2Proof.Machine
end

