-- ==== Sys2Proof/Laws/PerInstr.lean ====
section
/-! SUPPORT. The length of every instruction's object code (R81), one lemma per instruction. -/

namespace Sys2Proof.Laws

-- One proof after another: all of them wait for the equations of `encode`.
set_option Elab.async false
set_option linter.unusedSimpArgs false

/-- R81: an instruction is 1 to 11 bytes long. -/
def EncodedLength.Statement (i : Instr) : Prop := 1 ≤ i.length ∧ i.length ≤ 11

theorem EncodedLength.ldD (d : DReg) (src : LdSrc) : EncodedLength.Statement (.ldD d src) := by
  cases src with
  | imm v => have := d.size.bytes_le; simp only [EncodedLength.Statement, Instr.length, encode, List.length_cons, encImm_length]; omega
  | ext a => simp [EncodedLength.Statement, Instr.length, encode]
  | opr o => have := o.enc_length_le; simp only [EncodedLength.Statement, Instr.length, encode, List.length_cons]; omega

theorem EncodedLength.ldXY (r : XY) (src : LdXYSrc) : EncodedLength.Statement (.ldXY r src) := by
  cases src with
  | imm a => simp [EncodedLength.Statement, Instr.length, encode]
  | imm18 a => simp [EncodedLength.Statement, Instr.length, encode]
  | ext a => simp [EncodedLength.Statement, Instr.length, encode]
  | opr o => have := o.enc_length_le; simp only [EncodedLength.Statement, Instr.length, encode, List.length_cons]; omega

theorem EncodedLength.ldS (src : PSrc) : EncodedLength.Statement (.ldS src) := by
  cases src with
  | imm a => simp [EncodedLength.Statement, Instr.length, encode]
  | opr o => have := o.enc_length_le; simp only [EncodedLength.Statement, Instr.length, encode, List.length_cons]; omega

theorem EncodedLength.stD (d : DReg) (dst : ExtOpr) : EncodedLength.Statement (.stD d dst) := by
  cases dst with
  | ext a => simp [EncodedLength.Statement, Instr.length, encode]
  | opr o => have := o.enc_length_le; simp only [EncodedLength.Statement, Instr.length, encode, List.length_cons]; omega

theorem EncodedLength.stXY (r : XY) (dst : ExtOpr) : EncodedLength.Statement (.stXY r dst) := by
  cases dst with
  | ext a => simp [EncodedLength.Statement, Instr.length, encode]
  | opr o => have := o.enc_length_le; simp only [EncodedLength.Statement, Instr.length, encode, List.length_cons]; omega

theorem EncodedLength.stS (o : Opr) : EncodedLength.Statement (.stS o) := by
  have := o.enc_length_le
  simp only [EncodedLength.Statement, Instr.length, encode, List.length_cons, List.length_append]
  omega

theorem EncodedLength.movB (src : MovSrc) (dst : Opr) : EncodedLength.Statement (.movB src dst) := by
  have := encMov_length_le 0x0C 0x1C .b src dst
  simp only [EncodedLength.Statement, Instr.length, encode, List.length_cons, List.length_append]
  omega

theorem EncodedLength.movW (src : MovSrc) (dst : Opr) : EncodedLength.Statement (.movW src dst) := by
  have := encMov_length_le 0x0D 0x1D .w src dst
  simp only [EncodedLength.Statement, Instr.length, encode, List.length_cons, List.length_append]
  omega

theorem EncodedLength.movP (src : MovSrc) (dst : Opr) : EncodedLength.Statement (.movP src dst) := by
  have := encMov_length_le 0x0E 0x1E .p src dst
  simp only [EncodedLength.Statement, Instr.length, encode, List.length_cons, List.length_append]
  omega

theorem EncodedLength.movL (src : MovSrc) (dst : Opr) : EncodedLength.Statement (.movL src dst) := by
  have := encMov_length_le 0x0F 0x1F .l src dst
  simp only [EncodedLength.Statement, Instr.length, encode, List.length_cons, List.length_append]
  omega

theorem EncodedLength.psh (row2 : Bool) (mask : BitVec 6) : EncodedLength.Statement (.psh row2 mask) := by
  simp [EncodedLength.Statement, Instr.length, encode]

theorem EncodedLength.pul (row2 : Bool) (mask : BitVec 6) : EncodedLength.Statement (.pul row2 mask) := by
  simp [EncodedLength.Statement, Instr.length, encode]

theorem EncodedLength.pshAll : EncodedLength.Statement .pshAll := by
  simp [EncodedLength.Statement, Instr.length, encode]

theorem EncodedLength.pshAll16b : EncodedLength.Statement .pshAll16b := by
  simp [EncodedLength.Statement, Instr.length, encode]

theorem EncodedLength.pulAll : EncodedLength.Statement .pulAll := by
  simp [EncodedLength.Statement, Instr.length, encode]

theorem EncodedLength.pulAll16b : EncodedLength.Statement .pulAll16b := by
  simp [EncodedLength.Statement, Instr.length, encode]

theorem EncodedLength.lea (r : LeaDst) (o : Opr) : EncodedLength.Statement (.lea r o) := by
  have := o.enc_length_le
  simp only [EncodedLength.Statement, Instr.length, encode, List.length_cons, List.length_append]
  omega

theorem EncodedLength.leaImm (r : XYS) (i : BitVec 8) : EncodedLength.Statement (.leaImm r i) := by
  simp [EncodedLength.Statement, Instr.length, encode]

theorem EncodedLength.clrB (o : Opr) : EncodedLength.Statement (.clrB o) := by
  have := o.enc_length_le
  simp only [EncodedLength.Statement, Instr.length, encode, List.length_cons, List.length_append]
  omega

theorem EncodedLength.clrW (o : Opr) : EncodedLength.Statement (.clrW o) := by
  have := o.enc_length_le
  simp only [EncodedLength.Statement, Instr.length, encode, List.length_cons, List.length_append]
  omega

theorem EncodedLength.clrP (o : Opr) : EncodedLength.Statement (.clrP o) := by
  have := o.enc_length_le
  simp only [EncodedLength.Statement, Instr.length, encode, List.length_cons, List.length_append]
  omega

theorem EncodedLength.clrL (o : Opr) : EncodedLength.Statement (.clrL o) := by
  have := o.enc_length_le
  simp only [EncodedLength.Statement, Instr.length, encode, List.length_cons, List.length_append]
  omega

theorem EncodedLength.clrD (d : DReg) : EncodedLength.Statement (.clrD d) := by
  simp [EncodedLength.Statement, Instr.length, encode]

theorem EncodedLength.clrXY (r : XY) : EncodedLength.Statement (.clrXY r) := by
  simp [EncodedLength.Statement, Instr.length, encode]

theorem EncodedLength.tfr (src dst : CpuReg) : EncodedLength.Statement (.tfr src dst) := by
  simp [EncodedLength.Statement, Instr.length, encode]

theorem EncodedLength.zex (src dst : CpuReg) : EncodedLength.Statement (.zex src dst) := by
  simp [EncodedLength.Statement, Instr.length, encode]

theorem EncodedLength.exg (src dst : CpuReg) : EncodedLength.Statement (.exg src dst) := by
  simp [EncodedLength.Statement, Instr.length, encode]

theorem EncodedLength.sex (src dst : CpuReg) : EncodedLength.Statement (.sex src dst) := by
  simp [EncodedLength.Statement, Instr.length, encode]

theorem EncodedLength.add (d : DReg) (m : DSrc) : EncodedLength.Statement (.add d m) := by
  have := encDSrc_length_le 0x0A#5 0x0C#5 d m
  simp only [EncodedLength.Statement, Instr.length, encode, List.length_cons, List.length_append]
  omega

theorem EncodedLength.adc (d : DReg) (m : DSrc) : EncodedLength.Statement (.adc d m) := by
  have := encDSrc_length_le 0x0A#5 0x0C#5 d m
  simp only [EncodedLength.Statement, Instr.length, encode, List.length_cons, List.length_append]
  omega

theorem EncodedLength.sub (d : DReg) (m : DSrc) : EncodedLength.Statement (.sub d m) := by
  have := encDSrc_length_le 0x0E#5 0x10#5 d m
  simp only [EncodedLength.Statement, Instr.length, encode, List.length_cons, List.length_append]
  omega

theorem EncodedLength.subD6 (yMinusX : Bool) : EncodedLength.Statement (.subD6 yMinusX) := by
  simp [EncodedLength.Statement, Instr.length, encode]

theorem EncodedLength.sbc (d : DReg) (m : DSrc) : EncodedLength.Statement (.sbc d m) := by
  have := encDSrc_length_le 0x0E#5 0x10#5 d m
  simp only [EncodedLength.Statement, Instr.length, encode, List.length_cons, List.length_append]
  omega

theorem EncodedLength.incD (d : DReg) : EncodedLength.Statement (.incD d) := by
  simp [EncodedLength.Statement, Instr.length, encode]

theorem EncodedLength.incB (o : Opr) : EncodedLength.Statement (.incB o) := by
  have := o.enc_length_le
  simp only [EncodedLength.Statement, Instr.length, encode, List.length_cons, List.length_append]
  omega

theorem EncodedLength.incW (o : Opr) : EncodedLength.Statement (.incW o) := by
  have := o.enc_length_le
  simp only [EncodedLength.Statement, Instr.length, encode, List.length_cons, List.length_append]
  omega

theorem EncodedLength.incL (o : Opr) : EncodedLength.Statement (.incL o) := by
  have := o.enc_length_le
  simp only [EncodedLength.Statement, Instr.length, encode, List.length_cons, List.length_append]
  omega

theorem EncodedLength.decD (d : DReg) : EncodedLength.Statement (.decD d) := by
  simp [EncodedLength.Statement, Instr.length, encode]

theorem EncodedLength.decB (o : Opr) : EncodedLength.Statement (.decB o) := by
  have := o.enc_length_le
  simp only [EncodedLength.Statement, Instr.length, encode, List.length_cons, List.length_append]
  omega

theorem EncodedLength.decW (o : Opr) : EncodedLength.Statement (.decW o) := by
  have := o.enc_length_le
  simp only [EncodedLength.Statement, Instr.length, encode, List.length_cons, List.length_append]
  omega

theorem EncodedLength.decL (o : Opr) : EncodedLength.Statement (.decL o) := by
  have := o.enc_length_le
  simp only [EncodedLength.Statement, Instr.length, encode, List.length_cons, List.length_append]
  omega

theorem EncodedLength.cmpD (d : DReg) (m : DSrc) : EncodedLength.Statement (.cmpD d m) := by
  have := encDSrc_length_le 0x1C#5 0x1E#5 d m
  simp only [EncodedLength.Statement, Instr.length, encode, List.length_cons, List.length_append]
  omega

theorem EncodedLength.cmpXY (r : XY) (m : PSrc) : EncodedLength.Statement (.cmpXY r m) := by
  cases m with
  | imm a => simp [EncodedLength.Statement, Instr.length, encode]
  | opr o => have := o.enc_length_le; simp only [EncodedLength.Statement, Instr.length, encode, List.length_cons]; omega

theorem EncodedLength.cmpS (m : PSrc) : EncodedLength.Statement (.cmpS m) := by
  cases m with
  | imm a => simp [EncodedLength.Statement, Instr.length, encode]
  | opr o => have := o.enc_length_le; simp only [EncodedLength.Statement, Instr.length, encode, List.length_cons]; omega

theorem EncodedLength.cmpXwithY : EncodedLength.Statement .cmpXwithY := by
  simp [EncodedLength.Statement, Instr.length, encode]

theorem EncodedLength.negB (o : Opr) : EncodedLength.Statement (.negB o) := by
  have := o.enc_length_le
  simp only [EncodedLength.Statement, Instr.length, encode, List.length_cons, List.length_append]
  omega

theorem EncodedLength.negW (o : Opr) : EncodedLength.Statement (.negW o) := by
  have := o.enc_length_le
  simp only [EncodedLength.Statement, Instr.length, encode, List.length_cons, List.length_append]
  omega

theorem EncodedLength.negL (o : Opr) : EncodedLength.Statement (.negL o) := by
  have := o.enc_length_le
  simp only [EncodedLength.Statement, Instr.length, encode, List.length_cons, List.length_append]
  omega

theorem EncodedLength.abs (d : DReg) : EncodedLength.Statement (.abs d) := by
  simp [EncodedLength.Statement, Instr.length, encode]

theorem EncodedLength.muls (d j : DReg) (k : MathSrc) : EncodedLength.Statement (.muls d j k) := by
  have := (MbArgs.math j k).enc_length_le true
  simp only [EncodedLength.Statement, Instr.length, encode, List.length_cons, List.length_append]
  omega

theorem EncodedLength.mulsB (d j : DReg) (o : Opr) : EncodedLength.Statement (.mulsB d j o) := by
  have := (MbArgs.opr j .b o).enc_length_le true
  simp only [EncodedLength.Statement, Instr.length, encode, List.length_cons, List.length_append]
  omega

theorem EncodedLength.mulsW (d j : DReg) (o : Opr) : EncodedLength.Statement (.mulsW d j o) := by
  have := (MbArgs.opr j .w o).enc_length_le true
  simp only [EncodedLength.Statement, Instr.length, encode, List.length_cons, List.length_append]
  omega

theorem EncodedLength.mulsL (d j : DReg) (o : Opr) : EncodedLength.Statement (.mulsL d j o) := by
  have := (MbArgs.opr j .l o).enc_length_le true
  simp only [EncodedLength.Statement, Instr.length, encode, List.length_cons, List.length_append]
  omega

theorem EncodedLength.mulsOO (d : DReg) (s1 : Size) (o1 : Opr) (s2 : Size) (o2 : Opr) : EncodedLength.Statement (.mulsOO d s1 o1 s2 o2) := by
  have := (MbArgs.oprOpr s1 o1 s2 o2).enc_length_le true
  simp only [EncodedLength.Statement, Instr.length, encode, List.length_cons, List.length_append]
  omega

theorem EncodedLength.mulu (d j : DReg) (k : MathSrc) : EncodedLength.Statement (.mulu d j k) := by
  have := (MbArgs.math j k).enc_length_le false
  simp only [EncodedLength.Statement, Instr.length, encode, List.length_cons, List.length_append]
  omega

theorem EncodedLength.muluB (d j : DReg) (o : Opr) : EncodedLength.Statement (.muluB d j o) := by
  have := (MbArgs.opr j .b o).enc_length_le false
  simp only [EncodedLength.Statement, Instr.length, encode, List.length_cons, List.length_append]
  omega

theorem EncodedLength.muluW (d j : DReg) (o : Opr) : EncodedLength.Statement (.muluW d j o) := by
  have := (MbArgs.opr j .w o).enc_length_le false
  simp only [EncodedLength.Statement, Instr.length, encode, List.length_cons, List.length_append]
  omega

theorem EncodedLength.muluL (d j : DReg) (o : Opr) : EncodedLength.Statement (.muluL d j o) := by
  have := (MbArgs.opr j .l o).enc_length_le false
  simp only [EncodedLength.Statement, Instr.length, encode, List.length_cons, List.length_append]
  omega

theorem EncodedLength.muluOO (d : DReg) (s1 : Size) (o1 : Opr) (s2 : Size) (o2 : Opr) : EncodedLength.Statement (.muluOO d s1 o1 s2 o2) := by
  have := (MbArgs.oprOpr s1 o1 s2 o2).enc_length_le false
  simp only [EncodedLength.Statement, Instr.length, encode, List.length_cons, List.length_append]
  omega

theorem EncodedLength.macs (d j : DReg) (k : MathSrc) : EncodedLength.Statement (.macs d j k) := by
  have := (MbArgs.math j k).enc_length_le true
  simp only [EncodedLength.Statement, Instr.length, encode, List.length_cons, List.length_append]
  omega

theorem EncodedLength.macsB (d j : DReg) (o : Opr) : EncodedLength.Statement (.macsB d j o) := by
  have := (MbArgs.opr j .b o).enc_length_le true
  simp only [EncodedLength.Statement, Instr.length, encode, List.length_cons, List.length_append]
  omega

theorem EncodedLength.macsW (d j : DReg) (o : Opr) : EncodedLength.Statement (.macsW d j o) := by
  have := (MbArgs.opr j .w o).enc_length_le true
  simp only [EncodedLength.Statement, Instr.length, encode, List.length_cons, List.length_append]
  omega

theorem EncodedLength.macsL (d j : DReg) (o : Opr) : EncodedLength.Statement (.macsL d j o) := by
  have := (MbArgs.opr j .l o).enc_length_le true
  simp only [EncodedLength.Statement, Instr.length, encode, List.length_cons, List.length_append]
  omega

theorem EncodedLength.macsOO (d : DReg) (s1 : Size) (o1 : Opr) (s2 : Size) (o2 : Opr) : EncodedLength.Statement (.macsOO d s1 o1 s2 o2) := by
  have := (MbArgs.oprOpr s1 o1 s2 o2).enc_length_le true
  simp only [EncodedLength.Statement, Instr.length, encode, List.length_cons, List.length_append]
  omega

theorem EncodedLength.macu (d j : DReg) (k : MathSrc) : EncodedLength.Statement (.macu d j k) := by
  have := (MbArgs.math j k).enc_length_le false
  simp only [EncodedLength.Statement, Instr.length, encode, List.length_cons, List.length_append]
  omega

theorem EncodedLength.macuB (d j : DReg) (o : Opr) : EncodedLength.Statement (.macuB d j o) := by
  have := (MbArgs.opr j .b o).enc_length_le false
  simp only [EncodedLength.Statement, Instr.length, encode, List.length_cons, List.length_append]
  omega

theorem EncodedLength.macuW (d j : DReg) (o : Opr) : EncodedLength.Statement (.macuW d j o) := by
  have := (MbArgs.opr j .w o).enc_length_le false
  simp only [EncodedLength.Statement, Instr.length, encode, List.length_cons, List.length_append]
  omega

theorem EncodedLength.macuL (d j : DReg) (o : Opr) : EncodedLength.Statement (.macuL d j o) := by
  have := (MbArgs.opr j .l o).enc_length_le false
  simp only [EncodedLength.Statement, Instr.length, encode, List.length_cons, List.length_append]
  omega

theorem EncodedLength.macuOO (d : DReg) (s1 : Size) (o1 : Opr) (s2 : Size) (o2 : Opr) : EncodedLength.Statement (.macuOO d s1 o1 s2 o2) := by
  have := (MbArgs.oprOpr s1 o1 s2 o2).enc_length_le false
  simp only [EncodedLength.Statement, Instr.length, encode, List.length_cons, List.length_append]
  omega

theorem EncodedLength.divs (d j : DReg) (k : MathSrc) : EncodedLength.Statement (.divs d j k) := by
  have := (MbArgs.math j k).enc_length_le true
  simp only [EncodedLength.Statement, Instr.length, encode, List.length_cons, List.length_append]
  omega

theorem EncodedLength.divsB (d j : DReg) (o : Opr) : EncodedLength.Statement (.divsB d j o) := by
  have := (MbArgs.opr j .b o).enc_length_le true
  simp only [EncodedLength.Statement, Instr.length, encode, List.length_cons, List.length_append]
  omega

theorem EncodedLength.divsW (d j : DReg) (o : Opr) : EncodedLength.Statement (.divsW d j o) := by
  have := (MbArgs.opr j .w o).enc_length_le true
  simp only [EncodedLength.Statement, Instr.length, encode, List.length_cons, List.length_append]
  omega

theorem EncodedLength.divsL (d j : DReg) (o : Opr) : EncodedLength.Statement (.divsL d j o) := by
  have := (MbArgs.opr j .l o).enc_length_le true
  simp only [EncodedLength.Statement, Instr.length, encode, List.length_cons, List.length_append]
  omega

theorem EncodedLength.divsOO (d : DReg) (s1 : Size) (o1 : Opr) (s2 : Size) (o2 : Opr) : EncodedLength.Statement (.divsOO d s1 o1 s2 o2) := by
  have := (MbArgs.oprOpr s1 o1 s2 o2).enc_length_le true
  simp only [EncodedLength.Statement, Instr.length, encode, List.length_cons, List.length_append]
  omega

theorem EncodedLength.divu (d j : DReg) (k : MathSrc) : EncodedLength.Statement (.divu d j k) := by
  have := (MbArgs.math j k).enc_length_le false
  simp only [EncodedLength.Statement, Instr.length, encode, List.length_cons, List.length_append]
  omega

theorem EncodedLength.divuB (d j : DReg) (o : Opr) : EncodedLength.Statement (.divuB d j o) := by
  have := (MbArgs.opr j .b o).enc_length_le false
  simp only [EncodedLength.Statement, Instr.length, encode, List.length_cons, List.length_append]
  omega

theorem EncodedLength.divuW (d j : DReg) (o : Opr) : EncodedLength.Statement (.divuW d j o) := by
  have := (MbArgs.opr j .w o).enc_length_le false
  simp only [EncodedLength.Statement, Instr.length, encode, List.length_cons, List.length_append]
  omega

theorem EncodedLength.divuL (d j : DReg) (o : Opr) : EncodedLength.Statement (.divuL d j o) := by
  have := (MbArgs.opr j .l o).enc_length_le false
  simp only [EncodedLength.Statement, Instr.length, encode, List.length_cons, List.length_append]
  omega

theorem EncodedLength.divuOO (d : DReg) (s1 : Size) (o1 : Opr) (s2 : Size) (o2 : Opr) : EncodedLength.Statement (.divuOO d s1 o1 s2 o2) := by
  have := (MbArgs.oprOpr s1 o1 s2 o2).enc_length_le false
  simp only [EncodedLength.Statement, Instr.length, encode, List.length_cons, List.length_append]
  omega

theorem EncodedLength.mods (d j : DReg) (k : MathSrc) : EncodedLength.Statement (.mods d j k) := by
  have := (MbArgs.math j k).enc_length_le true
  simp only [EncodedLength.Statement, Instr.length, encode, List.length_cons, List.length_append]
  omega

theorem EncodedLength.modsB (d j : DReg) (o : Opr) : EncodedLength.Statement (.modsB d j o) := by
  have := (MbArgs.opr j .b o).enc_length_le true
  simp only [EncodedLength.Statement, Instr.length, encode, List.length_cons, List.length_append]
  omega

theorem EncodedLength.modsW (d j : DReg) (o : Opr) : EncodedLength.Statement (.modsW d j o) := by
  have := (MbArgs.opr j .w o).enc_length_le true
  simp only [EncodedLength.Statement, Instr.length, encode, List.length_cons, List.length_append]
  omega

theorem EncodedLength.modsL (d j : DReg) (o : Opr) : EncodedLength.Statement (.modsL d j o) := by
  have := (MbArgs.opr j .l o).enc_length_le true
  simp only [EncodedLength.Statement, Instr.length, encode, List.length_cons, List.length_append]
  omega

theorem EncodedLength.modsOO (d : DReg) (s1 : Size) (o1 : Opr) (s2 : Size) (o2 : Opr) : EncodedLength.Statement (.modsOO d s1 o1 s2 o2) := by
  have := (MbArgs.oprOpr s1 o1 s2 o2).enc_length_le true
  simp only [EncodedLength.Statement, Instr.length, encode, List.length_cons, List.length_append]
  omega

theorem EncodedLength.modu (d j : DReg) (k : MathSrc) : EncodedLength.Statement (.modu d j k) := by
  have := (MbArgs.math j k).enc_length_le false
  simp only [EncodedLength.Statement, Instr.length, encode, List.length_cons, List.length_append]
  omega

theorem EncodedLength.moduB (d j : DReg) (o : Opr) : EncodedLength.Statement (.moduB d j o) := by
  have := (MbArgs.opr j .b o).enc_length_le false
  simp only [EncodedLength.Statement, Instr.length, encode, List.length_cons, List.length_append]
  omega

theorem EncodedLength.moduW (d j : DReg) (o : Opr) : EncodedLength.Statement (.moduW d j o) := by
  have := (MbArgs.opr j .w o).enc_length_le false
  simp only [EncodedLength.Statement, Instr.length, encode, List.length_cons, List.length_append]
  omega

theorem EncodedLength.moduL (d j : DReg) (o : Opr) : EncodedLength.Statement (.moduL d j o) := by
  have := (MbArgs.opr j .l o).enc_length_le false
  simp only [EncodedLength.Statement, Instr.length, encode, List.length_cons, List.length_append]
  omega

theorem EncodedLength.moduOO (d : DReg) (s1 : Size) (o1 : Opr) (s2 : Size) (o2 : Opr) : EncodedLength.Statement (.moduOO d s1 o1 s2 o2) := by
  have := (MbArgs.oprOpr s1 o1 s2 o2).enc_length_le false
  simp only [EncodedLength.Statement, Instr.length, encode, List.length_cons, List.length_append]
  omega

theorem EncodedLength.qmuls (d j : DReg) (k : MathSrc) : EncodedLength.Statement (.qmuls d j k) := by
  have := (MbArgs.math j k).enc_length_le true
  simp only [EncodedLength.Statement, Instr.length, encode, List.length_cons, List.length_append]
  omega

theorem EncodedLength.qmulsB (d j : DReg) (o : Opr) : EncodedLength.Statement (.qmulsB d j o) := by
  have := (MbArgs.opr j .b o).enc_length_le true
  simp only [EncodedLength.Statement, Instr.length, encode, List.length_cons, List.length_append]
  omega

theorem EncodedLength.qmulsW (d j : DReg) (o : Opr) : EncodedLength.Statement (.qmulsW d j o) := by
  have := (MbArgs.opr j .w o).enc_length_le true
  simp only [EncodedLength.Statement, Instr.length, encode, List.length_cons, List.length_append]
  omega

theorem EncodedLength.qmulsL (d j : DReg) (o : Opr) : EncodedLength.Statement (.qmulsL d j o) := by
  have := (MbArgs.opr j .l o).enc_length_le true
  simp only [EncodedLength.Statement, Instr.length, encode, List.length_cons, List.length_append]
  omega

theorem EncodedLength.qmulsOO (d : DReg) (s1 : Size) (o1 : Opr) (s2 : Size) (o2 : Opr) : EncodedLength.Statement (.qmulsOO d s1 o1 s2 o2) := by
  have := (MbArgs.oprOpr s1 o1 s2 o2).enc_length_le true
  simp only [EncodedLength.Statement, Instr.length, encode, List.length_cons, List.length_append]
  omega

theorem EncodedLength.qmulu (d j : DReg) (k : MathSrc) : EncodedLength.Statement (.qmulu d j k) := by
  have := (MbArgs.math j k).enc_length_le false
  simp only [EncodedLength.Statement, Instr.length, encode, List.length_cons, List.length_append]
  omega

theorem EncodedLength.qmuluB (d j : DReg) (o : Opr) : EncodedLength.Statement (.qmuluB d j o) := by
  have := (MbArgs.opr j .b o).enc_length_le false
  simp only [EncodedLength.Statement, Instr.length, encode, List.length_cons, List.length_append]
  omega

theorem EncodedLength.qmuluW (d j : DReg) (o : Opr) : EncodedLength.Statement (.qmuluW d j o) := by
  have := (MbArgs.opr j .w o).enc_length_le false
  simp only [EncodedLength.Statement, Instr.length, encode, List.length_cons, List.length_append]
  omega

theorem EncodedLength.qmuluL (d j : DReg) (o : Opr) : EncodedLength.Statement (.qmuluL d j o) := by
  have := (MbArgs.opr j .l o).enc_length_le false
  simp only [EncodedLength.Statement, Instr.length, encode, List.length_cons, List.length_append]
  omega

theorem EncodedLength.qmuluOO (d : DReg) (s1 : Size) (o1 : Opr) (s2 : Size) (o2 : Opr) : EncodedLength.Statement (.qmuluOO d s1 o1 s2 o2) := by
  have := (MbArgs.oprOpr s1 o1 s2 o2).enc_length_le false
  simp only [EncodedLength.Statement, Instr.length, encode, List.length_cons, List.length_append]
  omega

theorem EncodedLength.sat (d : DReg) : EncodedLength.Statement (.sat d) := by
  simp [EncodedLength.Statement, Instr.length, encode]

theorem EncodedLength.clb (s d : DReg) : EncodedLength.Statement (.clb s d) := by
  simp [EncodedLength.Statement, Instr.length, encode]

theorem EncodedLength.and (d : DReg) (m : DSrc) : EncodedLength.Statement (.and d m) := by
  have := encDSrc_length_le 0x0B#5 0x0D#5 d m
  simp only [EncodedLength.Statement, Instr.length, encode, List.length_cons, List.length_append]
  omega

theorem EncodedLength.or (d : DReg) (m : DSrc) : EncodedLength.Statement (.or d m) := by
  have := encDSrc_length_le 0x0F#5 0x11#5 d m
  simp only [EncodedLength.Statement, Instr.length, encode, List.length_cons, List.length_append]
  omega

theorem EncodedLength.eor (d : DReg) (m : DSrc) : EncodedLength.Statement (.eor d m) := by
  have := encDSrc_length_le 0x0F#5 0x11#5 d m
  simp only [EncodedLength.Statement, Instr.length, encode, List.length_cons, List.length_append]
  omega

theorem EncodedLength.bit (d : DReg) (m : DSrc) : EncodedLength.Statement (.bit d m) := by
  have := encDSrc_length_le 0x0B#5 0x0D#5 d m
  simp only [EncodedLength.Statement, Instr.length, encode, List.length_cons, List.length_append]
  omega

theorem EncodedLength.comB (o : Opr) : EncodedLength.Statement (.comB o) := by
  have := o.enc_length_le
  simp only [EncodedLength.Statement, Instr.length, encode, List.length_cons, List.length_append]
  omega

theorem EncodedLength.comW (o : Opr) : EncodedLength.Statement (.comW o) := by
  have := o.enc_length_le
  simp only [EncodedLength.Statement, Instr.length, encode, List.length_cons, List.length_append]
  omega

theorem EncodedLength.comL (o : Opr) : EncodedLength.Statement (.comL o) := by
  have := o.enc_length_le
  simp only [EncodedLength.Statement, Instr.length, encode, List.length_cons, List.length_append]
  omega

theorem EncodedLength.andcc (i : BitVec 8) : EncodedLength.Statement (.andcc i) := by
  simp [EncodedLength.Statement, Instr.length, encode]

theorem EncodedLength.orcc (i : BitVec 8) : EncodedLength.Statement (.orcc i) := by
  simp [EncodedLength.Statement, Instr.length, encode]

theorem EncodedLength.clc : EncodedLength.Statement .clc := by
  simp [EncodedLength.Statement, Instr.length, encode]

theorem EncodedLength.cli : EncodedLength.Statement .cli := by
  simp [EncodedLength.Statement, Instr.length, encode]

theorem EncodedLength.clv : EncodedLength.Statement .clv := by
  simp [EncodedLength.Statement, Instr.length, encode]

theorem EncodedLength.sec : EncodedLength.Statement .sec := by
  simp [EncodedLength.Statement, Instr.length, encode]

theorem EncodedLength.sei : EncodedLength.Statement .sei := by
  simp [EncodedLength.Statement, Instr.length, encode]

theorem EncodedLength.sev : EncodedLength.Statement .sev := by
  simp [EncodedLength.Statement, Instr.length, encode]

theorem EncodedLength.asl (d s : DReg) (n : ShiftBy) : EncodedLength.Statement (.asl d s n) := by
  have := encShiftReg_length_le true true s n
  simp only [EncodedLength.Statement, Instr.length, encode, List.length_cons, List.length_append]
  omega

theorem EncodedLength.aslOpr (f : ShiftOpr) : EncodedLength.Statement (.aslOpr f) := by
  have := encShiftOpr_length_le true true f
  simp only [EncodedLength.Statement, Instr.length, encode, List.length_cons, List.length_append]
  omega

theorem EncodedLength.asr (d s : DReg) (n : ShiftBy) : EncodedLength.Statement (.asr d s n) := by
  have := encShiftReg_length_le true false s n
  simp only [EncodedLength.Statement, Instr.length, encode, List.length_cons, List.length_append]
  omega

theorem EncodedLength.asrOpr (f : ShiftOpr) : EncodedLength.Statement (.asrOpr f) := by
  have := encShiftOpr_length_le true false f
  simp only [EncodedLength.Statement, Instr.length, encode, List.length_cons, List.length_append]
  omega

theorem EncodedLength.lsl (d s : DReg) (n : ShiftBy) : EncodedLength.Statement (.lsl d s n) := by
  have := encShiftReg_length_le false true s n
  simp only [EncodedLength.Statement, Instr.length, encode, List.length_cons, List.length_append]
  omega

theorem EncodedLength.lslOpr (f : ShiftOpr) : EncodedLength.Statement (.lslOpr f) := by
  have := encShiftOpr_length_le false true f
  simp only [EncodedLength.Statement, Instr.length, encode, List.length_cons, List.length_append]
  omega

theorem EncodedLength.lsr (d s : DReg) (n : ShiftBy) : EncodedLength.Statement (.lsr d s n) := by
  have := encShiftReg_length_le false false s n
  simp only [EncodedLength.Statement, Instr.length, encode, List.length_cons, List.length_append]
  omega

theorem EncodedLength.lsrOpr (f : ShiftOpr) : EncodedLength.Statement (.lsrOpr f) := by
  have := encShiftOpr_length_le false false f
  simp only [EncodedLength.Statement, Instr.length, encode, List.length_cons, List.length_append]
  omega

theorem EncodedLength.rol (sz : Size) (o : Opr) : EncodedLength.Statement (.rol sz o) := by
  have := o.enc_length_le
  simp only [EncodedLength.Statement, Instr.length, encode, List.length_cons, List.length_append]
  omega

theorem EncodedLength.ror (sz : Size) (o : Opr) : EncodedLength.Statement (.ror sz o) := by
  have := o.enc_length_le
  simp only [EncodedLength.Statement, Instr.length, encode, List.length_cons, List.length_append]
  omega

theorem EncodedLength.bset (m : BmArg) : EncodedLength.Statement (.bset m) := by
  have := m.enc_length_le
  simp only [EncodedLength.Statement, Instr.length, encode, List.length_cons, List.length_append]
  omega

theorem EncodedLength.bclr (m : BmArg) : EncodedLength.Statement (.bclr m) := by
  have := m.enc_length_le
  simp only [EncodedLength.Statement, Instr.length, encode, List.length_cons, List.length_append]
  omega

theorem EncodedLength.btgl (m : BmArg) : EncodedLength.Statement (.btgl m) := by
  have := m.enc_length_le
  simp only [EncodedLength.Statement, Instr.length, encode, List.length_cons, List.length_append]
  omega

theorem EncodedLength.bfext (d s : DReg) (p : BfParam) : EncodedLength.Statement (.bfext d s p) := by
  have := encBfReg_length_le false s p
  simp only [EncodedLength.Statement, Instr.length, encode, List.length_cons, List.length_append]
  omega

theorem EncodedLength.bfextOpr (f : BfOpr) : EncodedLength.Statement (.bfextOpr f) := by
  have := encBfOprForm_length_le false f
  simp only [EncodedLength.Statement, Instr.length, encode, List.length_cons, List.length_append]
  omega

theorem EncodedLength.bfins (d s : DReg) (p : BfParam) : EncodedLength.Statement (.bfins d s p) := by
  have := encBfReg_length_le true s p
  simp only [EncodedLength.Statement, Instr.length, encode, List.length_cons, List.length_append]
  omega

theorem EncodedLength.bfinsOpr (f : BfOpr) : EncodedLength.Statement (.bfinsOpr f) := by
  have := encBfOprForm_length_le true f
  simp only [EncodedLength.Statement, Instr.length, encode, List.length_cons, List.length_append]
  omega

theorem EncodedLength.maxs (d : DReg) (o : Opr) : EncodedLength.Statement (.maxs d o) := by
  have := o.enc_length_le
  simp only [EncodedLength.Statement, Instr.length, encode, List.length_cons, List.length_append]
  omega

theorem EncodedLength.maxu (d : DReg) (o : Opr) : EncodedLength.Statement (.maxu d o) := by
  have := o.enc_length_le
  simp only [EncodedLength.Statement, Instr.length, encode, List.length_cons, List.length_append]
  omega

theorem EncodedLength.mins (d : DReg) (o : Opr) : EncodedLength.Statement (.mins d o) := by
  have := o.enc_length_le
  simp only [EncodedLength.Statement, Instr.length, encode, List.length_cons, List.length_append]
  omega

theorem EncodedLength.minu (d : DReg) (o : Opr) : EncodedLength.Statement (.minu d o) := by
  have := o.enc_length_le
  simp only [EncodedLength.Statement, Instr.length, encode, List.length_cons, List.length_append]
  omega

theorem EncodedLength.bra (rel : Rel) : EncodedLength.Statement (.bra rel) := by
  have := rel.enc_length_le
  simp only [EncodedLength.Statement, Instr.length, encode, List.length_cons, List.length_append]
  omega

theorem EncodedLength.bsr (rel : Rel) : EncodedLength.Statement (.bsr rel) := by
  have := rel.enc_length_le
  simp only [EncodedLength.Statement, Instr.length, encode, List.length_cons, List.length_append]
  omega

theorem EncodedLength.bhi (rel : Rel) : EncodedLength.Statement (.bhi rel) := by
  have := rel.enc_length_le
  simp only [EncodedLength.Statement, Instr.length, encode, List.length_cons, List.length_append]
  omega

theorem EncodedLength.bls (rel : Rel) : EncodedLength.Statement (.bls rel) := by
  have := rel.enc_length_le
  simp only [EncodedLength.Statement, Instr.length, encode, List.length_cons, List.length_append]
  omega

theorem EncodedLength.bcc (rel : Rel) : EncodedLength.Statement (.bcc rel) := by
  have := rel.enc_length_le
  simp only [EncodedLength.Statement, Instr.length, encode, List.length_cons, List.length_append]
  omega

theorem EncodedLength.bcs (rel : Rel) : EncodedLength.Statement (.bcs rel) := by
  have := rel.enc_length_le
  simp only [EncodedLength.Statement, Instr.length, encode, List.length_cons, List.length_append]
  omega

theorem EncodedLength.bne (rel : Rel) : EncodedLength.Statement (.bne rel) := by
  have := rel.enc_length_le
  simp only [EncodedLength.Statement, Instr.length, encode, List.length_cons, List.length_append]
  omega

theorem EncodedLength.beq (rel : Rel) : EncodedLength.Statement (.beq rel) := by
  have := rel.enc_length_le
  simp only [EncodedLength.Statement, Instr.length, encode, List.length_cons, List.length_append]
  omega

theorem EncodedLength.bvc (rel : Rel) : EncodedLength.Statement (.bvc rel) := by
  have := rel.enc_length_le
  simp only [EncodedLength.Statement, Instr.length, encode, List.length_cons, List.length_append]
  omega

theorem EncodedLength.bvs (rel : Rel) : EncodedLength.Statement (.bvs rel) := by
  have := rel.enc_length_le
  simp only [EncodedLength.Statement, Instr.length, encode, List.length_cons, List.length_append]
  omega

theorem EncodedLength.bpl (rel : Rel) : EncodedLength.Statement (.bpl rel) := by
  have := rel.enc_length_le
  simp only [EncodedLength.Statement, Instr.length, encode, List.length_cons, List.length_append]
  omega

theorem EncodedLength.bmi (rel : Rel) : EncodedLength.Statement (.bmi rel) := by
  have := rel.enc_length_le
  simp only [EncodedLength.Statement, Instr.length, encode, List.length_cons, List.length_append]
  omega

theorem EncodedLength.bge (rel : Rel) : EncodedLength.Statement (.bge rel) := by
  have := rel.enc_length_le
  simp only [EncodedLength.Statement, Instr.length, encode, List.length_cons, List.length_append]
  omega

theorem EncodedLength.blt (rel : Rel) : EncodedLength.Statement (.blt rel) := by
  have := rel.enc_length_le
  simp only [EncodedLength.Statement, Instr.length, encode, List.length_cons, List.length_append]
  omega

theorem EncodedLength.bgt (rel : Rel) : EncodedLength.Statement (.bgt rel) := by
  have := rel.enc_length_le
  simp only [EncodedLength.Statement, Instr.length, encode, List.length_cons, List.length_append]
  omega

theorem EncodedLength.ble (rel : Rel) : EncodedLength.Statement (.ble rel) := by
  have := rel.enc_length_le
  simp only [EncodedLength.Statement, Instr.length, encode, List.length_cons, List.length_append]
  omega

theorem EncodedLength.bhs (rel : Rel) : EncodedLength.Statement (.bhs rel) := by
  have := rel.enc_length_le
  simp only [EncodedLength.Statement, Instr.length, encode, List.length_cons, List.length_append]
  omega

theorem EncodedLength.blo (rel : Rel) : EncodedLength.Statement (.blo rel) := by
  have := rel.enc_length_le
  simp only [EncodedLength.Statement, Instr.length, encode, List.length_cons, List.length_append]
  omega

theorem EncodedLength.brclr (m : BmArg) (rel : Rel) : EncodedLength.Statement (.brclr m rel) := by
  have := m.enc_length_le
  have := rel.enc_length_le
  simp only [EncodedLength.Statement, Instr.length, encode, List.length_cons, List.length_append]
  omega

theorem EncodedLength.brset (m : BmArg) (rel : Rel) : EncodedLength.Statement (.brset m rel) := by
  have := m.enc_length_le
  have := rel.enc_length_le
  simp only [EncodedLength.Statement, Instr.length, encode, List.length_cons, List.length_append]
  omega

theorem EncodedLength.dbcc (c : LoopCond) (ctr : LoopCtr) (rel : Rel) : EncodedLength.Statement (.dbcc c ctr rel) := by
  have := encLoop_length_le true c ctr rel
  simp only [EncodedLength.Statement, Instr.length, encode, List.length_cons, List.length_append]
  omega

theorem EncodedLength.dbccOpr (c : LoopCond) (sz : Size) (o : Opr) (rel : Rel) : EncodedLength.Statement (.dbccOpr c sz o rel) := by
  have := encLoopOpr_length_le true c sz o rel
  simp only [EncodedLength.Statement, Instr.length, encode, List.length_cons, List.length_append]
  omega

theorem EncodedLength.tbcc (c : LoopCond) (ctr : LoopCtr) (rel : Rel) : EncodedLength.Statement (.tbcc c ctr rel) := by
  have := encLoop_length_le false c ctr rel
  simp only [EncodedLength.Statement, Instr.length, encode, List.length_cons, List.length_append]
  omega

theorem EncodedLength.tbccOpr (c : LoopCond) (sz : Size) (o : Opr) (rel : Rel) : EncodedLength.Statement (.tbccOpr c sz o rel) := by
  have := encLoopOpr_length_le false c sz o rel
  simp only [EncodedLength.Statement, Instr.length, encode, List.length_cons, List.length_append]
  omega

theorem EncodedLength.jmp (t : ExtOpr) : EncodedLength.Statement (.jmp t) := by
  cases t with
  | ext a => simp [EncodedLength.Statement, Instr.length, encode]
  | opr o => have := o.enc_length_le; simp only [EncodedLength.Statement, Instr.length, encode, List.length_cons]; omega

theorem EncodedLength.jsr (t : ExtOpr) : EncodedLength.Statement (.jsr t) := by
  cases t with
  | ext a => simp [EncodedLength.Statement, Instr.length, encode]
  | opr o => have := o.enc_length_le; simp only [EncodedLength.Statement, Instr.length, encode, List.length_cons]; omega

theorem EncodedLength.rts : EncodedLength.Statement .rts := by
  simp [EncodedLength.Statement, Instr.length, encode]

theorem EncodedLength.swi : EncodedLength.Statement .swi := by
  simp [EncodedLength.Statement, Instr.length, encode]

theorem EncodedLength.sys : EncodedLength.Statement .sys := by
  simp [EncodedLength.Statement, Instr.length, encode]

theorem EncodedLength.trap (tn : BitVec 8) : EncodedLength.Statement (.trap tn) := by
  simp [EncodedLength.Statement, Instr.length, encode]

theorem EncodedLength.spare : EncodedLength.Statement .spare := by
  simp [EncodedLength.Statement, Instr.length, encode]

theorem EncodedLength.rti : EncodedLength.Statement .rti := by
  simp [EncodedLength.Statement, Instr.length, encode]

theorem EncodedLength.wai : EncodedLength.Statement .wai := by
  simp [EncodedLength.Statement, Instr.length, encode]

theorem EncodedLength.stop : EncodedLength.Statement .stop := by
  simp [EncodedLength.Statement, Instr.length, encode]

theorem EncodedLength.nop : EncodedLength.Statement .nop := by
  simp [EncodedLength.Statement, Instr.length, encode]

theorem EncodedLength.bgnd : EncodedLength.Statement .bgnd := by
  simp [EncodedLength.Statement, Instr.length, encode]

end Sys2Proof.Laws
end

