-- ==== Sys2Proof/Tests/Slice0.lean ====
section
/-! SUPPORT. Tests: ill-formed terms that WellFormed refuses; each constructor's words, written out from
the encodings of spec/; the vectors of spec/95_test_vectors.md, one step each; and, for each statement of
Certificates/Slice0/Obligations.lean that has a hypothesis, a case that meets it. -/

namespace Sys2Proof.Tests

open Sys2Proof Sys2Proof.Machine

/-! ## WellFormed refuses -/

theorem test_wf_load_immediate_too_wide : (Instr.ldD .d0 (.imm 0x100)).wf = false := by decide
theorem test_wf_move_immediate_too_wide : (Instr.movP (.imm 0x1000000) (.reg .d6)).wf = false := by decide
theorem test_wf_operand_immediate_too_wide : (Instr.cmpD .d2 (.imm 0x10000)).wf = false := by decide
theorem test_wf_bit_number_beyond_register : (Instr.bset (.reg .d0 8)).wf = false := by decide
theorem test_wf_bit_number_beyond_memory : (Instr.brclr (.opr .w 16 (.ext1 0)) (.short 0)).wf = false := by
  decide
theorem test_wf_trap_of_implemented_code :
    (Instr.trap 0x91).wf = false ∧ (Instr.trap 0xA0).wf = false ∧ (Instr.trap 0xB7).wf = false := by decide
theorem test_wf_extension_must_widen : (Instr.sex .x .y).wf = false ∧ (Instr.zex .x (.d .d2)).wf = false := by
  decide
theorem test_wf_extension_of_reserved : (Instr.zex .resB .x).wf = false ∧
    (Instr.sex .x .resF).wf = false := by
  decide

/-! ## Encodings -/

/-- The bytes are a well-formed instruction's, and decode to it (an alias: to its core instruction). -/
def coded (bs : List Byte) (i : Instr) : Bool :=
  i.wf && decide (decode bs = .ok (i.core, [])) && decide (encode i = bs)

theorem test_coded_load :
    coded [0x90, 0x12, 0x34] (.ldD .d2 (.imm 0x1234)) ∧
    coded [0xB7, 0x12, 0x34, 0x56] (.ldD .d7 (.ext 0x123456)) ∧
    coded [0xA5, 0x40] (.ldD .d1 (.opr (.idx .x 0))) ∧
    coded [0x98, 0x01, 0x23, 0x45] (.ldXY .x (.imm 0x012345)) ∧
    coded [0xEA, 0xAB, 0xCD] (.ldXY .x (.imm18 0x2ABCD)) ∧
    coded [0xDB, 0x00, 0x01] (.ldXY .y (.imm18 0x10001)) ∧
    coded [0xB9, 0x00, 0x10, 0x00] (.ldXY .y (.ext 0x001000)) ∧
    coded [0xA8, 0xBE] (.ldXY .x (.opr (.reg .d6))) ∧
    coded [0x1B, 0x03, 0x00, 0x40, 0x00] (.ldS (.imm 0x004000)) ∧
    coded [0x1B, 0x00, 0x7F] (.ldS (.opr (.immE4 15))) := by
  decide

theorem test_coded_store :
    coded [0xD4, 0x00, 0x10, 0x00] (.stD .d0 (.ext 0x001000)) ∧
    coded [0xC6, 0x44] (.stD .d6 (.opr (.idx .x 4))) ∧
    coded [0xD9, 0xFF, 0xFF, 0xFE] (.stXY .y (.ext 0xFFFFFE)) ∧
    coded [0xC8, 0xFB] (.stXY .x (.opr (.auto .preDecS))) ∧
    coded [0x1B, 0x01, 0x10, 0x00] (.stS (.ext1 0x1000)) := by
  decide

theorem test_coded_move :
    coded [0x0C, 0x55, 0x12, 0x34] (.movB (.imm 0x55) (.ext1 0x1234)) ∧
    coded [0x1D, 0xE7, 0x88] (.movW (.opr (.auto .postIncX)) (.regIdx .d2 .x)) ∧
    coded [0x0E, 0x01, 0x02, 0x03, 0x5C] (.movP (.imm 0x010203) (.idx .y 12)) ∧
    coded [0x0F, 0xDE, 0xAD, 0xBE, 0xEF, 0x40] (.movL (.imm 0xDEADBEEF) (.idx .x 0)) ∧
    coded [0x1C, 0x70, 0xBE] (.movB (.opr (.immE4 0)) (.reg .d6)) ∧
    coded [0x1E, 0xE7, 0xF7] (.movP (.opr (.auto .postIncX)) (.auto .postIncY)) := by
  decide

theorem test_coded_stack :
    coded [0x04, 0x0C] (.psh false 0b001100) ∧ coded [0x04, 0x43] (.psh true 0b000011) ∧
    coded [0x04, 0x90] (.pul false 0b010000) ∧ coded [0x04, 0xE0] (.pul true 0b100000) ∧
    coded [0x04, 0x00] .pshAll ∧ coded [0x04, 0x40] .pshAll16b ∧ coded [0x04, 0x80] .pulAll ∧
    coded [0x04, 0xC0] .pulAll16b := by
  decide

theorem test_coded_address_clear_transfer :
    coded [0x06, 0x98] (.lea .d6 (.regIdx .d2 .y)) ∧ coded [0x08, 0x44] (.lea .x (.idx .x 4)) ∧
    coded [0x0A, 0xFA, 0x00, 0x40, 0x00] (.lea .s (.ext3 0x004000)) ∧ coded [0x1A, 0xFC] (.leaImm .s 0xFC) ∧
    coded [0x19, 0x80] (.leaImm .y 0x80) ∧ coded [0xBC, 0x40] (.clrB (.idx .x 0)) ∧
    coded [0xBD, 0x10, 0x00] (.clrW (.ext1 0x1000)) ∧ coded [0xBE, 0xE7] (.clrP (.auto .postIncX)) ∧
    coded [0xBF, 0x62] (.clrL (.idx .s 2)) ∧ coded [0x3C] (.clrD .d0) ∧ coded [0x9B] (.clrXY .y) ∧
    coded [0x9E, 0x68] (.tfr (.d .d6) .x) ∧ coded [0x9E, 0x0E] (.tfr (.d .d2) .ccw) ∧
    coded [0x9E, 0x0B] (.tfr (.d .d2) .resB) ∧ coded [0x9E, 0x57] (.zex (.d .d1) (.d .d7)) ∧
    coded [0xAE, 0x45] (.exg (.d .d0) (.d .d1)) ∧ coded [0xAE, 0xCD] (.exg .cch .ccl) ∧
    coded [0xAE, 0x86] (.sex .x (.d .d6)) ∧ coded [0xAE, 0x9A] (.exg .y .s) := by
  decide

theorem test_coded_add_subtract_compare :
    coded [0x54, 0x01] (.add .d0 (.imm 1)) ∧ coded [0x60, 0x71] (.add .d2 (.opr (.immE4 1))) ∧
    coded [0x1B, 0x56, 0x00, 0x00, 0x00, 0x01] (.adc .d6 (.imm 1)) ∧
    coded [0x1B, 0x63, 0xBC] (.adc .d5 (.opr (.reg .d0))) ∧
    coded [0x75, 0x20] (.sub .d1 (.imm 0x20)) ∧ coded [0x82, 0x40] (.sub .d4 (.opr (.idx .x 0))) ∧
    coded [0xFD] (.subD6 false) ∧ coded [0xFE] (.subD6 true) ∧
    coded [0x1B, 0x71, 0x12, 0x34] (.sbc .d3 (.imm 0x1234)) ∧
    coded [0x1B, 0x87, 0xBE] (.sbc .d7 (.opr (.reg .d6))) ∧
    coded [0x31] (.incD .d3) ∧ coded [0x9C, 0x40] (.incB (.idx .x 0)) ∧
    coded [0x9D, 0xB8] (.incW (.reg .d2)) ∧
    coded [0x9F, 0xE7] (.incL (.auto .postIncX)) ∧ coded [0x45] (.decD .d1) ∧
    coded [0xAC, 0x50] (.decB (.idx .y 0)) ∧
    coded [0xAD, 0x10, 0x20] (.decW (.ext1 0x1020)) ∧ coded [0xAF, 0xBF] (.decL (.reg .d7)) ∧
    coded [0xE4, 0x05] (.cmpD .d0 (.imm 5)) ∧ coded [0xF0, 0xBE] (.cmpD .d2 (.opr (.reg .d6))) ∧
    coded [0xE8, 0x00, 0x10, 0x00] (.cmpXY .x (.imm 0x001000)) ∧
    coded [0xF9, 0x40] (.cmpXY .y (.opr (.idx .x 0))) ∧
    coded [0x1B, 0x04, 0x00, 0x30, 0x00] (.cmpS (.imm 0x003000)) ∧
    coded [0x1B, 0x02, 0x60] (.cmpS (.opr (.idx .s 0))) ∧
    coded [0xFC] .cmpXwithY ∧ coded [0xDC, 0xBC] (.negB (.reg .d0)) ∧ coded [0xDD, 0x40] (.negW (.idx .x 0)) ∧
    coded [0xDF, 0xBE] (.negL (.reg .d6)) ∧ coded [0x1B, 0x44] (.abs .d0) := by
  decide

theorem test_coded_multiply :
    coded [0x4E, 0x81] (.muls .d6 .d2 (.reg .d3)) ∧ coded [0x48, 0xE4, 0x14] (.muls .d2 .d0 (.imm1 0x14)) ∧
    coded [0x4E, 0xC0, 0x40] (.mulsB .d6 .d2 (.idx .x 0)) ∧
    coded [0x4E, 0xC9, 0x40] (.mulsW .d6 .d3 (.idx .x 0)) ∧
    coded [0x4F, 0xF3, 0x40] (.mulsL .d7 .d6 (.idx .x 0)) ∧
    coded [0x4E, 0xD2, 0x40, 0x50] (.mulsOO .d6 .w (.idx .x 0) .b (.idx .y 0)) ∧
    coded [0x4E, 0x01] (.mulu .d6 .d2 (.reg .d3)) ∧
    coded [0x4C, 0x65, 0x12, 0x34] (.mulu .d0 .d0 (.imm2 0x1234)) ∧
    coded [0x48, 0x40, 0x71] (.muluB .d2 .d2 (.immE4 1)) ∧
    coded [0x48, 0x41, 0x71] (.muluW .d2 .d2 (.immE4 1)) ∧
    coded [0x48, 0x43, 0x71] (.muluL .d2 .d2 (.immE4 1)) ∧
    coded [0x48, 0x6E, 0xB8, 0xBE] (.muluOO .d2 .p (.reg .d2) .l (.reg .d6)) := by
  decide

theorem test_coded_multiply_accumulate :
    coded [0x1B, 0x4E, 0x81] (.macs .d6 .d2 (.reg .d3)) ∧
    coded [0x1B, 0x4E, 0xC7, 0xFF, 0xFF, 0xFF, 0xFE] (.macs .d6 .d2 (.imm4 0xFFFFFFFE)) ∧
    coded [0x1B, 0x4E, 0xC0, 0x40] (.macsB .d6 .d2 (.idx .x 0)) ∧
    coded [0x1B, 0x4E, 0xC1, 0x40] (.macsW .d6 .d2 (.idx .x 0)) ∧
    coded [0x1B, 0x4E, 0xC3, 0x40] (.macsL .d6 .d2 (.idx .x 0)) ∧
    coded [0x1B, 0x4E, 0xC2, 0x40, 0x50] (.macsOO .d6 .b (.idx .x 0) .b (.idx .y 0)) ∧
    coded [0x1B, 0x4C, 0x2D] (.macu .d0 .d1 (.reg .d1)) ∧
    coded [0x1B, 0x4C, 0x68, 0xBD] (.macuB .d0 .d1 (.reg .d1)) ∧
    coded [0x1B, 0x4C, 0x69, 0xBD] (.macuW .d0 .d1 (.reg .d1)) ∧
    coded [0x1B, 0x4C, 0x6B, 0xBD] (.macuL .d0 .d1 (.reg .d1)) ∧
    coded [0x1B, 0x4C, 0x56, 0x71, 0x72] (.macuOO .d0 .w (.immE4 1) .w (.immE4 2)) := by
  decide

theorem test_coded_divide :
    coded [0x1B, 0x30, 0x81] (.divs .d2 .d2 (.reg .d3)) ∧
    coded [0x1B, 0x30, 0xC0, 0x40] (.divsB .d2 .d2 (.idx .x 0)) ∧
    coded [0x1B, 0x30, 0xC1, 0x40] (.divsW .d2 .d2 (.idx .x 0)) ∧
    coded [0x1B, 0x30, 0xC3, 0x40] (.divsL .d2 .d2 (.idx .x 0)) ∧
    coded [0x1B, 0x30, 0xFE, 0x40, 0x50] (.divsOO .d2 .l (.idx .x 0) .l (.idx .y 0)) ∧
    coded [0x1B, 0x34, 0x64, 0x07] (.divu .d0 .d0 (.imm1 7)) ∧
    coded [0x1B, 0x34, 0x60, 0x77] (.divuB .d0 .d0 (.immE4 7)) ∧
    coded [0x1B, 0x34, 0x61, 0x77] (.divuW .d0 .d0 (.immE4 7)) ∧
    coded [0x1B, 0x34, 0x63, 0x77] (.divuL .d0 .d0 (.immE4 7)) ∧
    coded [0x1B, 0x34, 0x46, 0xBC, 0x40] (.divuOO .d0 .b (.reg .d0) .w (.idx .x 0)) := by
  decide

theorem test_coded_modulo :
    coded [0x1B, 0x38, 0x81] (.mods .d2 .d2 (.reg .d3)) ∧
    coded [0x1B, 0x38, 0xC0, 0x40] (.modsB .d2 .d2 (.idx .x 0)) ∧
    coded [0x1B, 0x38, 0xC1, 0x40] (.modsW .d2 .d2 (.idx .x 0)) ∧
    coded [0x1B, 0x38, 0xC3, 0x40] (.modsL .d2 .d2 (.idx .x 0)) ∧
    coded [0x1B, 0x38, 0xE6, 0x40, 0x50] (.modsOO .d2 .p (.idx .x 0) .w (.idx .y 0)) ∧
    coded [0x1B, 0x3C, 0x25] (.modu .d0 .d0 (.reg .d1)) ∧
    coded [0x1B, 0x3C, 0x60, 0x40] (.moduB .d0 .d0 (.idx .x 0)) ∧
    coded [0x1B, 0x3C, 0x61, 0x40] (.moduW .d0 .d0 (.idx .x 0)) ∧
    coded [0x1B, 0x3C, 0x63, 0x40] (.moduL .d0 .d0 (.idx .x 0)) ∧
    coded [0x1B, 0x3C, 0x42, 0x40, 0x50] (.moduOO .d0 .b (.idx .x 0) .b (.idx .y 0)) := by
  decide

theorem test_coded_fractional :
    coded [0x1B, 0xB0, 0x81] (.qmuls .d2 .d2 (.reg .d3)) ∧
    coded [0x1B, 0xB0, 0xC0, 0x40] (.qmulsB .d2 .d2 (.idx .x 0)) ∧
    coded [0x1B, 0xB0, 0xC1, 0x40] (.qmulsW .d2 .d2 (.idx .x 0)) ∧
    coded [0x1B, 0xB0, 0xC3, 0x40] (.qmulsL .d2 .d2 (.idx .x 0)) ∧
    coded [0x1B, 0xB0, 0xDE, 0x40, 0x50] (.qmulsOO .d2 .w (.idx .x 0) .l (.idx .y 0)) ∧
    coded [0x1B, 0xB4, 0x25] (.qmulu .d0 .d0 (.reg .d1)) ∧
    coded [0x1B, 0xB4, 0x60, 0x40] (.qmuluB .d0 .d0 (.idx .x 0)) ∧
    coded [0x1B, 0xB4, 0x61, 0x40] (.qmuluW .d0 .d0 (.idx .x 0)) ∧
    coded [0x1B, 0xB4, 0x63, 0x40] (.qmuluL .d0 .d0 (.idx .x 0)) ∧
    coded [0x1B, 0xB4, 0x42, 0x40, 0x50] (.qmuluOO .d0 .b (.idx .x 0) .b (.idx .y 0)) ∧
    coded [0x1B, 0xA4] (.sat .d0) ∧ coded [0x1B, 0x91, 0x64] (.clb .d6 .d0) := by
  decide

theorem test_coded_logic :
    coded [0x5C, 0x3C] (.and .d0 (.imm 0x3C)) ∧ coded [0x68, 0xBD] (.and .d2 (.opr (.reg .d1))) ∧
    coded [0x7D, 0x80] (.or .d1 (.imm 0x80)) ∧ coded [0x8E, 0x40] (.or .d6 (.opr (.idx .x 0))) ∧
    coded [0x1B, 0x78, 0x0F, 0x0F] (.eor .d2 (.imm 0x0F0F)) ∧
    coded [0x1B, 0x88, 0xB8] (.eor .d2 (.opr (.reg .d2))) ∧
    coded [0x1B, 0x5C, 0x80] (.bit .d0 (.imm 0x80)) ∧ coded [0x1B, 0x6F, 0x40] (.bit .d7 (.opr (.idx .x 0))) ∧
    coded [0xCC, 0x40] (.comB (.idx .x 0)) ∧ coded [0xCD, 0x40] (.comW (.idx .x 0)) ∧
    coded [0xCF, 0x40] (.comL (.idx .x 0)) ∧
    coded [0xCE, 0xAF] (.andcc 0xAF) ∧ coded [0xDE, 0x11] (.orcc 0x11) ∧ coded [0xCE, 0xFE] .clc ∧
    coded [0xCE, 0xEF] .cli ∧ coded [0xCE, 0xFD] .clv ∧ coded [0xDE, 0x01] .sec ∧ coded [0xDE, 0x10] .sei ∧
    coded [0xDE, 0x02] .sev := by
  decide

theorem test_coded_shift :
    coded [0x14, 0xC6] (.asl .d0 .d6 (.fixed false)) ∧
    coded [0x10, 0xE0, 0x40] (.aslOpr (.toReg .d2 .b (.idx .x 0) (.fixed false))) ∧
    coded [0x16, 0x90, 0x76] (.asr .d6 .d2 (.count false (.immE4 6))) ∧
    coded [0x11, 0xB9, 0x40, 0xBC] (.asrOpr (.toReg .d3 .w (.idx .x 0) (.count true (.reg .d0)))) ∧
    coded [0x14, 0x4C] (.lsl .d0 .d0 (.fixed true)) ∧
    coded [0x10, 0x7D, 0x40] (.lslOpr (.inPlace .w (.idx .x 0) true)) ∧
    coded [0x14, 0x14, 0xB9] (.lsr .d0 .d0 (.count false (.reg .d3))) ∧
    coded [0x10, 0x34, 0xE7] (.lsrOpr (.inPlace .b (.auto .postIncX) false)) ∧
    coded [0x10, 0x64, 0x40] (.rol .b (.idx .x 0)) ∧ coded [0x10, 0x27, 0xBE] (.ror .l (.reg .d6)) := by
  decide

theorem test_coded_bits :
    coded [0xED, 0x3C] (.bset (.reg .d0 7)) ∧ coded [0xED, 0x80, 0x40] (.bset (.opr .b 0 (.idx .x 0))) ∧
    coded [0xEC, 0x78] (.bclr (.reg .d2 15)) ∧ coded [0xEC, 0xC5, 0x50] (.bclr (.oprReg .w .d0 (.idx .y 0))) ∧
    coded [0xEE, 0xFE] (.btgl (.reg .d6 31)) ∧ coded [0xEE, 0xFB, 0x40] (.btgl (.opr .l 31 (.idx .x 0))) ∧
    coded [0xEE, 0xF3, 0x40] (.btgl (.opr .w 15 (.idx .x 0))) ∧
    coded [0x1B, 0x0C, 0x20, 0x84] (.bfext .d0 .d2 (.imm 4 4)) ∧
    coded [0x1B, 0x0C, 0x03] (.bfext .d0 .d2 (.dp .d5)) ∧
    coded [0x1B, 0x0E, 0x4D, 0x40] (.bfextOpr (.fromOpr .d6 .l (.idx .x 0) (.dp .d3))) ∧
    coded [0x1B, 0x0E, 0x75, 0x08, 0x40] (.bfextOpr (.toOpr .w (.idx .x 0) .d6 (.imm 8 8))) ∧
    coded [0x1B, 0x08, 0xB0, 0x88] (.bfins .d2 .d0 (.imm 4 8)) ∧
    coded [0x1B, 0x08, 0xD8, 0x40] (.bfinsOpr (.toOpr .p (.idx .x 0) .d2 (.dp .d2))) ∧
    coded [0x1B, 0x0D, 0xE2, 0x1F, 0x40] (.bfinsOpr (.fromOpr .d1 .b (.idx .x 0) (.imm 16 31))) := by
  decide

theorem test_coded_min_max :
    coded [0x1B, 0x2C, 0x71] (.maxs .d0 (.immE4 1)) ∧ coded [0x1B, 0x1C, 0x71] (.maxu .d0 (.immE4 1)) ∧
    coded [0x1B, 0x20, 0x70] (.mins .d2 (.immE4 0)) ∧ coded [0x1B, 0x10, 0x70] (.minu .d2 (.immE4 0)) := by
  decide

theorem test_coded_branch :
    coded [0x20, 0x3F] (.bra (.short 0x3F)) ∧ coded [0x21, 0xC0, 0x00] (.bsr (.long 0x4000)) ∧
    coded [0x22, 0x10] (.bhi (.short 0x10)) ∧ coded [0x23, 0x10] (.bls (.short 0x10)) ∧
    coded [0x24, 0x10] (.bcc (.short 0x10)) ∧ coded [0x25, 0x10] (.bcs (.short 0x10)) ∧
    coded [0x26, 0x10] (.bne (.short 0x10)) ∧ coded [0x27, 0x10] (.beq (.short 0x10)) ∧
    coded [0x28, 0x10] (.bvc (.short 0x10)) ∧ coded [0x29, 0x10] (.bvs (.short 0x10)) ∧
    coded [0x2A, 0x10] (.bpl (.short 0x10)) ∧ coded [0x2B, 0x10] (.bmi (.short 0x10)) ∧
    coded [0x2C, 0x04] (.bge (.short 0x04)) ∧ coded [0x2D, 0x10] (.blt (.short 0x10)) ∧
    coded [0x2E, 0x10] (.bgt (.short 0x10)) ∧ coded [0x2F, 0x7F] (.ble (.short 0x7F)) ∧
    coded [0x24, 0x10] (.bhs (.short 0x10)) ∧ coded [0x25, 0xBF, 0xFF] (.blo (.long 0x3FFF)) := by
  decide

theorem test_coded_loop_jump_call :
    coded [0x02, 0x24, 0x05] (.brclr (.reg .d0 4) (.short 5)) ∧
    coded [0x03, 0x89, 0x40, 0x80, 0x05] (.brset (.opr .l 8 (.idx .x 0)) (.long 5)) ∧
    coded [0x0B, 0x80, 0x7D] (.dbcc .ne (.d .d2) (.short 0x7D)) ∧
    coded [0x0B, 0xB9, 0x7D] (.dbcc .mi (.xy .y) (.short 0x7D)) ∧
    coded [0x0B, 0xEF, 0x40, 0x10] (.dbccOpr .never6 .l (.idx .x 0) (.short 0x10)) ∧
    coded [0x0B, 0x18, 0x10] (.tbcc .eq (.xy .x) (.short 0x10)) ∧
    coded [0x0B, 0x47, 0x10] (.tbcc .gt (.d .d7) (.short 0x10)) ∧
    coded [0x0B, 0x5E, 0x40, 0x10] (.tbccOpr .le .p (.idx .x 0) (.short 0x10)) ∧
    coded [0xBA, 0x00, 0x12, 0x34] (.jmp (.ext 0x001234)) ∧
    coded [0xAA, 0xFE, 0x00, 0x20, 0x00] (.jmp (.opr (.ext3Ind 0x002000))) ∧
    coded [0xBB, 0x00, 0x40, 0x00] (.jsr (.ext 0x004000)) ∧ coded [0xAB, 0x60] (.jsr (.opr (.idx .s 0))) ∧
    coded [0x05] .rts := by
  decide

theorem test_coded_system :
    coded [0xFF] .swi ∧ coded [0x1B, 0x07] .sys ∧ coded [0x1B, 0x92] (.trap 0x92) ∧
    coded [0x1B, 0xAF] (.trap 0xAF) ∧
    coded [0x1B, 0xB8] (.trap 0xB8) ∧ coded [0xEF] .spare ∧ coded [0x1B, 0x90] .rti ∧
    coded [0x1B, 0x06] .wai ∧
    coded [0x1B, 0x05] .stop ∧ coded [0x01] .nop ∧ coded [0x00] .bgnd := by
  decide

/-- The sixteen submodes of `xb` behind LD D2 (the table of 95_test_vectors.md, 2.1). -/
theorem test_coded_submodes :
    let ld (o : Opr) : Instr := .ldD .d2 (.opr o)
    coded [0xA0, 0x3F, 0xFF] (ld (.ext1 0x3FFF)) ∧ coded [0xA0, 0x4F] (ld (.idx .x 15)) ∧
    coded [0xA0, 0x62] (ld (.idx .s 2)) ∧
    coded [0xA0, 0x70] (ld (.immE4 0)) ∧ coded [0xA0, 0x9C] (ld (.regIdx .d0 .y)) ∧
    coded [0xA0, 0xAE] (ld (.regIdx .d6 .s)) ∧
    coded [0xA0, 0xBC] (ld (.reg .d0)) ∧ coded [0xA0, 0xC1, 0xF0] (ld (.idx1 .x 0x1F0)) ∧
    coded [0xA0, 0xF1, 0xFE] (ld (.idx1 .pc 0x1FE)) ∧
    coded [0xA0, 0xD2, 0xFF, 0xFF, 0xFF] (ld (.idx3 .y 0xFFFFFF)) ∧
    coded [0xA0, 0xC7] (ld (.auto .postDecX)) ∧ coded [0xA0, 0xE3] (ld (.auto .preIncX)) ∧
    coded [0xA0, 0xC3] (ld (.auto .preDecX)) ∧ coded [0xA0, 0xD3] (ld (.auto .preDecY)) ∧
    coded [0xA0, 0xF3] (ld (.auto .preIncY)) ∧ coded [0xA0, 0xD7] (ld (.auto .postDecY)) ∧
    coded [0xA0, 0xF7] (ld (.auto .postIncY)) ∧ coded [0xA0, 0xFB] (ld (.auto .preDecS)) ∧
    coded [0xA0, 0xFF] (ld (.auto .postIncS)) ∧ coded [0xA0, 0xC4, 0x04] (ld (.idx1Ind .x 4)) ∧
    coded [0xA0, 0xC8] (ld (.regIdxInd .d2 .x)) ∧
    coded [0xA0, 0xC6, 0x00, 0x00, 0x10] (ld (.idx3Ind .x 0x10)) ∧
    coded [0xA0, 0xFE, 0x00, 0x20, 0x00] (ld (.ext3Ind 0x2000)) ∧
    coded [0xA0, 0x84, 0x12, 0x34] (ld (.idx2Reg 0x1234 .d0)) ∧
    coded [0xA0, 0xB0, 0x00, 0x00] (ld (.idx2Reg 0x30000 .d2)) ∧
    coded [0xA0, 0xEC, 0x10, 0x00, 0x00] (ld (.idx3Reg 0x100000 .d0)) ∧
    coded [0xA0, 0xF9, 0x23, 0x45] (ld (.ext2 0x12345)) ∧
    coded [0xA0, 0xFA, 0x12, 0x34, 0x56] (ld (.ext3 0x123456)) := by
  decide

/-- Ignored bits of a postbyte: the instruction is the one with the bits as the encoder writes them (R127,
R128, R131, R126). -/
theorem test_ignored_bits :
    decode [0x17, 0xEC, 0x40] = decode [0x10, 0x64, 0x40] ∧ decode [0xED, 0x7C] = decode [0xED, 0x3C] ∧
    decode [0xEC, 0xC4, 0x50] = decode [0xEC, 0xC5, 0x50] ∧
      decode [0x1B, 0x91, 0xEC] = decode [0x1B, 0x91, 0x64] ∧
    decode [0x0B, 0x1A, 0x10] = decode [0x0B, 0x18, 0x10] := by
  decide

/-- Bytes that end inside an instruction are refused. -/
theorem test_decode_cut_short : (∀ r, decode [] ≠ .ok r) ∧ (∀ r, decode [0x1B] ≠ .ok r) ∧
    ∀ r, decode [0xA0, 0xFA, 0x12] ≠ .ok r := by
  refine ⟨?_, ?_, ?_⟩ <;> intro r h <;> cases h

/-! ## Vectors of spec/95_test_vectors.md -/

/-- A CCR from its sixteen bits as read (R16). -/
def ccr (n : Nat) : Ccr :=
  { u := n.testBit 15, ipl := BitVec.ofNat 3 (n / 256), s := n.testBit 7, xm := n.testBit 6,
    i := n.testBit 4, n := n.testBit 3, z := n.testBit 2, v := n.testBit 1, c := n.testBit 0 }

/-- The start state of the vectors; its CCR is that of reset, 00D0. -/
def start : State := { State.reset with x := 0x001000, y := 0x002000, sp := 0x003000, pc := 0x004000 }

/-- What one instruction, given as its bytes, leaves of a state, in the parts that `f` picks. -/
def after {α : Type} (bs : List Byte) (s : State) (f : State → α) : Option α :=
  match decode bs with
  | .ok (i, []) =>
    match exec i s with
    | .next t => some (f t)
    | _ => none
  | _ => none

/-! ### Operands -/

theorem test_byte_order :
    let s := { start with mem := [(0x1000, 0x12), (0x1001, 0x34), (0x1002, 0x56), (0x1003, 0x78)] }
    after [0xA4, 0x40] s (·.d0) = some 0x12 ∧ after [0xA0, 0x40] s (·.d2) = some 0x1234 ∧
    after [0xA8, 0x40] s (·.x) = some 0x123456 ∧ after [0xA6, 0x40] s (·.d6) = some 0x12345678 := by
  decide

theorem test_address_wraps :
    after [0xA0, 0xC3] { start with x := 1, mem := [(0, 0xEF), (0xFFFFFF, 0xBE)] } (fun t => (t.d2, t.x)) =
      some (0xBEEF, 0xFFFFFF) := by
  decide

theorem test_indirect :
    after [0xA0, 0xC4, 0x04] { start with mem := [(0x1005, 0x50), (0x5000, 0xBE), (0x5001, 0xEF)] }
      (fun t => (t.d2, t.ccr)) = some (0xBEEF, ccr 0xD8) := by
  decide

theorem test_register_offset_signed :
    after [0xA0, 0x88] { start with d2 := 0xFFFE, mem := [(0xFFE, 0x12), (0xFFF, 0x34)] } (·.d2) =
        some 0x1234 := by
  decide

theorem test_register_offset_unsigned :
    after [0xA0, 0x9C] { start with d0 := 0x80, mem := [(0x2080, 0x12), (0x2081, 0x34)] } (·.d2) =
        some 0x1234 := by
  decide

theorem test_pc_relative_from_instruction :
    after [0xA0, 0xF1, 0xFE] { start with mem := [(0x3FFE, 0x12), (0x3FFF, 0x34)] } (fun t => (t.d2, t.pc)) =
      some (0x1234, 0x4003) := by
  decide

/-! ### Data movement -/

theorem test_ld_d_negative : after [0x94, 0x80] start (fun t => (t.d0, t.ccr, t.pc)) =
      some (0x80, ccr 0xD8, 0x4002) := by
  decide
theorem test_ld_d_zero_keeps_c :
    after [0x90, 0x00, 0x00] { start with d2 := 1, ccr := ccr 0xD3 } (fun t => (t.d2, t.ccr)) =
        some (0, ccr 0xD5) := by
  decide
theorem test_ld_x_18_bits : after [0xEA, 0xAB, 0xCD] start (fun t => (t.x, t.ccr)) =
      some (0x02ABCD, ccr 0xD0) := by decide
theorem test_ld_x_loaded_value_wins :
    after [0xA8, 0xE7] { start with mem := [(0x1001, 0x20)] } (·.x) = some 0x002000 := by decide
theorem test_ld_s : after [0x1B, 0x03, 0x00, 0x40, 0x00] start (fun t => (t.sp, t.ccr)) =
      some (0x4000, ccr 0xD0) := by
  decide
theorem test_st_d_memory :
    after [0xC6, 0x44] { start with d6 := 0x80000001 } (fun t => (t.mem, t.ccr)) =
      some ([(0x1004, 0x80), (0x1007, 0x01)], ccr 0xD8) := by decide
theorem test_st_d_wider_register :
    after [0xC0, 0xBE] { start with d2 := 0x8001, d6 := 0xFFFFFFFF } (fun t => (t.d6, t.ccr)) =
      some (0x00008001, ccr 0xD8) := by decide
theorem test_st_x_value_of_the_start :
    after [0xC8, 0xC3] { start with x := 0x001003 } (fun t => (t.x, t.mem)) =
      some (0x001000, [(0x1001, 0x10), (0x1002, 0x03)]) := by decide
theorem test_st_s :
    after [0x1B, 0x01, 0x10, 0x00] { start with sp := 0x003FF0 } (·.mem) =
        some [(0x1001, 0x3F), (0x1002, 0xF0)] := by
  decide
theorem test_mov_b :
    after [0x0C, 0x55, 0x12, 0x34] start (fun t => (t.mem, t.ccr)) =
        some ([(0x1234, 0x55)], ccr 0xD0) := by decide
theorem test_mov_b_short_immediate_fills : after [0x1C, 0x70, 0xBE] start (·.d6) =
      some 0xFFFFFFFF := by decide
theorem test_mov_w_source_first :
    after [0x1D, 0xE7, 0x88] { start with d2 := 0x0010, mem := [(0x1000, 0xAB), (0x1001, 0xCD)] }
      (fun t => (t.x, t.mem)) =
      some (0x1002, [(0x1000, 0xAB), (0x1001, 0xCD), (0x1012, 0xAB), (0x1013, 0xCD)]) := by decide
theorem test_mov_p :
    after [0x1E, 0xE7, 0xF7] { start with mem := [(0x1000, 1), (0x1001, 2), (0x1002, 3)] }
      (fun t => (t.x, t.y, t.mem.drop 3)) =
          some (0x1003, 0x2003, [(0x2000, 1), (0x2001, 2), (0x2002, 3)]) := by
  decide
theorem test_mov_l :
    after [0x0F, 0xDE, 0xAD, 0xBE, 0xEF, 0x40] start (·.mem) =
      some [(0x1000, 0xDE), (0x1001, 0xAD), (0x1002, 0xBE), (0x1003, 0xEF)] := by decide
theorem test_psh :
    after [0x04, 0x0C] { start with sp := 0x4000, d0 := 0x11, d1 := 0x22 } (fun t => (t.sp, t.mem)) =
      some (0x3FFE, [(0x3FFE, 0x11), (0x3FFF, 0x22)]) := by decide
theorem test_psh_all :
    after [0x04, 0x00] { start with d0 := 0x11, d2 := 0x3344, d7 := 0x55 } (fun t => (t.sp, t.mem)) =
      some (0x2FE6, [(0x2FE7, 0xD0), (0x2FE8, 0x11), (0x2FEA, 0x33), (0x2FEB, 0x44), (0x2FF9, 0x55), (0x2FFB, 0x10),
        (0x2FFE, 0x20)]) := by decide
theorem test_psh_all_16b :
    after [0x04, 0x40] { start with d2 := 0x3333, d5 := 0x6666 } (fun t => (t.sp, t.mem)) =
      some (0x2FF8, [(0x2FF8, 0x33), (0x2FF9, 0x33), (0x2FFE, 0x66), (0x2FFF, 0x66)]) := by decide
theorem test_pul_ccl_supervisor :
    after [0x04, 0x90] { start with ccr := ccr 0, mem := [(0x3000, 0xFF)] } (fun t => (t.ccr, t.sp)) =
      some (ccr 0x9F, 0x3001) := by decide
theorem test_pul_ccl_user :
    after [0x04, 0x90] { start with ccr := ccr 0x8000, mem := [(0x3000, 0xFF)] } (·.ccr) =
        some (ccr 0x800F) := by decide
theorem test_pul_all :
    after [0x04, 0x80]
        { start with sp := 0x2FE6, mem := [(0x2FE7, 0xC0), (0x2FE8, 0x11), (0x2FEB, 0x44), (0x2FFF, 0xBB)] }
      (fun t => (t.ccr, t.d0, t.d2, t.x, t.y, t.sp)) =
          some (ccr 0xC0, 0x11, 0x0044, 0, 0xBB, 0x3000) := by decide
theorem test_pul_all_16b :
    after [0x04, 0xC0] { start with mem := [(0x3001, 0x12), (0x3007, 0x34)] } (fun t => (t.d2, t.d5, t.sp)) =
      some (0x12, 0x34, 0x3008) := by decide
theorem test_lea : after [0x06, 0x98] { start with d2 := 0xFFFE } (·.d6) = some 0x00001FFE := by decide
theorem test_lea_pointer_not_read :
    after [0x09, 0xC6, 0x00, 0x00, 0x10] { start with mem := [(0x1010, 0xFF)] } (·.y) =
        some 0x001010 := by decide
theorem test_lea_imm : after [0x18, 0x80] start (fun t => (t.x, t.ccr)) =
      some (0x000F80, ccr 0xD0) := by decide
theorem test_lea_imm_wraps : after [0x18, 0x01] { start with x := 0xFFFFFF } (·.x) = some 0 := by decide
theorem test_clr_b : after [0xBC, 0x40]
      { start with mem := [(0x1000, 0xFF)] } (fun t => (t.mem, t.ccr)) = some ([], ccr 0xD4) := by
  decide
theorem test_clr_w :
    after [0xBD, 0x10, 0x00] { start with mem := [(0x1000, 0xFF), (0x1001, 0xFF), (0x1002, 0xFF)] } (·.mem) =
      some [(0x1002, 0xFF)] := by decide
theorem test_clr_p : after [0xBE, 0xE7] { start with mem := [(0x1002, 0xFF)] } (fun t => (t.mem, t.x)) =
      some ([], 0x1003) := by
  decide
theorem test_clr_l : after [0xBF, 0x40] { start with mem := [(0x1003, 9), (0x1004, 9)] } (·.mem) =
      some [(0x1004, 9)] := by
  decide
theorem test_clr_d : after [0x3C] { start with d0 := 0xFF, ccr := ccr 0xDB } (fun t => (t.d0, t.ccr)) =
      some (0, ccr 0xD4) := by
  decide
theorem test_clr_y : after [0x9B] start (fun t => (t.y, t.x)) = some (0, 0x1000) := by decide
theorem test_tfr_truncates : after [0x9E, 0x68] { start with d6 := 0xAABBCCDD } (·.x) =
      some 0xBBCCDD := by decide
theorem test_tfr_to_ccw :
    after [0x9E, 0x0E] { start with d2 := 0xFFFF } (·.ccr) = some (ccr 0x87DF) ∧
    after [0x9E, 0x0E] { start with d2 := 0xFFFF, ccr := ccr 0x80D0 } (·.ccr) = some (ccr 0x80DF) := by decide
theorem test_zex : after [0x9E, 0x57] { start with d1 := 0xFF, d7 := 0x12345678 } (·.d7) =
      some 0xFF := by decide
theorem test_exg_equal :
    after [0xAE, 0x45] { start with d0 := 0x11, d1 := 0x22 } (fun t => (t.d0, t.d1)) =
        some (0x22, 0x11) := by decide
theorem test_exg_wider_first :
    after [0xAE, 0x04] { start with d2 := 0x1234, d0 := 0x80 } (fun t => (t.d0, t.d2)) =
        some (0x34, 0xFF80) := by decide
theorem test_sex :
    after [0xAE, 0x86] { start with x := 0x800000 } (fun t => (t.d6, t.x)) =
        some (0xFF800000, 0x800000) := by decide

/-! ### Add, subtract, compare -/

theorem test_add_carry : after [0x54, 0x80] { start with d0 := 0x80 } (fun t => (t.d0, t.ccr)) =
      some (0, ccr 0xD7) := by decide
theorem test_add_truncates_wider :
    after [0x64, 0xBE] { start with d0 := 1, d6 := 0x123456FF } (fun t => (t.d0, t.ccr)) =
        some (0, ccr 0xD5) := by decide
theorem test_adc_keeps_z :
    after [0x1B, 0x56, 0, 0, 0, 0] { start with d6 := 0xFFFFFFFF, ccr := ccr 0xD5 } (fun t => (t.d6, t.ccr)) =
      some (0, ccr 0xD5) := by decide
theorem test_adc_z_stays_clear :
    after [0x1B, 0x56, 0, 0, 0, 0] { start with d6 := 0xFFFFFFFF, ccr := ccr 0xD1 } (·.ccr) =
        some (ccr 0xD1) := by decide
theorem test_sub_borrow : after [0x75, 0x20] { start with d1 := 0x10 } (fun t => (t.d1, t.ccr)) =
      some (0xF0, ccr 0xD9) := by
  decide
theorem test_sub_overflow : after [0x74, 0x01] { start with d0 := 0x80 } (fun t => (t.d0, t.ccr)) =
      some (0x7F, ccr 0xD2) := by
  decide
theorem test_sub_d6 :
    after [0xFD] { start with y := 0x1004 } (fun t => (t.d6, t.ccr)) = some (0xFFFFFFFC, ccr 0xD9) ∧
    after [0xFE] { start with y := 0x1004 } (fun t => (t.d6, t.ccr)) = some (4, ccr 0xD0) := by decide
theorem test_sbc_borrow :
    after [0x1B, 0x70, 0, 0] { start with ccr := ccr 0xD5 } (fun t => (t.d2, t.ccr)) =
        some (0xFFFF, ccr 0xD9) := by decide
theorem test_sbc_keeps_z :
    after [0x1B, 0x70, 0, 0] { start with d2 := 1, ccr := ccr 0xD5 } (fun t => (t.d2, t.ccr)) =
        some (0, ccr 0xD4) := by
  decide
theorem test_inc_d : after [0x31] { start with d3 := 0x7FFF, ccr := ccr 0xD1 } (fun t => (t.d3, t.ccr)) =
      some (0x8000, ccr 0xDB) := by
  decide
theorem test_inc_b : after [0x9C, 0x40]
      { start with mem := [(0x1000, 0xFF)] } (fun t => (t.mem, t.ccr)) = some ([], ccr 0xD4) := by
  decide
theorem test_inc_w : after [0x9D, 0xBE] { start with d6 := 0x0000FFFF } (·.d6) = some 0x00010000 := by decide
theorem test_inc_l_moves_once :
    after [0x9F, 0xE7] { start with mem := [(0x1002, 0xFF), (0x1003, 0xFF)] } (fun t => (t.mem, t.x)) =
      some ([(0x1001, 1)], 0x1004) := by decide
theorem test_dec_d : after [0x45] { start with d1 := 0x80 } (fun t => (t.d1, t.ccr)) =
      some (0x7F, ccr 0xD2) := by decide
theorem test_dec_b : after [0xAC, 0x40] start (fun t => (t.mem, t.ccr)) =
      some ([(0x1000, 0xFF)], ccr 0xD8) := by decide
theorem test_dec_w : after [0xAD, 0x40] { start with mem := [(0x1000, 1)] } (·.mem) =
      some [(0x1001, 0xFF)] := by decide
theorem test_dec_l : after [0xAF, 0xBE] { start with d6 := 1 } (fun t => (t.d6, t.ccr)) =
      some (0, ccr 0xD4) := by decide
theorem test_cmp_d_equal : after [0xE4, 0x05] { start with d0 := 5 } (fun t => (t.d0, t.ccr)) =
      some (5, ccr 0xD4) := by decide
theorem test_cmp_d_overflow : after [0xE4, 0x01] { start with d0 := 0x80 } (·.ccr) =
      some (ccr 0xD2) := by decide
theorem test_cmp_y : after [0xE9, 0, 0, 1] { start with y := 0 } (·.ccr) = some (ccr 0xD9) := by decide
theorem test_cmp_s : after [0x1B, 0x04, 0x00, 0x30, 0x00] start (·.ccr) = some (ccr 0xD4) := by decide
theorem test_cmp_x_y : after [0xFC] { start with x := 0x10, y := 0x20 } (·.ccr) = some (ccr 0xD9) := by decide
theorem test_neg_b : after [0xDC, 0xBC] { start with d0 := 0x80 } (fun t => (t.d0, t.ccr)) =
      some (0x80, ccr 0xDB) := by decide
theorem test_neg_w :
    after [0xDD, 0x40] { start with mem := [(0x1001, 1)] } (fun t => (t.mem, t.ccr)) =
      some ([(0x1000, 0xFF), (0x1001, 0xFF)], ccr 0xD9) := by decide
theorem test_neg_l : after [0xDF, 0xBE] start (fun t => (t.d6, t.ccr)) = some (0, ccr 0xD4) := by decide
theorem test_abs : after [0x1B, 0x44] { start with d0 := 0xFB } (fun t => (t.d0, t.ccr)) =
      some (5, ccr 0xD0) := by decide
theorem test_abs_most_negative : after [0x1B, 0x40]
      { start with d2 := 0x8000 } (fun t => (t.d2, t.ccr)) = some (0x8000, ccr 0xDA) := by
  decide

/-! ### Multiply, divide, fractions -/

theorem test_muls : after [0x4E, 0x81] { start with d2 := 0xFFFE, d3 := 3 } (fun t => (t.d6, t.ccr)) =
      some (0xFFFFFFFA, ccr 0xD8) := by
  decide
theorem test_muls_overflow :
    after [0x4C, 0xA5] { start with d0 := 0xFF, d1 := 0x80 } (fun t => (t.d0, t.ccr)) =
        some (0x80, ccr 0xDA) := by decide
theorem test_muls_memory_forms :
    let s := { start with d2 := 0xFFFF, mem := [(0x1000, 0xFF), (0x1001, 0xFE), (0x1003, 0x02), (0x2000, 0x03)] }
    after [0x4E, 0xC0, 0x40] s (·.d6) = some 1 ∧ after [0x4E, 0xC1, 0x40] s (·.d6) = some 2 ∧
    after [0x4E, 0xC3, 0x40] s (·.d6) = some 0x0001FFFE ∧
    after [0x4E, 0xD2, 0x40, 0x50] s (·.d6) = some 0xFFFFFFFA := by
  decide
theorem test_mulu : after [0x4E, 0x01]
      { start with d2 := 0xFFFF, d3 := 0xFFFF } (fun t => (t.d6, t.ccr)) = some (0xFFFE0001, ccr 0xD8) := by
  decide
theorem test_mulu_overflow : after [0x4C, 0x64, 0x14]
      { start with d0 := 0x10 } (fun t => (t.d0, t.ccr)) = some (0x40, ccr 0xD2) := by
  decide
theorem test_mulu_memory_forms :
    let s := { start with d2 := 2, mem := [(0x1000, 0xFF), (0x1001, 0xFE), (0x1003, 0x02), (0x2000, 0x03)] }
    after [0x4E, 0x40, 0x40] s (·.d6) = some 0x1FE ∧ after [0x4E, 0x41, 0x40] s (·.d6) = some 0x1FFFC ∧
    after [0x4E, 0x43, 0x40] s (fun t => (t.d6, t.ccr.v)) = some (0xFFFC0004, true) ∧
    after [0x4E, 0x52, 0x40, 0x50] s (·.d6) = some 0x2FFFA := by
  decide
theorem test_macs :
    after [0x1B, 0x4E, 0x81] { start with d6 := 0x10, d2 := 2, d3 := 0xFFFD } (fun t => (t.d6, t.ccr)) =
        some (0x0A, ccr 0xD1) := by
  decide
theorem test_macs_overflow :
    after [0x1B, 0x4E, 0x81] { start with d6 := 0x7FFFFFFF, d2 := 1, d3 := 1 } (fun t => (t.d6, t.ccr)) =
      some (0x80000000, ccr 0xDA) := by decide
theorem test_macs_memory_forms :
    let s := { start with d6 := 5, d2 := 0xFFFF, mem := [(0x1000, 0xFF), (0x1001, 0xFE), (0x1003, 0x02), (0x2000, 0x03)] }
    after [0x1B, 0x4E, 0xC0, 0x40] s (·.d6) = some 6 ∧ after [0x1B, 0x4E, 0xC1, 0x40] s (·.d6) = some 7 ∧
    after [0x1B, 0x4E, 0xC3, 0x40] s (·.d6) = some 0x00020003 ∧
    after [0x1B, 0x4E, 0xD2, 0x40, 0x50] s (·.d6) = some 0xFFFFFFFF := by
  decide
theorem test_macu : after [0x1B, 0x4C, 0x2D]
      { start with d0 := 0xF0, d1 := 4 } (fun t => (t.d0, t.ccr)) = some (0, ccr 0xD7) := by
  decide
theorem test_macu_memory_forms :
    let s := { start with d6 := 1, d2 := 2, mem := [(0x1000, 0xFF), (0x1001, 0xFE), (0x1003, 0x02), (0x2000, 0x03)] }
    after [0x1B, 0x4E, 0x40, 0x40] s (·.d6) = some 0x1FF ∧
    after [0x1B, 0x4E, 0x41, 0x40] s (·.d6) = some 0x1FFFD ∧
    after [0x1B, 0x4E, 0x43, 0x40] s (fun t => (t.d6, t.ccr.v)) = some (0xFFFC0005, true) ∧
    after [0x1B, 0x4E, 0x52, 0x40, 0x50] s (·.d6) = some 0x2FFFB := by
  decide
theorem test_divs_toward_zero :
    after [0x1B, 0x30, 0x81] { start with d2 := 0xFFF9, d3 := 2 } (fun t => (t.d2, t.ccr)) =
        some (0xFFFD, ccr 0xD8) := by decide
theorem test_divs_open_cases :
    after [0x1B, 0x30, 0x81] { start with d2 := 0x8000, d3 := 0xFFFF } (fun t => (t.ccr.v, t.ccr.c)) =
        some (true, false) ∧
    after [0x1B, 0x30, 0x81] { start with d2 := 7 } (fun t => (t.ccr.c, t.pc)) =
        some (true, 0x4003) := by decide
theorem test_divs_memory_forms :
    let s := { start with d6 := 0xFFFFFF00, mem := [(0x1000, 0x02), (0x1001, 0x80), (0x2000, 0xFF)] }
    after [0x1B, 0x36, 0xF0, 0x40] s (·.d6) = some 0xFFFFFF80 ∧
    after [0x1B, 0x36, 0xF1, 0x40] s (·.d6) = some 0 ∧
    after [0x1B, 0x36, 0xF3, 0x40] s (·.d6) = some 0 ∧
    after [0x1B, 0x36, 0xD2, 0x40, 0x50] s (·.d6) = some 0xFFFFFD80 := by
  decide
theorem test_divu : after [0x1B, 0x34, 0x64, 0x07] { start with d0 := 0x64 } (fun t => (t.d0, t.ccr)) =
      some (0x0E, ccr 0xD0) := by
  decide
theorem test_divu_overflow :
    after [0x1B, 0x34, 0x01] { start with d2 := 0x1000, d3 := 2 } (fun t => (t.ccr.v, t.ccr.c)) =
        some (true, false) := by decide
theorem test_divu_memory_forms :
    let s := { start with d6 := 0xFFFFFF00, mem := [(0x1000, 0x02), (0x1001, 0x80), (0x2000, 0xFF)] }
    after [0x1B, 0x36, 0x70, 0x40] s (·.d6) = some 0x7FFFFF80 ∧
    after [0x1B, 0x36, 0x71, 0x40] s (·.d6) = some 0x00666666 ∧
    after [0x1B, 0x36, 0x73, 0x40] s (·.d6) = some 0x66 ∧
    after [0x1B, 0x36, 0x52, 0x40, 0x50] s (·.d6) = some 2 := by
  decide
theorem test_mods :
    after [0x1B, 0x38, 0x81] { start with d2 := 7, d3 := 0xFFFE } (fun t => (t.d2, t.ccr)) =
        some (1, ccr 0xD0) := by decide
theorem test_mods_no_overflow :
    after [0x1B, 0x38, 0x81] { start with d2 := 0x8000, d3 := 0xFFFF } (fun t => (t.d2, t.ccr)) =
        some (0, ccr 0xD4) := by decide
theorem test_mods_memory_forms :
    let s := { start with d6 := 0xFFFFFF01, mem := [(0x1000, 0x02), (0x1001, 0x80), (0x2000, 0xFF)] }
    after [0x1B, 0x3E, 0xF0, 0x40] s (·.d6) = some 0xFFFFFFFF ∧
    after [0x1B, 0x3E, 0xF1, 0x40] s (·.d6) = some 0xFFFFFF01 ∧
    after [0x1B, 0x3E, 0xF3, 0x40] s (·.d6) = some 0xFFFFFF01 ∧
    after [0x1B, 0x3E, 0xD2, 0x40, 0x50] s (·.d6) = some 0 := by
  decide
theorem test_modu : after [0x1B, 0x3C, 0x64, 0x07] { start with d0 := 0x64 } (fun t => (t.d0, t.ccr)) =
      some (2, ccr 0xD0) := by
  decide
theorem test_modu_memory_forms :
    let s := { start with d6 := 0xFFFFFF01, mem := [(0x1000, 0x02), (0x1001, 0x80), (0x2000, 0xFF)] }
    after [0x1B, 0x3E, 0x70, 0x40] s (·.d6) = some 1 ∧ after [0x1B, 0x3E, 0x71, 0x40] s (·.d6) = some 1 ∧
    after [0x1B, 0x3E, 0x73, 0x40] s (·.d6) = some 0x00FFFF01 ∧
    after [0x1B, 0x3E, 0x52, 0x40, 0x50] s (·.d6) = some 0x82 := by
  decide
theorem test_qmuls :
    after [0x1B, 0xB0, 0x81] { start with d2 := 0xC000, d3 := 0x4000 } (fun t => (t.d2, t.ccr)) =
        some (0xE000, ccr 0xD8) := by
  decide
theorem test_qmuls_saturates :
    after [0x1B, 0xB0, 0x81] { start with d2 := 0x8000, d3 := 0x8000 } (fun t => (t.d2, t.ccr)) =
        some (0x7FFF, ccr 0xD2) := by
  decide
theorem test_qmuls_memory_forms :
    let s := { start with d2 := 0x4000, mem := [(0x1000, 0x40), (0x2000, 0xC0)] }
    after [0x1B, 0xB0, 0xC0, 0x40] s (·.d2) = some 0x2000 ∧
    after [0x1B, 0xB0, 0xC1, 0x40] s (·.d2) = some 0x2000 ∧
    after [0x1B, 0xB0, 0xC3, 0x40] s (·.d2) = some 0x2000 ∧
    after [0x1B, 0xB0, 0xD2, 0x40, 0x50] s (·.d2) = some 0xE000 := by
  decide
theorem test_qmulu : after [0x1B, 0xB4, 0x25]
      { start with d0 := 0xFF, d1 := 0xFF } (fun t => (t.d0, t.ccr)) = some (0xFE, ccr 0xD8) := by
  decide
theorem test_qmulu_memory_forms :
    let s := { start with d2 := 0x8000, mem := [(0x1000, 0x40), (0x2000, 0xC0)] }
    after [0x1B, 0xB0, 0x40, 0x40] s (·.d2) = some 0x2000 ∧
    after [0x1B, 0xB0, 0x41, 0x40] s (·.d2) = some 0x2000 ∧
    after [0x1B, 0xB0, 0x43, 0x40] s (·.d2) = some 0x2000 ∧
    after [0x1B, 0xB0, 0x52, 0x40, 0x50] s (·.d2) = some 0x3000 := by
  decide
theorem test_sat :
    after [0x1B, 0xA4] { start with d0 := 0x80, ccr := ccr 0xDB } (fun t => (t.d0, t.ccr)) =
        some (0x7F, ccr 0xD1) ∧
    after [0x1B, 0xA4] { start with d0 := 0x7F, ccr := ccr 0xD2 } (fun t => (t.d0, t.ccr)) =
        some (0x80, ccr 0xD8) := by decide
theorem test_clb :
    after [0x1B, 0x91, 0x45] { start with d0 := 1 } (fun t => (t.d1, t.ccr)) = some (6, ccr 0xD0) ∧
    after [0x1B, 0x91, 0x64] { start with d6 := 0xFFFFFFFF } (·.d0) = some 0x1F := by decide

/-! ### Logic, condition codes -/

theorem test_and : after [0x68, 0xBD] { start with d2 := 0x1234, d1 := 0x0F } (·.d2) = some 4 := by decide
theorem test_or : after [0x7D, 0x80] { start with d1 := 1, ccr := ccr 0xD3 } (fun t => (t.d1, t.ccr)) =
      some (0x81, ccr 0xD9) := by
  decide
theorem test_eor : after [0x1B, 0x78, 0x0F, 0x0F] { start with d2 := 0xFFFF } (fun t => (t.d2, t.ccr)) =
      some (0xF0F0, ccr 0xD8) := by
  decide
theorem test_bit : after [0x1B, 0x5C, 0x7E] { start with d0 := 0x81 } (fun t => (t.d0, t.ccr)) =
      some (0x81, ccr 0xD4) := by decide
theorem test_com_b : after [0xCC, 0xBE] start (fun t => (t.d6, t.ccr)) =
      some (0xFFFFFFFF, ccr 0xD8) := by decide
theorem test_com_w : after [0xCD, 0x40] { start with mem := [(0x1000, 0x0F)] } (·.mem) =
      some [(0x1000, 0xF0), (0x1001, 0xFF)] := by
  decide
theorem test_com_l : after [0xCF, 0xBE] { start with d6 := 0xFFFFFFFE } (·.d6) = some 1 := by decide
theorem test_andcc :
    after [0xCE, 0xAF] start (·.ccr) = some (ccr 0x80) ∧
    after [0xCE, 0xE0] { start with ccr := ccr 0x801F } (·.ccr) = some (ccr 0x8010) := by decide
theorem test_orcc :
    after [0xDE, 0x11] { start with ccr := ccr 0x8000 } (·.ccr) = some (ccr 0x8001) ∧
    after [0xDE, 0x40] { start with ccr := ccr 0x80 } (·.ccr) = some (ccr 0x80) := by decide

/-! ### Shifts, bits -/

theorem test_asl : after [0x14, 0xC4] { start with d0 := 0x40 } (fun t => (t.d0, t.ccr)) =
      some (0x80, ccr 0xDA) := by decide
theorem test_asl_narrowing : after [0x14, 0xC6] { start with d6 := 0x40 } (fun t => (t.d0, t.ccr)) =
      some (0x80, ccr 0xDA) := by
  decide
theorem test_asl_memory :
    after [0x10, 0xE0, 0x40] { start with mem := [(0x1000, 0xFF)] } (fun t => (t.d2, t.ccr)) =
        some (0xFFFE, ccr 0xD1) := by decide
theorem test_asr : after [0x16, 0x90, 0x76] { start with d2 := 0x8000 } (fun t => (t.d6, t.ccr)) =
      some (0xFFFFFFF8, ccr 0xD8) := by
  decide
set_option maxRecDepth 2000 in
theorem test_asr_by_thirty : after [0x14, 0x94, 0x7F]
      { start with d0 := 0x80 } (fun t => (t.d0, t.ccr)) = some (0xFF, ccr 0xD9) := by
  rfl
theorem test_asr_memory :
    after [0x11, 0xB9, 0x40, 0xBC] { start with d0 := 4, mem := [(0x1000, 0x80)] } (·.d3) =
        some 0xF800 := by decide
theorem test_lsl : after [0x14, 0x44] { start with d0 := 0xC0 } (fun t => (t.d0, t.ccr)) =
      some (0x80, ccr 0xDB) := by decide
theorem test_lsl_memory :
    after [0x10, 0x7D, 0x40]
        { start with mem := [(0x1000, 0x40), (0x1001, 0x01)] } (fun t => (t.mem, t.ccr)) =
      some ([(0x1001, 0x04)], ccr 0xD3) := by decide
theorem test_lsr : after [0x14, 0x14, 0xB9]
      { start with d0 := 0x80, d3 := 0x27 } (fun t => (t.d0, t.ccr)) = some (1, ccr 0xD0) := by
  decide
theorem test_lsr_by_zero_keeps_c :
    after [0x14, 0x14, 0x70] { start with d0 := 0x81, ccr := ccr 0xD1 } (fun t => (t.d0, t.ccr)) =
        some (0x81, ccr 0xD9) := by
  decide
theorem test_lsr_memory :
    after [0x10, 0x34, 0xE7] { start with mem := [(0x1000, 0x03)] } (fun t => (t.mem, t.x, t.ccr)) =
      some ([(0x1000, 0x01)], 0x1001, ccr 0xD1) := by decide
theorem test_rol :
    after [0x10, 0x64, 0x40]
        { start with ccr := ccr 0xD1, mem := [(0x1000, 0x80)] } (fun t => (t.mem, t.ccr)) =
      some ([(0x1000, 0x01)], ccr 0xD1) := by decide
theorem test_ror : after [0x10, 0x24, 0xBC] { start with ccr := ccr 0xD1 } (fun t => (t.d0, t.ccr)) =
      some (0x80, ccr 0xD8) := by
  decide
theorem test_bset : after [0xED, 0x3C] start (fun t => (t.d0, t.ccr)) = some (0x80, ccr 0xD8) := by decide
theorem test_bclr :
    after [0xEC, 0xC5, 0x50]
        { start with d0 := 0x22, mem := [(0x2001, 0x04)] } (fun t => (t.mem, t.ccr)) =
            some ([], ccr 0xD5) := by
  decide
theorem test_btgl : after [0xEE, 0xFE] { start with d6 := 0x80000000 } (fun t => (t.d6, t.ccr)) =
      some (0, ccr 0xD5) := by decide
theorem test_btgl_beyond_operand :
    after [0xEE, 0x91, 0x40] { start with d3 := 9, mem := [(0x1000, 0x55)] } (fun t => (t.mem, t.ccr)) =
      some ([(0x1000, 0x55)], ccr 0xD0) := by decide
theorem test_bfext : after [0x1B, 0x0C, 0x20, 0x84]
      { start with d2 := 0xABCD } (fun t => (t.d0, t.ccr)) = some (0x0C, ccr 0xD0) := by
  decide
theorem test_bfext_memory :
    after [0x1B, 0x0E, 0x4D, 0x40]
        { start with d3 := 0x0088, mem := [(0x1002, 0xAB), (0x1003, 0xCD)] } (·.d6) = some 0xB := by
  decide
theorem test_bfins :
    after [0x1B, 0x08, 0xB0, 0x88] { start with d2 := 0xFFFF, d0 := 5 } (fun t => (t.d2, t.ccr)) =
        some (0xF5FF, ccr 0xD8) := by
  decide
theorem test_bfins_memory :
    after [0x1B, 0x08, 0xD8, 0x40] { start with d2 := 0x0088, mem := [(0x1001, 0xFF)] } (·.mem) =
        some [(0x1001, 0xF8)] := by
  decide
theorem test_maxs : after [0x1B, 0x2C, 0x71] { start with d0 := 0x80 } (fun t => (t.d0, t.ccr)) =
      some (1, ccr 0xD2) := by decide
theorem test_maxu : after [0x1B, 0x1C, 0x71] { start with d0 := 0x80 } (·.d0) = some 0x80 := by decide
theorem test_mins : after [0x1B, 0x20, 0x70] { start with d2 := 5 } (fun t => (t.d2, t.ccr)) =
      some (0xFFFF, ccr 0xD1) := by decide
theorem test_minu : after [0x1B, 0x10, 0x70] { start with d2 := 5 } (·.d2) = some 5 := by decide

/-! ### Branches, loops, jumps, calls -/

/-- Whether each branch 22 to 2F is taken: the rows of the table of 95_test_vectors.md, 2.9. -/
def taken (flags : Nat) : List Bool :=
  (List.range 14).map fun k =>
    decide (after [BitVec.ofNat 8 (0x22 + k), 0x10] { start with ccr := ccr flags } (·.pc) = some 0x4010)

theorem test_branches_plain :
    taken 0b0000 = [true, false, true, false, true, false, true, false, true, false, true, false, true, false] ∧
    taken 0b0001 = [false, true, false, true, true, false, true, false, true, false, true, false, true, false] ∧
    taken 0b0100 = [false, true, true, false, false, true, true, false, true, false, true, false, false, true] ∧
    taken 0b1000 = [true, false, true, false, true, false, true, false, false, true, false, true, false, true] := by
  decide
theorem test_branches_overflow :
    taken 0b1010 = [true, false, true, false, true, false, false, true, false, true, true, false, true, false] ∧
    taken 0b0010 = [true, false, true, false, true, false, false, true, true, false, false, true, false, true] ∧
    taken 0b1001 = [false, true, false, true, true, false, true, false, false, true, false, true, false, true] ∧
    taken 0b0111 = [false, true, false, true, false, true, false, true, true, false, false, true, false, true] := by
  decide
theorem test_branch_not_taken : after [0x27, 0x10] start (·.pc) = some 0x4002 := by decide
theorem test_bra_offsets :
    after [0x20, 0x3F] start (·.pc) = some 0x403F ∧ after [0x20, 0x40] start (·.pc) = some 0x3FC0 ∧
    after [0x20, 0xBF, 0xFF] start (·.pc) = some 0x7FFF ∧
    after [0x20, 0xC0, 0x00] start (·.pc) = some 0 := by decide
theorem test_bsr :
    after [0x21, 0x10] { start with pc := 0x1000, sp := 0x2000 } (fun t => (t.mem, t.sp, t.pc)) =
      some ([(0x1FFE, 0x10), (0x1FFF, 0x02)], 0x1FFD, 0x1010) := by decide
theorem test_brclr :
    after [0x02, 0x04, 0x05] { start with d0 := 0x10, ccr := ccr 0xD1 } (fun t => (t.pc, t.ccr)) =
        some (0x4005, ccr 0xD0) ∧
    after [0x02, 0x24, 0x05] { start with d0 := 0x10 } (fun t => (t.pc, t.ccr)) =
        some (0x4003, ccr 0xD1) := by decide
theorem test_brset :
    after [0x03, 0x24, 0x05] { start with d0 := 0x10 } (fun t => (t.pc, t.ccr)) =
        some (0x4005, ccr 0xD1) := by decide
theorem test_dbcc :
    after [0x0B, 0x80, 0x7D] { start with d2 := 0 } (fun t => (t.d2, t.pc, t.ccr)) =
        some (0xFFFF, 0x3FFD, ccr 0xD0) ∧
    after [0x0B, 0x80, 0x7D] { start with d2 := 1 } (fun t => (t.d2, t.pc)) = some (0, 0x4003) := by decide
theorem test_dbcc_reserved : after [0x0B, 0xE0, 0x10] { start with d2 := 5 } (fun t => (t.d2, t.pc)) =
      some (4, 0x4003) := by
  decide
theorem test_dbcc_memory :
    after [0x0B, 0x8D, 0xE7, 0x10] { start with mem := [(0x1000, 1)] } (fun t => (t.mem, t.x, t.pc)) =
      some ([(0x1001, 0xFF)], 0x1002, 0x4010) := by decide
theorem test_dbcc_short_immediate_refused :
    exec (.dbccOpr .ne .b (.immE4 1) (.short 0)) start = .refused .immediateDestination := rfl
theorem test_tbcc : after [0x0B, 0x18, 0x10] { start with x := 0 } (fun t => (t.x, t.pc)) =
      some (0, 0x4010) := by decide
theorem test_tbcc_memory : after [0x0B, 0x3C, 0x40, 0x10] { start with mem := [(0x1000, 0x80)] } (·.pc) =
      some 0x4010 := by decide
theorem test_jmp :
    after [0xBA, 0x00, 0x12, 0x34] start (·.pc) = some 0x1234 ∧
    after [0xAA, 0x42] start (·.pc) = some 0x1002 ∧
    after [0xAA, 0xFE, 0x00, 0x20, 0x00] { start with mem := [(0x2001, 0x30)] } (·.pc) =
        some 0x3000 := by decide
theorem test_jsr_target_before_push :
    after [0xAB, 0x60] { start with pc := 0x1000, sp := 0x2000 } (fun t => (t.pc, t.mem, t.sp)) =
      some (0x2000, [(0x1FFE, 0x10), (0x1FFF, 0x02)], 0x1FFD) := by decide
theorem test_rts :
    after [0x05]
        { start with sp := 0x1FFD, mem := [(0x1FFE, 0x10), (0x1FFF, 0x04)] } (fun t => (t.pc, t.sp)) =
      some (0x1004, 0x2000) := by decide

/-! ### System, exceptions, the step -/

theorem test_swi :
    after [0xFF]
        { start with pc := 0x1000, sp := 0x2000, x := 0, y := 0, ccr := ccr 0xC0, mem := [(0xFFFFF2, 0xF0)] }
      (fun t => (t.mem, t.sp, t.ccr, t.pc)) =
      some ([(0x1FE4, 0xC0), (0x1FFE, 0x10), (0x1FFF, 0x01), (0xFFFFF2, 0xF0)], 0x1FE3, ccr 0xD0, 0xF000) := by decide
theorem test_sys :
    after [0x1B, 0x07] { start with pc := 0x200, sp := 0x1000, ccr := ccr 0x8000, mem := [(0xFFFFEE, 0xE0)] }
      (fun t => (t.mem.head?, t.sp, t.ccr, t.pc)) =
          some (some (0xFE3, 0x80), 0xFE3, ccr 0x10, 0xE000) := by decide
theorem test_trap :
    after [0x1B, 0x92] { start with mem := [(0xFFFFF6, 0x50)] } (fun t => (t.load 0x2FFD .p, t.sp, t.pc)) =
      some (0x4002, 0x2FE3, 0x5000) := by decide
theorem test_spare : after [0xEF] start (fun t => (t.load 0x2FFD .p, t.sp)) =
      some (0x4001, 0x2FE3) := by decide
theorem test_rti :
    after [0x1B, 0x90]
        { start with sp := 0x1FE3, mem := [(0x1FE4, 0xC0), (0x1FE5, 0x11), (0x1FE8, 0x33), (0x1FFE, 0x10)] }
      (fun t => (t.ccr, t.d0, t.d2, t.pc, t.sp)) = some (ccr 0xC0, 0x11, 0x33, 0x1000, 0x2000) := by decide
theorem test_rti_user_keeps_system_bits :
    after [0x1B, 0x90]
        { start with ccr := ccr 0x8010, mem := [(0x3000, 0x07), (0x3001, 0xC0)] } (·.ccr) =
            some (ccr 0x8010) := by
  decide
theorem test_wai :
    after [0x1B, 0x06]
        { start with ccr := ccr 0x80 } (fun t => (t.load 0x2FE3 .w, t.load 0x2FFD .p, t.ccr, t.runState)) =
      some (0x0080, 0x4002, ccr 0x80, .waiting) := by decide
theorem test_wai_user : after [0x1B, 0x06]
      { start with ccr := ccr 0x8000 } (fun t => (t.pc, t.sp, t.runState)) =
    some (0x4002, 0x3000, .running) := by decide
theorem test_stop : after [0x1B, 0x05] { start with ccr := ccr 0x50 } (fun t => (t.sp, t.runState)) =
      some (0x2FE3, .stopped) := by
  decide
theorem test_stop_disabled : after [0x1B, 0x05] start (fun t => (t.pc, t.sp, t.runState)) =
      some (0x4002, 0x3000, .running) := by
  decide
theorem test_nop : after [0x01] start (·.pc) = some 0x4001 := by decide
theorem test_bgnd :
    after [0x00] start (fun t => (t.pc, t.runState)) = some (0x4001, .halted) ∧
    after [0x00] { start with enbdm := false } (fun t => (t.pc, t.runState)) =
        some (0x4001, .running) := by decide

theorem test_table_word :
    decodeTableWord 16 0x4E81 = some (.muls .d6 .d2 (.reg .d3)) ∧
      decodeTableWord 24 0x1B9164 = some (.clb .d6 .d0) ∧
    decodeTableWord 8 0x96 = some (.ldD .d6 (.imm 0)) := by decide

/-- What one step leaves of a state, in the parts that `f` picks. -/
def stepped {α : Type} (s : State) (f : State → α) : Option α :=
  match step s with
  | .next t => some (f t)
  | _ => none

theorem test_placed_word_runs_after_reset :
    stepped (State.reset.withFetchWord 16 0xAE45) (fun t => (t.pc, t.runState)) = some (2, .running) ∧
    stepped (State.reset.withFetchWord 8 0x9A) (fun t => (t.pc, t.ccr)) = some (1, ccr 0xD4) := by decide

/-- A request at level 3 whose vector is at 005000. -/
def request : Request := { source := 7, level := 3, vecaddr := 0x005000 }

/-- The interrupt module's answers where it asks the same whatever the level. -/
def answer (x i : Option Request) : IrqAnswer := { xirq := x, irq := Vector.replicate 8 i }

/-- An interrupt module that lets `request`, of level 3, through below that level alone. -/
def filtered : IrqAnswer :=
  { xirq := none, irq := #v[some request, some request, some request, none, none, none, none, none] }

/-- The outside world asking for one thing in this step. -/
def asking (h : HostInputs) (s : State) : State := { s with inputs := [h] }

theorem test_interrupt_at_boundary :
    stepped (asking { HostInputs.quiet with irqs := answer none (some request) }
        { start with ccr := ccr 0x80, mem := [(0x5001, 0x70)] })
      (fun t => (t.load 0x2FE3 .w, t.load 0x2FFD .p, t.sp, t.ccr, t.pc)) =
      some (0x0080, 0x4000, 0x2FE3, ccr 0x390, 0x7000) := by decide
theorem test_machine_exception :
    stepped (asking { HostInputs.quiet with machineException := true }
        { start with ccr := ccr 0x8080, mem := [(0xFFFFEA, 0x80)] })
      (fun t => (t.sp, t.ccr, t.pc)) = some (0x3000, ccr 0xD0, 0x8000) := by decide
theorem test_wake :
    stepped (asking { HostInputs.quiet with irqs := answer none (some request) }
        { start with ccr := ccr 0x80, runState := .waiting, mem := [(0x5001, 0x60)] })
      (fun t => (t.sp, t.ccr, t.pc, t.runState)) = some (0x3000, ccr 0x390, 0x6000, .running) := by decide
theorem test_reset_request :
    stepped (asking { HostInputs.quiet with reset := .boundary }
        { start with ccr := ccr 0x8000, runState := .halted, mem := [(0xFFFFFE, 0x10)] })
      (fun t => (t.sp, t.pc, t.runState, t.ccr.u, t.ccr.xm)) =
          some (0x3000, 0x1000, .running, false, true) := by decide

/-! ### The memory map, the level, the order of DBcc, an abandoned instruction -/

/-- Four bytes from 001000 of one class, the rest RAM (D6). -/
def area (c : AddrClass) : MemMap := [{ first := 0x1000, size := 4, cls := c }]

/-- `start` with bytes at its program counter. -/
def placed (bs : List Byte) : State := { start with mem := Memory.writeBytes (fun _ => true) [] 0x4000 bs }

/-- ST D6,(2,X): two bytes in the area, two beyond it. -/
def storeAcross (c : AddrClass) : State := { placed [0xC6, 0x42] with d6 := 0x11223344, map := area c }

theorem test_rom_ignores_writes :
    stepped (storeAcross .rom) (fun t => (t.mem.read 0x1002, t.mem.read 0x1003, t.mem.read 0x1004, t.mem.read 0x1005)) =
      some (0, 0, 0x33, 0x44) := by decide
theorem test_device_takes_the_write :
    stepped (storeAcross .device) (fun t => (t.mem.read 0x1003, t.mem.read 0x1004, t.pc)) = some (0, 0x33, 0x4002) := by
  decide
theorem test_rom_refuses_write : step (storeAcross .romRefused) = .refused .romWrite := rfl
theorem test_unimplemented_refused :
    step (storeAcross .unimplemented) = .refused .unimplementedAddress ∧
    step { placed [0xA4, 0x43] with map := area .unimplemented } = .refused .unimplementedAddress := ⟨rfl, rfl⟩
/-- The bytes after the instruction's own are not fetched. -/
theorem test_fetch_takes_its_own_bytes :
    stepped { placed [0x01] with map := [{ first := 0x4001, size := 16, cls := .unimplemented }] } (·.pc) =
      some 0x4001 := rfl
theorem test_rom_is_read :
    stepped { placed [0xA4, 0x40] with map := area .rom, mem := [(0x1000, 0x5A), (0x4000, 0xA4), (0x4001, 0x40)] }
      (·.d0) = some 0x5A := by decide
theorem test_unimplemented_raises :
    stepped (storeAcross .unimplementedRaising) (fun t => (t.mem.read 0x1003, t.mem.read 0x1004, t.machineRequest)) =
      some (0, 0x33, true) ∧
    stepped { start with machineRequest := true, mem := [(0xFFFFEA, 0x80)] }
      (fun t => (t.pc, t.ccr, t.sp, t.machineRequest)) = some (0x8000, ccr 0xD0, 0x3000, false) := by decide
theorem test_first_area_decides :
    (area .rom ++ area .device).classAt 0x1003 = .rom ∧ (area .rom ++ area .device).classAt 0x1004 = .ram := by
  decide
theorem test_level_filters :
    let at' (n : Nat) := stepped (asking { HostInputs.quiet with irqs := filtered }
      { placed [0x01] with ccr := ccr n, mem := [(0x4000, 0x01), (0x5001, 0x70)] }) (fun t => (t.pc, t.ccr.ipl))
    at' 0x280 = some (0x7000, 3) ∧ at' 0x380 = some (0x4001, 3) := by decide
theorem test_dbcc_offset_after_counter :
    stepped { placed [0x0B, 0x8C, 0x40, 0x11] with x := 0x4003 } (fun t => (t.pc, t.mem.read 0x4003)) =
      some (0x4010, 0x10) ∧
    stepped { placed [0x0B, 0x8C, 0x40, 0x00] with x := 0x4003 } (fun t => (t.pc, t.mem.read 0x4003)) =
      some (0x3F00, 0xFF) := by decide
/-- DBNE.B that counts its own `rb`, with nothing behind the address of `r1`: where `rb` falls from 80 to 7F no
`r1` is fetched (R89), where it falls from 00 to FF there is. -/
def ownOffset (rb : Byte) : State :=
  { placed [0x0B, 0x8C, 0x40, rb] with x := 0x4003, map := [{ first := 0x4004, size := 1, cls := .unimplemented }] }
theorem test_dbcc_short_offset_fetches_one_byte :
    stepped (ownOffset 0x80) (fun t => (t.pc, t.trace.head?)) =
      some (0x3FFF, some (.access ⟨.fetch, true, 0x4003, 1⟩)) := rfl
theorem test_dbcc_long_offset_fetches_two_bytes : step (ownOffset 0x00) = .refused .unimplementedAddress := rfl
/-- MOV.B (S+),(-S) leaves SP where it was, but moves it on the way. -/
theorem test_abandoned_sp_is_open :
    stepped (asking { HostInputs.quiet with reset := .midInstruction } (placed [0x1C, 0xFF, 0xFB])) (·.sp) =
      some (start.drawn 24) ∧
    stepped (asking { HostInputs.quiet with reset := .midInstruction } (placed [0x01])) (·.sp) = some 0x3000 :=
  ⟨rfl, rfl⟩

/-! ## The hypotheses of the statements are met -/

def xirqInput : HostInputs := { HostInputs.quiet with irqs := answer (some request) none }
def irqInput : HostInputs := { HostInputs.quiet with irqs := answer none (some request) }
def filteredInput : HostInputs := { HostInputs.quiet with irqs := filtered }
def bothInput : HostInputs := { HostInputs.quiet with irqs := answer (some request) (some request) }

/-! ### Encoding -/

theorem witness_decode_of_encode_longest :
    (Instr.mulsOO .d6 .l (.ext3 0xFFFFFF) .l (.idx3Reg 0x800000 .d7)).wf = true ∧
    (encode (.mulsOO .d6 .l (.ext3 0xFFFFFF) .l (.idx3Reg 0x800000 .d7))).length = 10 ∧
    (encode (.macuOO .d6 .l (.ext3 0xFFFFFF) .l (.idx3Reg 0x800000 .d7))).length = 11 := by decide
theorem witness_decode_of_encode_limits :
    (Instr.ldD .d0 (.imm 0xFF)).wf = true ∧ (Instr.ldD .d6 (.imm 0xFFFFFFFF)).wf = true ∧
    (Instr.bset (.reg .d0 7)).wf = true ∧ (Instr.bset (.opr .l 31 (.ext1 0))).wf = true ∧
    (Instr.trap 0x92).wf = true ∧ (Instr.trap 0x9F).wf = true ∧ (Instr.trap 0xA8).wf = true ∧
    (Instr.trap 0xAF).wf = true ∧ (Instr.trap 0xB8).wf = true ∧ (Instr.trap 0xFF).wf = true ∧
    Instr.cli.wf = true ∧ (Instr.sex (.d .d0) .x).wf = true := by decide
theorem witness_decode_total : 11 ≤ (List.replicate 11 (0xFF : Byte)).length := by decide

/-! ### The step -/

/-- Where nothing but RAM stands behind the addresses, the map refuses nothing and raises nothing. -/
theorem all_ram_quiet {t : State} (h : t.map = []) : ¬t.MapRefuses ∧ ¬t.MapRaises := by
  simp [State.MapRefuses, State.MapRaises, Access.Touches, h, MemMap.classAt]

theorem witness_step_runs_next :
    let s := placed [0xCE, 0xEF]
    s.Undisturbed ∧ (∃ rest, decode s.fetchBytes = .ok (.andcc 0xEF, rest)) ∧ (Instr.andcc 0xEF).wf = true ∧
    ∃ t, exec (.andcc 0xEF) (s.begun.fetched (.andcc 0xEF)) = .next t ∧ ¬t.MapRefuses ∧ ¬t.MapRaises :=
  ⟨⟨rfl, rfl, rfl, rfl, rfl⟩, ⟨_, rfl⟩, rfl, _, rfl, all_ram_quiet rfl⟩
/-- LD D6,(0,X), its operand where the map names another class than RAM. -/
def loadFromArea (c : AddrClass) : State := { placed [0xA6, 0x40] with map := area c }
theorem witness_step_runs_map_refuses :
    let s := loadFromArea .unimplemented
    s.Undisturbed ∧ (∃ rest, decode s.fetchBytes = .ok (.ldD .d6 (.opr (.idx .x 0)), rest)) ∧
    ∃ t, exec (.ldD .d6 (.opr (.idx .x 0))) (s.begun.fetched (.ldD .d6 (.opr (.idx .x 0)))) = .next t ∧ t.MapRefuses :=
  ⟨⟨rfl, rfl, rfl, rfl, rfl⟩, ⟨_, rfl⟩, _, rfl, ⟨.read, true, 0x1000, 4⟩, .head _, .inl ⟨3, by decide, rfl⟩⟩
theorem witness_step_runs_map_raises :
    let s := loadFromArea .unimplementedRaising
    s.Undisturbed ∧ (∃ rest, decode s.fetchBytes = .ok (.ldD .d6 (.opr (.idx .x 0)), rest)) ∧
    ∃ t, exec (.ldD .d6 (.opr (.idx .x 0))) (s.begun.fetched (.ldD .d6 (.opr (.idx .x 0)))) = .next t ∧
      t.MapRaises ∧ ¬t.MapRefuses := by
  refine ⟨⟨rfl, rfl, rfl, rfl, rfl⟩, ⟨_, rfl⟩, _, rfl, ⟨⟨.read, true, 0x1000, 4⟩, .head _, 0, by decide, rfl⟩, ?_⟩
  rintro ⟨a, ha, h⟩
  revert h
  rcases List.mem_cons.mp ha with h | h
  · cases h
    rintro (⟨k, hk, h⟩ | ⟨h, -⟩)
    · revert h; revert k; decide
    · cases h
  · cases List.mem_singleton.mp h
    rintro (⟨k, hk, h⟩ | ⟨h, -⟩)
    · revert h; revert k; decide
    · cases h
theorem witness_step_runs_refused :
    let s := placed [0xBC, 0x71]
    s.Undisturbed ∧ (∃ rest, decode s.fetchBytes = .ok (.clrB (.immE4 1), rest)) ∧
    (Instr.clrB (.immE4 1)).wf = true ∧
    exec (.clrB (.immE4 1)) (s.begun.fetched (.clrB (.immE4 1))) = .refused .immediateDestination :=
  ⟨⟨rfl, rfl, rfl, rfl, rfl⟩, ⟨_, rfl⟩, rfl, rfl⟩

/-- An instruction whose second byte lies at address 0. -/
def acrossTheTop : State := { start with pc := 0xFFFFFF, mem := [(0, 0xEF), (0xFFFFFF, 0xCE)] }

theorem witness_step_placed :
    acrossTheTop.Undisturbed ∧ Instr.cli.wf = true ∧
    (∀ (k : Nat) (b : Byte), (encode .cli)[k]? = some b →
      acrossTheTop.map.isMemory (acrossTheTop.pc + BitVec.ofNat 24 k).toNat = true ∧
      acrossTheTop.mem.read (acrossTheTop.pc + BitVec.ofNat 24 k).toNat = b) ∧
    ∃ t, exec Instr.cli.core (acrossTheTop.begun.fetched Instr.cli.core) = .next t ∧ ¬t.MapRefuses := by
  refine ⟨⟨rfl, rfl, rfl, rfl, rfl⟩, rfl, ?_, _, rfl, (all_ram_quiet rfl).1⟩
  intro k b h
  match k, h with
  | 0, h => cases h; exact ⟨rfl, rfl⟩
  | 1, h => cases h; exact ⟨rfl, rfl⟩
  | _ + 2, h => cases h

theorem witness_step_keeps_memory :
    (placed [0xBC, 0x40, 0x01]).Inv ∧ ∃ t, step (placed [0xBC, 0x40, 0x01]) = .next t := ⟨rfl, _, rfl⟩

theorem witness_x_rises_by_reset :
    let s := asking { HostInputs.quiet with reset := .boundary } { start with ccr := ccr 0 }
    ∃ t, step s = .next t ∧ s.ccr.xm = false ∧ t.ccr.xm = true := ⟨_, rfl, rfl, rfl⟩
theorem witness_x_rises_by_machine_exception :
    let s := asking { HostInputs.quiet with machineException := true } { start with ccr := ccr 0 }
    ∃ t, step s = .next t ∧ s.ccr.xm = false ∧ t.ccr.xm = true := ⟨_, rfl, rfl, rfl⟩
theorem witness_x_rises_by_mmc :
    let s := { start with ccr := ccr 0, machineRequest := true }
    ∃ t, step s = .next t ∧ s.ccr.xm = false ∧ t.ccr.xm = true := ⟨_, rfl, rfl, rfl⟩
theorem witness_x_rises_by_xirq :
    let s := asking xirqInput { start with ccr := ccr 0 }
    ∃ t, step s = .next t ∧ s.ccr.xm = false ∧ t.ccr.xm = true ∧ t.taken = request :: s.taken :=
  ⟨_, rfl, rfl, rfl, rfl⟩
theorem witness_x_rises_inside_rti :
    let s := asking { HostInputs.quiet with rtiIrqs := answer (some request) none }
      { placed [0x1B, 0x90] with ccr := ccr 0 }
    ∃ t, step s = .next t ∧ s.ccr.xm = false ∧ t.ccr.xm = true ∧ t.taken = request :: s.taken :=
  ⟨_, rfl, rfl, rfl, rfl⟩

theorem witness_user_state :
    let s := { start with ccr := ccr 0x8000 }
    (∃ t, exec (.orcc 0xFF) s = .next t) ∧ s.ccr.u = true := ⟨⟨_, rfl⟩, rfl⟩
theorem witness_user_state_rti :
    let s := { start with ccr := ccr 0x8000 }
    (∃ t, exec .rti s = .next t) ∧ s.ccr.u = true ∧ interruptPending s.input.rtiIrqs false s.ccr = none :=
  ⟨⟨_, rfl⟩, rfl, rfl⟩

/-- The first hypotheses of `InterruptRecognition`. -/
def Boundary (s : State) : Prop :=
  s.runState = .running ∧ s.input.reset = .none ∧ s.input.machineException = false ∧ s.machineRequest = false

theorem witness_recognition_xirq :
    let s := asking bothInput { start with ccr := ccr 0x90 }
    Boundary s ∧ s.input.irqs.xirq = some request ∧ s.ccr.xm = false := ⟨⟨rfl, rfl, rfl, rfl⟩, rfl, rfl⟩
theorem witness_recognition_irq :
    let s := asking bothInput { start with ccr := ccr 0x740 }
    Boundary s ∧ s.input.irqs.irqAt s.ccr.ipl = some request ∧ s.ccr.i = false ∧ s.irqShadow = false ∧
    s.ccr.xm = true := ⟨⟨rfl, rfl, rfl, rfl⟩, rfl, rfl, rfl, rfl⟩
theorem witness_recognition_none :
    let masked := asking bothInput start
    let shadowed := asking irqInput { start with ccr := ccr 0, irqShadow := true }
    let low := asking filteredInput { start with ccr := ccr 0x300 }
    (Boundary masked ∧ masked.ccr.xm = true ∧ masked.ccr.i = true) ∧
    (Boundary shadowed ∧ shadowed.input.irqs.xirq = none ∧ shadowed.irqShadow = true) ∧
    (Boundary low ∧ low.input.irqs.xirq = none ∧ low.input.irqs.irqAt low.ccr.ipl = none) :=
  ⟨⟨⟨rfl, rfl, rfl, rfl⟩, rfl, rfl⟩, ⟨⟨rfl, rfl, rfl, rfl⟩, rfl, rfl⟩, ⟨rfl, rfl, rfl, rfl⟩, rfl, rfl⟩
theorem witness_machine_exception :
    let s := asking { HostInputs.quiet with machineException := true } start
    s.runState = .running ∧ s.input.reset = .none ∧ s.input.machineException = true := ⟨rfl, rfl, rfl⟩
theorem witness_machine_exception_of_mmc :
    let s := { start with machineRequest := true }
    s.runState = .running ∧ s.input.reset = .none ∧ s.machineRequest = true := ⟨rfl, rfl, rfl⟩
theorem witness_wake_xirq :
    let s := asking bothInput { start with runState := .stopped, ccr := ccr 0x10 }
    s.runState = .stopped ∧ s.input.reset = .none ∧ s.input.irqs.xirq = some request ∧ s.ccr.xm = false :=
  ⟨rfl, rfl, rfl, rfl⟩
theorem witness_wake_irq :
    let s := asking irqInput { start with runState := .waiting, ccr := ccr 0x40, irqShadow := true }
    s.runState = .waiting ∧ s.input.reset = .none ∧ s.input.irqs.irqAt s.ccr.ipl = some request ∧ s.ccr.i = false ∧
    s.input.irqs.xirq = none := ⟨rfl, rfl, rfl, rfl, rfl⟩
theorem witness_wake_none :
    let s := asking bothInput { start with runState := .waiting }
    s.input.reset = .none ∧ s.ccr.xm = true ∧ s.ccr.i = true ∧ s.input.wakeContinue = false :=
  ⟨rfl, rfl, rfl, rfl⟩
theorem witness_standby_wai :
    let s := asking { HostInputs.quiet with wakeContinue := true } start
    ∃ t u, s.ccr.u = false ∧ exec .wai s = .next t ∧ t.input.reset = .none ∧
      interruptPending t.input.irqs false t.ccr = none ∧
      t.input.wakeContinue = true ∧ step t = .next u := ⟨_, _, rfl, rfl, rfl, rfl, rfl, rfl⟩
theorem witness_standby_stop :
    let s := asking { HostInputs.quiet with wakeContinue := true } { start with ccr := ccr 0x50 }
    ∃ t u, s.ccr.u = false ∧ s.ccr.s = false ∧ exec .stop s = .next t ∧ t.input.reset = .none ∧
      interruptPending t.input.irqs false t.ccr = none ∧ t.input.wakeContinue = true ∧ step t = .next u :=
  ⟨_, _, rfl, rfl, rfl, rfl, rfl, rfl, rfl⟩
theorem witness_reset_boundary :
    (asking { HostInputs.quiet with reset := .boundary }
        { start with runState := .halted }).input.reset = .boundary := rfl
/-- A reset in the middle of ST D6,(4,X): SP is not written, 001003 and 001008 are not, 001004 to 001007 are. -/
theorem witness_reset_middle :
    let s := asking { HostInputs.quiet with reset := .midInstruction } (placed [0xC6, 0x44])
    s.input.reset = .midInstruction ∧ ∃ w, boundaryStep s.begun = .next w ∧ .spWritten ∉ w.trace ∧
      ¬w.WroteTo 0x1003 ∧ w.WroteTo 0x1004 ∧ w.WroteTo 0x1007 ∧ ¬w.WroteTo 0x1008 := by
  have no (a : Addr) (t : List Effect) (h : t = [.access ⟨.write, true, 0x1004, 4⟩, .access ⟨.fetch, true, 0x4000, 2⟩])
      (hw : ¬(a - 0x1004).toNat < 4) (s : State) : ¬({ s with trace := t } : State).WroteTo a := by
    subst h
    simp only [State.WroteTo, List.mem_cons, List.not_mem_nil, or_false, Effect.access.injEq, not_exists, not_and]
    rintro _ (rfl | rfl) hk
    · exact hw
    · cases hk
  refine ⟨rfl, _, rfl, by decide, no _ _ rfl (by decide) _, ⟨_, .head _, rfl, by decide⟩,
    ⟨_, .head _, rfl, by decide⟩, no _ _ rfl (by decide) _⟩
/-- A byte of ROM that the abandoned store addresses. -/
theorem witness_reset_middle_rom :
    let s := asking { HostInputs.quiet with reset := .midInstruction } { placed [0xC6, 0x40] with map := area .rom }
    ∃ w, boundaryStep s.begun = .next w ∧ w.WroteTo 0x1000 ∧ s.map.isRam 0x1000 = false :=
  ⟨_, rfl, ⟨_, .head _, rfl, by decide⟩, rfl⟩
theorem witness_reset_middle_unknown :
    let s := asking { HostInputs.quiet with reset := .midInstruction } { placed [0xBC, 0x71] with map := area .rom }
    s.input.reset = .midInstruction ∧ boundaryStep s.begun = .refused .immediateDestination ∧
    s.map.isRam 0x1003 = false := ⟨rfl, rfl, rfl⟩
theorem witness_shadow_set :
    let s := placed [0xCE, 0xEF]
    s.Undisturbed ∧ (∃ rest, decode s.fetchBytes = .ok (.andcc 0xEF, rest)) ∧
    ∃ t, step s = .next t ∧ t.irqShadow = true := ⟨⟨rfl, rfl, rfl, rfl, rfl⟩, ⟨_, rfl⟩, _, rfl, rfl⟩
theorem witness_shadow_clear :
    let s := { placed [0x01] with irqShadow := true }
    s.Undisturbed ∧ (∃ rest, decode s.fetchBytes = .ok (.nop, rest)) ∧
    ∃ t, step s = .next t ∧ t.irqShadow = false := ⟨⟨rfl, rfl, rfl, rfl, rfl⟩, ⟨_, rfl⟩, _, rfl, rfl⟩
theorem witness_halted :
    let s := asking { HostInputs.quiet with go := true } { start with runState := .halted }
    s.runState = .halted ∧ s.input.reset = .none ∧ s.input.go = true := ⟨rfl, rfl, rfl⟩

/-! ### Operands -/

theorem witness_memory_last_byte : 3 < Size.l.bytes ∧ 0 < Size.b.bytes := by decide
theorem witness_memory_classes :
    start.RamAt 0xFFFFFE 4 ∧ (area .rom).isMemory 0x1003 = true ∧ (area .rom).isRam 0x1003 = false ∧
    (area .rom).isRam 0x1004 = true ∧ (area .device).isMemory 0x1000 = false := by
  refine ⟨fun k hk => rfl, ?_⟩
  decide
theorem witness_indirect_of_direct :
    start.place (.regIdx .d2 .x) = .direct 0x1000 ∧ start.place (.regIdx .d2 .y) = .direct 0x2000 ∧
    start.place (.idx1 .pc 0x100) = .direct 0x3F00 ∧ start.place (.idx3 .s 0xFFFFFF) = .direct 0x2FFF ∧
    start.place (.ext3 0xFFFFFF) = .direct 0xFFFFFF := by decide
/-- The three ways an operand can lie: each case of `RmwRuns`, `StoresTo` and of the statements that match on
`oprLoc`. -/
theorem witness_operand_locations :
    start.oprLoc (.immE4 0) 4 = .imm 0 ∧ start.oprLoc (.immE4 15) 1 = .imm 15 ∧
      start.oprLoc (.reg .d7) 1 = .reg .d7 ∧
    start.oprLoc (.idx .x 15) 1 = .mem 0x100F ∧ start.oprLoc (.auto .preDecS) 4 = .mem 0x2FFC := by decide
theorem witness_move_register_from_memory : ∀ e r, ¬((Opr.idx .x 0) = .immE4 e ∧ (Opr.reg .d6) = .reg r) := by
  intro e r h
  cases h.1
theorem witness_push_list_split :
    stackNamed false 0b001100 = [.d .d0] ++ .d .d1 :: [] ∧
      stackNamed true 0 = [] ++ .d .d2 :: [.d .d3, .d .d4, .d .d5] := by
  decide
theorem witness_push_then_pull :
    (∃ t, exec (.psh false 0) { start with ccr := ccr 0x8000 } = .next t) ∧
      (∃ t, exec (.psh true 0b111111) start = .next t) ∧ start.RamAt (start.sp - 26) 26 :=
  ⟨⟨_, rfl⟩, ⟨_, rfl⟩, fun _ _ => rfl⟩
theorem witness_address_places :
    start.place (.ext1 0x3FFF) = .direct 0x3FFF ∧ start.place (.ext3Ind 0x2000) = .indirect 0x2000 ∧
    start.oprLoc (.auto .postIncX) 1 = .mem 0x1000 ∧
      start.oprLoc (.auto .preDecS) 4 = .mem 0x2FFC := by decide
theorem witness_lea_same_register : leaSame .x .postIncX = true ∧ leaSame .y .postIncX = false ∧
    autoPre .preDecS = true := by
  decide
theorem witness_transfer_cases :
    CpuReg.resF.reserved = true ∧ (CpuReg.d .d0).reserved = false ∧ CpuReg.ccw.bits = 16 ∧
      CpuReg.x.bits < (CpuReg.d .d6).bits := by
  decide

/-! ### Arithmetic -/

/-- The clauses of `DivideModuloResult`: a zero divisor, a quotient outside the range by one, one just inside. -/
theorem witness_divide_clauses :
    RangeOut true 16 (Int.tdiv (-32768) (-1)) ∧ ¬RangeOut true 16 (Int.tdiv (-32768) 1) ∧
    RangeOut false 8 (Int.tdiv 256 1) ∧ ¬RangeOut false 8 (Int.tdiv 255 1) ∧
    ((MathForm.reg .d2 (.reg .d3)).second start).intOf true = 0 :=
  ⟨.inr (by decide), fun h => h.elim (by decide) (by decide), .inr (by decide),
    fun h => h.elim (by decide) (by decide), by decide⟩
theorem witness_fraction_saturates :
    let s := { start with d2 := 0x8000, d3 := 0x8000 }
    ((MathForm.reg .d2 (.reg .d3)).first s).intOf true = -(2 : Int) ^ 15 ∧
    ((MathForm.reg .d2 (.reg .d3)).second s).intOf true = -(2 : Int) ^ 15 := by decide
theorem witness_shift_counts :
    start.shiftCount (.count false (.immE4 0)) = 0 ∧
      start.shiftCount (.count true (.immE4 15)) = 31 := by decide
theorem witness_bit_numbers :
    bmNumber start (.reg .d0 7) = 7 ∧
      bmNumber { start with d0 := 0xFF } (.oprReg .b .d0 (.idx .x 0)) = 31 := by decide
theorem witness_field_limits :
    start.fieldWidth (.imm 0 31) = 32 ∧ start.fieldOffset (.imm 0 31) = 31 ∧
      start.fieldWidth (.imm 31 0) = 31 ∧
    { start with d5 := 0x0020 }.fieldWidth (.dp .d5) = 1 := by decide

/-! ### Control flow, exceptions -/

theorem witness_branch_after_compare : ∃ t, exec (.cmpD .d0 (.imm 0x80))
      { start with d0 := 0x7F } = .next t := ⟨_, rfl⟩
theorem witness_loop_conditions :
    LoopTaken .eq (0 : BitVec 8) ∧ ¬LoopTaken .eq (1 : BitVec 8) ∧ LoopTaken .mi (0x80 : BitVec 8) ∧
      ¬LoopTaken .mi (0x7F : BitVec 8) := by
  refine ⟨rfl, ?_, ?_, ?_⟩ <;> simp [LoopTaken]
/-- A byte counter that is its own offset, and one beside it. -/
theorem witness_loop_overlap :
    { start with x := 0x4003 }.oprLoc (.idx .x 0) 1 = .mem 0x4003 ∧ Overlap 0x4003 1 (start.pc + 3) 1 ∧
    ¬Overlap 0x4004 1 (start.pc + 3) 1 ∧ (placed [0x0B, 0x8C, 0x40, 0x10]).OffsetAt 0x4003 (.short 0x10) := by
  refine ⟨rfl, ⟨0, by decide, 0, by decide, rfl⟩, ?_, ?_⟩
  · rintro ⟨j, hj, k, hk, h⟩
    cases Nat.lt_one_iff.mp hj
    cases Nat.lt_one_iff.mp hk
    exact absurd h (by decide)
  · intro k b h _
    match k, h with
    | 0, h => cases h; rfl
    | _ + 1, h => cases h
theorem witness_round_trip_ram : start.RamAt (start.sp - 29) 29 := fun _ _ => rfl
theorem witness_round_trip_swi :
    (∃ t, exec .swi { start with ccr := ccr 0x8000 } = .next t) ∧
    interruptPending
        { start with ccr := ccr 0x8000 }.input.rtiIrqs false (ccr 0x8000) = none := ⟨⟨_, rfl⟩, rfl⟩
theorem witness_round_trip_sys_trap_spare :
    (∃ t, exec .sys start = .next t) ∧ (∃ t, exec (.trap 0xFF) start = .next t) ∧
      (∃ t, exec .spare start = .next t) ∧
    interruptPending start.input.rtiIrqs false start.ccr = none := ⟨⟨_, rfl⟩, ⟨_, rfl⟩, ⟨_, rfl⟩, rfl⟩
theorem witness_rti_interrupt :
    let s := asking { HostInputs.quiet with rtiIrqs := answer none (some request) } start
    interruptPending s.input.rtiIrqs false (s.ccr.writeMasked (s.load s.sp .w) true true) =
        some (.irq, request) := by
  decide
theorem witness_standby_nop :
    (ccr 0x8000).u = true ∧ (ccr 0x80).s = true ∧ (ccr 0x50).s = false ∧ (ccr 0x50).u = false := by decide

end Sys2Proof.Tests
end

section
/-! PROOFS. ADD, ADC, SUB and SBC (41_arithmetic.md): what each of the four operations computes, their one
shared execution form, and the two statements assembled from them. -/

namespace Sys2Proof.Machine

/-! ## What the four operations keep of the CCR -/

theorem addFlags_systemSame {w : Nat} (a b : BitVec w) (cin : Bool) (c : Ccr) :
    c.SystemSame (addFlags a b cin c).2 := ⟨rfl, rfl, rfl, rfl, rfl⟩

theorem subFlags_systemSame {w : Nat} (a b : BitVec w) (bin : Bool) (c : Ccr) :
    c.SystemSame (subFlags a b bin c).2 := ⟨rfl, rfl, rfl, rfl, rfl⟩

/-- The cumulative Z touches no bit but Z. -/
theorem Ccr.SystemSame.stickyZ {w : Nat} {c : Ccr} {rc : BitVec w × Ccr} (h : c.SystemSame rc.2) (old : Ccr) :
    c.SystemSame (stickyZ old rc).2 := h

/-! ## What the four operations compute -/

/-- The cumulative Z of an extended series (R202, R205). -/
theorem stickyZ_z_iff {w : Nat} (old : Ccr) (rc : BitVec w × Ccr) :
    (stickyZ old rc).2.z = true ↔ old.z = true ∧ (stickyZ old rc).1 = 0 := by
  simp [stickyZ]

/-- R201. -/
theorem addOp_sum {w : Nat} (hw : 0 < w) (a b : BitVec w) (c : Ccr) :
    SumOf a b 0 (addOp a b c).1 (addOp a b c).2 ∧ ((addOp a b c).2.z = true ↔ (addOp a b c).1 = 0) := by
  obtain ⟨hsum, hz⟩ := addFlags_sum hw a b false c
  exact ⟨hsum, by rw [addOp, hz, beq_iff_eq]⟩

/-- R202: N, V and C are the sum's, Z is cumulative. -/
theorem adcOp_sum {w : Nat} (hw : 0 < w) (a b : BitVec w) (c : Ccr) :
    SumOf a b c.c.toNat (adcOp a b c).1 (adcOp a b c).2 ∧
    ((adcOp a b c).2.z = true ↔ c.z = true ∧ (adcOp a b c).1 = 0) := by
  obtain ⟨hsum, _⟩ := addFlags_sum hw a b c.c c
  exact ⟨hsum, stickyZ_z_iff c _⟩

/-- R203. -/
theorem subOp_difference {w : Nat} (hw : 0 < w) (a b : BitVec w) (c : Ccr) :
    DifferenceOf a b 0 (subOp a b c).1 (subOp a b c).2 ∧
    ((subOp a b c).2.z = true ↔ (subOp a b c).1 = 0) := by
  obtain ⟨hdiff, hz⟩ := subFlags_difference hw a b false c
  exact ⟨hdiff, by rw [subOp, hz, beq_iff_eq]⟩

/-- R205: N, V and C are the difference's, Z is cumulative. -/
theorem sbcOp_difference {w : Nat} (hw : 0 < w) (a b : BitVec w) (c : Ccr) :
    DifferenceOf a b c.c.toNat (sbcOp a b c).1 (sbcOp a b c).2 ∧
    ((sbcOp a b c).2.z = true ↔ c.z = true ∧ (sbcOp a b c).1 = 0) := by
  obtain ⟨hdiff, _⟩ := subFlags_difference hw a b c.c c
  exact ⟨hdiff, stickyZ_z_iff c _⟩

/-! ## The four instructions -/

/-- A register operation with what it says of its value and CCR, in two parts (the numbers, and Z), carried
over to the instruction that keeps its result. -/
theorem aluD_runs_with (d : DReg) (m : DSrc)
    (f : BitVec d.bits → BitVec d.bits → Ccr → BitVec d.bits × Ccr) (i : Instr) (s : State)
    (hi : exec i s = aluD d m f i s) (hs : ∀ a b, s.ccr.SystemSame (f a b s.ccr).2)
    (numbers zero : BitVec d.bits → Ccr → Prop)
    (hf : let rc := f (s.getD d) (s.dValue d m) s.ccr
      numbers rc.1 rc.2 ∧ zero rc.1 rc.2) :
    Runs i s fun t =>
      numbers (t.getD d) t.ccr ∧ zero (t.getD d) t.ccr ∧ RegFrame s (s.dMoved d m) t [d] := by
  refine aluD_runs d m f i s hi hs _ fun t hvalue hccr hframe => ?_
  rw [hvalue, hccr]
  exact ⟨hf.1, hf.2, hframe⟩

theorem add_runs (s : State) (d : DReg) (m : DSrc) :
    Runs (.add d m) s fun t => SumOf (s.getD d) (s.dValue d m) 0 (t.getD d) t.ccr ∧
      (t.ccr.z = true ↔ t.getD d = 0) ∧ RegFrame s (s.dMoved d m) t [d] :=
  aluD_runs_with d m addOp _ s rfl (fun a b => addFlags_systemSame a b _ _)
    (SumOf (s.getD d) (s.dValue d m) 0) (fun r c => c.z = true ↔ r = 0)
    (addOp_sum (Nat.zero_lt_of_lt (DReg.bits_pos d)) _ _ _)

theorem adc_runs (s : State) (d : DReg) (m : DSrc) :
    Runs (.adc d m) s fun t => SumOf (s.getD d) (s.dValue d m) s.ccr.c.toNat (t.getD d) t.ccr ∧
      (t.ccr.z = true ↔ s.ccr.z = true ∧ t.getD d = 0) ∧ RegFrame s (s.dMoved d m) t [d] :=
  aluD_runs_with d m adcOp _ s rfl (fun a b => (addFlags_systemSame a b _ _).stickyZ _)
    (SumOf (s.getD d) (s.dValue d m) s.ccr.c.toNat) (fun r c => c.z = true ↔ s.ccr.z = true ∧ r = 0)
    (adcOp_sum (Nat.zero_lt_of_lt (DReg.bits_pos d)) _ _ _)

theorem sub_runs (s : State) (d : DReg) (m : DSrc) :
    Runs (.sub d m) s fun t => DifferenceOf (s.getD d) (s.dValue d m) 0 (t.getD d) t.ccr ∧
      (t.ccr.z = true ↔ t.getD d = 0) ∧ RegFrame s (s.dMoved d m) t [d] :=
  aluD_runs_with d m subOp _ s rfl (fun a b => subFlags_systemSame a b _ _)
    (DifferenceOf (s.getD d) (s.dValue d m) 0) (fun r c => c.z = true ↔ r = 0)
    (subOp_difference (Nat.zero_lt_of_lt (DReg.bits_pos d)) _ _ _)

theorem sbc_runs (s : State) (d : DReg) (m : DSrc) :
    Runs (.sbc d m) s fun t => DifferenceOf (s.getD d) (s.dValue d m) s.ccr.c.toNat (t.getD d) t.ccr ∧
      (t.ccr.z = true ↔ s.ccr.z = true ∧ t.getD d = 0) ∧ RegFrame s (s.dMoved d m) t [d] :=
  aluD_runs_with d m sbcOp _ s rfl (fun a b => (subFlags_systemSame a b _ _).stickyZ _)
    (DifferenceOf (s.getD d) (s.dValue d m) s.ccr.c.toNat) (fun r c => c.z = true ↔ s.ccr.z = true ∧ r = 0)
    (sbcOp_difference (Nat.zero_lt_of_lt (DReg.bits_pos d)) _ _ _)

/-! ## The statements -/

/-- Settles O34: the two runs, and the encoding of each form of the operand. -/
theorem addResult : Obligations.AddResult := by
  intro s d m
  refine ⟨add_runs s d m, adc_runs s d m, ?_⟩
  cases m with
  | imm v => exact ⟨rfl, rfl⟩
  | opr o => exact ⟨rfl, rfl⟩

/-- Settles O35: the two runs, and the encoding of each form of the operand. -/
theorem subtractResult : Obligations.SubtractResult := by
  intro s d m
  refine ⟨sub_runs s d m, sbc_runs s d m, ?_⟩
  cases m with
  | imm v => exact ⟨rfl, rfl⟩
  | opr o => exact ⟨rfl, rfl⟩

end Sys2Proof.Machine
end

section
/-! PROOFS. AND, OR, EOR and BIT (43_logical.md): what the three bitwise operations compute, the one execution
form they share, and the statement assembled from them. -/

namespace Sys2Proof.Machine

/-! ## Bitwise results and their flags -/

/-- `r` is, bit by bit, `f` of the bits of `a` and `b`. -/
def BitwiseOf (f : Bool → Bool → Bool) {w : Nat} (a b r : BitVec w) : Prop :=
  ∀ k < w, r.getLsbD k = f (a.getLsbD k) (b.getLsbD k)

theorem and_bitwise {w : Nat} (a b : BitVec w) : BitwiseOf Bool.and a b (a &&& b) :=
  fun _ _ => BitVec.getLsbD_and

theorem or_bitwise {w : Nat} (a b : BitVec w) : BitwiseOf Bool.or a b (a ||| b) :=
  fun _ _ => BitVec.getLsbD_or

theorem xor_bitwise {w : Nat} (a b : BitVec w) : BitwiseOf Bool.xor a b (a ^^^ b) :=
  fun _ _ => BitVec.getLsbD_xor

theorem nzClearV_loadFlags {w : Nat} (c : Ccr) (r : BitVec w) : LoadFlagsOf r c (c.nzClearV r) :=
  ⟨⟨rfl, beq_zero_iff r⟩, rfl, rfl⟩

theorem nzClearV_systemSame {w : Nat} (c : Ccr) (r : BitVec w) : c.SystemSame (c.nzClearV r) :=
  ⟨rfl, rfl, rfl, rfl, rfl⟩

/-! ## The instructions -/

/-- The frame of the logical instructions (R260): a bitwise operation into the register, N and Z of its result. -/
theorem bitwise_runs (s : State) (d : DReg) (m : DSrc) (i : Instr) (f : Bool → Bool → Bool)
    (op : BitVec d.bits → BitVec d.bits → BitVec d.bits) (hop : ∀ a b, BitwiseOf f a b (op a b))
    (hi : exec i s = aluD d m (fun a b c => (op a b, c.nzClearV (op a b))) i s) :
    Runs i s fun t => BitwiseOf f (s.getD d) (s.dValue d m) (t.getD d) ∧
      LoadFlagsOf (t.getD d) s.ccr t.ccr ∧ RegFrame s (s.dMoved d m) t [d] :=
  aluD_runs_with d m _ i s hi (fun _ _ => nzClearV_systemSame _ _)
    (fun r _ => BitwiseOf f (s.getD d) (s.dValue d m) r) (fun r c => LoadFlagsOf r s.ccr c)
    ⟨hop _ _, nzClearV_loadFlags _ _⟩

/-- BIT: the flags of a value that no register takes (R264). -/
theorem bit_runs (s : State) (d : DReg) (m : DSrc) :
    Runs (.bit d m) s fun t =>
      (∃ r, BitwiseOf Bool.and (s.getD d) (s.dValue d m) r ∧ LoadFlagsOf r s.ccr t.ccr) ∧
      RegFrame s (s.dMoved d m) t [] := by
  refine testD_runs d m andOp _ s rfl (fun _ _ => nzClearV_systemSame _ _) _ fun t hccr hframe => ?_
  rw [hccr]
  exact ⟨⟨_, and_bitwise _ _, nzClearV_loadFlags _ _⟩, hframe⟩

/-- Settles O45: the three writing runs, BIT's, and the encoding of each form of the operand. -/
theorem logicalResult : Obligations.LogicalResult := by
  intro s d m
  refine ⟨bitwise_runs s d m _ _ (· &&& ·) and_bitwise rfl, bitwise_runs s d m _ _ (· ||| ·) or_bitwise rfl,
    bitwise_runs s d m _ _ (· ^^^ ·) xor_bitwise rfl, bit_runs s d m, ?_⟩
  cases m with
  | imm v => exact ⟨rfl, rfl, rfl, rfl⟩
  | opr o => exact ⟨rfl, rfl, rfl, rfl⟩

end Sys2Proof.Machine
end

section
/-! PROOFS. ANDCC, ORCC and the six names of single masks (43_logical.md): the CCR each mask leaves, the two
execution forms, and the statement assembled from them. -/

namespace Sys2Proof.Machine

/-! ## The CCR a mask leaves -/

/-- The CCR after ANDCC: user state keeps S, X and I (R266). -/
def Ccr.andMask (c : Ccr) (m : BitVec 8) : Ccr :=
  { c with
    s := c.s && (c.u || m.getLsbD 7), xm := c.xm && (c.u || m.getLsbD 6),
    i := c.i && (c.u || m.getLsbD 4), n := c.n && m.getLsbD 3, z := c.z && m.getLsbD 2,
    v := c.v && m.getLsbD 1, c := c.c && m.getLsbD 0 }

/-- The CCR after ORCC: user state keeps S and I, and no mask sets X (R267). -/
def Ccr.orMask (c : Ccr) (m : BitVec 8) : Ccr :=
  { c with
    s := c.s || (!c.u && m.getLsbD 7), i := c.i || (!c.u && m.getLsbD 4),
    n := c.n || m.getLsbD 3, z := c.z || m.getLsbD 2, v := c.v || m.getLsbD 1,
    c := c.c || m.getLsbD 0 }

theorem Ccr.andMask_clc (c : Ccr) : c.andMask 0xFE#8 = { c with c := false } := by simp [Ccr.andMask]
theorem Ccr.andMask_cli (c : Ccr) : c.andMask 0xEF#8 = { c with i := c.i && c.u } := by simp [Ccr.andMask]
theorem Ccr.andMask_clv (c : Ccr) : c.andMask 0xFD#8 = { c with v := false } := by simp [Ccr.andMask]
theorem Ccr.orMask_sec (c : Ccr) : c.orMask 0x01#8 = { c with c := true } := by simp [Ccr.orMask]
theorem Ccr.orMask_sei (c : Ccr) : c.orMask 0x10#8 = { c with i := c.i || !c.u } := by simp [Ccr.orMask]
theorem Ccr.orMask_sev (c : Ccr) : c.orMask 0x02#8 = { c with v := true } := by simp [Ccr.orMask]

/-! ## The two execution forms -/

/-- An instruction that ends with a CCR alone, the system bits included. -/
theorem ccrOnly_runs (s : State) (i : Instr) (c' : Ccr)
    (hi : exec i s = State.advance { s with ccr := c' } i) :
    Runs i s fun t => t.ccr = c' ∧ CcrOnly s t :=
  ⟨_, hi, pcNext_pc s i, rfl, CcrOnly.of_ccr s c' _ s.freeCount⟩

theorem andCcl_runs (s : State) (i : Instr) (m : BitVec 8) (hi : exec i s = (s.andCcl m).advance i) :
    Runs i s fun t => t.ccr = s.ccr.andMask m ∧ CcrOnly s t :=
  ccrOnly_runs s i _ (hi.trans (congrArg (State.advance · i) (andCcl_eq s m)))

theorem orCcl_runs (s : State) (i : Instr) (m : BitVec 8) (hi : exec i s = (s.orCcl m).advance i) :
    Runs i s fun t => t.ccr = s.ccr.orMask m ∧ CcrOnly s t :=
  ccrOnly_runs s i _ (hi.trans (congrArg (State.advance · i) (orCcl_eq s m)))

/-- Settles O46: each of the eight instructions is its mask through `andCcl` or `orCcl`. -/
theorem ccrMaskResult : Obligations.CcrMaskResult := by
  intro s
  refine ⟨fun m => ⟨andCcl_runs s _ m rfl, rfl⟩, fun m => ⟨orCcl_runs s _ m rfl, rfl⟩,
    ⟨?clc, rfl⟩, ⟨?cli, rfl⟩, ⟨?clv, rfl⟩, ⟨?sec, rfl⟩, ⟨?sei, rfl⟩, ⟨?sev, rfl⟩⟩
  case clc => exact s.ccr.andMask_clc ▸ andCcl_runs s .clc 0xFE#8 rfl
  case cli => exact s.ccr.andMask_cli ▸ andCcl_runs s .cli 0xEF#8 rfl
  case clv => exact s.ccr.andMask_clv ▸ andCcl_runs s .clv 0xFD#8 rfl
  case sec => exact s.ccr.orMask_sec ▸ orCcl_runs s .sec 0x01#8 rfl
  case sei => exact s.ccr.orMask_sei ▸ orCcl_runs s .sei 0x10#8 rfl
  case sev => exact s.ccr.orMask_sev ▸ orCcl_runs s .sev 0x02#8 rfl

end Sys2Proof.Machine
end

section
/-! PROOFS. MAXS, MAXU, MINS and MINU (46_minmax.md): what the selection computes when it compares a number read
from the words, the one execution form the four share, and the statement assembled from them. -/

namespace Sys2Proof.Machine

/-! ## What the selection computes -/

/-- The operand where the register reads as the smaller number: the larger of the two (R330, R331). -/
theorem selectOp_max {w : Nat} {α : Type} [LinearOrder α] (key : BitVec w → α)
    {replace : BitVec w → BitVec w → Bool} (hreplace : ∀ a m, replace a m = true ↔ key a < key m)
    (a m : BitVec w) (c : Ccr) : key (selectOp replace a m c).1 = max (key a) (key m) := by
  simp only [selectOp, hreplace, apply_ite key, max_def_lt]

/-- The operand where it reads as the smaller number: the smaller of the two (R332, R333). -/
theorem selectOp_min {w : Nat} {α : Type} [LinearOrder α] (key : BitVec w → α)
    {replace : BitVec w → BitVec w → Bool} (hreplace : ∀ a m, replace a m = true ↔ key m < key a)
    (a m : BitVec w) (c : Ccr) : key (selectOp replace a m c).1 = min (key a) (key m) := by
  simp only [selectOp, hreplace, apply_ite key, min_def_lt']

/-! ## The four instructions -/

/-- The frame of the four instructions (R334): the number that the selection leaves, with the flags of register
minus operand. -/
theorem select_runs (s : State) (d : DReg) (o : Opr) (i : Instr)
    (replace : BitVec d.bits → BitVec d.bits → Bool) (hi : exec i s = aluD d (.opr o) (selectOp replace) i s)
    {α : Type} (key : BitVec d.bits → α) (best : α → α → α)
    (hselect : ∀ a m c, key (selectOp replace a m c).1 = best (key a) (key m)) :
    Runs i s fun t => key (t.getD d) = best (key (s.getD d)) (key (s.oprValue o d.size)) ∧
      CompareFlags (s.getD d) (s.oprValue o d.size) t.ccr ∧ RegFrame s (s.oprMoved o d.size.bytes) t [d] := by
  refine aluD_runs d (.opr o) _ i s hi (fun a b => subFlags_systemSame a b _ _) _ fun t hvalue hccr hframe => ?_
  rw [hvalue, hccr]
  exact ⟨hselect _ _ _, subFlags_compare (Nat.zero_lt_of_lt (DReg.bits_pos d)) _ _ _, hframe.of_oprDone⟩

/-- Settles O51: `slt` compares the words' signed numbers, `ult` their unsigned ones. -/
theorem minMaxResult : Obligations.MinMaxResult := by
  intro s d o
  have hslt (a m : BitVec d.bits) : a.slt m = true ↔ a.toInt < m.toInt := BitVec.slt_iff_toInt_lt
  have hult (a m : BitVec d.bits) : a.ult m = true ↔ a.toNat < m.toNat := BitVec.ult_iff_toNat_lt
  refine ⟨?maxs, ?maxu, ?mins, ?minu, rfl, rfl, rfl, rfl⟩
  case maxs => exact select_runs s d o _ _ rfl BitVec.toInt max (selectOp_max _ hslt)
  case maxu => exact select_runs s d o _ _ rfl BitVec.toNat max (selectOp_max _ hult)
  case mins => exact select_runs s d o _ _ rfl BitVec.toInt min (selectOp_min _ fun a m => hslt m a)
  case minu => exact select_runs s d o _ _ rfl BitVec.toNat min (selectOp_min _ fun a m => hult m a)

end Sys2Proof.Machine
end

section
/-! PROOFS. BRA and the conditional branches (47_branch.md): the comparison conditions as formulas of the flags,
and the statement assembled from them. -/

namespace Sys2Proof.Machine

/-! ## The comparison conditions -/

theorem Ccr.hi_eq_flags (c : Ccr) : c.hi = !(c.c || c.z) := rfl
theorem Ccr.not_hi_eq_flags (c : Ccr) : (!c.hi) = (c.c || c.z) := by rw [c.hi_eq_flags, Bool.not_not]
theorem Ccr.lt_eq_flags (c : Ccr) : c.lt = (c.n ^^ c.v) := rfl
theorem Ccr.le_eq_flags (c : Ccr) : c.le = (c.z || (c.n ^^ c.v)) := rfl

/-! ## The statement -/

/-- BRA is the branch whose condition always holds (R341). -/
theorem exec_bra_eq_branchIf (s : State) (rel : Rel) :
    exec (.bra rel) s = branchIf true rel (.bra rel) s := rfl

/-- Settles O52: each mnemonic is `branchIf` on its condition, and changes nothing but the PC by `branchIf_on`. -/
theorem branchResult : Obligations.BranchResult := by
  intro s rel
  refine ⟨⟨?bra, rfl⟩, ⟨?bhi, rfl⟩, ⟨?bls, rfl⟩, ⟨?bcc, rfl⟩, ⟨?bcs, rfl⟩, ⟨?bne, rfl⟩, ⟨?beq, rfl⟩,
    ⟨?bvc, rfl⟩, ⟨?bvs, rfl⟩, ⟨?bpl, rfl⟩, ⟨?bmi, rfl⟩, ⟨?bge, rfl⟩, ⟨?blt, rfl⟩, ⟨?bgt, rfl⟩, ⟨?ble, rfl⟩,
    ⟨?bhs, rfl⟩, ⟨?blo, rfl⟩⟩
  case bra => exact branchIf_on true _ rel s (exec_bra_eq_branchIf s rel)
  case bhi => exact s.ccr.hi_eq_flags ▸ branchIf_on s.ccr.hi (.bhi rel) rel s rfl
  case bls => exact s.ccr.not_hi_eq_flags ▸ branchIf_on (!s.ccr.hi) (.bls rel) rel s rfl
  case bcc => exact branchIf_on (!s.ccr.c) _ rel s rfl
  case bcs => exact branchIf_on s.ccr.c _ rel s rfl
  case bne => exact branchIf_on (!s.ccr.z) _ rel s rfl
  case beq => exact branchIf_on s.ccr.z _ rel s rfl
  case bvc => exact branchIf_on (!s.ccr.v) _ rel s rfl
  case bvs => exact branchIf_on s.ccr.v _ rel s rfl
  case bpl => exact branchIf_on (!s.ccr.n) _ rel s rfl
  case bmi => exact branchIf_on s.ccr.n _ rel s rfl
  case bge => exact s.ccr.lt_eq_flags ▸ branchIf_on (!s.ccr.lt) (.bge rel) rel s rfl
  case blt => exact s.ccr.lt_eq_flags ▸ branchIf_on s.ccr.lt (.blt rel) rel s rfl
  case bgt => exact s.ccr.le_eq_flags ▸ branchIf_on (!s.ccr.le) (.bgt rel) rel s rfl
  case ble => exact s.ccr.le_eq_flags ▸ branchIf_on s.ccr.le (.ble rel) rel s rfl
  case bhs => exact branchIf_on (!s.ccr.c) _ rel s rfl
  case blo => exact branchIf_on s.ccr.c _ rel s rfl

end Sys2Proof.Machine
end

section
/-! PROOFS. Decoding what the encoder writes (30_encoding.md): a reader that reads given bytes as a value whatever
follows them, how readers built from readers do, and the statement, one opcode after the other. -/

namespace Sys2Proof

open Machine (beVal beBytes)

/-! ## Bytes read as a value -/

/-- `p` reads the bytes `bs` as `a`, whatever follows them. -/
def Parse.Spells {α : Type} (p : Parse α) (bs : List Byte) (a : α) : Prop :=
  ∀ rest, p (bs ++ rest) = .ok (a, rest)

namespace Parse.Spells

variable {α β : Type} {p : Parse α} {bs bs' : List Byte} {a : α}

theorem done (a : α) : (Parse.done a).Spells [] a := fun _ => rfl

theorem byte (b : Byte) : Parse.byte.Spells [b] b := fun _ => rfl

theorem map (f : α → β) (h : p.Spells bs a) : (Parse.map f p).Spells bs (f a) :=
  fun rest => Parse.map_ok (h rest)

theorem bind {f : α → Parse β} {b : β} (h : p.Spells bs a) (k : (f a).Spells bs' b) :
    (p.bind f).Spells (bs ++ bs') b := fun rest => by
  rw [List.append_assoc, Parse.bind_ok (h _)]
  exact k rest

/-- A first byte that decides how the rest is read. -/
theorem cons {f : Byte → Parse β} {b : Byte} {v : β} (k : (f b).Spells bs v) :
    (Parse.byte.bind f).Spells (b :: bs) v := (byte b).bind k

theorem value {n w : Nat} (v : BitVec w) (h : v.toNat < 256 ^ n) :
    (Parse.value n w).Spells (beBytes n v.toNat) v := fun rest => Parse.value_whole n w v rest h

end Parse.Spells

open Parse.Spells

/-! ## The parts of an instruction -/

theorem spells_opr (o : Opr) : parseOpr.Spells o.enc o := parseOpr_enc o
theorem spells_rel (r : Rel) : parseRel.Spells r.enc r := parseRel_enc r
theorem spells_24 (a : BitVec 24) : parse24.Spells (enc24 a) a := parse24_enc a

theorem spells_imm (z : Size) (v : BitVec 32) (h : immFits z.bits v = true) :
    (parseImm z.bytes).Spells (encImm z v) v := fun rest => parseImm_enc z v rest h

theorem spells_bm (m : BmArg) (h : m.wf = true) : parseBm.Spells m.enc m := fun rest => parseBm_enc m rest h

theorem spells_mb (f : Bool → MbArgs → Instr) (signed : Bool) (a : MbArgs) :
    (parseMb f).Spells (a.enc signed) (f signed a) := parseMb_enc f signed a

theorem spells_bmRel (f : BmArg → Rel → Instr) (m : BmArg) (rel : Rel) (h : m.wf = true) :
    (bmRel f).Spells (m.enc ++ rel.enc) (f m rel) := (spells_bm m h).bind ((spells_rel rel).map (f m))

/-- The 18-bit immediate of LD X, LD Y: two bits in the opcode, two bytes after it (R162). -/
theorem spells_imm18 (v : BitVec 18) : (xyImm18 (v.extractLsb' 16 2)).Spells (beBytes 2 v.toNat) (.imm18 v) :=
  fun rest => by
    rw [xyImm18, Parse.map_ok (Parse.value_low 2 16 _ v rest rfl)]
    exact congrArg (fun x => Except.ok (LdXYSrc.imm18 x, rest)) (split_low (h := 2) (l := 16) v)

theorem spells_movImm (z : Size) (f : MovSrc → Opr → Instr) (v : BitVec 32) (dst : Opr)
    (h : immFits z.bits v = true) : (movImm z.bytes f).Spells (encImm z v ++ dst.enc) (f (.imm v) dst) :=
  ((spells_imm z v h).map MovSrc.imm).bind ((spells_opr dst).map (f (.imm v)))

theorem spells_movOpr (f : MovSrc → Opr → Instr) (o dst : Opr) :
    (movOpr f).Spells (o.enc ++ dst.enc) (f (.opr o) dst) :=
  ((spells_opr o).map MovSrc.opr).bind ((spells_opr dst).map (f (.opr o)))

/-- `tb` and `eb`, both codes of the pair (R130). -/
theorem spells_pair (f : CpuReg → CpuReg → Instr) (src dst : CpuReg) :
    (parsePair f).Spells [encPair src dst] (f src dst) := by
  have hi : ∀ a b : BitVec 4, field (a ++ b) 4 4 = a := by decide
  have lo : ∀ a b : BitVec 4, field (a ++ b) 0 4 = b := by decide
  have h := (byte (encPair src dst)).map fun b => f (cpuRegOf (field b 4 4)) (cpuRegOf (field b 0 4))
  rwa [encPair, hi, lo, cpuRegOf_code, cpuRegOf_code] at h

theorem spells_cb (s d : DReg) : parseCb.Spells [encCb s d] (.clb s d) := by
  have h := (byte (encCb s d)).map fun b => Instr.clb (dreg (field b 4 3)) (dreg (field b 0 3))
  have codes : dreg (field (encCb s d) 4 3) = s ∧ dreg (field (encCb s d) 0 3) = d := by
    cases s <;> cases d <;> decide
  rwa [codes.1, codes.2] at h

theorem spells_pb (pull row2 : Bool) (mask : BitVec 6) :
    parsePb.Spells [encPb pull row2 mask] (if pull then .pul row2 mask else .psh row2 mask) := by
  have bits : ∀ (pull row2 : Bool) (mask : BitVec 6), (encPb pull row2 mask)[7] = pull ∧
      (encPb pull row2 mask)[6] = row2 ∧ field (encPb pull row2 mask) 0 6 = mask := by decide
  obtain ⟨hpull, hrow, hmask⟩ := bits pull row2 mask
  have h := (byte (encPb pull row2 mask)).map fun b =>
    if b[7] then Instr.pul b[6] (field b 0 6) else .psh b[6] (field b 0 6)
  rwa [hpull, hrow, hmask] at h

/-- `sb` and what follows it, by what its eight bits say (R127). -/
theorem spells_sb (d : DReg) (m : SbMode) {bs : List Byte} {i : Instr} (h : (parseSb d m).Spells bs i) :
    (parseShift d).Spells (m.code :: bs) i := cons (by rwa [sbMode_code])

theorem spells_shiftReg (a l : Bool) (d s : DReg) (n : ShiftBy) :
    (parseShift d).Spells (encShiftReg a l s n) (shiftRegOf a l d s n) := by
  cases n with
  | fixed t => exact spells_sb d (.regN a l t s) (done _)
  | count n0 o => exact spells_sb d (.regCount a l n0 s) ((spells_opr o).map _)

/-- `lb` and what follows it (R126). -/
theorem spells_loop (dec : Bool) (c : LoopCond) (r : LoopCtr) (rel : Rel) :
    parseLoop.Spells ((LbMode.ctr c r).code dec :: rel.enc) (if dec then .dbcc c r rel else .tbcc c r rel) := by
  obtain ⟨hmode, hdec⟩ := lbMode_code dec (.ctr c r)
  refine cons ?_
  rw [hmode, hdec]
  exact (spells_rel rel).map _

theorem spells_loopOpr (dec : Bool) (c : LoopCond) (z : Size) (o : Opr) (rel : Rel) :
    parseLoop.Spells ((LbMode.opr c z).code dec :: (o.enc ++ rel.enc))
      (if dec then .dbccOpr c z o rel else .tbccOpr c z o rel) := by
  obtain ⟨hmode, hdec⟩ := lbMode_code dec (.opr c z)
  refine cons ?_
  rw [hmode, hdec]
  exact (spells_opr o).bind ((spells_rel rel).map _)

/-- `bb` and what follows it, by what its eight bits say (R129). -/
theorem spells_bb (d : DReg) (ins : Bool) (m : BbMode) {bs : List Byte} {i : Instr}
    (h : (parseBb d ins m).Spells bs i) : (parseBitField d).Spells (m.code ins :: bs) i := by
  obtain ⟨hmode, hins⟩ := bbMode_code ins m
  exact cons (by rwa [hmode, hins])

/-- The width/offset byte beside the top bits of the width (R129). -/
theorem spells_wo (w o : BitVec 5) : (parseWo (w.extractLsb' 3 2)).Spells [encWo w o] (.imm w o) := by
  have parts : ∀ w o : BitVec 5,
      (w.extractLsb' 3 2 ++ field (encWo w o) 5 3 : BitVec 5) = w ∧ field (encWo w o) 0 5 = o := by decide
  obtain ⟨hw, ho⟩ := parts w o
  have h := (byte (encWo w o)).map fun i1 => BfParam.imm (w.extractLsb' 3 2 ++ field i1 5 3) (field i1 0 5)
  rwa [hw, ho] at h

theorem spells_bfReg (ins : Bool) (d s : DReg) (p : BfParam) :
    (parseBitField d).Spells (encBfReg ins s p) (bfRegInstr ins d s p) := by
  cases p with
  | dp p => exact spells_bb d ins (.regDp s p) (done _)
  | imm w o => exact spells_bb d ins (.regImm s _) ((spells_wo w o).map _)

theorem spells_bfOpr (ins toMem : Bool) (d : DReg) (z : Size) (o : Opr) (p : BfParam) :
    (parseBitField d).Spells (encBfOpr ins toMem z o p) (bfOprInstr ins (bfOprOf toMem d z o p)) := by
  cases p with
  | dp p => exact spells_bb d ins (.oprDp toMem z p) ((spells_opr o).map _)
  | imm w off => exact spells_bb d ins (.oprImm toMem z _) ((spells_wo w off).bind ((spells_opr o).map _))

/-! ## The opcode pages -/

theorem decode_page1 {op : Byte} {p : Parse Instr} {bs : List Byte} {i : Instr} (hop : decodePage1 op = p)
    (h : p.Spells bs i) : decode.Spells (op :: bs) i := cons (hop ▸ h)

theorem decode_page2 {op : Byte} {p : Parse Instr} {bs : List Byte} {i : Instr} (hop : decodePage2 op = p)
    (h : p.Spells bs i) : decode.Spells (0x1B :: op :: bs) i := decode_page1 rfl (cons (hop ▸ h))

/-- An opcode that one form of an operand type follows. -/
theorem decode_form1 {α β : Type} (f : β → Instr) (g : α → β) {p : Parse α} {bs : List Byte} {a : α} (op : Byte)
    (hop : decodePage1 op = .map f (.map g p)) (h : p.Spells bs a) : decode.Spells (op :: bs) (f (g a)) :=
  decode_page1 hop ((h.map g).map f)

theorem decode_form2 {α β : Type} (f : β → Instr) (g : α → β) {p : Parse α} {bs : List Byte} {a : α} (op : Byte)
    (hop : decodePage2 op = .map f (.map g p)) (h : p.Spells bs a) :
    decode.Spells (0x1B :: op :: bs) (f (g a)) := decode_page2 hop ((h.map g).map f)

/-- An opcode that is the whole instruction. -/
theorem decode_op1 (i : Instr) (op : Byte) (hop : decodePage1 op = .done i) : decode.Spells [op] i :=
  decode_page1 hop (done i)

theorem decode_op2 (i : Instr) (op : Byte) (hop : decodePage2 op = .done i) : decode.Spells [0x1B, op] i :=
  decode_page2 hop (done i)

/-- An opcode that a byte follows. -/
theorem decode_byte1 (f : Byte → Instr) (op : Byte) (hop : decodePage1 op = .map f .byte) (b : Byte) :
    decode.Spells [op, b] (f b) := decode_page1 hop ((byte b).map f)

theorem decode_bm1 (f : BmArg → Instr) (op : Byte) (hop : decodePage1 op = .map f parseBm) (m : BmArg)
    (h : m.wf = true) : decode.Spells (op :: m.enc) (f m) := decode_page1 hop ((spells_bm m h).map f)

/-- The data-register instructions with an immediate and a general form on page 1 (R200). -/
theorem decode_dSrc1 (f : DReg → DSrc → Instr) (immOp oprOp : BitVec 5) (d : DReg) (m : DSrc)
    (h : m.wf d = true) (hi : decodePage1 (opD immOp d) = .map (f d) (dImm d))
    (ho : decodePage1 (opD oprOp d) = .map (f d) dOpr) :
    decode.Spells (encDSrc immOp oprOp d m) (f d m) := by
  cases m with
  | imm v => exact decode_form1 (f d) .imm _ hi (spells_imm d.size v h)
  | opr o => exact decode_form1 (f d) .opr _ ho (spells_opr o)

/-- The same on page 2. -/
theorem decode_dSrc2 (f : DReg → DSrc → Instr) (immOp oprOp : BitVec 5) (d : DReg) (m : DSrc)
    (h : m.wf d = true) (hi : decodePage2 (opD immOp d) = .map (f d) (dImm d))
    (ho : decodePage2 (opD oprOp d) = .map (f d) dOpr) :
    decode.Spells (0x1B :: encDSrc immOp oprOp d m) (f d m) := by
  cases m with
  | imm v => exact decode_form2 (f d) .imm _ hi (spells_imm d.size v h)
  | opr o => exact decode_form2 (f d) .opr _ ho (spells_opr o)

/-- A page-1 opcode that a general operand follows (R100). -/
theorem decode_opr1 (f : Opr → Instr) (op : Byte) (hop : decodePage1 op = .map f parseOpr) (o : Opr) :
    decode.Spells (op :: o.enc) (f o) := decode_page1 hop ((spells_opr o).map f)

theorem decode_opr2 (f : Opr → Instr) (op : Byte) (hop : decodePage2 op = .map f parseOpr) (o : Opr) :
    decode.Spells (0x1B :: op :: o.enc) (f o) := decode_page2 hop ((spells_opr o).map f)

theorem decode_rel (f : Rel → Instr) (op : Byte) (hop : decodePage1 op = .map f parseRel) (rel : Rel) :
    decode.Spells (op :: rel.enc) (f rel) := decode_page1 hop ((spells_rel rel).map f)

theorem decode_mov (z : Size) (f : MovSrc → Opr → Instr) (immOp oprOp : Byte)
    (hi : decodePage1 immOp = movImm z.bytes f) (ho : decodePage1 oprOp = movOpr f) (src : MovSrc) (dst : Opr)
    (h : src.wf z = true) : decode.Spells (encMov immOp oprOp z src dst) (f src dst) := by
  cases src with
  | imm v => exact decode_page1 hi (spells_movImm z f v dst h)
  | opr o => exact decode_page1 ho (spells_movOpr f o dst)

theorem page1_shift (d : DReg) : decodePage1 (opD 0x02#5 d) = parseShift d := by cases d <;> rfl
theorem page1_mul (d : DReg) : decodePage1 (opD 0x09#5 d) = parseMb (mulOf d) := by cases d <;> rfl
theorem page2_bitField (d : DReg) : decodePage2 (opD 0x01#5 d) = parseBitField d := by cases d <;> rfl
theorem page2_mac (d : DReg) : decodePage2 (opD 0x09#5 d) = parseMb (macOf d) := by cases d <;> rfl
theorem page2_div (d : DReg) : decodePage2 (opD 0x06#5 d) = parseMb (divOf d) := by cases d <;> rfl
theorem page2_mod (d : DReg) : decodePage2 (opD 0x07#5 d) = parseMb (modOf d) := by cases d <;> rfl
theorem page2_qmul (d : DReg) : decodePage2 (opD 0x16#5 d) = parseMb (qmulOf d) := by cases d <;> rfl

theorem decode_mul (d : DReg) (signed : Bool) (a : MbArgs) :
    decode.Spells (opD 0x09#5 d :: a.enc signed) (mulOf d signed a) :=
  decode_page1 (page1_mul d) (spells_mb _ signed a)

theorem decode_mac (d : DReg) (signed : Bool) (a : MbArgs) :
    decode.Spells (0x1B :: opD 0x09#5 d :: a.enc signed) (macOf d signed a) :=
  decode_page2 (page2_mac d) (spells_mb _ signed a)

theorem decode_div (d : DReg) (signed : Bool) (a : MbArgs) :
    decode.Spells (0x1B :: opD 0x06#5 d :: a.enc signed) (divOf d signed a) :=
  decode_page2 (page2_div d) (spells_mb _ signed a)

theorem decode_mod (d : DReg) (signed : Bool) (a : MbArgs) :
    decode.Spells (0x1B :: opD 0x07#5 d :: a.enc signed) (modOf d signed a) :=
  decode_page2 (page2_mod d) (spells_mb _ signed a)

theorem decode_qmul (d : DReg) (signed : Bool) (a : MbArgs) :
    decode.Spells (0x1B :: opD 0x16#5 d :: a.enc signed) (qmulOf d signed a) :=
  decode_page2 (page2_qmul d) (spells_mb _ signed a)

theorem decode_shiftReg (a l : Bool) (d s : DReg) (n : ShiftBy) :
    decode.Spells (opD 0x02#5 d :: encShiftReg a l s n) (shiftRegOf a l d s n) :=
  decode_page1 (page1_shift d) (spells_shiftReg a l d s n)

theorem decode_shiftOpr (a l : Bool) (f : ShiftOpr) : decode.Spells (encShiftOpr a l f) (shiftOprOf a l f) := by
  cases f with
  | toReg d z o n =>
    cases n with
    | fixed t => exact decode_page1 (page1_shift d) (spells_sb d (.oprN a l t z) ((spells_opr o).map _))
    | count n0 c =>
      exact decode_page1 (page1_shift d)
        (spells_sb d (.oprCount a l n0 z) ((spells_opr o).bind ((spells_opr c).map _)))
  | inPlace z o t =>
    exact decode_page1 (page1_shift .d2) (spells_sb .d2 (.inPlace a l t z) ((spells_opr o).map _))

theorem decode_bfReg (ins : Bool) (d s : DReg) (p : BfParam) :
    decode.Spells (0x1B :: opD 0x01#5 d :: encBfReg ins s p) (bfRegInstr ins d s p) :=
  decode_page2 (page2_bitField d) (spells_bfReg ins d s p)

theorem decode_bfOpr (ins : Bool) (f : BfOpr) :
    decode.Spells (0x1B :: encBfOprForm ins f) (bfOprInstr ins f) := by
  cases f with
  | fromOpr d z o p => exact decode_page2 (page2_bitField d) (spells_bfOpr ins false d z o p)
  | toOpr z o s p => exact decode_page2 (page2_bitField s) (spells_bfOpr ins true s z o p)

theorem decode_pair (f : CpuReg → CpuReg → Instr) (op : Byte) (hop : decodePage1 op = parsePair f)
    (src dst : CpuReg) : decode.Spells [op, encPair src dst] (f src dst) :=
  decode_page1 hop (spells_pair f src dst)

theorem decode_pb (pull row2 : Bool) (mask : BitVec 6) :
    decode.Spells [0x04, encPb pull row2 mask] (if pull then .pul row2 mask else .psh row2 mask) :=
  decode_page1 rfl (spells_pb pull row2 mask)

/-- The four opcodes of the 18-bit immediate, which its two high bits tell apart (R162). -/
theorem page1_imm18 (r : XY) (hi : BitVec 2) :
    decodePage1 (0b11#2 ++ hi ++ 0b101#3 ++ bit1 r.bit) = .map (.ldXY r) (xyImm18 hi) := by
  have hcode : hi = 0 ∨ hi = 1 ∨ hi = 2 ∨ hi = 3 := by revert hi; decide
  rcases hcode with rfl | rfl | rfl | rfl <;> cases r <;> rfl

/-- Where the unimplemented codes of page 2 stand in its table (R91, R92). -/
theorem trapCode_rows : ∀ tn : Byte, trapCode tn = true →
    (tn.toNat / 8 = 18 ∧ tn.toNat % 8 ≠ 0 ∧ tn.toNat % 8 ≠ 1) ∨ tn.toNat / 8 = 19 ∨ tn.toNat / 8 = 21 ∨
      23 ≤ tn.toNat / 8 := by decide

theorem page2_trap (tn : Byte) (h : trapCode tn = true) : decodePage2 tn = .done (.trap tn) := by
  unfold decodePage2
  rcases trapCode_rows tn h with ⟨hrow, h0, h1⟩ | hrow | hrow | hrow
  · simp only [hrow]
  · simp [hrow]
  · simp [hrow]
  · split <;> first | rfl | omega

/-! ## The statement -/

/-- Every well-formed instruction is read back from its encoding, a second name as its core instruction. -/
theorem decode_encode (i : Instr) (h : i.wf = true) : decode.Spells (encode i) i.core := by
  cases i with
  | ldD d src =>
    cases src with
    | imm v => exact decode_form1 (.ldD d) .imm _ (by cases d <;> rfl) (spells_imm d.size v h)
    | ext a => exact decode_form1 (.ldD d) .ext _ (by cases d <;> rfl) (spells_24 a)
    | opr o => exact decode_form1 (.ldD d) .opr _ (by cases d <;> rfl) (spells_opr o)
  | ldXY r src =>
    cases src with
    | imm v => exact decode_form1 (.ldXY r) .imm _ (by cases r <;> rfl) (spells_24 v)
    | imm18 v => exact decode_page1 (page1_imm18 r _) ((spells_imm18 v).map _)
    | ext a => exact decode_form1 (.ldXY r) .ext _ (by cases r <;> rfl) (spells_24 a)
    | opr o => exact decode_form1 (.ldXY r) .opr _ (by cases r <;> rfl) (spells_opr o)
  | ldS src =>
    cases src with
    | imm v => exact decode_form2 .ldS .imm _ rfl (spells_24 v)
    | opr o => exact decode_form2 .ldS .opr _ rfl (spells_opr o)
  | stD d dst =>
    cases dst with
    | ext a => exact decode_form1 (.stD d) .ext _ (by cases d <;> rfl) (spells_24 a)
    | opr o => exact decode_form1 (.stD d) .opr _ (by cases d <;> rfl) (spells_opr o)
  | stXY r dst =>
    cases dst with
    | ext a => exact decode_form1 (.stXY r) .ext _ (by cases r <;> rfl) (spells_24 a)
    | opr o => exact decode_form1 (.stXY r) .opr _ (by cases r <;> rfl) (spells_opr o)
  | stS o => exact decode_opr2 .stS _ rfl o
  | movB src dst => exact decode_mov .b .movB _ _ rfl rfl src dst h
  | movW src dst => exact decode_mov .w .movW _ _ rfl rfl src dst h
  | movP src dst => exact decode_mov .p .movP _ _ rfl rfl src dst h
  | movL src dst => exact decode_mov .l .movL _ _ rfl rfl src dst h
  | psh row2 mask => exact decode_pb false row2 mask
  | pul row2 mask => exact decode_pb true row2 mask
  | pshAll => exact decode_pb false false 0
  | pshAll16b => exact decode_pb false true 0
  | pulAll => exact decode_pb true false 0
  | pulAll16b => exact decode_pb true true 0
  | lea r o => exact decode_opr1 (.lea r) _ (by cases r <;> rfl) o
  | leaImm r i => exact decode_byte1 (.leaImm r) _ (by cases r <;> rfl) i
  | clrB o => exact decode_opr1 .clrB _ rfl o
  | clrW o => exact decode_opr1 .clrW _ rfl o
  | clrP o => exact decode_opr1 .clrP _ rfl o
  | clrL o => exact decode_opr1 .clrL _ rfl o
  | clrD d => exact decode_op1 (.clrD d) _ (by cases d <;> rfl)
  | clrXY r => exact decode_op1 (.clrXY r) _ (by cases r <;> rfl)
  | tfr src dst | zex src dst => exact decode_pair .tfr _ rfl src dst
  | exg src dst | sex src dst => exact decode_pair .exg _ rfl src dst
  | add d m => exact decode_dSrc1 .add _ _ d m h (by cases d <;> rfl) (by cases d <;> rfl)
  | adc d m => exact decode_dSrc2 .adc _ _ d m h (by cases d <;> rfl) (by cases d <;> rfl)
  | sub d m => exact decode_dSrc1 .sub _ _ d m h (by cases d <;> rfl) (by cases d <;> rfl)
  | subD6 y => exact decode_op1 (.subD6 y) _ (by cases y <;> rfl)
  | sbc d m => exact decode_dSrc2 .sbc _ _ d m h (by cases d <;> rfl) (by cases d <;> rfl)
  | incD d => exact decode_op1 (.incD d) _ (by cases d <;> rfl)
  | incB o => exact decode_opr1 .incB _ rfl o
  | incW o => exact decode_opr1 .incW _ rfl o
  | incL o => exact decode_opr1 .incL _ rfl o
  | decD d => exact decode_op1 (.decD d) _ (by cases d <;> rfl)
  | decB o => exact decode_opr1 .decB _ rfl o
  | decW o => exact decode_opr1 .decW _ rfl o
  | decL o => exact decode_opr1 .decL _ rfl o
  | cmpD d m => exact decode_dSrc1 .cmpD _ _ d m h (by cases d <;> rfl) (by cases d <;> rfl)
  | cmpXY r m =>
    cases m with
    | imm v => exact decode_form1 (.cmpXY r) .imm _ (by cases r <;> rfl) (spells_24 v)
    | opr o => exact decode_form1 (.cmpXY r) .opr _ (by cases r <;> rfl) (spells_opr o)
  | cmpS m =>
    cases m with
    | imm v => exact decode_form2 .cmpS .imm _ rfl (spells_24 v)
    | opr o => exact decode_form2 .cmpS .opr _ rfl (spells_opr o)
  | cmpXwithY => exact decode_op1 .cmpXwithY _ rfl
  | negB o => exact decode_opr1 .negB _ rfl o
  | negW o => exact decode_opr1 .negW _ rfl o
  | negL o => exact decode_opr1 .negL _ rfl o
  | abs d => exact decode_op2 (.abs d) _ (by cases d <;> rfl)
  | muls d j k => exact decode_mul d true (.math j k)
  | mulsB d j o => exact decode_mul d true (.opr j .b o)
  | mulsW d j o => exact decode_mul d true (.opr j .w o)
  | mulsL d j o => exact decode_mul d true (.opr j .l o)
  | mulsOO d s1 o1 s2 o2 => exact decode_mul d true (.oprOpr s1 o1 s2 o2)
  | mulu d j k => exact decode_mul d false (.math j k)
  | muluB d j o => exact decode_mul d false (.opr j .b o)
  | muluW d j o => exact decode_mul d false (.opr j .w o)
  | muluL d j o => exact decode_mul d false (.opr j .l o)
  | muluOO d s1 o1 s2 o2 => exact decode_mul d false (.oprOpr s1 o1 s2 o2)
  | macs d j k => exact decode_mac d true (.math j k)
  | macsB d j o => exact decode_mac d true (.opr j .b o)
  | macsW d j o => exact decode_mac d true (.opr j .w o)
  | macsL d j o => exact decode_mac d true (.opr j .l o)
  | macsOO d s1 o1 s2 o2 => exact decode_mac d true (.oprOpr s1 o1 s2 o2)
  | macu d j k => exact decode_mac d false (.math j k)
  | macuB d j o => exact decode_mac d false (.opr j .b o)
  | macuW d j o => exact decode_mac d false (.opr j .w o)
  | macuL d j o => exact decode_mac d false (.opr j .l o)
  | macuOO d s1 o1 s2 o2 => exact decode_mac d false (.oprOpr s1 o1 s2 o2)
  | divs d j k => exact decode_div d true (.math j k)
  | divsB d j o => exact decode_div d true (.opr j .b o)
  | divsW d j o => exact decode_div d true (.opr j .w o)
  | divsL d j o => exact decode_div d true (.opr j .l o)
  | divsOO d s1 o1 s2 o2 => exact decode_div d true (.oprOpr s1 o1 s2 o2)
  | divu d j k => exact decode_div d false (.math j k)
  | divuB d j o => exact decode_div d false (.opr j .b o)
  | divuW d j o => exact decode_div d false (.opr j .w o)
  | divuL d j o => exact decode_div d false (.opr j .l o)
  | divuOO d s1 o1 s2 o2 => exact decode_div d false (.oprOpr s1 o1 s2 o2)
  | mods d j k => exact decode_mod d true (.math j k)
  | modsB d j o => exact decode_mod d true (.opr j .b o)
  | modsW d j o => exact decode_mod d true (.opr j .w o)
  | modsL d j o => exact decode_mod d true (.opr j .l o)
  | modsOO d s1 o1 s2 o2 => exact decode_mod d true (.oprOpr s1 o1 s2 o2)
  | modu d j k => exact decode_mod d false (.math j k)
  | moduB d j o => exact decode_mod d false (.opr j .b o)
  | moduW d j o => exact decode_mod d false (.opr j .w o)
  | moduL d j o => exact decode_mod d false (.opr j .l o)
  | moduOO d s1 o1 s2 o2 => exact decode_mod d false (.oprOpr s1 o1 s2 o2)
  | qmuls d j k => exact decode_qmul d true (.math j k)
  | qmulsB d j o => exact decode_qmul d true (.opr j .b o)
  | qmulsW d j o => exact decode_qmul d true (.opr j .w o)
  | qmulsL d j o => exact decode_qmul d true (.opr j .l o)
  | qmulsOO d s1 o1 s2 o2 => exact decode_qmul d true (.oprOpr s1 o1 s2 o2)
  | qmulu d j k => exact decode_qmul d false (.math j k)
  | qmuluB d j o => exact decode_qmul d false (.opr j .b o)
  | qmuluW d j o => exact decode_qmul d false (.opr j .w o)
  | qmuluL d j o => exact decode_qmul d false (.opr j .l o)
  | qmuluOO d s1 o1 s2 o2 => exact decode_qmul d false (.oprOpr s1 o1 s2 o2)
  | sat d => exact decode_op2 (.sat d) _ (by cases d <;> rfl)
  | clb s d => exact decode_page2 rfl (spells_cb s d)
  | and d m => exact decode_dSrc1 .and _ _ d m h (by cases d <;> rfl) (by cases d <;> rfl)
  | or d m => exact decode_dSrc1 .or _ _ d m h (by cases d <;> rfl) (by cases d <;> rfl)
  | eor d m => exact decode_dSrc2 .eor _ _ d m h (by cases d <;> rfl) (by cases d <;> rfl)
  | bit d m => exact decode_dSrc2 .bit _ _ d m h (by cases d <;> rfl) (by cases d <;> rfl)
  | comB o => exact decode_opr1 .comB _ rfl o
  | comW o => exact decode_opr1 .comW _ rfl o
  | comL o => exact decode_opr1 .comL _ rfl o
  | andcc m => exact decode_byte1 .andcc _ rfl m
  | orcc m => exact decode_byte1 .orcc _ rfl m
  | clc => exact decode_byte1 .andcc _ rfl 0xFE#8
  | cli => exact decode_byte1 .andcc _ rfl 0xEF#8
  | clv => exact decode_byte1 .andcc _ rfl 0xFD#8
  | sec => exact decode_byte1 .orcc _ rfl 0x01#8
  | sei => exact decode_byte1 .orcc _ rfl 0x10#8
  | sev => exact decode_byte1 .orcc _ rfl 0x02#8
  | asl d s n => exact decode_shiftReg true true d s n
  | aslOpr f => exact decode_shiftOpr true true f
  | asr d s n => exact decode_shiftReg true false d s n
  | asrOpr f => exact decode_shiftOpr true false f
  | lsl d s n => exact decode_shiftReg false true d s n
  | lslOpr f => exact decode_shiftOpr false true f
  | lsr d s n => exact decode_shiftReg false false d s n
  | lsrOpr f => exact decode_shiftOpr false false f
  | rol z o => exact decode_page1 (page1_shift .d2) (spells_sb .d2 (.rot true z) ((spells_opr o).map _))
  | ror z o => exact decode_page1 (page1_shift .d2) (spells_sb .d2 (.rot false z) ((spells_opr o).map _))
  | bset m => exact decode_bm1 .bset _ rfl m h
  | bclr m => exact decode_bm1 .bclr _ rfl m h
  | btgl m => exact decode_bm1 .btgl _ rfl m h
  | bfext d s p => exact decode_bfReg false d s p
  | bfextOpr f => exact decode_bfOpr false f
  | bfins d s p => exact decode_bfReg true d s p
  | bfinsOpr f => exact decode_bfOpr true f
  | maxs d o => exact decode_opr2 (.maxs d) _ (by cases d <;> rfl) o
  | maxu d o => exact decode_opr2 (.maxu d) _ (by cases d <;> rfl) o
  | mins d o => exact decode_opr2 (.mins d) _ (by cases d <;> rfl) o
  | minu d o => exact decode_opr2 (.minu d) _ (by cases d <;> rfl) o
  | bra rel => exact decode_rel .bra _ rfl rel
  | bsr rel => exact decode_rel .bsr _ rfl rel
  | bhi rel => exact decode_rel .bhi _ rfl rel
  | bls rel => exact decode_rel .bls _ rfl rel
  | bcc rel => exact decode_rel .bcc _ rfl rel
  | bcs rel => exact decode_rel .bcs _ rfl rel
  | bne rel => exact decode_rel .bne _ rfl rel
  | beq rel => exact decode_rel .beq _ rfl rel
  | bvc rel => exact decode_rel .bvc _ rfl rel
  | bvs rel => exact decode_rel .bvs _ rfl rel
  | bpl rel => exact decode_rel .bpl _ rfl rel
  | bmi rel => exact decode_rel .bmi _ rfl rel
  | bge rel => exact decode_rel .bge _ rfl rel
  | blt rel => exact decode_rel .blt _ rfl rel
  | bgt rel => exact decode_rel .bgt _ rfl rel
  | ble rel => exact decode_rel .ble _ rfl rel
  | bhs rel => exact decode_rel .bcc _ rfl rel
  | blo rel => exact decode_rel .bcs _ rfl rel
  | brclr m rel => exact decode_page1 rfl (spells_bmRel .brclr m rel h)
  | brset m rel => exact decode_page1 rfl (spells_bmRel .brset m rel h)
  | dbcc c r rel => exact decode_page1 rfl (spells_loop true c r rel)
  | dbccOpr c z o rel => exact decode_page1 rfl (spells_loopOpr true c z o rel)
  | tbcc c r rel => exact decode_page1 rfl (spells_loop false c r rel)
  | tbccOpr c z o rel => exact decode_page1 rfl (spells_loopOpr false c z o rel)
  | jmp t =>
    cases t with
    | ext a => exact decode_form1 .jmp .ext _ rfl (spells_24 a)
    | opr o => exact decode_form1 .jmp .opr _ rfl (spells_opr o)
  | jsr t =>
    cases t with
    | ext a => exact decode_form1 .jsr .ext _ rfl (spells_24 a)
    | opr o => exact decode_form1 .jsr .opr _ rfl (spells_opr o)
  | rts => exact decode_op1 .rts _ rfl
  | swi => exact decode_op1 .swi _ rfl
  | sys => exact decode_op2 .sys _ rfl
  | trap tn => exact decode_op2 (.trap tn) tn (page2_trap tn h)
  | spare => exact decode_op1 .spare _ rfl
  | rti => exact decode_op2 .rti _ rfl
  | wai => exact decode_op2 .wai _ rfl
  | stop => exact decode_op2 .stop _ rfl
  | nop => exact decode_op1 .nop _ rfl
  | bgnd => exact decode_op1 .bgnd _ rfl

/-- Settles O1. -/
theorem decodeOfEncode : Obligations.DecodeOfEncode := fun i rest h => decode_encode i h rest

end Sys2Proof
end

section
/-! PROOFS. What every instruction keeps (R18, R22, R441): the canonical form of memory, X where it is clear, and the
system bits in user state; one relation between states for all three, the shared operations under it, and one
case split over the instructions. -/

namespace Sys2Proof.Machine

/-! ## The relation -/

/-- A CCR whose X has not risen, and, where the old one says user state, whose system bits are the old ones. -/
structure Ccr.Guarded (c c' : Ccr) : Prop where
  xm : c.xm = false → c'.xm = false
  user : c.u = true → c.SystemSame c'

/-- Memory stays canonical and the CCR guarded. -/
structure Keeps (s t : State) : Prop where
  inv : s.Inv → t.Inv
  ccr : s.ccr.Guarded t.ccr

/-- The same of every next state that a meaning answers. -/
def Result.Keeps (s : State) (r : Result) : Prop := ∀ t, r = .next t → Machine.Keeps s t

theorem Ccr.SystemSame.trans {c c' c'' : Ccr} (h : c.SystemSame c') (k : c'.SystemSame c'') : c.SystemSame c'' := by
  obtain ⟨hu, hl, hs, hx, hi⟩ := h
  obtain ⟨ku, kl, ks, kx, ki⟩ := k
  exact ⟨ku.trans hu, kl.trans hl, ks.trans hs, kx.trans hx, ki.trans hi⟩

theorem Ccr.SystemSame.guarded {c c' : Ccr} (h : c.SystemSame c') : c.Guarded c' := by
  obtain ⟨_, _, _, hxm, _⟩ := id h
  exact ⟨fun hx => hxm.trans hx, fun _ => h⟩

theorem Ccr.Guarded.trans {c c' c'' : Ccr} (h : c.Guarded c') (k : c'.Guarded c'') : c.Guarded c'' :=
  ⟨fun hx => k.xm (h.xm hx), fun hu => (h.user hu).trans (k.user ((h.user hu).1.trans hu))⟩

theorem writeMasked_guarded (c : Ccr) (new : BitVec 16) (hi lo : Bool) : c.Guarded (c.writeMasked new hi lo) :=
  ⟨writeMasked_xm c new hi lo, writeMasked_user c new hi lo⟩

theorem cleared_systemSame (c : Ccr) : c.SystemSame c.cleared := ⟨rfl, rfl, rfl, rfl, rfl⟩

theorem shiftOp_systemSame (k : ShiftKind) {ws : Nat} (wd : Nat) (v : BitVec ws) (n : Nat) (c : Ccr) :
    c.SystemSame (shiftOp k wd v n c).2 := ⟨rfl, rfl, rfl, rfl, rfl⟩

@[simp] theorem stackContext_ccr (s : State) (rtn : Addr) (ccw : BitVec 16) :
    (s.stackContext rtn ccw).ccr = s.ccr := by simp [State.stackContext]

namespace Keeps

variable {s t u : State}

theorem trans (h : Keeps s t) (k : Keeps t u) : Keeps s u := ⟨fun hs => k.inv (h.inv hs), h.ccr.trans k.ccr⟩

theorem of_system (hm : t.mem = s.mem) (hc : s.ccr.SystemSame t.ccr) : Keeps s t :=
  ⟨State.Inv.of_mem hm, hc.guarded⟩

theorem of_same (hm : t.mem = s.mem) (hc : t.ccr = s.ccr) : Keeps s t := of_system hm (hc ▸ .refl _)

theorem refl (s : State) : Keeps s s := of_same rfl rfl

theorem decoded (h : Decoded s t) : Keeps s t := of_same h.mem h.ccr

/-- The fields that neither memory nor the CCR sees. -/
theorem to_same (h : Keeps s t) (hm : u.mem = t.mem) (hc : u.ccr = t.ccr) : Keeps s u := h.trans (of_same hm hc)

theorem to_system (h : Keeps s t) (hm : u.mem = t.mem) (hc : t.ccr.SystemSame u.ccr) : Keeps s u :=
  h.trans (of_system hm hc)

theorem to_ccr (h : Keeps s t) (c : Ccr) (hc : t.ccr.SystemSame c) : Keeps s { t with ccr := c } :=
  h.to_system rfl hc

theorem to_runState (h : Keeps s t) (r : RunState) : Keeps s { t with runState := r } := h.to_same rfl rfl

/-! ## The shared operations -/

theorem setD (h : Keeps s t) (r : DReg) (v : BitVec r.bits) : Keeps s (t.setD r v) := h.to_same (by simp) (by simp)
theorem setXY (h : Keeps s t) (r : XY) (v : Addr) : Keeps s (t.setXY r v) := h.to_same (by simp) (by simp)
theorem setXYS (h : Keeps s t) (r : XYS) (v : Addr) : Keeps s (t.setXYS r v) := h.to_same (by simp) (by simp)
theorem setSp (h : Keeps s t) (v : Addr) : Keeps s (t.setSp v) := h.to_same rfl rfl

theorem store (h : Keeps s t) (a : Addr) (sz : Size) (v : BitVec sz.bits) : Keeps s (t.store a sz v) :=
  ⟨fun hs => (h.inv hs).store a sz v, h.ccr⟩

theorem push (h : Keeps s t) (sz : Size) (v : BitVec sz.bits) : Keeps s (t.push sz v) := (h.setSp _).store _ sz v

theorem oprMoved (h : Keeps s t) (o : Opr) (n : Nat) : Keeps s (t.oprMoved o n) := h.to_same (by simp) (by simp)
theorem oprDone (h : Keeps s t) (o : Opr) (sz : Size) : Keeps s (t.oprDone o sz) := h.to_same (by simp) (by simp)

theorem writeCcr (h : Keeps s t) (new : BitVec 16) (hi lo : Bool) : Keeps s (t.writeCcr new hi lo) :=
  h.trans ⟨State.Inv.of_mem rfl, writeMasked_guarded _ new hi lo⟩

theorem pullMove (h : Keeps s t) (sz : Size) : Keeps s (t.pullMove sz) := h.to_same rfl rfl

theorem loopFetched (h : Keeps s t) (o : Opr) (rel : Rel) : Keeps s (t.loopFetched o rel) := h.to_same rfl rfl

theorem pushReg (h : Keeps s t) (r : StackReg) : Keeps s (t.pushReg r) := pushReg_eq t r ▸ h.push _ _

theorem pushList (h : Keeps s t) (l : List StackReg) : Keeps s (t.pushList l) := by
  unfold State.pushList
  induction l.reverse generalizing t with
  | nil => exact h
  | cons r l ih => exact ih (h.pushReg r)

theorem pullList (h : Keeps s t) (l : List StackReg) : Keeps s (t.pullList l) :=
  have hp := pullFold_pulled l t 0
  (h.to_same hp.mem hp.ccr).writeCcr _ _ _

theorem cpuWrite (h : Keeps s t) (c : CpuReg) (v : BitVec c.bits) : Keeps s (t.cpuWrite c v) := by
  cases c with
  | d r => exact h.setD r v
  | x | y => exact h.to_same rfl rfl
  | s => exact h.setSp v
  | cch | ccl | ccw => exact h.writeCcr _ _ _
  | resB | resF => exact h

theorem reservedPair (s : State) (dst : CpuReg) : Keeps s (s.reservedPair dst) := by
  unfold State.reservedPair
  split
  · exact refl s
  · exact (of_same rfl rfl : Keeps s s.drew).cpuWrite _ _

theorem transfer (s : State) (src dst : CpuReg) : Keeps s (s.transfer src dst) := by
  unfold State.transfer
  split_ifs
  · exact refl s
  · exact reservedPair s dst
  · exact (refl s).cpuWrite _ _

theorem exchange (s : State) (src dst : CpuReg) : Keeps s (s.exchange src dst) := by
  unfold State.exchange
  split
  · exact refl s
  split
  · exact reservedPair s dst
  split
  · exact refl s
  · exact refl s
  · exact (refl s).writeCcr _ _ _
  · exact (refl s).writeCcr _ _ _
  · dsimp only
    split
    · exact (refl s).cpuWrite _ _
    · exact ((refl s).cpuWrite _ _).cpuWrite _ _

theorem setLea (h : Keeps s t) (r : LeaDst) (a : Addr) : Keeps s (t.setLea r a) := by
  cases r <;> exact h.to_same rfl rfl

theorem autoMoved (h : Keeps s t) (m : AutoMode) (n : Nat) : Keeps s (t.autoMoved m n) := h.setXYS _ _

theorem leaMoved (s : State) (o : Opr) (r : LeaDst) : Keeps s (s.leaMoved o r) := by
  unfold State.leaMoved
  split
  · exact of_same rfl rfl
  · exact of_same rfl rfl
  · split
    · exact refl s
    · exact (refl s).autoMoved _ _
  · exact refl s

theorem jumpMoved (s : State) (o : Opr) : Keeps s (s.jumpMoved o) := by
  unfold State.jumpMoved
  split
  · exact of_same rfl rfl
  · exact of_same rfl rfl
  · exact (refl s).autoMoved _ _
  · exact refl s
  · exact of_same rfl rfl

theorem jumpDone (s : State) (o : ExtOpr) : Keeps s (s.jumpDone o) := by
  cases o with
  | ext a => exact refl s
  | opr o => exact jumpMoved s o

theorem stackContext (h : Keeps s t) (rtn : Addr) (ccw : BitVec 16) : Keeps s (t.stackContext rtn ccw) := by
  refine ⟨fun hs => State.Inv.stackContext (h.inv hs) rtn ccw, ?_⟩
  rw [stackContext_ccr]
  exact h.ccr

theorem setDCcr (s : State) (d : DReg) (rc : BitVec d.bits × Ccr) (hs : s.ccr.SystemSame rc.2) :
    Keeps s (s.setDCcr d rc) := of_system (by simp [State.setDCcr]) hs

theorem drewN (h : Keeps s t) (n : Nat) : Keeps s (t.drewN n) := h.to_same rfl rfl

/-- A division, whether its result is defined or open (R235 to R238, U3). -/
theorem dividedByZero (s : State) (d : DReg) : Keeps s (s.dividedByZero d) := by
  unfold State.dividedByZero
  exact (setDCcr s d _ ⟨rfl, rfl, rfl, rfl, rfl⟩).drewN 4

theorem divisionOverflow (s : State) (d : DReg) : Keeps s (s.divisionOverflow d) := by
  unfold State.divisionOverflow
  exact (setDCcr s d _ ⟨rfl, rfl, rfl, rfl, rfl⟩).drewN 3

theorem divisionFrame (g : Bool) (exact : Int → Int → Int) (d : DReg) (a b : MathVal) (s : State) :
    Keeps s (divisionFrame g exact d a b s) := by
  unfold Machine.divisionFrame
  dsimp only
  split
  · exact dividedByZero s d
  split
  · exact setDCcr s d (_, { s.ccr with n := _, z := _, v := false, c := false }) ⟨rfl, rfl, rfl, rfl, rfl⟩
  · exact divisionOverflow s d

theorem mulOp_systemSame (g : Bool) {w : Nat} (a b : Int) (c : Ccr) : c.SystemSame (mulOp g (wd := w) a b c).2 :=
  ⟨rfl, rfl, rfl, rfl, rfl⟩

theorem macOp_systemSame (g : Bool) {w : Nat} (acc : BitVec w) (a b : Int) (c : Ccr) :
    c.SystemSame (macOp g acc a b c).2 := ⟨rfl, rfl, rfl, rfl, rfl⟩

theorem qmulOp_systemSame (g : Bool) {w : Nat} (a : Int) (wa : Nat) (b : Int) (wb : Nat) (c : Ccr) :
    c.SystemSame (qmulOp g (wd := w) a wa b wb c).2 := ⟨rfl, rfl, rfl, rfl, rfl⟩

/-- What an `mb` instruction does with its operands (R230). -/
theorem mathOp (n : MathName) (g : Bool) (d : DReg) (a b : MathVal) (s : State) : Keeps s (n.op g d a b s) := by
  cases n with
  | mul => exact setDCcr s d _ (mulOp_systemSame g _ _ _)
  | mac => exact setDCcr s d _ (macOp_systemSame g _ _ _ _)
  | qmul => exact setDCcr s d _ (qmulOp_systemSame g _ _ _ _ _)
  | div => exact divisionFrame g _ d a b s
  | mod => exact divisionFrame g _ d a b s

end Keeps

/-! ## The shared forms -/

namespace Result.Keeps

variable {s p : State}

theorem advance (h : Machine.Keeps s p) (i : Instr) : Result.Keeps s (p.advance i) := by
  rintro _ ⟨⟩
  exact h.to_same rfl rfl

theorem goto (h : Machine.Keeps s p) (a : Addr) : Result.Keeps s (p.goto a) := by
  rintro _ ⟨⟩
  exact h.to_same rfl rfl

theorem refused (r : Refusal) : Result.Keeps s (.refused r) := by
  intro t h
  cases h

theorem branchIf (h : Machine.Keeps s p) (cond : Bool) (rel : Rel) (i : Instr) :
    Result.Keeps s (branchIf cond rel i p) := by
  unfold Machine.branchIf
  split
  · exact goto h _
  · exact advance h i

theorem locWrite (h : Machine.Keeps s p) (l : Loc) (sz : Size) (v : BitVec sz.bits) (k : State → Result)
    (hk : ∀ q, Machine.Keeps s q → Result.Keeps s (k q)) : Result.Keeps s (p.locWrite l sz v k) := by
  cases l with
  | imm e => exact refused _
  | reg r => exact hk _ (h.setD _ _)
  | mem ea => exact hk _ (h.store _ _ _)

/-- A value in a data register, and flags. -/
theorem setD_flags (h : Machine.Keeps s p) (d : DReg) (v : BitVec d.bits) (c : Ccr) (hc : p.ccr.SystemSame c)
    (i : Instr) : Result.Keeps s (State.advance { p.setD d v with ccr := c } i) :=
  advance (h.to_system (by simp) hc) i

/-- Flags alone. -/
theorem flags (h : Machine.Keeps s p) (c : Ccr) (hc : p.ccr.SystemSame c) (i : Instr) :
    Result.Keeps s (State.advance { p with ccr := c } i) := advance (h.to_system (u := { p with ccr := c }) rfl hc) i

theorem modify (reads : Bool) (o : Opr) (sz : Size) (f : {w : Nat} → BitVec w → Ccr → BitVec w × Ccr) (i : Instr)
    (hf : ∀ {w : Nat} (a : BitVec w) (c : Ccr), c.SystemSame (f a c).2) :
    Result.Keeps s (modify reads o sz f i s) := by
  have hp := (Machine.Keeps.refl s).oprMoved o sz.bytes
  unfold Machine.modify
  split
  · exact refused _
  · exact setD_flags hp _ _ _ (hf _ _) i
  · next ea _ =>
    have hu : Machine.Keeps s (if reads then (s.oprMoved o sz.bytes).loaded ea sz else s.oprMoved o sz.bytes) := by
      cases reads
      · exact hp
      · exact hp.to_same rfl rfl
    refine flags (hu.store ea sz _) _ ?_ i
    cases reads <;> exact hf _ _

theorem rmwBit (m : BmArg) (f : {w : Nat} → Nat → BitVec w → Ccr → BitVec w × Ccr) (i : Instr)
    (hf : ∀ {w : Nat} (n : Nat) (a : BitVec w) (c : Ccr), c.SystemSame (f n a c).2) :
    Result.Keeps s (rmwBit m f i s) := by
  cases m with
  | reg r n => exact setD_flags (.refl s) r _ _ (hf _ _ _) i
  | opr sz n o => exact modify true o sz.size _ i fun a c => hf _ a c
  | oprReg sz dn o => exact modify true o sz.size _ i fun a c => hf _ a c

theorem aluD (d : DReg) (m : DSrc) (f : BitVec d.bits → BitVec d.bits → Ccr → BitVec d.bits × Ccr) (i : Instr)
    (hf : ∀ a b (c : Ccr), c.SystemSame (f a b c).2) : Result.Keeps s (aluD d m f i s) :=
  setD_flags (.decoded (decoded_dMoved s d m)) d _ _ (hf _ _ _) i

theorem testD (d : DReg) (m : DSrc) (f : BitVec d.bits → BitVec d.bits → Ccr → BitVec d.bits × Ccr) (i : Instr)
    (hf : ∀ a b (c : Ccr), c.SystemSame (f a b c).2) : Result.Keeps s (testD d m f i s) :=
  flags (.decoded (decoded_dMoved s d m)) _ (hf _ _ _) i

theorem unaryD (d : DReg) (f : BitVec d.bits → Ccr → BitVec d.bits × Ccr) (i : Instr)
    (hf : ∀ a (c : Ccr), c.SystemSame (f a c).2) : Result.Keeps s (unaryD d f i s) :=
  setD_flags (.refl s) d _ _ (hf _ _) i

theorem storeTo (dst : ExtOpr) (sz : Size) (v : BitVec sz.bits) (i : Instr) :
    Result.Keeps s (storeTo dst sz v i s) := by
  cases dst with
  | ext a => exact flags ((Machine.Keeps.refl s).store a sz v) _ (nzClearV_systemSame _ v) i
  | opr o =>
    exact locWrite ((Machine.Keeps.refl s).oprMoved _ _) _ sz v _ fun q hq => flags hq _ (nzClearV_systemSame _ v) i

theorem moveTo (h : Machine.Keeps s p) (sz : Size) (src : MovSrc) (v : BitVec sz.bits) (dst : Opr) (i : Instr) :
    Result.Keeps s (moveTo sz src v dst i p) := by
  have hp := h.oprMoved dst sz.bytes
  unfold Machine.moveTo
  dsimp only
  split
  · exact advance (hp.setD _ _) i
  · exact locWrite hp _ sz v _ fun q hq => advance hq i

theorem move (sz : Size) (src : MovSrc) (dst : Opr) (i : Instr) : Result.Keeps s (move sz src dst i s) := by
  cases src with
  | imm v => exact moveTo (.refl s) sz (.imm v) _ dst i
  | opr o => exact moveTo ((Machine.Keeps.refl s).oprDone o sz) sz (.opr o) _ dst i

theorem clear (o : Opr) (sz : Size) (i : Instr) : Result.Keeps s (clear o sz i s) :=
  locWrite ((Machine.Keeps.refl s).oprMoved _ _) _ sz _ _ fun q hq => flags hq _ (cleared_systemSame q.ccr) i

theorem shiftInto (h : Machine.Keeps s p) (k : ShiftKind) (d : DReg) (x : Val) (n : ShiftBy) (i : Instr) :
    Result.Keeps s (shiftInto k d x n i p) :=
  setD_flags (h.trans (.decoded (decoded_countMoved p n))) d _ _ (shiftOp_systemSame _ _ _ _ _) i

theorem shiftOpr (k : ShiftKind) (f : ShiftOpr) (i : Instr) : Result.Keeps s (shiftOpr k f i s) := by
  cases f with
  | toReg d sz o n => exact shiftInto ((Machine.Keeps.refl s).oprDone o sz) k d _ n i
  | inPlace sz o two =>
    exact modify true o sz (fun {w} v c => shiftOp k w v (if two then 2 else 1) c) i
        fun _ _ => shiftOp_systemSame _ _ _ _ _

theorem fieldToReg (h : Machine.Keeps s p) (ins : Bool) (d : DReg) (x : Val) (w o : Nat) (i : Instr) :
    Result.Keeps s (fieldToReg ins d x w o i p) := setD_flags h d _ _ (nzClearV_systemSame _ _) i

theorem fieldOpr (ins : Bool) (f : BfOpr) (i : Instr) : Result.Keeps s (fieldOpr ins f i s) := by
  cases f with
  | fromOpr d sz o p => exact fieldToReg ((Machine.Keeps.refl s).oprDone o sz) ins d _ _ _ i
  | toOpr sz o src p =>
    unfold Machine.fieldOpr fieldToOpr
    exact modify ins o sz _ i fun _ c => nzClearV_systemSame c _

theorem bitBranch (want : Bool) (m : BmArg) (rel : Rel) (i : Instr) :
    Result.Keeps s (bitBranch want m rel i s) := by
  have hm := Machine.Keeps.decoded (decoded_bmMoved s m)
  have hc (b : Bool) : (s.bmMoved m).ccr.SystemSame { (s.bmMoved m).ccr with c := b } := ⟨rfl, rfl, rfl, rfl, rfl⟩
  exact branchIf (hm.to_ccr _ (hc _)) _ rel i

theorem math (n : MathName) (g : Bool) (d : DReg) (f : MathForm) :
    Result.Keeps s (exec (mathInstr n g d f) s) := by
  rw [math_exec]
  exact advance (p := n.op g d _ _ _)
    ((Machine.Keeps.decoded (decoded_mathMoved f s)).trans (.mathOp n g d _ _ (f.moved s))) _

theorem standBy (how : RunState) (i : Instr) : Result.Keeps s (standBy how i s) := by
  unfold Machine.standBy
  have hs := (Machine.Keeps.refl s).stackContext (s.pcNext i) s.ccr.word
  exact advance (hs.to_runState how) i

end Result.Keeps

/-! ## The instructions -/

theorem incOp_systemSame {w : Nat} (a : BitVec w) (c : Ccr) : c.SystemSame (incOp a c).2 := ⟨rfl, rfl, rfl, rfl, rfl⟩
theorem decOp_systemSame {w : Nat} (a : BitVec w) (c : Ccr) : c.SystemSame (decOp a c).2 := ⟨rfl, rfl, rfl, rfl, rfl⟩
theorem absOp_systemSame {w : Nat} (a : BitVec w) (c : Ccr) : c.SystemSame (absOp a c).2 := ⟨rfl, rfl, rfl, rfl, rfl⟩
theorem rolOp_systemSame {w : Nat} (a : BitVec w) (c : Ccr) : c.SystemSame (rolOp a c).2 := ⟨rfl, rfl, rfl, rfl, rfl⟩
theorem rorOp_systemSame {w : Nat} (a : BitVec w) (c : Ccr) : c.SystemSame (rorOp a c).2 := ⟨rfl, rfl, rfl, rfl, rfl⟩

theorem bitFlags_systemSame {w : Nat} (c : Ccr) (r : BitVec w) (old : Bool) : c.SystemSame (c.bitFlags r old) :=
  ⟨rfl, rfl, rfl, rfl, rfl⟩

theorem exec_wai (s : State) :
    exec .wai s = if s.ccr.u then s.advance .wai else standBy .waiting .wai s := rfl

theorem exec_stop (s : State) :
    exec .stop s = if s.ccr.u || s.ccr.s then s.advance .stop else standBy .stopped .stop s := rfl

theorem exec_bgnd (s : State) :
    exec .bgnd s = if s.enbdm then State.advance { s with runState := .halted } .bgnd else s.advance .bgnd := rfl

namespace Result.Keeps

theorem execLdD (s : State) (d : DReg) (src : LdSrc) : Result.Keeps s (exec (.ldD d src) s) := by
  cases src with
  | imm v => exact setD_flags (.refl s) d _ _ (nzClearV_systemSame _ _) _
  | ext a => exact setD_flags (.decoded (decoded_loaded s a d.size)) d _ _ (nzClearV_systemSame _ _) _
  | opr o => exact setD_flags (.oprDone (.refl s) o d.size) d _ _ (nzClearV_systemSame _ _) _

/-- A value in an index register, and its flags (R162). -/
theorem setXY_flags {s p : State} (h : Machine.Keeps s p) (r : XY) (v : Addr) (i : Instr) :
    Result.Keeps s (State.advance { p.setXY r v with ccr := p.ccr.nzClearV v } i) :=
  flags (h.setXY r v) _ (by simpa using nzClearV_systemSame p.ccr v) i

theorem execLdXY (s : State) (r : XY) (src : LdXYSrc) : Result.Keeps s (exec (.ldXY r src) s) := by
  cases src with
  | imm v => exact setXY_flags (.refl s) r _ _
  | imm18 v => exact setXY_flags (.refl s) r _ _
  | ext a => exact setXY_flags (.decoded (decoded_loaded s a .p)) r _ _
  | opr o => exact setXY_flags (.oprDone (.refl s) o .p) r _ _

theorem execSubD6 (s : State) (yMinusX : Bool) : Result.Keeps s (exec (.subD6 yMinusX) s) := by
  rintro _ ⟨⟩
  exact .of_system rfl (subFlags_systemSame _ _ false s.ccr)

theorem execClb (s : State) (src d : DReg) : Result.Keeps s (exec (.clb src d) s) :=
  setD_flags (.refl s) d _ { s.ccr with n := false, z := _, v := false } ⟨rfl, rfl, rfl, rfl, rfl⟩ _

theorem execDbccOpr (s : State) (c : LoopCond) (sz : Size) (o : Opr) (rel : Rel) :
    Result.Keeps s (exec (.dbccOpr c sz o rel) s) := by
  change Result.Keeps s (Machine.execDbccOpr c sz o rel s)
  unfold Machine.execDbccOpr
  refine locWrite (.oprDone (.refl s) o sz) _ sz _ _ fun q hq => ?_
  exact branchIf (hq.loopFetched o _) _ _ _

end Result.Keeps

/-- Every instruction but the four software exceptions and RTI (R18, R22, R441). -/
theorem exec_keeps (i : Instr) (s : State) (hswi : i ≠ .swi) (hsys : i ≠ .sys) (htrap : ∀ tn, i ≠ .trap tn)
    (hspare : i ≠ .spare) (hrti : i ≠ .rti) : Result.Keeps s (exec i s) := by
  cases i with
  | ldD d src => exact .execLdD s d src
  | ldXY r src => exact .execLdXY s r src
  | ldS src => exact .flags (.setSp (.decoded (decoded_pMoved s src)) _) _ (nzClearV_systemSame _ _) _
  | stD d dst => exact .storeTo dst _ _ _
  | stXY r dst => exact .storeTo dst _ _ _
  | stS o => exact .storeTo (.opr o) _ _ _
  | movB src dst => exact .move .b src dst _
  | movW src dst => exact .move .w src dst _
  | movP src dst => exact .move .p src dst _
  | movL src dst => exact .move .l src dst _
  | psh row2 mask => exact .advance (.pushList (.refl s) _) _
  | pul row2 mask => exact .advance (.pullList (.refl s) _) _
  | pshAll => exact .advance (.pushList (.refl s) _) _
  | pshAll16b => exact .advance (.pushList (.refl s) _) _
  | pulAll => exact .advance (.pullList (.refl s) _) _
  | pulAll16b => exact .advance (.pullList (.refl s) _) _
  | lea r o => exact .advance (.setLea (.leaMoved s o r) r _) _
  | leaImm r imm => exact .advance (.setXYS (.refl s) r _) _
  | clrB o => exact .clear o .b _
  | clrW o => exact .clear o .w _
  | clrP o => exact .clear o .p _
  | clrL o => exact .clear o .l _
  | clrD d => exact .setD_flags (.refl s) d 0 _ (cleared_systemSame _) _
  | clrXY r => exact .flags (.setXY (.refl s) r 0) _ (by simpa using cleared_systemSame s.ccr) _
  | tfr src dst => exact .advance (.transfer s src dst) _
  | zex src dst => exact .advance (.transfer s src dst) _
  | exg src dst => exact .advance (.exchange s src dst) _
  | sex src dst => exact .advance (.exchange s src dst) _
  | add d m => exact .aluD d m addOp _ fun a b c => addFlags_systemSame a b false c
  | adc d m => exact .aluD d m adcOp _ fun a b c => (addFlags_systemSame a b c.c c).stickyZ c
  | sub d m => exact .aluD d m subOp _ fun a b c => subFlags_systemSame a b false c
  | sbc d m => exact .aluD d m sbcOp _ fun a b c => (subFlags_systemSame a b c.c c).stickyZ c
  | subD6 yMinusX => exact .execSubD6 s yMinusX
  | incD d => exact .unaryD d incOp _ incOp_systemSame
  | incB o => exact .modify true o .b incOp _ incOp_systemSame
  | incW o => exact .modify true o .w incOp _ incOp_systemSame
  | incL o => exact .modify true o .l incOp _ incOp_systemSame
  | decD d => exact .unaryD d decOp _ decOp_systemSame
  | decB o => exact .modify true o .b decOp _ decOp_systemSame
  | decW o => exact .modify true o .w decOp _ decOp_systemSame
  | decL o => exact .modify true o .l decOp _ decOp_systemSame
  | cmpD d m => exact .testD d m subOp _ fun a b c => subFlags_systemSame a b false c
  | cmpXY r m => exact .flags (.decoded (decoded_pMoved s m)) _ (subFlags_systemSame _ _ false _) _
  | cmpS m => exact .flags (.decoded (decoded_pMoved s m)) _ (subFlags_systemSame _ _ false _) _
  | cmpXwithY => exact .flags (.refl s) _ (subFlags_systemSame _ _ false _) _
  | negB o => exact .modify true o .b negOp _ fun a c => subFlags_systemSame 0 a false c
  | negW o => exact .modify true o .w negOp _ fun a c => subFlags_systemSame 0 a false c
  | negL o => exact .modify true o .l negOp _ fun a c => subFlags_systemSame 0 a false c
  | abs d => exact .unaryD d absOp _ absOp_systemSame
  | muls d j k => exact .math .mul true d (.reg j k)
  | mulsB d j o => exact .math .mul true d (.oprB j o)
  | mulsW d j o => exact .math .mul true d (.oprW j o)
  | mulsL d j o => exact .math .mul true d (.oprL j o)
  | mulsOO d s1 o1 s2 o2 => exact .math .mul true d (.oprOpr s1 o1 s2 o2)
  | mulu d j k => exact .math .mul false d (.reg j k)
  | muluB d j o => exact .math .mul false d (.oprB j o)
  | muluW d j o => exact .math .mul false d (.oprW j o)
  | muluL d j o => exact .math .mul false d (.oprL j o)
  | muluOO d s1 o1 s2 o2 => exact .math .mul false d (.oprOpr s1 o1 s2 o2)
  | macs d j k => exact .math .mac true d (.reg j k)
  | macsB d j o => exact .math .mac true d (.oprB j o)
  | macsW d j o => exact .math .mac true d (.oprW j o)
  | macsL d j o => exact .math .mac true d (.oprL j o)
  | macsOO d s1 o1 s2 o2 => exact .math .mac true d (.oprOpr s1 o1 s2 o2)
  | macu d j k => exact .math .mac false d (.reg j k)
  | macuB d j o => exact .math .mac false d (.oprB j o)
  | macuW d j o => exact .math .mac false d (.oprW j o)
  | macuL d j o => exact .math .mac false d (.oprL j o)
  | macuOO d s1 o1 s2 o2 => exact .math .mac false d (.oprOpr s1 o1 s2 o2)
  | divs d j k => exact .math .div true d (.reg j k)
  | divsB d j o => exact .math .div true d (.oprB j o)
  | divsW d j o => exact .math .div true d (.oprW j o)
  | divsL d j o => exact .math .div true d (.oprL j o)
  | divsOO d s1 o1 s2 o2 => exact .math .div true d (.oprOpr s1 o1 s2 o2)
  | divu d j k => exact .math .div false d (.reg j k)
  | divuB d j o => exact .math .div false d (.oprB j o)
  | divuW d j o => exact .math .div false d (.oprW j o)
  | divuL d j o => exact .math .div false d (.oprL j o)
  | divuOO d s1 o1 s2 o2 => exact .math .div false d (.oprOpr s1 o1 s2 o2)
  | mods d j k => exact .math .mod true d (.reg j k)
  | modsB d j o => exact .math .mod true d (.oprB j o)
  | modsW d j o => exact .math .mod true d (.oprW j o)
  | modsL d j o => exact .math .mod true d (.oprL j o)
  | modsOO d s1 o1 s2 o2 => exact .math .mod true d (.oprOpr s1 o1 s2 o2)
  | modu d j k => exact .math .mod false d (.reg j k)
  | moduB d j o => exact .math .mod false d (.oprB j o)
  | moduW d j o => exact .math .mod false d (.oprW j o)
  | moduL d j o => exact .math .mod false d (.oprL j o)
  | moduOO d s1 o1 s2 o2 => exact .math .mod false d (.oprOpr s1 o1 s2 o2)
  | qmuls d j k => exact .math .qmul true d (.reg j k)
  | qmulsB d j o => exact .math .qmul true d (.oprB j o)
  | qmulsW d j o => exact .math .qmul true d (.oprW j o)
  | qmulsL d j o => exact .math .qmul true d (.oprL j o)
  | qmulsOO d s1 o1 s2 o2 => exact .math .qmul true d (.oprOpr s1 o1 s2 o2)
  | qmulu d j k => exact .math .qmul false d (.reg j k)
  | qmuluB d j o => exact .math .qmul false d (.oprB j o)
  | qmuluW d j o => exact .math .qmul false d (.oprW j o)
  | qmuluL d j o => exact .math .qmul false d (.oprL j o)
  | qmuluOO d s1 o1 s2 o2 => exact .math .qmul false d (.oprOpr s1 o1 s2 o2)
  | sat d => exact .unaryD d satOp _ fun _ c => nzClearV_systemSame c _
  | clb src d => exact .execClb s src d
  | and d m => exact .aluD d m andOp _ fun _ _ c => nzClearV_systemSame c _
  | or d m => exact .aluD d m orOp _ fun _ _ c => nzClearV_systemSame c _
  | eor d m => exact .aluD d m eorOp _ fun _ _ c => nzClearV_systemSame c _
  | bit d m => exact .testD d m andOp _ fun _ _ c => nzClearV_systemSame c _
  | comB o => exact .modify true o .b comOp _ fun _ c => nzClearV_systemSame c _
  | comW o => exact .modify true o .w comOp _ fun _ c => nzClearV_systemSame c _
  | comL o => exact .modify true o .l comOp _ fun _ c => nzClearV_systemSame c _
  | andcc m => exact .advance (.writeCcr (.refl s) _ _ _) _
  | orcc m => exact .advance (.writeCcr (.refl s) _ _ _) _
  | clc => exact .advance (.writeCcr (.refl s) _ _ _) _
  | cli => exact .advance (.writeCcr (.refl s) _ _ _) _
  | clv => exact .advance (.writeCcr (.refl s) _ _ _) _
  | sec => exact .advance (.writeCcr (.refl s) _ _ _) _
  | sei => exact .advance (.writeCcr (.refl s) _ _ _) _
  | sev => exact .advance (.writeCcr (.refl s) _ _ _) _
  | asl d src n => exact .shiftInto (.refl s) .asl d _ n _
  | aslOpr f => exact .shiftOpr .asl f _
  | asr d src n => exact .shiftInto (.refl s) .asr d _ n _
  | asrOpr f => exact .shiftOpr .asr f _
  | lsl d src n => exact .shiftInto (.refl s) .lsl d _ n _
  | lslOpr f => exact .shiftOpr .lsl f _
  | lsr d src n => exact .shiftInto (.refl s) .lsr d _ n _
  | lsrOpr f => exact .shiftOpr .lsr f _
  | rol sz o => exact .modify true o sz rolOp _ rolOp_systemSame
  | ror sz o => exact .modify true o sz rorOp _ rorOp_systemSame
  | bset m => exact .rmwBit m bsetOp _ fun n a c => bitFlags_systemSame c _ (bitOf a n)
  | bclr m => exact .rmwBit m bclrOp _ fun n a c => bitFlags_systemSame c _ (bitOf a n)
  | btgl m => exact .rmwBit m btglOp _ fun n a c => bitFlags_systemSame c _ (bitOf a n)
  | bfext d src p => exact .fieldToReg (.refl s) false d _ _ _ _
  | bfextOpr f => exact .fieldOpr false f _
  | bfins d src p => exact .fieldToReg (.refl s) true d _ _ _ _
  | bfinsOpr f => exact .fieldOpr true f _
  | maxs d o => exact .aluD d (.opr o) _ _ fun a b c => subFlags_systemSame a b false c
  | maxu d o => exact .aluD d (.opr o) _ _ fun a b c => subFlags_systemSame a b false c
  | mins d o => exact .aluD d (.opr o) _ _ fun a b c => subFlags_systemSame a b false c
  | minu d o => exact .aluD d (.opr o) _ _ fun a b c => subFlags_systemSame a b false c
  | bra rel => exact .goto (.refl s) _
  | bsr rel => exact .goto (.push (.refl s) _ _) _
  | bhi rel => exact .branchIf (.refl s) _ rel _
  | bls rel => exact .branchIf (.refl s) _ rel _
  | bcc rel => exact .branchIf (.refl s) _ rel _
  | bcs rel => exact .branchIf (.refl s) _ rel _
  | bne rel => exact .branchIf (.refl s) _ rel _
  | beq rel => exact .branchIf (.refl s) _ rel _
  | bvc rel => exact .branchIf (.refl s) _ rel _
  | bvs rel => exact .branchIf (.refl s) _ rel _
  | bpl rel => exact .branchIf (.refl s) _ rel _
  | bmi rel => exact .branchIf (.refl s) _ rel _
  | bge rel => exact .branchIf (.refl s) _ rel _
  | blt rel => exact .branchIf (.refl s) _ rel _
  | bgt rel => exact .branchIf (.refl s) _ rel _
  | ble rel => exact .branchIf (.refl s) _ rel _
  | bhs rel => exact .branchIf (.refl s) _ rel _
  | blo rel => exact .branchIf (.refl s) _ rel _
  | brclr m rel => exact .bitBranch false m rel _
  | brset m rel => exact .bitBranch true m rel _
  | dbcc c ctr rel =>
    cases ctr with
    | d r => exact .branchIf (.setD (.refl s) r _) _ rel _
    | xy r => exact .branchIf (.setXY (.refl s) r _) _ rel _
  | dbccOpr c sz o rel => exact .execDbccOpr s c sz o rel
  | tbcc c ctr rel => cases ctr <;> exact .branchIf (.refl s) _ rel _
  | tbccOpr c sz o rel => exact .branchIf (.oprDone (.refl s) o sz) _ rel _
  | jmp o => exact .goto (.jumpDone s o) _
  | jsr o => exact .goto (.push (.jumpDone s o) _ _) _
  | rts => exact .goto (.pullMove (.refl s) .p) _
  | swi => exact absurd rfl hswi
  | sys => exact absurd rfl hsys
  | trap tn => exact absurd rfl (htrap tn)
  | spare => exact absurd rfl hspare
  | rti => exact absurd rfl hrti
  | wai =>
    rw [exec_wai]
    split
    · exact .advance (.refl s) _
    · exact .standBy .waiting .wai
  | stop =>
    rw [exec_stop]
    split
    · exact .advance (.refl s) _
    · exact .standBy .stopped .stop
  | nop => exact .advance (.refl s) _
  | bgnd =>
    rw [exec_bgnd]
    split
    · exact .advance (.to_runState (.refl s) .halted) _
    · exact .advance (.refl s) _

end Sys2Proof.Machine
end

section
/-! PROOFS. The three statements that follow from what every instruction keeps: O7, O9 and O10. -/

namespace Sys2Proof.Machine

/-! ## Instructions -/

/-- A meaning that has a next state: what the others keep, an exception's entry, or RTI's return (R380 to R384). -/
theorem exec_cases {i : Instr} {s t : State} (h : exec i s = .next t) :
    Keeps s t ∨ (∃ k rtn, (∀ j req, k ≠ .interrupt j req) ∧ t = s.exceptionEntry k rtn) ∨
    t = s.returnFromException := by
  by_cases hswi : i = .swi
  · subst hswi; cases h; exact .inr (.inl ⟨.swi, _, nofun, rfl⟩)
  by_cases hsys : i = .sys
  · subst hsys; cases h; exact .inr (.inl ⟨.sys, _, nofun, rfl⟩)
  by_cases htrap : ∃ tn, i = .trap tn
  · obtain ⟨tn, rfl⟩ := htrap; cases h; exact .inr (.inl ⟨.trap, _, nofun, rfl⟩)
  by_cases hspare : i = .spare
  · subst hspare; cases h; exact .inr (.inl ⟨.spare, _, nofun, rfl⟩)
  by_cases hrti : i = .rti
  · subst hrti; cases h; exact .inr (.inr rfl)
  exact .inl (exec_keeps i s hswi hsys (not_exists.mp htrap) hspare hrti t h)

/-- RTI as the two things it can do (R384). -/
theorem returnFromException_cases (s : State) :
    s.returnFromException = { s.restoreContext with pc := s.load (s.sp + 26) .p } ∨
    ∃ k req, interruptPending s.input.rtiIrqs false s.restoreContext.ccr = some (k, req) ∧
      s.returnFromException = (s.restoreContext.setSp s.sp).takeInterruptNoStack k req := by
  cases h : interruptPending s.input.rtiIrqs false s.restoreContext.ccr with
  | none => exact .inl (returnFromException_plain s h)
  | some p => exact .inr ⟨p.1, p.2, rfl, returnFromException_interrupt s p.1 p.2 h⟩

@[simp] theorem restoreContext_ccr (s : State) :
    s.restoreContext.ccr = s.ccr.writeMasked (s.load s.sp .w) true true := rfl

/-- What RTI's restore changes (R384). -/
theorem restoreContext_form (s : State) : ∃ tr, s.restoreContext = { s with
    ccr := s.ccr.writeMasked (s.load s.sp .w) true true, d0 := s.load (s.sp + 2) .b,
    d1 := s.load (s.sp + 3) .b, d2 := s.load (s.sp + 4) .w, d3 := s.load (s.sp + 6) .w,
    d4 := s.load (s.sp + 8) .w, d5 := s.load (s.sp + 10) .w, d6 := s.load (s.sp + 12) .l,
    d7 := s.load (s.sp + 16) .l, x := s.load (s.sp + 20) .p, y := s.load (s.sp + 23) .p,
    sp := s.sp + 29, trace := tr } := by
  refine ⟨s.restoreContext.trace, ?_⟩
  unfold State.restoreContext
  rw [framePulled_form]
  rfl

theorem restoreContext_mem (s : State) : s.restoreContext.mem = s.mem := by
  obtain ⟨tr, e⟩ := restoreContext_form s
  rw [e]

theorem restoreContext_taken (s : State) : s.restoreContext.taken = s.taken := by
  obtain ⟨tr, e⟩ := restoreContext_form s
  rw [e]

/-- Settles O10: RTI with nothing pending writes the CCR through `WriteCCR` alone; every other instruction is
`exec_keeps`. -/
theorem userStateKeepsSystemBits : Obligations.UserStateKeepsSystemBits := by
  intro i s t h hu hswi hsys htrap hspare hpending
  by_cases hrti : i = .rti
  · subst hrti
    cases h
    have hsame := writeMasked_user s.ccr (s.load s.sp .w) true true hu
    obtain ⟨_, hipl, _, hxm, hi⟩ := id hsame
    rw [returnFromException_plain s (by rw [interruptPending_congr hxm hi hipl]; exact hpending rfl)]
    exact hsame
  · exact (exec_keeps i s hswi hsys htrap hspare hrti t h).ccr.user hu

/-! ## The canonical form of memory -/

theorem State.Inv.returnFromException {s : State} (hs : s.Inv) : s.returnFromException.Inv := by
  have hm := restoreContext_mem s
  have hcases := returnFromException_cases s
  generalize s.restoreContext = r at hm hcases
  obtain e | ⟨k, req, _, e⟩ := hcases <;> rw [e] <;> exact hs.of_mem hm

theorem exec_inv {i : Instr} {s t : State} (h : exec i s = .next t) (hs : s.Inv) : t.Inv := by
  obtain hk | ⟨k, rtn, _, rfl⟩ | rfl := exec_cases h
  · exact hk.inv hs
  · exact hs.exceptionEntry k rtn
  · exact hs.returnFromException

theorem runInstruction_next {s t : State} (h : runInstruction s = .next t) :
    ∃ i rest u, decode s.fetchBytes = .ok (i, rest) ∧ exec i (s.fetched i) = .next u ∧
      t = { u with irqShadow := nextShadow i s.ccr u.ccr } := by
  unfold runInstruction at h
  split at h
  · cases h
  · next i rest hd =>
    split at h
    · next u he =>
      cases h
      exact ⟨i, rest, u, hd, he, rfl⟩
    · cases h
    · cases h

/-- What a running CPU's step can be (R415). -/
theorem runningStep_next {s t : State} (h : runningStep s = .next t) :
    ((s.input.machineException = true ∨ s.machineRequest = true) ∧ t = s.machineException) ∨
    (∃ k req, interruptPending s.input.irqs s.irqShadow s.ccr = some (k, req) ∧
      t = { s.exceptionEntry (.interrupt k req) s.pc with irqShadow := false }) ∨
    runInstruction s = .next t := by
  unfold runningStep at h
  split at h
  · next hm =>
    cases h
    exact .inl ⟨by simpa using hm, rfl⟩
  · split at h
    · next k req hp =>
      cases h
      exact .inr (.inl ⟨k, req, hp, rfl⟩)
    · exact .inr (.inr h)

/-- What a step of a CPU that stands by can be (R420, R421). -/
theorem wakeStep_cases (s : State) :
    (∃ k req, interruptPending s.input.irqs false s.ccr = some (k, req) ∧
      wakeStep s = { s.takeInterruptNoStack k req with runState := .running }) ∨
    (wakeStep s).ccr = s.ccr ∧ (wakeStep s).mem = s.mem := by
  unfold wakeStep
  split
  · next k req hp => exact .inl ⟨k, req, hp, rfl⟩
  · split <;> exact .inr ⟨rfl, rfl⟩

theorem haltedStep_same (s : State) : (haltedStep s).ccr = s.ccr ∧ (haltedStep s).mem = s.mem := by
  unfold haltedStep
  split <;> exact ⟨rfl, rfl⟩

theorem State.Inv.wakeStep {s : State} (hs : s.Inv) : (wakeStep s).Inv := by
  obtain ⟨k, req, _, e⟩ | ⟨_, hm⟩ := wakeStep_cases s
  · rw [e]
    exact hs
  · exact hs.of_mem hm

theorem runningStep_inv {s t : State} (h : runningStep s = .next t) (hs : s.Inv) : t.Inv := by
  obtain ⟨_, rfl⟩ | ⟨k, req, _, rfl⟩ | h := runningStep_next h
  · exact hs
  · exact hs.exceptionEntry (.interrupt k req) s.pc
  · obtain ⟨i, rest, u, _, he, rfl⟩ := runInstruction_next h
    exact (exec_inv he (State.Inv.of_mem rfl hs) : u.Inv)

theorem boundaryStep_inv {s t : State} (h : boundaryStep s = .next t) (hs : s.Inv) : t.Inv := by
  unfold boundaryStep at h
  split at h
  · cases h
    exact hs.of_mem (haltedStep_same s).2
  · cases h
    exact hs.wakeStep
  · cases h
    exact hs.wakeStep
  · exact runningStep_inv h hs

theorem State.Inv.abandonedReset {s : State} (hs : s.Inv) : (abandonedReset s).Inv := by
  unfold Machine.abandonedReset
  split
  · exact (hs.abandon _).warmReset
  · exact hs.abandonUnknown.warmReset
  · exact hs.abandonUnknown.warmReset

/-- Settles O7: each branch of the step keeps memory canonical; the end of a step does not touch it. -/
theorem stepKeepsMemoryCanonical : Obligations.StepKeepsMemoryCanonical := by
  intro s t hs h
  have hb : s.begun.Inv := hs
  obtain ⟨u, hu, q, rfl⟩ := settle_next h
  suffices u.Inv from this
  split at hu
  · cases hu
    exact hb.warmReset
  · cases hu
    exact hb.abandonedReset
  · exact boundaryStep_inv hu hb

/-! ## X -/

/-- X has risen because a request of XIRQ was the last one taken (R22, R414). -/
def XirqTaken (s t : State) : Prop :=
  ∃ x, (s.input.irqs.xirq = some x ∨ s.input.rtiIrqs.xirq = some x) ∧ t.taken = x :: s.taken

/-- Of the interrupts only an XIRQ sets X (R404). -/
theorem xirq_of_xm_rises {a : IrqAnswer} {shadow : Bool} {c : Ccr} {k : IrqKind} {req : Request}
    (hp : interruptPending a shadow c = some (k, req)) (hc : c.xm = false)
    (hx : (c.enter (.interrupt k req)).xm = true) : a.xirq = some req := by
  obtain ⟨_, ha, _⟩ | ⟨rfl, _⟩ := interruptPending_some hp
  · exact ha
  · exact absurd (hc.symm.trans hx) nofun

theorem enter_xm_of_software {k : ExceptionKind} (hk : ∀ j req, k ≠ .interrupt j req) (c : Ccr) :
    (c.enter k).xm = c.xm := by
  cases k with
  | interrupt j req => exact absurd rfl (hk j req)
  | _ => rfl

/-- No instruction sets X by itself; RTI does where it takes an XIRQ (R22, R384). -/
theorem exec_xm_rises {i : Instr} {s t : State} (h : exec i s = .next t) (hs : s.ccr.xm = false)
    (ht : t.ccr.xm = true) : ∃ x, s.input.rtiIrqs.xirq = some x ∧ t.taken = x :: s.taken := by
  obtain hk | ⟨k, rtn, hsoft, rfl⟩ | rfl := exec_cases h
  · exact absurd ((hk.ccr.xm hs).symm.trans ht) nofun
  · rw [(exceptionEntry_spec s k rtn).2.1, enter_xm_of_software hsoft, hs] at ht
    cases ht
  · have hx : s.restoreContext.ccr.xm = false := writeMasked_xm s.ccr (s.load s.sp .w) true true hs
    have htaken := restoreContext_taken s
    have hcases := returnFromException_cases s
    generalize s.restoreContext = r at hx htaken hcases
    obtain e | ⟨k, req, hp, e⟩ := hcases <;> rw [e] at ht ⊢
    · exact absurd (hx.symm.trans ht) nofun
    · exact ⟨req, xirq_of_xm_rises hp hx ht, congrArg (req :: ·) htaken⟩

theorem runningStep_xm_rises {s t : State} (h : runningStep s = .next t)
    (hm : ¬(s.input.machineException = true ∨ s.machineRequest = true)) (hs : s.ccr.xm = false)
    (ht : t.ccr.xm = true) : XirqTaken s t := by
  obtain ⟨hm', _⟩ | ⟨k, req, hp, rfl⟩ | h := runningStep_next h
  · exact absurd hm' hm
  · obtain ⟨_, hccr, _, _, _, htaken⟩ := exceptionEntry_spec s (.interrupt k req) s.pc
    exact ⟨req, .inl (xirq_of_xm_rises hp hs (hccr ▸ ht)), htaken⟩
  · obtain ⟨i, rest, u, _, he, rfl⟩ := runInstruction_next h
    obtain ⟨x, hx, htaken⟩ := exec_xm_rises he hs ht
    exact ⟨x, .inr hx, htaken⟩

theorem boundaryStep_xm_rises {s t : State} (h : boundaryStep s = .next t)
    (hm : ¬(s.input.machineException = true ∨ s.machineRequest = true)) (hs : s.ccr.xm = false)
    (ht : t.ccr.xm = true) : XirqTaken s t := by
  have wake (ht : (wakeStep s).ccr.xm = true) : XirqTaken s (wakeStep s) := by
    obtain ⟨k, req, hp, e⟩ | ⟨hc, _⟩ := wakeStep_cases s
    · rw [e] at ht ⊢
      exact ⟨req, .inl (xirq_of_xm_rises hp hs ht), rfl⟩
    · rw [hc, hs] at ht
      cases ht
  unfold boundaryStep at h
  split at h
  · cases h
    rw [(haltedStep_same s).1, hs] at ht
    cases ht
  · cases h
    exact wake ht
  · cases h
    exact wake ht
  · exact runningStep_xm_rises h hm hs ht

/-- Settles O9: with no reset and no machine exception the step is `boundaryStep`, of which X rises by an XIRQ
alone. -/
theorem xMaskRisesByEntryAlone : Obligations.XMaskRisesByEntryAlone := by
  intro s t h hs ht
  obtain ⟨u, hu, q, rfl⟩ := settle_next h
  by_cases hr : s.input.reset = .none
  · by_cases hm : s.input.machineException = true ∨ s.machineRequest = true
    · exact .inr (hm.imp_right .inl)
    · rw [hr] at hu
      exact .inr (.inr (.inr (boundaryStep_xm_rises (s := s.begun) (t := u) hu hm hs ht)))
  · exact .inl hr

end Sys2Proof.Machine
end

section
/-! PROOFS. Every eleven bytes begin with an instruction (30_encoding.md): readers that never fail on enough bytes,
how they combine, and the two opcode pages row by row. -/

namespace Sys2Proof

/-! ## Readers that never fail -/

/-- On `k` bytes or more `p` reads a value, from `n` of them, `n ≤ k`; value and `n` are as `Q` says. -/
def Parse.Total {α : Type} (p : Parse α) (k : Nat) (Q : α → Nat → Prop) : Prop :=
  ∀ bs, k ≤ bs.length → ∃ a n, p bs = .ok (a, bs.drop n) ∧ n ≤ k ∧ Q a n

namespace Parse.Total

variable {α β : Type} {p : Parse α} {k m : Nat} {Q R : α → Nat → Prop}

theorem done {a : α} (h : Q a 0) : (Parse.done a).Total k Q := fun _ _ => ⟨a, 0, rfl, Nat.zero_le k, h⟩

theorem byte {Q : Byte → Nat → Prop} (h : ∀ b, Q b 1) : Parse.byte.Total 1 Q
  | [], hbs => nomatch hbs
  | b :: _, _ => ⟨b, 1, rfl, le_rfl, h b⟩

theorem value (n w : Nat) : (Parse.value n w).Total n fun _ j => j = n :=
  fun _ hbs => ⟨_, n, if_pos hbs, le_rfl, rfl⟩

theorem le (h : p.Total k Q) (hk : k ≤ m) : p.Total m Q := by
  intro bs hbs
  obtain ⟨a, n, hp, hn, hq⟩ := h bs (hk.trans hbs)
  exact ⟨a, n, hp, hn.trans hk, hq⟩

theorem mono (h : p.Total k Q) (hq : ∀ a n, Q a n → R a n) : p.Total k R := by
  intro bs hbs
  obtain ⟨a, n, hp, hn, h⟩ := h bs hbs
  exact ⟨a, n, hp, hn, hq a n h⟩

theorem bind {f : α → Parse β} {S : β → Nat → Prop} (h : p.Total k Q)
    (hf : ∀ a n, Q a n → (f a).Total m fun b j => S b (j + n)) : (p.bind f).Total (k + m) S := by
  intro bs hbs
  obtain ⟨a, n, hp, hn, hq⟩ := h bs (by omega)
  obtain ⟨b, j, hf, hj, hs⟩ := hf a n hq (bs.drop n) (by rw [List.length_drop]; omega)
  refine ⟨b, j + n, ?_, by omega, hs⟩
  rw [Parse.bind_ok hp, hf, List.drop_drop, Nat.add_comm]

theorem map {f : α → β} {S : β → Nat → Prop} (h : p.Total k Q) (hf : ∀ a n, Q a n → S (f a) n) :
    (Parse.map f p).Total k S := by
  intro bs hbs
  obtain ⟨a, n, hp, hn, hq⟩ := h bs hbs
  exact ⟨f a, n, Parse.map_ok hp, hn, hf a n hq⟩

/-- A first byte that decides how the rest is read. -/
theorem cons {f : Byte → Parse β} {S : β → Nat → Prop} (hf : ∀ b, (f b).Total m fun v j => S v (j + 1)) :
    (Parse.byte.bind f).Total (m + 1) S :=
  Nat.add_comm 1 m ▸ (byte (Q := fun _ n => n = 1) fun _ => rfl).bind fun b _ h => h ▸ hf b

end Parse.Total

open Parse.Total

/-! ## The parts of an instruction -/

theorem total_xb (m : XbMode) : (parseXb m).Total 3 fun o n => n = o.ext.length := by
  cases m with
  | immE4 | reg | idx | auto | regIdx | regIdxInd => exact done rfl
  | idx1 | idx1Ind | ext1 => exact ((value 1 8).map fun _ _ h => h).le (by decide)
  | idx2Reg | ext2 => exact ((value 2 16).map fun _ _ h => h).le (by decide)
  | idx3 | idx3Ind | idx3Reg | ext3 | ext3Ind => exact (value 3 24).map fun _ _ h => h

theorem total_opr : parseOpr.Total 4 fun o n => n = o.enc.length :=
  cons (S := fun o n => n = o.enc.length) fun b => (total_xb (xbMode b)).mono fun _ _ h => congrArg (· + 1) h

theorem total_rel : parseRel.Total 2 fun r n => n = r.enc.length := by
  refine cons fun b => ?_
  split
  · exact (value 1 8).map fun _ _ h => congrArg (· + 1) h
  · exact done rfl

theorem total_24 : parse24.Total 3 fun _ n => n = 3 := value 3 24

theorem total_imm (z : Size) : (parseImm z.bytes).Total 4 fun v n => n = z.bytes ∧ immFits z.bits v = true := by
  have hz : z.bytes ≤ 4 := z.bytes_le.2
  intro bs hbs
  refine ⟨_, z.bytes, if_pos (hz.trans hbs), hz, rfl, ?_⟩
  have hlt := Machine.beVal_lt (bs.take z.bytes)
  have hlen : (bs.take z.bytes).length = z.bytes := by rw [List.length_take]; omega
  rw [hlen, Machine.Size.pow_bytes] at hlt
  rw [immFits, decide_eq_true_iff, BitVec.toNat_ofNat]
  exact (Nat.mod_le _ _).trans_lt hlt

/-- The bit numbers that `bm` codes lie in their operand (R128). -/
def BmMode.inRange : BmMode → Bool
  | .reg r n => n.toNat < r.bits
  | .opr z n => n.toNat < z.size.bits
  | .oprReg _ _ => true

theorem bmMode_inRange : ∀ b : Byte, (bmMode b).inRange = true := by decide

theorem total_bm : parseBm.Total 5 fun m n => m.wf = true ∧ n = m.enc.length := by
  refine cons fun b => ?_
  have hb := bmMode_inRange b
  generalize bmMode b = m at hb ⊢
  cases m with
  | reg r n => exact done ⟨hb, rfl⟩
  | opr z n => exact total_opr.map fun _ _ h => ⟨hb, congrArg (· + 1) h⟩
  | oprReg z d => exact total_opr.map fun _ _ h => ⟨rfl, congrArg (· + 1) h⟩

theorem total_mbArgs (m : MbMode) : (parseMbArgs m).Total 8 fun a n => n = a.tail.length := by
  cases m with
  | reg j k => exact done rfl
  | regOpr j z => exact (total_opr.map fun _ _ h => h).le (by decide)
  | regImm j z =>
    cases z with
    | b => exact ((value 1 8).map fun _ _ h => h).le (by decide)
    | w => exact ((value 2 16).map fun _ _ h => h).le (by decide)
    | l => exact ((value 4 32).map fun _ _ h => h).le (by decide)
  | oprOpr s1 s2 =>
    refine total_opr.bind fun o1 n1 h1 => total_opr.map fun o2 n2 h2 => ?_
    rw [h1, h2, Nat.add_comm]
    exact List.length_append.symm

/-! ## Whole instructions -/

/-- A well-formed instruction and no second name, whose object code is `n` bytes after the `c` bytes of its
opcode. -/
def Whole (c : Nat) (i : Instr) (n : Nat) : Prop :=
  i.wf = true ∧ i.core = i ∧ (encode i).length = n + c

theorem whole_mb (c : Nat) (f : Bool → MbArgs → Instr) (h : ∀ g a, Whole c (f g a) (a.tail.length + 1)) :
    (parseMb f).Total 9 (Whole c) :=
  cons fun b => (total_mbArgs (mbMode b)).map fun a n hn => hn ▸ h b[7] a

/-- The shape of the five proofs that name the fifty `mb` instructions. -/
theorem forall_mbArgs {P : Bool → MbArgs → Prop} (hreg : ∀ g j k, P g (.math j k))
    (hb : ∀ g j o, P g (.opr j .b o)) (hw : ∀ g j o, P g (.opr j .w o)) (hl : ∀ g j o, P g (.opr j .l o))
    (hoo : ∀ g s1 o1 s2 o2, P g (.oprOpr s1 o1 s2 o2)) (g : Bool) (a : MbArgs) : P g a := by
  cases a with
  | math j k => exact hreg g j k
  | opr j z o =>
    cases z with
    | b => exact hb g j o
    | w => exact hw g j o
    | l => exact hl g j o
  | oprOpr s1 o1 s2 o2 => exact hoo g s1 o1 s2 o2

theorem whole_mul (d : DReg) : (parseMb (mulOf d)).Total 9 (Whole 1) := by
  refine whole_mb 1 _ (forall_mbArgs ?_ ?_ ?_ ?_ ?_) <;> intro g <;> cases g <;> intros <;> exact ⟨rfl, rfl, rfl⟩

theorem whole_mac (d : DReg) : (parseMb (macOf d)).Total 9 (Whole 2) := by
  refine whole_mb 2 _ (forall_mbArgs ?_ ?_ ?_ ?_ ?_) <;> intro g <;> cases g <;> intros <;> exact ⟨rfl, rfl, rfl⟩

theorem whole_div (d : DReg) : (parseMb (divOf d)).Total 9 (Whole 2) := by
  refine whole_mb 2 _ (forall_mbArgs ?_ ?_ ?_ ?_ ?_) <;> intro g <;> cases g <;> intros <;> exact ⟨rfl, rfl, rfl⟩

theorem whole_mod (d : DReg) : (parseMb (modOf d)).Total 9 (Whole 2) := by
  refine whole_mb 2 _ (forall_mbArgs ?_ ?_ ?_ ?_ ?_) <;> intro g <;> cases g <;> intros <;> exact ⟨rfl, rfl, rfl⟩

theorem whole_qmul (d : DReg) : (parseMb (qmulOf d)).Total 9 (Whole 2) := by
  refine whole_mb 2 _ (forall_mbArgs ?_ ?_ ?_ ?_ ?_) <;> intro g <;> cases g <;> intros <;> exact ⟨rfl, rfl, rfl⟩

theorem whole_op {c : Nat} {i : Instr} (h : Whole c i 0) : (Parse.done i).Total 9 (Whole c) := done h

theorem whole_byte {c : Nat} {f : Byte → Instr} (h : ∀ b, Whole c (f b) 1) :
    (Parse.map f .byte).Total 9 (Whole c) :=
  ((byte (Q := fun _ n => n = 1) fun _ => rfl).map fun b _ hn => hn ▸ h b).le (by decide)

theorem whole_opr {c : Nat} {f : Opr → Instr} (h : ∀ o, Whole c (f o) o.enc.length) :
    (Parse.map f parseOpr).Total 9 (Whole c) := (total_opr.map fun o _ hn => hn ▸ h o).le (by decide)

theorem whole_rel {c : Nat} {f : Rel → Instr} (h : ∀ r, Whole c (f r) r.enc.length) :
    (Parse.map f parseRel).Total 9 (Whole c) := (total_rel.map fun r _ hn => hn ▸ h r).le (by decide)

/-- An operand type's general form. -/
theorem whole_oprForm {α : Type} {c : Nat} {f : α → Instr} {g : Opr → α}
    (h : ∀ o, Whole c (f (g o)) o.enc.length) : (Parse.map f (.map g parseOpr)).Total 9 (Whole c) :=
  ((total_opr.map (S := fun a n => Whole c (f a) n) fun o _ hn => hn ▸ h o).map fun _ _ hn => hn).le (by decide)

/-- Its 24-bit form, an immediate or an extended address. -/
theorem whole_24Form {α : Type} {c : Nat} {f : α → Instr} {g : BitVec 24 → α}
    (h : ∀ v, Whole c (f (g v)) 3) : (Parse.map f (.map g parse24)).Total 9 (Whole c) :=
  ((total_24.map (S := fun a n => Whole c (f a) n) fun v _ hn => hn ▸ h v).map fun _ _ hn => hn).le (by decide)

/-- Its form with an immediate of a register's size. -/
theorem whole_immForm {α : Type} {c : Nat} {f : α → Instr} {g : BitVec 32 → α} (z : Size)
    (h : ∀ v, immFits z.bits v = true → Whole c (f (g v)) z.bytes) :
    (Parse.map f (.map g (parseImm z.bytes))).Total 9 (Whole c) :=
  (((total_imm z).map (S := fun a n => Whole c (f a) n) fun v _ ⟨hn, hv⟩ => hn ▸ h v hv).map
    fun _ _ hn => hn).le (by decide)

theorem whole_imm18 (r : XY) (hi : BitVec 2) : (Parse.map (.ldXY r) (xyImm18 hi)).Total 9 (Whole 1) :=
  (((value 2 16).map (S := fun a n => Whole 1 (.ldXY r a) n) fun _ _ hn => by rw [hn]; exact ⟨rfl, rfl, rfl⟩).map
    fun _ _ hn => hn).le (by decide)

theorem whole_bm {f : BmArg → Instr} (h : ∀ m, m.wf = true → Whole 1 (f m) m.enc.length) :
    (Parse.map f parseBm).Total 9 (Whole 1) :=
  (total_bm.map fun m _ ⟨hwf, hn⟩ => hn ▸ h m hwf).le (by decide)

theorem whole_bmRel {f : BmArg → Rel → Instr}
    (h : ∀ m r, m.wf = true → Whole 1 (f m r) (m.enc ++ r.enc).length) : (bmRel f).Total 9 (Whole 1) := by
  refine (total_bm.bind fun m _ ⟨hwf, hm⟩ => total_rel.map fun r _ hr => ?_).le (by decide)
  have := h m r hwf
  rwa [hm, hr, Nat.add_comm, ← List.length_append]

theorem whole_movOpr {f : MovSrc → Opr → Instr}
    (h : ∀ o dst, Whole 1 (f (.opr o) dst) (o.enc ++ dst.enc).length) : (movOpr f).Total 9 (Whole 1) := by
  refine ((total_opr.map (S := fun a n => ∃ o, a = .opr o ∧ n = o.enc.length) fun o _ hn => ⟨o, rfl, hn⟩).bind
    fun a _ ⟨o, ha, hn⟩ => total_opr.map fun dst _ hd => ?_).le (by decide)
  have := h o dst
  rwa [ha, hn, hd, Nat.add_comm, ← List.length_append]

theorem whole_movImm (z : Size) {f : MovSrc → Opr → Instr}
    (h : ∀ v dst, immFits z.bits v = true → Whole 1 (f (.imm v) dst) (encImm z v ++ dst.enc).length) :
    (movImm z.bytes f).Total 9 (Whole 1) := by
  refine (((total_imm z).map (S := fun a n => ∃ v, a = .imm v ∧ n = z.bytes ∧ immFits z.bits v = true)
    fun v _ hn => ⟨v, rfl, hn⟩).bind fun a _ ⟨v, ha, hn, hv⟩ => total_opr.map fun dst _ hd => ?_).le (by decide)
  have := h v dst hv
  rwa [ha, hn, hd, Nat.add_comm, ← encImm_length z v, ← List.length_append]

theorem whole_pair {f : CpuReg → CpuReg → Instr} (h : ∀ src dst, Whole 1 (f src dst) 1) :
    (parsePair f).Total 9 (Whole 1) := whole_byte fun _ => h _ _

theorem whole_pb : parsePb.Total 9 (Whole 1) :=
  whole_byte fun b => by cases b[7] <;> exact ⟨rfl, rfl, rfl⟩

theorem whole_loop : parseLoop.Total 9 (Whole 1) := by
  refine (cons (m := 6) fun b => ?_).le (by decide)
  cases lbMode b with
  | ctr c r =>
    refine (total_rel.map fun rel _ hn => ?_).le (by decide)
    rw [hn]
    cases b[7] <;> exact ⟨rfl, rfl, rfl⟩
  | opr c z =>
    refine total_opr.bind fun o _ ho => total_rel.map fun rel _ hn => ?_
    rw [ho, hn, Nat.add_comm rel.enc.length, ← List.length_append]
    cases b[7] <;> exact ⟨rfl, rfl, rfl⟩

theorem whole_shiftRegOf (a l : Bool) (d s : DReg) (n : ShiftBy) :
    Whole 1 (shiftRegOf a l d s n) (encShiftReg a l s n).length := by
  cases a <;> cases l <;> exact ⟨rfl, rfl, rfl⟩

theorem whole_shiftOprOf (a l : Bool) (f : ShiftOpr) : Whole 0 (shiftOprOf a l f) (encShiftOpr a l f).length := by
  cases a <;> cases l <;> exact ⟨rfl, rfl, rfl⟩

theorem whole_sb (d : DReg) (m : SbMode) : (parseSb d m).Total 8 fun i n => Whole 1 i (n + 1) := by
  cases m with
  | regN a l t s => exact done (whole_shiftRegOf a l d s (.fixed t))
  | regCount a l n0 s =>
    exact (total_opr.map fun o _ h => h ▸ whole_shiftRegOf a l d s (.count n0 o)).le (by decide)
  | oprN a l t z =>
    exact (total_opr.map fun o _ h => h ▸ whole_shiftOprOf a l (.toReg d z o (.fixed t))).le (by decide)
  | rot l z =>
    refine (total_opr.map fun o _ h => ?_).le (by decide)
    rw [h]
    cases l <;> exact ⟨rfl, rfl, rfl⟩
  | oprCount a l n0 z =>
    refine total_opr.bind fun o _ ho => total_opr.map fun c _ hc => ?_
    rw [ho, hc, Nat.add_comm c.enc.length, ← List.length_append]
    exact whole_shiftOprOf a l (.toReg d z o (.count n0 c))
  | inPlace a l t z =>
    exact (total_opr.map fun o _ h => h ▸ whole_shiftOprOf a l (.inPlace z o t)).le (by decide)

theorem whole_shift (d : DReg) : (parseShift d).Total 9 (Whole 1) := cons fun b => whole_sb d (sbMode b)

theorem whole_bfRegInstr (ins : Bool) (d s : DReg) (p : BfParam) :
    Whole 2 (bfRegInstr ins d s p) (encBfReg ins s p).length := by
  cases ins <;> exact ⟨rfl, rfl, rfl⟩

theorem whole_bfOprInstr (ins toMem : Bool) (d : DReg) (z : Size) (o : Opr) (p : BfParam) :
    Whole 2 (bfOprInstr ins (bfOprOf toMem d z o p)) (encBfOpr ins toMem z o p).length := by
  cases ins <;> cases toMem <;> exact ⟨rfl, rfl, rfl⟩

theorem total_wo (hi : BitVec 2) : (parseWo hi).Total 1 fun p n => n = 1 ∧ ∃ w o, p = .imm w o :=
  (byte (Q := fun _ n => n = 1) fun _ => rfl).map fun _ _ h => ⟨h, _, _, rfl⟩

theorem whole_bb (r : DReg) (ins : Bool) (m : BbMode) :
    (parseBb r ins m).Total 5 fun i n => Whole 2 i (n + 1) := by
  cases m with
  | regDp s p => exact done (whole_bfRegInstr ins r s (.dp p))
  | regImm s w =>
    refine ((total_wo w).map fun p _ ⟨hn, w', o, hp⟩ => ?_).le (by decide)
    rw [hn, hp]
    exact whole_bfRegInstr ins r s (.imm w' o)
  | oprDp t z p => exact (total_opr.map fun o _ h => h ▸ whole_bfOprInstr ins t r z o (.dp p)).le (by decide)
  | oprImm t z w =>
    refine (total_wo w).bind fun p _ ⟨hn, w', off, hp⟩ => total_opr.map fun o _ ho => ?_
    rw [hn, hp, ho]
    exact whole_bfOprInstr ins t r z o (.imm w' off)

theorem whole_bitField (r : DReg) : (parseBitField r).Total 9 (Whole 2) :=
  (cons fun b => whole_bb r b[7] (bbMode b)).le (by decide)

/-! ## The opcode pages -/

/-- The codes of page 2 that its table does not name are TRAP codes (R91, R92). -/
theorem trapCode_of_row18 : ∀ op : Byte, op.toNat / 8 = 18 → op.toNat % 8 ≠ 0 → op.toNat % 8 ≠ 1 →
    trapCode op = true := by decide

theorem trapCode_of_row : ∀ op : Byte, op.toNat / 8 ∉ List.range 19 → op.toNat / 8 ≠ 20 → op.toNat / 8 ≠ 22 →
    trapCode op = true := by decide

theorem eq_prefix_of_row : ∀ op : Byte, op.toNat / 8 = 3 → op.toNat % 8 = 3 → op = 0x1B := by decide

theorem total_page2 (op : Byte) : (decodePage2 op).Total 9 (Whole 2) := by
  unfold decodePage2
  generalize dreg (field op 0 3) = d
  dsimp only
  split
  · split
    · exact whole_oprForm fun _ => ⟨rfl, rfl, rfl⟩
    · exact whole_opr fun _ => ⟨rfl, rfl, rfl⟩
    · exact whole_oprForm fun _ => ⟨rfl, rfl, rfl⟩
    · exact whole_24Form fun _ => ⟨rfl, rfl, rfl⟩
    · exact whole_24Form fun _ => ⟨rfl, rfl, rfl⟩
    · exact whole_op ⟨rfl, rfl, rfl⟩
    · exact whole_op ⟨rfl, rfl, rfl⟩
    · exact whole_op ⟨rfl, rfl, rfl⟩
  · exact whole_bitField d
  · exact whole_opr fun _ => ⟨rfl, rfl, rfl⟩
  · exact whole_opr fun _ => ⟨rfl, rfl, rfl⟩
  · exact whole_opr fun _ => ⟨rfl, rfl, rfl⟩
  · exact whole_opr fun _ => ⟨rfl, rfl, rfl⟩
  · exact whole_div d
  · exact whole_mod d
  · exact whole_op ⟨rfl, rfl, rfl⟩
  · exact whole_mac d
  · exact whole_immForm d.size fun v hv => ⟨hv, rfl, congrArg (· + 2) (encImm_length _ v)⟩
  · exact whole_immForm d.size fun v hv => ⟨hv, rfl, congrArg (· + 2) (encImm_length _ v)⟩
  · exact whole_oprForm fun _ => ⟨rfl, rfl, rfl⟩
  · exact whole_oprForm fun _ => ⟨rfl, rfl, rfl⟩
  · exact whole_immForm d.size fun v hv => ⟨hv, rfl, congrArg (· + 2) (encImm_length _ v)⟩
  · exact whole_immForm d.size fun v hv => ⟨hv, rfl, congrArg (· + 2) (encImm_length _ v)⟩
  · exact whole_oprForm fun _ => ⟨rfl, rfl, rfl⟩
  · exact whole_oprForm fun _ => ⟨rfl, rfl, rfl⟩
  · next hrow =>
    split
    · exact whole_op ⟨rfl, rfl, rfl⟩
    · exact whole_byte fun _ => ⟨rfl, rfl, rfl⟩
    · next h0 h1 => exact whole_op ⟨trapCode_of_row18 op hrow h0 h1, rfl, rfl⟩
  · exact whole_op ⟨rfl, rfl, rfl⟩
  · exact whole_qmul d
  · refine whole_op ⟨trapCode_of_row op (fun hmem => ?_) (by assumption) (by assumption), rfl, rfl⟩
    have hlt := List.mem_range.mp hmem
    generalize op.toNat / 8 = row at *
    interval_cases row <;> contradiction

/-- Every opcode of page 1 but the one that leads to page 2. -/
theorem total_page1 (op : Byte) (hop : op ≠ 0x1B) : (decodePage1 op).Total 9 (Whole 1) := by
  unfold decodePage1
  generalize dreg (field op 0 3) = d
  dsimp only
  split
  · split
    · exact whole_op ⟨rfl, rfl, rfl⟩
    · exact whole_op ⟨rfl, rfl, rfl⟩
    · exact whole_bmRel fun _ _ h => ⟨h, rfl, rfl⟩
    · exact whole_bmRel fun _ _ h => ⟨h, rfl, rfl⟩
    · exact whole_pb
    · exact whole_op ⟨rfl, rfl, rfl⟩
    · exact whole_opr fun _ => ⟨rfl, rfl, rfl⟩
    · exact whole_opr fun _ => ⟨rfl, rfl, rfl⟩
  · split
    · exact whole_opr fun _ => ⟨rfl, rfl, rfl⟩
    · exact whole_opr fun _ => ⟨rfl, rfl, rfl⟩
    · exact whole_opr fun _ => ⟨rfl, rfl, rfl⟩
    · exact whole_loop
    · exact whole_movImm .b fun _ _ hv => ⟨hv, rfl, rfl⟩
    · exact whole_movImm .w fun _ _ hv => ⟨hv, rfl, rfl⟩
    · exact whole_movImm .p fun _ _ hv => ⟨hv, rfl, rfl⟩
    · exact whole_movImm .l fun _ _ hv => ⟨hv, rfl, rfl⟩
  · exact whole_shift d
  · split
    · exact whole_byte fun _ => ⟨rfl, rfl, rfl⟩
    · exact whole_byte fun _ => ⟨rfl, rfl, rfl⟩
    · exact whole_byte fun _ => ⟨rfl, rfl, rfl⟩
    · next hrow _ hcol => exact absurd (eq_prefix_of_row op hrow hcol) hop
    · exact whole_movOpr fun _ _ => ⟨rfl, rfl, rfl⟩
    · exact whole_movOpr fun _ _ => ⟨rfl, rfl, rfl⟩
    · exact whole_movOpr fun _ _ => ⟨rfl, rfl, rfl⟩
    · exact whole_movOpr fun _ _ => ⟨rfl, rfl, rfl⟩
  · split <;> exact whole_rel fun _ => ⟨rfl, rfl, rfl⟩
  · split <;> exact whole_rel fun _ => ⟨rfl, rfl, rfl⟩
  · exact whole_op ⟨rfl, rfl, rfl⟩
  · exact whole_op ⟨rfl, rfl, rfl⟩
  · exact whole_op ⟨rfl, rfl, rfl⟩
  · exact whole_mul d
  · exact whole_immForm d.size fun v hv => ⟨hv, rfl, congrArg (· + 1) (encImm_length _ v)⟩
  · exact whole_immForm d.size fun v hv => ⟨hv, rfl, congrArg (· + 1) (encImm_length _ v)⟩
  · exact whole_oprForm fun _ => ⟨rfl, rfl, rfl⟩
  · exact whole_oprForm fun _ => ⟨rfl, rfl, rfl⟩
  · exact whole_immForm d.size fun v hv => ⟨hv, rfl, congrArg (· + 1) (encImm_length _ v)⟩
  · exact whole_immForm d.size fun v hv => ⟨hv, rfl, congrArg (· + 1) (encImm_length _ v)⟩
  · exact whole_oprForm fun _ => ⟨rfl, rfl, rfl⟩
  · exact whole_oprForm fun _ => ⟨rfl, rfl, rfl⟩
  · exact whole_immForm d.size fun v hv => ⟨hv, rfl, congrArg (· + 1) (encImm_length _ v)⟩
  · split
    · exact whole_24Form fun _ => ⟨rfl, rfl, rfl⟩
    · exact whole_24Form fun _ => ⟨rfl, rfl, rfl⟩
    · exact whole_op ⟨rfl, rfl, rfl⟩
    · exact whole_op ⟨rfl, rfl, rfl⟩
    · exact whole_opr fun _ => ⟨rfl, rfl, rfl⟩
    · exact whole_opr fun _ => ⟨rfl, rfl, rfl⟩
    · exact whole_pair fun _ _ => ⟨rfl, rfl, rfl⟩
    · exact whole_opr fun _ => ⟨rfl, rfl, rfl⟩
  · exact whole_oprForm fun _ => ⟨rfl, rfl, rfl⟩
  · split
    · exact whole_oprForm fun _ => ⟨rfl, rfl, rfl⟩
    · exact whole_oprForm fun _ => ⟨rfl, rfl, rfl⟩
    · exact whole_oprForm fun _ => ⟨rfl, rfl, rfl⟩
    · exact whole_oprForm fun _ => ⟨rfl, rfl, rfl⟩
    · exact whole_opr fun _ => ⟨rfl, rfl, rfl⟩
    · exact whole_opr fun _ => ⟨rfl, rfl, rfl⟩
    · exact whole_pair fun _ _ => ⟨rfl, rfl, rfl⟩
    · exact whole_opr fun _ => ⟨rfl, rfl, rfl⟩
  · exact whole_24Form fun _ => ⟨rfl, rfl, rfl⟩
  · split
    · exact whole_24Form fun _ => ⟨rfl, rfl, rfl⟩
    · exact whole_24Form fun _ => ⟨rfl, rfl, rfl⟩
    · exact whole_24Form fun _ => ⟨rfl, rfl, rfl⟩
    · exact whole_24Form fun _ => ⟨rfl, rfl, rfl⟩
    · exact whole_opr fun _ => ⟨rfl, rfl, rfl⟩
    · exact whole_opr fun _ => ⟨rfl, rfl, rfl⟩
    · exact whole_opr fun _ => ⟨rfl, rfl, rfl⟩
    · exact whole_opr fun _ => ⟨rfl, rfl, rfl⟩
  · exact whole_oprForm fun _ => ⟨rfl, rfl, rfl⟩
  · split
    · exact whole_oprForm fun _ => ⟨rfl, rfl, rfl⟩
    · exact whole_oprForm fun _ => ⟨rfl, rfl, rfl⟩
    · exact whole_imm18 _ _
    · exact whole_imm18 _ _
    · exact whole_opr fun _ => ⟨rfl, rfl, rfl⟩
    · exact whole_opr fun _ => ⟨rfl, rfl, rfl⟩
    · exact whole_byte fun _ => ⟨rfl, rfl, rfl⟩
    · exact whole_opr fun _ => ⟨rfl, rfl, rfl⟩
  · exact whole_24Form fun _ => ⟨rfl, rfl, rfl⟩
  · split
    · exact whole_24Form fun _ => ⟨rfl, rfl, rfl⟩
    · exact whole_24Form fun _ => ⟨rfl, rfl, rfl⟩
    · exact whole_imm18 _ _
    · exact whole_imm18 _ _
    · exact whole_opr fun _ => ⟨rfl, rfl, rfl⟩
    · exact whole_opr fun _ => ⟨rfl, rfl, rfl⟩
    · exact whole_byte fun _ => ⟨rfl, rfl, rfl⟩
    · exact whole_opr fun _ => ⟨rfl, rfl, rfl⟩
  · exact whole_immForm d.size fun v hv => ⟨hv, rfl, congrArg (· + 1) (encImm_length _ v)⟩
  · split
    · exact whole_24Form fun _ => ⟨rfl, rfl, rfl⟩
    · exact whole_24Form fun _ => ⟨rfl, rfl, rfl⟩
    · exact whole_imm18 _ _
    · exact whole_imm18 _ _
    · exact whole_bm fun _ h => ⟨h, rfl, rfl⟩
    · exact whole_bm fun _ h => ⟨h, rfl, rfl⟩
    · exact whole_bm fun _ h => ⟨h, rfl, rfl⟩
    · exact whole_op ⟨rfl, rfl, rfl⟩
  · exact whole_oprForm fun _ => ⟨rfl, rfl, rfl⟩
  · split
    · exact whole_oprForm fun _ => ⟨rfl, rfl, rfl⟩
    · exact whole_oprForm fun _ => ⟨rfl, rfl, rfl⟩
    · exact whole_imm18 _ _
    · exact whole_imm18 _ _
    · exact whole_op ⟨rfl, rfl, rfl⟩
    · exact whole_op ⟨rfl, rfl, rfl⟩
    · exact whole_op ⟨rfl, rfl, rfl⟩
    · exact whole_op ⟨rfl, rfl, rfl⟩

/-- Settles O2: the first byte picks the row of page 1, every row is total. -/
theorem decodeTotal : Obligations.DecodeTotal := by
  intro bs hbs
  have hpages : decode.Total 11 fun i n => 1 ≤ n ∧ Whole 0 i n := by
    refine cons fun op => Parse.Total.mono (Q := Whole 1) ?_ fun _ _ h => ⟨Nat.le_add_left 1 _, h⟩
    by_cases hop : op = 0x1B
    · rw [hop]
      exact cons fun op2 => total_page2 op2
    · exact (total_page1 op hop).le (by decide)
  obtain ⟨i, n, hdecode, hle, hpos, hwf, hcore, hlen⟩ := hpages bs hbs
  exact ⟨i, n, hdecode, hpos, hle, hwf, hcore, hlen⟩

end Sys2Proof
end

section
/-! PROOFS. The step of a running CPU (60_exceptions.md section 3): the instruction at PC, the interrupt shadow, and
what stands before an instruction. -/

namespace Sys2Proof.Machine

/-! ## The step -/

theorem step_of_no_reset {s : State} (h : s.input.reset = .none) :
    step s = usedInput (settle (boundaryStep s.begun)) := by
  unfold step
  rw [h]

theorem boundaryStep_running {s : State} (h : s.runState = .running) : boundaryStep s = runningStep s := by
  unfold boundaryStep
  rw [h]

theorem boundaryStep_halted {s : State} (h : s.runState = .halted) : boundaryStep s = .next (haltedStep s) := by
  unfold boundaryStep
  rw [h]

theorem boundaryStep_standby {s : State} (h : s.runState = .waiting ∨ s.runState = .stopped) :
    boundaryStep s = .next (wakeStep s) := by
  unfold boundaryStep
  rcases h with h | h <;> rw [h]

theorem runningStep_raised {s : State} (h : s.input.machineException = true ∨ s.machineRequest = true) :
    runningStep s = .next s.machineException := by
  unfold runningStep
  rw [if_pos (by simpa using h)]

theorem runningStep_pending {s : State} (hm : s.input.machineException = false) (hr : s.machineRequest = false)
    {k : IrqKind} {req : Request} (hp : interruptPending s.input.irqs s.irqShadow s.ccr = some (k, req)) :
    runningStep s = .next { s.exceptionEntry (.interrupt k req) s.pc with irqShadow := false } := by
  unfold runningStep
  rw [if_neg (by simp [hm, hr]), hp]

theorem runningStep_quiet {s : State} (hm : s.input.machineException = false) (hr : s.machineRequest = false)
    (hp : interruptPending s.input.irqs s.irqShadow s.ccr = none) : runningStep s = runInstruction s := by
  unfold runningStep
  rw [if_neg (by simp [hm, hr]), hp]

theorem step_of_undisturbed {s : State} (h : s.Undisturbed) :
    step s = usedInput (settle (runInstruction s.begun)) := by
  obtain ⟨hrun, hreset, hexc, hreq, hirq⟩ := h
  rw [step_of_no_reset hreset, boundaryStep_running (s := s.begun) hrun, runningStep_quiet (s := s.begun) hexc hreq hirq]

/-! ## The instruction at PC -/

section
variable {s t : State} {i : Instr} {rest : List Byte} (hd : decode s.fetchBytes = .ok (i, rest))
include hd

theorem runInstruction_of_next (he : exec i (s.fetched i) = .next t) :
    runInstruction s = .next { t with irqShadow := nextShadow i s.ccr t.ccr } := by
  unfold runInstruction
  simp only [hd, he]

theorem runInstruction_of_refused {r : Refusal} (he : exec i (s.fetched i) = .refused r) :
    runInstruction s = .refused r := by
  unfold runInstruction
  simp only [hd, he]

theorem runInstruction_of_fault {f : Fault} (he : exec i (s.fetched i) = .fault f) :
    runInstruction s = .fault f := by
  unfold runInstruction
  simp only [hd, he]

end

/-- A step that runs an instruction comes to what the instruction does, its shadow set (R411, R415). -/
theorem stepsTo_of_exec {s t : State} {i : Instr} {rest : List Byte} (h : s.Undisturbed)
    (hd : decode s.fetchBytes = .ok (i, rest)) (he : exec i (s.begun.fetched i) = .next t) :
    StepsTo s { t with irqShadow := nextShadow i s.ccr t.ccr } := by
  rw [← begun_fetchBytes] at hd
  exact stepsTo_of_settle (by rw [step_of_undisturbed h, runInstruction_of_next hd he]; rfl)

/-- Settles O5: the three answers `exec` can give, each carried to the end of the step. -/
theorem stepRunsInstruction : Obligations.StepRunsInstruction := by
  intro s i rest h hd _
  have hb : decode s.begun.fetchBytes = .ok (i, rest) := by rw [begun_fetchBytes]; exact hd
  refine ⟨?fetch, fun t he => stepsTo_of_exec h hd he, fun r he => ?_, fun f he => ?_⟩
  case fetch =>
    unfold State.fetched
    rw [fetchedFirst_eq]
    rfl
  · rw [step_of_undisturbed h, runInstruction_of_refused hb he]
    rfl
  · rw [step_of_undisturbed h, runInstruction_of_fault hb he]
    rfl

/-! ## Bytes placed at PC -/

/-- R81, from the two directions of the decoder: what a well-formed instruction's encoding is read back from is
at most eleven bytes. -/
theorem encode_length_le {i : Instr} (h : i.wf = true) : (encode i).length ≤ 11 := by
  obtain ⟨_, n, hn, _, hle, _⟩ := decodeTotal (encode i ++ List.replicate 11 0#8) (by simp)
  rw [decode_encode i h] at hn
  obtain ⟨_, hdrop⟩ := Prod.mk.inj (Except.ok.inj hn)
  have hlen := congrArg List.length hdrop
  rw [List.length_drop, List.length_append, List.length_replicate] at hlen
  omega

theorem fetchBytes_of_placed {s : State} {bs : List Byte} (hlen : bs.length ≤ 11)
    (h : ∀ (k : Nat) (b : Byte), bs[k]? = some b → s.map.isMemory (s.pc + BitVec.ofNat 24 k).toNat = true ∧
      s.mem.read (s.pc + BitVec.ofNat 24 k).toNat = b) :
    s.fetchBytes = bs ++ s.fetchBytes.drop bs.length := by
  have htake : s.fetchBytes.take bs.length = bs := by
    refine List.ext_getElem (by simp [State.fetchBytes, maxInstrBytes, hlen]) fun k hk hk' => ?_
    obtain ⟨hmem, hread⟩ := h k bs[k] (List.getElem?_eq_getElem hk')
    rw [List.getElem_take]
    exact (bytesFrom_getElem _ _ _ k _).trans ((if_pos hmem).trans hread)
  conv_lhs => rw [← List.take_append_drop bs.length s.fetchBytes, htake]

theorem core_core (i : Instr) : i.core.core = i.core := by cases i <;> rfl

/-- Settles O6: eleven bytes from PC begin with the encoding, which decodes to the core instruction. -/
theorem stepRunsPlacedInstruction : Obligations.StepRunsPlacedInstruction := by
  intro s t i h hwf hplaced he
  have hd := decode_encode i hwf (s.fetchBytes.drop (encode i).length)
  rw [← fetchBytes_of_placed (encode_length_le hwf) hplaced] at hd
  have hsteps := stepsTo_of_exec h hd he
  rwa [nextShadow, core_core] at hsteps

/-! ## The shadow -/

theorem nextShadow_iff (i : Instr) (before after : Ccr) :
    nextShadow i before after = true ↔ (∃ m, i.core = .andcc m) ∧ before.i = true ∧ after.i = false := by
  unfold nextShadow
  split
  · next m hm => simp [hm]
  · next hno =>
    constructor
    · intro hf
      cases hf
    · rintro ⟨⟨m, hm⟩, _⟩
      exact absurd hm (hno m)

/-- Settles O16: the decoder gives no second name, so ANDCC is the only instruction that sets the shadow. -/
theorem interruptShadow : Obligations.InterruptShadow := by
  intro s t i rest h hd hstep
  rw [step_of_undisturbed h] at hstep
  obtain ⟨u, hu, q, rfl⟩ := settle_next hstep
  obtain ⟨j, rest', v, hj, _, rfl⟩ := runInstruction_next hu
  rw [begun_fetchBytes, hd] at hj
  obtain ⟨rfl, _⟩ := Prod.mk.inj (Except.ok.inj hj)
  obtain ⟨j, n, hj, _, _, _, hcore, _⟩ := decodeTotal s.fetchBytes (by simp [State.fetchBytes, maxInstrBytes])
  rw [hd] at hj
  obtain ⟨rfl, _⟩ := Prod.mk.inj (Except.ok.inj hj)
  have hiff := nextShadow_iff i s.ccr v.ccr
  rwa [hcore] at hiff

/-! ## Tier 1 -/

/-- Settles O3, by running the decoder. -/
theorem decodedWords : Obligations.DecodedWords := by
  refine ⟨rfl, rfl, rfl, rfl, rfl, rfl, rfl, rfl, rfl, rfl, rfl, rfl⟩

theorem branchIf_next (cond : Bool) (rel : Rel) (i j : Instr) (s : State) (hlen : i.length = j.length) :
    ∃ t, branchIf cond rel i s = .next t ∧ branchIf cond rel j s = .next t := by
  cases cond
  · exact ⟨_, rfl, by rw [branchIf, if_neg nofun, advance_eq, pcNext_pc, pcNext_pc, hlen]⟩
  · exact ⟨_, rfl, rfl⟩

/-- Settles O4: each pair of names has one encoding and one meaning. -/
theorem aliasesRunTheirCore : Obligations.AliasesRunTheirCore := by
  intro s rel src dst
  refine ⟨⟨rfl, branchIf_next _ rel _ _ s rfl⟩, ⟨rfl, branchIf_next _ rel _ _ s rfl⟩, ⟨rfl, _, rfl, rfl⟩,
    ⟨rfl, _, rfl, rfl⟩, ⟨rfl, _, rfl, rfl⟩, ⟨rfl, _, rfl, rfl⟩, ⟨rfl, _, rfl, rfl⟩, ⟨rfl, _, rfl, rfl⟩,
    ⟨rfl, _, rfl, rfl⟩, ⟨rfl, _, rfl, rfl⟩, ⟨rfl, _, rfl, rfl⟩, ⟨rfl, _, rfl, rfl⟩, ⟨rfl, _, rfl, rfl⟩,
    ⟨rfl, _, rfl, rfl⟩⟩

/-- Settles O8, by evaluation. -/
theorem resetState : Obligations.ResetState := by
  refine ⟨rfl, by decide, rfl, rfl, rfl, rfl, rfl, rfl, rfl⟩

theorem settle_used_quiet {t : State} (h : t.trace = []) : usedInput (settle (.next t)) = .next t.nextInput := by
  rw [settle_quiet h]
  rfl

/-- Settles O17. -/
theorem nopAndBackground : Obligations.NopAndBackground := by
  intro s
  refine ⟨rfl, rfl, rfl, ?bgnd, fun hhalted hreset => ?step⟩
  case bgnd =>
    rw [exec_bgnd]
    split
    · rfl
    · rfl
  case step =>
    have hh : boundaryStep s.begun = .next (haltedStep s.begun) := boundaryStep_halted (s := s.begun) hhalted
    rw [step_of_no_reset hreset, hh, settle_used_quiet (by unfold haltedStep; split <;> rfl)]
    unfold haltedStep
    have hinput : s.begun.input = s.input := rfl
    rw [hinput]
    cases s.input.go
    · exact congrArg (fun r => Host.Outcome.next { s.begun.nextInput with runState := r }) hhalted
    · rfl

end Sys2Proof.Machine
end

section
/-! PROOFS. What stands before an instruction at a boundary (60_exceptions.md sections 3 to 6): the interrupt
recognised, the machine exception, the ways out of standby. -/

namespace Sys2Proof.Machine

/-! ## Which interrupt is pending -/

section
variable {a : IrqAnswer} {c : Ccr}

theorem interruptPending_xirq (sh : Bool) {x : Request} (h : a.xirq = some x) (hx : c.xm = false) :
    interruptPending a sh c = some (.xirq, x) := by
  simp [interruptPending, h, hx]

/-- With no XIRQ to be taken the answer to `irq(ipl)` decides, under I and the shadow (R410, R411). -/
theorem interruptPending_masked (sh : Bool) (hx : a.xirq = none ∨ c.xm = true) :
    interruptPending a sh c = if c.i || sh then none else (a.irqAt c.ipl).map (IrqKind.irq, ·) := by
  unfold interruptPending
  cases hirq : a.irqAt c.ipl with
  | none =>
    cases hxirq : a.xirq with
    | none => simp
    | some x => simp [hx.resolve_left (by simp [hxirq])]
  | some r =>
    cases hxirq : a.xirq with
    | none => simp
    | some x => simp [hx.resolve_left (by simp [hxirq])]

theorem interruptPending_irq {sh : Bool} {r : Request} (hx : a.xirq = none ∨ c.xm = true)
    (hr : a.irqAt c.ipl = some r) (hi : c.i = false) (hsh : sh = false) :
    interruptPending a sh c = some (.irq, r) := by
  rw [interruptPending_masked sh hx, hr, hi, hsh]
  rfl

theorem interruptPending_none {sh : Bool} (hx : a.xirq = none ∨ c.xm = true)
    (hr : a.irqAt c.ipl = none ∨ c.i = true ∨ sh = true) : interruptPending a sh c = none := by
  rw [interruptPending_masked sh hx]
  rcases hr with hr | hr | hr <;> simp [hr]

end

/-! ## An interrupt at the boundary of a running CPU -/

/-- The beginning of a step and the shadow are no part of what an entry stacks and keeps. -/
theorem ContextStacked.of_begun {s t : State} {rtn : Addr} (h : ContextStacked s.begun t rtn) (shadow : Bool) :
    ContextStacked s { t with irqShadow := shadow } rtn where
  sp := h.sp
  frame := h.frame.congr rfl rfl fun _ => id
  registers := ⟨fun r hr => by simpa using h.registers.data r hr, h.registers.x, h.registers.y⟩
  bytes := h.bytes
  vec := h.vec
  enbdm := h.enbdm
  inputs := h.inputs
  map := h.map
  machineRequest := h.machineRequest

/-- The state at the end of a step that takes an interrupt (R404, R415). -/
def State.interrupted (s : State) (k : IrqKind) (req : Request) : State :=
  { s.begun.exceptionEntry (.interrupt k req) s.pc with irqShadow := false }

theorem stepsTo_interrupted {s : State} (hrun : s.runState = .running) (hreset : s.input.reset = .none)
    (hm : s.input.machineException = false) (hr : s.machineRequest = false) {k : IrqKind} {req : Request}
    (hp : interruptPending s.input.irqs s.irqShadow s.ccr = some (k, req)) :
    StepsTo s (s.interrupted k req) := by
  refine stepsTo_of_settle ?_
  rw [step_of_no_reset hreset, boundaryStep_running (s := s.begun) hrun, runningStep_pending (s := s.begun) hm hr hp]
  rfl

theorem interrupted_spec (s : State) (k : IrqKind) (req : Request) :
    let u := s.interrupted k req
    ContextStacked s u s.pc ∧ EnteredCcr s.ccr u.ccr req.level (irqXm k s.ccr) ∧
      u.pc = s.load req.vecaddr .p ∧ u.runState = .running ∧ u.irqShadow = false ∧
      u.taken = req :: s.taken ∧ u.trace = frameTrace (s.sp - 29) ++ [vectorRead req.vecaddr] := by
  obtain ⟨hstack, hccr, hpc, hrun, _, htaken⟩ := exceptionEntry_spec s.begun (.interrupt k req) s.pc
  have htrace := exceptionEntry_trace s.begun (.interrupt k req) s.pc
  unfold State.interrupted
  generalize s.begun.exceptionEntry (.interrupt k req) s.pc = t at *
  refine ⟨hstack.of_begun false, ?_, hpc.trans (begun_load s _ _), hrun, rfl, htaken, htrace⟩
  rw [show ({ t with irqShadow := false } : State).ccr = s.ccr.enter (.interrupt k req) from hccr]
  exact enter_interrupt s.ccr k req

/-- Settles O11: which interrupt is pending, then the entry of either kind. -/
theorem interruptRecognition : Obligations.InterruptRecognition := by
  intro s hrun hreset hm hr
  refine ⟨fun x hx hxm => ?_, fun r hreq hi hsh hx => ?_, fun hx hno => ?_⟩
  · exact ⟨_, stepsTo_interrupted hrun hreset hm hr (interruptPending_xirq _ hx hxm), interrupted_spec s _ _⟩
  · exact ⟨_, stepsTo_interrupted hrun hreset hm hr (interruptPending_irq hx hreq hi hsh), interrupted_spec s _ _⟩
  · exact step_of_undisturbed ⟨hrun, hreset, hm, hr, interruptPending_none hx hno⟩

/-! ## The machine exception -/

/-- Settles O12: the state is `MachineException`'s, the step's beginning aside. -/
theorem machineExceptionEntry : Obligations.MachineExceptionEntry := by
  intro s hrun hreset hraised
  refine ⟨s.begun.machineException, stepsTo_of_settle ?_, begun_load s _ _, rfl, rfl, rfl, rfl, rfl,
    ⟨rfl, rfl, rfl, rfl⟩, rfl, rfl, rfl, ⟨fun r _ => by cases r <;> rfl, rfl, rfl⟩, rfl, ⟨rfl, rfl, rfl, rfl⟩,
    rfl, rfl, rfl⟩
  rw [step_of_no_reset hreset, boundaryStep_running (s := s.begun) hrun, runningStep_raised (s := s.begun) hraised]

/-! ## Out of standby -/

/-- The state at the end of a step in which an interrupt wakes the CPU (R420, R436). -/
def State.awoken (s : State) (k : IrqKind) (req : Request) : State :=
  { s.begun.takeInterruptNoStack k req with runState := .running }

theorem wakeStep_pending {s : State} {k : IrqKind} {req : Request}
    (hp : interruptPending s.input.irqs false s.ccr = some (k, req)) :
    wakeStep s = { s.takeInterruptNoStack k req with runState := .running } := by
  unfold wakeStep
  rw [hp]

theorem wakeStep_none {s : State} (hp : interruptPending s.input.irqs false s.ccr = none) :
    wakeStep s =
      if s.input.wakeContinue then { s.setSp (s.sp + frameBytes) with runState := .running } else s := by
  unfold wakeStep
  rw [hp]

theorem step_of_standby {s : State} (hrun : s.runState = .waiting ∨ s.runState = .stopped)
    (hreset : s.input.reset = .none) : step s = usedInput (settle (.next (wakeStep s.begun))) := by
  rw [step_of_no_reset hreset, boundaryStep_standby (s := s.begun) hrun]

theorem stepsTo_awoken {s : State} (hrun : s.runState = .waiting ∨ s.runState = .stopped)
    (hreset : s.input.reset = .none) {k : IrqKind} {req : Request}
    (hp : interruptPending s.input.irqs false s.ccr = some (k, req)) : StepsTo s (s.awoken k req) := by
  refine stepsTo_of_settle ?_
  rw [step_of_standby hrun hreset, wakeStep_pending (s := s.begun) hp]
  rfl

theorem awoken_spec (s : State) (k : IrqKind) (req : Request) :
    let u := s.awoken k req
    EnteredCcr s.ccr u.ccr req.level (irqXm k s.ccr) ∧ u.pc = s.load req.vecaddr .p ∧
      u.runState = .running ∧ u.irqShadow = false ∧ u.taken = req :: s.taken ∧
      u.sp = s.sp ∧ RegistersSame s u ∧ u.mem = s.mem ∧ SurroundingsSame s u ∧
      u.machineRequest = s.machineRequest ∧ u.trace = [vectorRead req.vecaddr] := by
  have hspec := takeInterruptNoStack_spec s.begun k req
  unfold State.awoken
  generalize s.begun.takeInterruptNoStack k req = t at hspec
  obtain ⟨hccr, hpc, hshadow, htaken, hsp, hregs, hmem, _, hmap, hvec, henbdm, hinputs, hrequest, htrace⟩ := hspec
  refine ⟨?_, hpc.trans (begun_load s _ _), rfl, hshadow, htaken, hsp,
    ⟨fun r hr => by simpa using hregs.data r hr, hregs.x, hregs.y⟩, hmem, ⟨hvec, henbdm, hinputs, hmap⟩, hrequest, htrace⟩
  rw [show ({ t with runState := .running } : State).ccr = s.ccr.enter (.interrupt k req) from hccr]
  exact enter_interrupt s.ccr k req

/-- Settles O13: the same recognition with no shadow, over the frame that is on the stack. -/
theorem wakeFromStandby : Obligations.WakeFromStandby := by
  intro s hrun hreset
  refine ⟨fun x hx hxm => ?_, fun r hreq hi hx => ?_, fun hx hno hcont => ?_⟩
  · exact ⟨_, stepsTo_awoken hrun hreset (interruptPending_xirq _ hx hxm), awoken_spec s _ _⟩
  · exact ⟨_, stepsTo_awoken hrun hreset (interruptPending_irq hx hreq hi rfl), awoken_spec s _ _⟩
  · have hp : interruptPending s.begun.input.irqs false s.begun.ccr = none :=
      interruptPending_none hx (hno.imp_right Or.inl)
    have hc : s.begun.input.wakeContinue ≠ true := ne_true_of_eq_false hcont
    rw [step_of_standby hrun hreset, wakeStep_none hp, if_neg hc, settle_used_quiet rfl]

end Sys2Proof.Machine
end

section
/-! PROOFS. Software exceptions, RTI and standby as instructions (48_system.md sections 1 to 3). -/

namespace Sys2Proof.Machine

/-! ## Software exceptions -/

/-- The exceptions that an instruction raises: they carry no request (R400, R404). -/
def ExceptionKind.software : ExceptionKind → Bool
  | .spare | .trap | .swi | .sys => true
  | .interrupt _ _ => false

theorem enter_software {kind : ExceptionKind} (h : kind.software = true) (c : Ccr) :
    EnteredCcr c (c.enter kind) c.ipl c.xm := by
  cases kind with
  | interrupt k req => cases h
  | spare | trap | swi | sys => exact ⟨rfl, rfl, rfl, rfl, rfl, rfl, rfl, rfl, rfl⟩

theorem taken_software {kind : ExceptionKind} (h : kind.software = true) (l : List Request) :
    kind.taken l = l := by
  cases kind with
  | interrupt k req => cases h
  | spare | trap | swi | sys => rfl

theorem software_enters (i : Instr) (s : State) {kind : ExceptionKind} (hk : kind.software = true)
    (hi : exec i s = .next (s.exceptionEntry kind (s.pcNext i))) :
    Gives i s fun t =>
      ContextStacked s t (s.pc + BitVec.ofNat 24 (encode i).length) ∧
      EnteredCcr s.ccr t.ccr s.ccr.ipl s.ccr.xm ∧ t.pc = s.load (s.vecAddr kind) .p ∧ t.runState = .running ∧
      t.irqShadow = s.irqShadow ∧ t.taken = s.taken := by
  obtain ⟨hstack, hccr, hpc, hrun, hshadow, htaken⟩ := exceptionEntry_spec s kind (s.pcNext i)
  refine ⟨_, hi, hstack, ?_, hpc, hrun, hshadow, htaken.trans (taken_software hk s.taken)⟩
  rw [hccr]
  exact enter_software hk s.ccr

/-- Settles O57: each of the four is `ExceptionEntry` with its own kind. -/
theorem softwareExceptionEntry : Obligations.SoftwareExceptionEntry := by
  intro s
  exact ⟨⟨software_enters .swi s (kind := .swi) rfl rfl, rfl⟩, ⟨software_enters .sys s (kind := .sys) rfl rfl, rfl⟩,
    fun tn => ⟨software_enters (.trap tn) s (kind := .trap) rfl rfl, rfl⟩,
    ⟨software_enters .spare s (kind := .spare) rfl rfl, rfl⟩⟩

/-! ## RTI -/

theorem exec_rti (s : State) : exec .rti s = .next s.returnFromException := rfl

/-- The values RTI pulls are what the frame's bytes give when read (R384, R403). -/
theorem frame_reads (s : State) :
    s.Reads s.sp 2 (s.load s.sp .w).toNat ∧ s.Reads (s.sp + 2) 1 (s.load (s.sp + 2) .b).toNat ∧
    s.Reads (s.sp + 3) 1 (s.load (s.sp + 3) .b).toNat ∧ s.Reads (s.sp + 4) 2 (s.load (s.sp + 4) .w).toNat ∧
    s.Reads (s.sp + 6) 2 (s.load (s.sp + 6) .w).toNat ∧ s.Reads (s.sp + 8) 2 (s.load (s.sp + 8) .w).toNat ∧
    s.Reads (s.sp + 10) 2 (s.load (s.sp + 10) .w).toNat ∧ s.Reads (s.sp + 12) 4 (s.load (s.sp + 12) .l).toNat ∧
    s.Reads (s.sp + 16) 4 (s.load (s.sp + 16) .l).toNat ∧ s.Reads (s.sp + 20) 3 (s.load (s.sp + 20) .p).toNat ∧
    s.Reads (s.sp + 23) 3 (s.load (s.sp + 23) .p).toNat ∧ s.Reads (s.sp + 26) 3 (s.load (s.sp + 26) .p).toNat :=
  ⟨load_reads s _ .w, load_reads s _ .b, load_reads s _ .b, load_reads s _ .w, load_reads s _ .w,
    load_reads s _ .w, load_reads s _ .w, load_reads s _ .l, load_reads s _ .l, load_reads s _ .p,
    load_reads s _ .p, load_reads s _ .p⟩

theorem setSp_load_reads {s r : State} (hm : r.mem = s.mem) (hp : r.map = s.map) (sp a : Addr) :
    s.Reads a 3 ((r.setSp sp).load a .p).toNat := load_reads_of (t := r.setSp sp) hm hp a .p

/-- Settles O58: the frame restored, then the two ways of going on. -/
theorem returnFromInterrupt : Obligations.ReturnFromInterrupt := by
  intro s
  refine ⟨rfl, _, exec_rti s, s.load s.sp .w, s.load (s.sp + 26) .p, ?_⟩
  obtain ⟨tr, hform⟩ := restoreContext_form s
  have hreads := frame_reads s
  cases hp : interruptPending s.input.rtiIrqs false (s.ccr.writeMasked (s.load s.sp .w) true true) with
  | none =>
    rw [returnFromException_plain s hp, hform]
    refine ⟨hreads, rfl, rfl, rfl, rfl, rfl, rfl, rfl, ?_⟩
    rw [hp]
    exact ⟨rfl, rfl, rfl, rfl, rfl⟩
  | some p =>
    obtain ⟨k, req⟩ := p
    have hvector : s.Reads req.vecaddr 3 ((s.restoreContext.setSp s.sp).load req.vecaddr .p).toNat :=
      setSp_load_reads (by rw [hform]) (by rw [hform]) _ _
    rw [hform] at hvector
    rw [returnFromException_interrupt s k req hp, hform]
    refine ⟨hreads, rfl, rfl, rfl, rfl, rfl, rfl, rfl, ?_⟩
    rw [hp]
    exact ⟨enter_interrupt _ k req, hvector, rfl, rfl, rfl⟩

/-! ## A software exception and RTI -/

/-- The entries of the four instructions, by kind. -/
theorem exec_software {i : Instr} (hi : i = .swi ∨ i = .sys ∨ (∃ tn, i = .trap tn) ∨ i = .spare) (s : State) :
    ∃ kind : ExceptionKind, kind.software = true ∧ exec i s = .next (s.exceptionEntry kind (s.pcNext i)) := by
  rcases hi with rfl | rfl | ⟨tn, rfl⟩ | rfl
  · exact ⟨.swi, rfl, rfl⟩
  · exact ⟨.sys, rfl, rfl⟩
  · exact ⟨.trap, rfl, rfl⟩
  · exact ⟨.spare, rfl, rfl⟩

/-- RTI over the frame of a context on a stack in RAM, entered in supervisor state, brings that context back. -/
theorem returnFromException_of_stacked {s t : State} {rtn : Addr} (hs : ContextStacked s t rtn)
    (hc : EnteredCcr s.ccr t.ccr s.ccr.ipl s.ccr.xm) (hram : s.RamAt (s.sp - 29) 29)
    (hquiet : interruptPending s.input.rtiIrqs false s.ccr = none) :
    ∃ tr, t.returnFromException = { t with
      ccr := s.ccr, d0 := s.d0, d1 := s.d1, d2 := s.d2, d3 := s.d3, d4 := s.d4, d5 := s.d5, d6 := s.d6,
      d7 := s.d7, x := s.x, y := s.y, sp := s.sp, pc := rtn, trace := tr } := by
  obtain ⟨_, huser, _, hxm, _, _⟩ := hc
  have hword : t.ccr.writeMasked s.ccr.word true true = s.ccr := writeMasked_word t.ccr s.ccr huser fun h => hxm.trans h
  have hframe : FrameHolds s t t.sp rtn := hs.sp ▸ hs.frame
  have hram' : s.RamAt t.sp 29 := hs.sp ▸ hram
  have hsp : t.sp + 29 = s.sp := by rw [hs.sp, BitVec.sub_add_cancel]
  obtain ⟨hform, hrtn⟩ := restoreContext_of_frame t s rtn hframe hs.map hram'
  rw [hword, hsp] at hform
  have hccr : t.ccr.writeMasked (t.load t.sp .w) true true = s.ccr := by
    rw [← restoreContext_ccr, hform]
  have hinput : t.input = s.input := congrArg (·.headD HostInputs.quiet) hs.inputs
  rw [returnFromException_plain t (by rw [hinput, hccr]; exact hquiet), hform, hrtn]
  exact ⟨_, rfl⟩

/-- Settles O59. -/
theorem exceptionRoundTrip : Obligations.ExceptionRoundTrip := by
  intro i s t hi ht hquiet hram
  obtain ⟨kind, hk, hexec⟩ := exec_software hi s
  obtain ⟨_, hu, hstack, hccr, _⟩ := software_enters i s hk hexec
  obtain rfl := Host.Outcome.next.inj (ht.symm.trans hu)
  obtain ⟨tr, hreturn⟩ := returnFromException_of_stacked hstack hccr hram hquiet
  refine ⟨_, (exec_rti t).trans (congrArg _ hreturn), rfl, ⟨fun r _ => ?_, rfl, rfl⟩, rfl, rfl, hstack.bytes⟩
  cases r <;> rfl

/-! ## WAI and STOP -/

/-- Settling down to wait: the context stacked, the CCR unchanged (R385, R386, R405). -/
theorem standBy_runs (how : RunState) (i : Instr) (s : State) (hi : exec i s = standBy how i s)
    (hu : s.ccr.u = false) :
    Runs i s fun t => t.ccr = s.ccr ∧ ContextStacked s t (s.pcNext i) ∧ t.runState = how ∧
      t.irqShadow = s.irqShadow ∧ t.taken = s.taken := by
  obtain ⟨hform, hframe, hbytes, -⟩ := stackContext_spec s (s.pcNext i) s.ccr.word hu s.ccr rfl
  have hexec : exec i s = State.advance { s.stackContext (s.pcNext i) s.ccr.word with runState := how } i := hi
  generalize s.stackContext (s.pcNext i) s.ccr.word = u at *
  obtain ⟨mem, trace, rfl⟩ : ∃ mem trace, u = { s with sp := s.sp - 29, mem := mem, trace := trace } :=
    ⟨_, _, hform⟩
  exact ⟨_, hexec, rfl, rfl, ⟨rfl, hframe.congr rfl rfl fun _ => id, ⟨fun r _ => by cases r <;> rfl, rfl, rfl⟩, hbytes,
    rfl, rfl, rfl, rfl, rfl⟩, rfl, rfl, rfl⟩

theorem advance_runs (i : Instr) (s : State) (hi : exec i s = s.advance i) :
    Runs i s fun t => t.ccr = s.ccr ∧ CcrOnly s t := ccrOnly_runs s i s.ccr hi

/-- An instruction that stands by, or is a NOP where `nop` says so. -/
theorem standbyOrNop_runs (how : RunState) (nop : Bool) (i : Instr) (s : State) (hlen : s.pcNext i = s.pc + 2)
    (hi : exec i s = if nop then s.advance i else standBy how i s) (hu : nop = false → s.ccr.u = false) :
    Runs i s fun t => t.ccr = s.ccr ∧
      if nop then CcrOnly s t
      else ContextStacked s t (s.pc + 2) ∧ t.runState = how ∧ t.irqShadow = s.irqShadow ∧ t.taken = s.taken := by
  cases nop with
  | true => exact advance_runs i s hi
  | false => exact hlen ▸ standBy_runs how i s hi (hu rfl)

/-- Settles O60. -/
theorem standbyEntry : Obligations.StandbyEntry := by
  intro s
  exact ⟨⟨rfl, standbyOrNop_runs .waiting s.ccr.u .wai s rfl (exec_wai s) id⟩,
    ⟨rfl, standbyOrNop_runs .stopped (s.ccr.u || s.ccr.s) .stop s rfl (exec_stop s)
      fun h => (Bool.or_eq_false_iff.mp h).1⟩⟩

end Sys2Proof.Machine
end

section
/-! PROOFS. Out of standby by 'continue', and reset (60_exceptions.md section 4, 70_reset_and_hazards.md section 1). -/

namespace Sys2Proof.Machine

/-! ## WAI or STOP, then 'continue' -/

/-- WAI and STOP in the states in which they stand by (R385, R386). -/
theorem exec_standBy {i : Instr} {s : State} (hi : i = .wai ∨ i = .stop) (hu : s.ccr.u = false)
    (hs : i = .stop → s.ccr.s = false) :
    ∃ how, (how = .waiting ∨ how = .stopped) ∧ exec i s = standBy how i s ∧ s.pcNext i = s.pc + 2 := by
  rcases hi with rfl | rfl
  · exact ⟨.waiting, .inl rfl, by rw [exec_wai, if_neg (by simp [hu])], rfl⟩
  · exact ⟨.stopped, .inr rfl, by rw [exec_stop, if_neg (by simp [hu, hs rfl])], rfl⟩

/-- The 'continue' exit takes the frame off the stack, unread (R421). -/
theorem step_continue {t u : State} (hrun : t.runState = .waiting ∨ t.runState = .stopped)
    (hreset : t.input.reset = .none) (hquiet : interruptPending t.input.irqs false t.ccr = none)
    (hcontinue : t.input.wakeContinue = true) (h : step t = .next u) :
    u.pc = t.pc ∧ u.sp = t.sp + 29 ∧ u.ccr = t.ccr ∧ u.runState = .running ∧ RegistersSame t u ∧ u.mem = t.mem := by
  have hwake : t.begun.input.wakeContinue = true := hcontinue
  rw [step_of_standby hrun hreset, wakeStep_none (s := t.begun) hquiet, if_pos hwake] at h
  obtain ⟨v, hv, q, rfl⟩ := settle_next h
  obtain rfl := Host.Outcome.next.inj hv
  exact ⟨rfl, rfl, rfl, rfl, ⟨fun r _ => by cases r <;> rfl, rfl, rfl⟩, rfl⟩

theorem RegistersSame.trans {s t u : State} (h : RegistersSame s t) (k : RegistersSame t u) : RegistersSame s u :=
  ⟨fun r hr => (k.data r hr).trans (h.data r hr), k.x.trans h.x, k.y.trans h.y⟩

/-- Settles O14: what the standby stacked, and the step that leaves it. -/
theorem standbyThenContinue : Obligations.StandbyThenContinue := by
  intro i s t u hi hu hs ht hreset hquiet hcontinue hstep
  obtain ⟨how, hhow, hexec, hnext⟩ := exec_standBy hi hu hs
  obtain ⟨t', ht', hpc, hccr, hstack, hrun, _⟩ := standBy_runs how i s hexec hu
  obtain rfl := Host.Outcome.next.inj (ht.symm.trans ht')
  obtain ⟨hpc', hsp', hccr', hrun', hregs', hmem'⟩ := step_continue (hrun ▸ hhow) hreset hquiet hcontinue hstep
  refine ⟨hpc'.trans (hpc.trans hnext), ?_, hccr'.trans hccr, hrun', hstack.registers.trans hregs', ?_⟩
  · rw [hsp', hstack.sp, BitVec.sub_add_cancel]
  · exact fun b hb => (congrArg (·.read b.toNat) hmem').trans (hstack.bytes b hb)

/-! ## Reset -/

/-- What a reset leaves: the values of R450 and R451, nothing around the CPU changed. -/
def ResetTo (s t : State) : Prop :=
  t.ccr.u = false ∧ t.ccr.ipl = 0 ∧ t.ccr.s = true ∧ t.ccr.xm = true ∧ t.ccr.i = true ∧ t.runState = .running ∧
    t.irqShadow = false ∧ t.machineRequest = false ∧ t.Reads 0xFFFFFD 3 t.pc.toNat ∧ SurroundingsSame s t ∧
    t.taken = s.taken ∧ t.trace = [vectorRead 0xFFFFFD]

theorem warmReset_resetTo {s r : State} (hr : SurroundingsSame s r) (htaken : r.taken = s.taken)
    (htrace : r.trace = []) : ResetTo s r.warmReset :=
  ⟨rfl, rfl, rfl, rfl, rfl, rfl, rfl, rfl, Reads.congr (load_reads r Config.resetVector .p) rfl rfl,
    ⟨hr.vec, hr.enbdm, hr.inputs, hr.map⟩, htaken, congrArg (vectorRead Config.resetVector :: ·) htrace⟩

theorem warmReset_mem (r : State) : r.warmReset.mem = r.mem := rfl

theorem step_of_boundary_reset {s : State} (h : s.input.reset = .boundary) :
    step s = usedInput (settle (.next s.begun.warmReset)) := by
  unfold step
  rw [h]

theorem step_of_mid_reset {s : State} (h : s.input.reset = .midInstruction) :
    step s = usedInput (settle (.next (abandonedReset s.begun))) := by
  unfold step
  rw [h]

theorem abandonedReset_next {s w : State} (h : boundaryStep s = .next w) :
    abandonedReset s = (s.abandon w).warmReset := by
  unfold abandonedReset
  rw [h]

theorem abandonedReset_refused {s : State} {r : Refusal} (h : boundaryStep s = .refused r) :
    abandonedReset s = s.abandonUnknown.warmReset := by
  unfold abandonedReset
  rw [h]

/-! ## What an abandoned step leaves open -/

theorem Memory.read_freed {a : Nat} (k : Nat) (addrs : List Nat) (m : Memory) (h : a ∉ addrs) :
    (m.freed k addrs).read a = m.read a := by
  induction addrs generalizing m with
  | nil => rfl
  | cons b rest ih =>
    rw [List.mem_cons, not_or] at h
    exact (ih (m.write b (Config.freeByte k b)) h.2).trans (Memory.read_write_ne m b _ a h.1)

theorem mem_addressRun {a b : Addr} {n : Nat} (h : b.toNat ∈ addressRun a n) : (b - a).toNat < n := by
  obtain ⟨k, hk, hb⟩ := List.mem_map.mp h
  rw [← BitVec.eq_of_toNat_eq hb, BitVec.add_comm, BitVec.add_sub_cancel, BitVec.toNat_ofNat]
  exact (Nat.mod_le _ _).trans_lt (List.mem_range.mp hk)

theorem wroteTo_of_stored {w : State} {e : Effect} {b : Addr} (he : e ∈ w.trace) (h : b.toNat ∈ e.stores) :
    w.WroteTo b := by
  unfold Effect.stores at h
  split at h
  · exact ⟨_, he, rfl, mem_addressRun h⟩
  all_goals cases h

theorem not_mem_ramStored {map : MemMap} {w : State} {b : Addr} (h : ¬w.WroteTo b ∨ map.isRam b.toNat = false) :
    b.toNat ∉ map.ramStored w.trace := by
  intro hb
  obtain ⟨hstored, hram⟩ := List.mem_filter.mp hb
  obtain ⟨e, he, hbe⟩ := List.mem_flatMap.mp hstored
  rcases h with h | h
  · exact h (wroteTo_of_stored he hbe)
  · exact absurd (hram.symm.trans h) nofun

theorem abandon_sp {s w : State} (h : .spWritten ∉ w.trace) : (s.abandon w).sp = s.sp := by
  have hno : ¬w.trace.contains .spWritten = true := by simpa using h
  exact if_neg hno

theorem abandon_read {s w : State} {b : Addr} (h : ¬w.WroteTo b ∨ s.map.isRam b.toNat = false) :
    (s.abandon w).mem.read b.toNat = s.mem.read b.toNat :=
  Memory.read_freed _ _ _ (not_mem_ramStored h)

theorem abandonUnknown_read {s : State} {b : Addr} (h : s.map.isRam b.toNat = false) :
    s.abandonUnknown.mem.read b.toNat = s.mem.read b.toNat := by
  have hno : b.toNat ∉ s.allRam := fun hb => by
    rw [State.allRam, List.mem_filter] at hb
    exact absurd (hb.2.symm.trans h) nofun
  unfold State.abandonUnknown
  generalize s.allRam = addrs at hno
  exact Memory.read_freed _ addrs s.mem hno

/-- Settles O15: the two moments, and of the second the two answers of the abandoned step. -/
theorem resetRequest : Obligations.ResetRequest := by
  intro s
  refine ⟨fun h => ?_, fun h => ⟨fun w hw => ?_, fun r hr => ?_⟩⟩
  · exact ⟨_, stepsTo_of_settle (step_of_boundary_reset h), warmReset_resetTo ⟨rfl, rfl, rfl, rfl⟩ rfl rfl, rfl, rfl⟩
  · refine ⟨(s.begun.abandon w).warmReset, stepsTo_of_settle ?_, warmReset_resetTo ⟨rfl, rfl, rfl, rfl⟩ rfl rfl,
      fun hsp => abandon_sp hsp, fun a ha => abandon_read (s := s.begun) ha⟩
    rw [step_of_mid_reset h, abandonedReset_next hw]
  · refine ⟨s.begun.abandonUnknown.warmReset, stepsTo_of_settle ?_, warmReset_resetTo ⟨rfl, rfl, rfl, rfl⟩ rfl rfl,
      fun a ha => ?_⟩
    · rw [step_of_mid_reset h, abandonedReset_refused hr]
    · rw [warmReset_mem]
      exact abandonUnknown_read (s := s.begun) ha

end Sys2Proof.Machine
end

section
/-! PROOFS. Loads, stores, the stack and `WriteCCR` (20_memory.md, 10_state.md section 4). -/

namespace Sys2Proof.Machine

/-! ## Memory -/

theorem store_bytesSame (s : State) (a : Addr) (sz : Size) (v : BitVec sz.bits) :
    BytesSame s (s.store a sz v) a sz.bytes := fun b hb => Memory.read_store_outside _ _ a sz v b hb

/-- Settles O18. -/
theorem memoryBytes : Obligations.MemoryBytes := fun s a sz v =>
  ⟨load_reads s a sz, store_stored s a sz v, store_bytesSame s a sz v, (store_stored s a sz v).load rfl, rfl, rfl⟩

/-! ## The stack -/

theorem push_stored (s : State) (sz : Size) (v : BitVec sz.bits) :
    Stored s (s.push sz v) (s.sp - BitVec.ofNat 24 sz.bytes) sz.bytes v.toNat :=
  (store_stored (s.setSp _) _ sz v).congr rfl rfl rfl fun _ => id

/-- Settles O19: a push is a move of SP and a store, a pull a load and a move back. -/
theorem pushAndPull : Obligations.PushAndPull := fun s sz v =>
  ⟨rfl, push_stored s sz v, store_bytesSame (s.setSp _) _ sz v, load_reads s s.sp sz, rfl,
    BitVec.sub_add_cancel _ _, (push_stored s sz v).load rfl⟩

/-! ## `WriteCCR` -/

/-- A word changed under a mask, bit by bit. -/
theorem getLsbD_masked {w : Nat} (old new m : BitVec w) (k : Nat) :
    ((old &&& ~~~m) ||| (new &&& m)).getLsbD k = if m.getLsbD k then new.getLsbD k else old.getLsbD k := by
  rw [BitVec.getLsbD_or, BitVec.getLsbD_and, BitVec.getLsbD_and, BitVec.getLsbD_not]
  by_cases hk : k < w
  · cases m.getLsbD k <;> simp [hk]
  · simp [BitVec.getLsbD_of_ge _ _ (Nat.le_of_not_lt hk)]

/-- The mask of CCH, CCL or both. -/
def ccrMask (hi lo : Bool) : BitVec 16 := (if hi then 0xFF00 else 0) ||| (if lo then 0x00FF else 0)

/-- The bits that a privilege lets `WriteCCR` change; X only falls (R18, R19, R22). -/
def ccrWritable (user newX : Bool) : BitVec 16 :=
  if user then 0x000F else 0x879F ||| (if newX then 0 else 0x0040)

theorem ccrMask_getLsbD : ∀ (hi lo : Bool), ∀ k < 16, (ccrMask hi lo).getLsbD k = if k < 8 then lo else hi := by
  decide

theorem ccrWritable_getLsbD : ∀ (user newX : Bool), ∀ k < 16, (ccrWritable user newX).getLsbD k =
    match k with
    | 0 | 1 | 2 | 3 => true
    | 4 | 7 | 8 | 9 | 10 | 15 => !user
    | 6 => !user && !newX
    | _ => false := by
  decide

theorem writeMasked_word_eq (c : Ccr) (new : BitVec 16) (hi lo : Bool) :
    let m := ccrMask hi lo &&& ccrWritable c.u (new.getLsbD 6)
    (c.writeMasked new hi lo).word = (c.word &&& ~~~m) ||| (new &&& m) := by
  refine BitVec.eq_of_getLsbD_eq fun k hk => ?_
  rw [getLsbD_masked, BitVec.getLsbD_and, ccrMask_getLsbD hi lo k hk, ccrWritable_getLsbD _ _ k hk,
    Ccr.word_getLsbD, Ccr.word_getLsbD]
  simp only [Ccr.writeMasked, getElem_eq_getLsbD]
  obtain rfl | hx := eq_or_ne k 6
  · simp
    cases new[6] <;> simp
  · interval_cases k <;> simp at hx ⊢
    all_goals split <;> simp

/-- Settles O20. -/
theorem writeCcrFilter : Obligations.WriteCcrFilter := fun s new hi lo =>
  ⟨writeMasked_word_eq s.ccr new hi lo, rfl⟩

end Sys2Proof.Machine
end

section
/-! PROOFS. General operands (30_encoding.md section 3): the addresses the submodes form, and the values operands
stand for. -/

namespace Sys2Proof.Machine

/-! ## Addresses as integers -/

theorem ofInt_toNat_eq_setWidth {w : Nat} (v : BitVec w) : BitVec.ofInt 24 (v.toNat : Int) = v.setWidth 24 := by
  rw [BitVec.ofInt_natCast, BitVec.ofNat_toNat]

theorem ofInt_toNat_addr (a : Addr) : BitVec.ofInt 24 (a.toNat : Int) = a := by
  rw [ofInt_toNat_eq_setWidth, BitVec.setWidth_eq]

section
variable {s : State} {o : Opr} (n : Nat)

theorem operand_at_direct {a : Addr} (h : s.place o = .direct a) :
    s.oprLoc o n = .mem a ∧ s.oprMoved o n = s := by
  unfold State.oprLoc State.oprMoved
  rw [h]
  exact ⟨rfl, rfl⟩

theorem operand_at_indirect {p : Addr} (h : s.place o = .indirect p) :
    s.oprLoc o n = .mem (s.load p .p) ∧ s.oprMoved o n = s.loaded p .p := by
  unfold State.oprLoc State.oprMoved
  rw [h]
  exact ⟨rfl, rfl⟩

theorem operand_at_address {a : Addr} {x : Int} (h : s.place o = .direct a) (hx : BitVec.ofInt 24 x = a) :
    s.place o = .direct (BitVec.ofInt 24 x) ∧ s.oprLoc o n = .mem (BitVec.ofInt 24 x) ∧ s.oprMoved o n = s :=
  hx ▸ ⟨h, operand_at_direct n h⟩

/-- A base and an offset, each the residue of an integer. -/
theorem operand_at_sum {a b : Addr} {x y : Int} (h : s.place o = .direct (a + b)) (hx : BitVec.ofInt 24 x = a)
    (hy : BitVec.ofInt 24 y = b) :
    s.place o = .direct (BitVec.ofInt 24 (x + y)) ∧ s.oprLoc o n = .mem (BitVec.ofInt 24 (x + y)) ∧
      s.oprMoved o n = s :=
  operand_at_address n h (by rw [BitVec.ofInt_add, hx, hy])

end

/-- Settles O21: each address is a sum of residues of its base and offset. -/
theorem directSubmodes : Obligations.DirectSubmodes := by
  intro s n off base at'
  have hoff (r : DReg) : BitVec.ofInt 24 (off r) = s.idxVal r := by
    cases r with
    | d2 | d3 | d4 | d5 => rfl
    | d0 | d1 | d6 | d7 => exact ofInt_toNat_eq_setWidth _
  have hbase (b : XYSP) : BitVec.ofInt 24 (base b) = s.baseVal b := by
    cases b <;> exact ofInt_toNat_addr _
  exact ⟨fun b u => operand_at_sum n rfl (ofInt_toNat_addr _) (ofInt_toNat_eq_setWidth u),
    fun r b => operand_at_sum n rfl (ofInt_toNat_addr _) (hoff r),
    fun b o => operand_at_sum n rfl (hbase b) rfl,
    fun a => operand_at_address n rfl (ofInt_toNat_eq_setWidth a),
    fun o r => operand_at_sum n rfl (ofInt_toNat_eq_setWidth o) (hoff r),
    fun a => operand_at_address n rfl (ofInt_toNat_eq_setWidth a),
    fun b o => operand_at_sum n rfl (hbase b) (BitVec.ofInt_toInt ..),
    fun o r => operand_at_sum n rfl (ofInt_toNat_addr _) (hoff r),
    fun a => operand_at_address n rfl (ofInt_toNat_addr _)⟩

/-! ## Indirect and automatic submodes -/

/-- An indirect submode reads its pointer where its direct twin has its operand. -/
theorem indirect_of_direct {s : State} {o twin : Opr} {a : Addr} (n : Nat) (ho : s.place o = .indirect a)
    (ht : s.place twin = .direct a) : ∀ p, s.place twin = .direct p →
      s.place o = .indirect p ∧ s.oprLoc o n = .mem (s.load p .p) ∧ s.oprMoved o n = s.loaded p .p := by
  intro p hp
  obtain rfl := Place.direct.inj (ht.symm.trans hp)
  exact ⟨ho, operand_at_indirect n ho⟩

theorem operand_at_auto (s : State) (n : Nat) (m : AutoMode) {v : Addr}
    (hv : s.getXYS (autoReg m) + autoDelta m n = v) :
    s.oprLoc (.auto m) n = .mem (if autoPre m then v else s.getXYS (autoReg m)) ∧
      s.oprMoved (.auto m) n = s.setXYS (autoReg m) v :=
  hv ▸ ⟨rfl, rfl⟩

/-- Settles O22: an indirect submode against its direct twin, an automatic one by the value its register takes. -/
theorem indirectAutoSubmodes : Obligations.IndirectAutoSubmodes := by
  intro s n w thru moves
  have down (a : Addr) : a + -w = a - w := (BitVec.sub_eq_add_neg a w).symm
  exact ⟨fun r => ⟨indirect_of_direct n rfl rfl, indirect_of_direct n rfl rfl⟩,
    fun b o => indirect_of_direct n rfl rfl, fun b o => indirect_of_direct n rfl rfl,
    fun a => indirect_of_direct n rfl rfl,
    operand_at_auto s n .preDecX (down _), operand_at_auto s n .preDecY (down _),
    operand_at_auto s n .preIncX rfl, operand_at_auto s n .preIncY rfl,
    operand_at_auto s n .postDecX (down _), operand_at_auto s n .postDecY (down _),
    operand_at_auto s n .postIncX rfl, operand_at_auto s n .postIncY rfl,
    operand_at_auto s n .preDecS (down _), operand_at_auto s n .postIncS rfl, fun v => rfl⟩

/-! ## Values -/

/-- R101. -/
theorem immE4Value_toInt {w : Nat} (hw : 4 < w) (e : BitVec 4) :
    (immE4Value w e).toInt = if e.toNat = 0 then -1 else (e.toNat : Int) := by
  have hzero : e = 0 ↔ e.toNat = 0 := ⟨fun h => by rw [h]; rfl, fun h => BitVec.eq_of_toNat_eq h⟩
  unfold immE4Value
  rw [← if_congr hzero rfl rfl]
  split
  · rw [BitVec.toInt_allOnes, if_pos (by omega)]
  · have hlt : 2 * (e.setWidth w).toNat < 2 ^ w := by
      have := Nat.pow_le_pow_right (n := 2) (by decide) hw
      rw [BitVec.toNat_setWidth_of_le (by omega)]
      omega
    rw [BitVec.toInt_eq_toNat_of_lt hlt, BitVec.toNat_setWidth_of_le (by omega)]

theorem oprValue_of_loc {s : State} {o : Opr} {sz : Size} {l : Loc} (h : s.oprLoc o sz.bytes = l) :
    s.oprValue o sz = (s.oprMoved o sz.bytes).locRead l sz := h ▸ rfl

theorem oprDone_of_loc {s : State} {o : Opr} {sz : Size} {l : Loc} (h : s.oprLoc o sz.bytes = l) :
    s.oprDone o sz = (s.oprMoved o sz.bytes).locDone l sz := h ▸ rfl

theorem oprValue_reg_toNat {s : State} {o : Opr} {sz : Size} {r : DReg} (h : s.oprLoc o sz.bytes = .reg r) :
    (s.oprValue o sz).toNat = (s.getD r).toNat % 2 ^ sz.bits := by
  have hread : s.oprValue o sz = (s.oprMoved o sz.bytes).regRead r sz.bits := oprValue_of_loc h
  rw [hread, State.regRead, oprMoved_getD, BitVec.toNat_setWidth]

theorem oprValue_mem_reads {s : State} {o : Opr} {sz : Size} {ea : Addr} (h : s.oprLoc o sz.bytes = .mem ea) :
    s.Reads ea sz.bytes (s.oprValue o sz).toNat := by
  rw [oprValue_of_loc h]
  exact load_reads_of (oprMoved_mem ..) (oprMoved_map ..) ea sz

theorem oprDone_mem_noted {s : State} {o : Opr} {sz : Size} {ea : Addr} (h : s.oprLoc o sz.bytes = .mem ea) :
    .access ⟨.read, !s.ccr.u, ea, sz.bytes⟩ ∈ (s.oprDone o sz).trace := by
  rw [oprDone_of_loc h, ← oprMoved_ccr s o sz.bytes]
  exact List.mem_cons_self

/-- Reading an operand changes nothing but the trace. -/
theorem locDone_traced (s : State) (l : Loc) (sz : Size) :
    s.locDone l sz = { s with trace := (s.locDone l sz).trace } := by
  cases l <;> rfl

theorem shiftCount_mem {s : State} (n0 : Bool) {o : Opr} {ea : Addr} (h : s.oprLoc o 1 = .mem ea) :
    s.shiftCount (.count n0 o) = (s.oprValue o .b).toNat % 32 := by
  cases o with
  | immE4 e => cases h
  | _ => rfl

theorem shiftCount_reg (s : State) (n0 : Bool) (r : DReg) :
    s.shiftCount (.count n0 (.reg r)) = (s.getD r).toNat % 32 := by
  have hvalue : (s.oprValue (.reg r) .b).toNat = (s.getD r).toNat % 2 ^ 8 := oprValue_reg_toNat rfl
  have hcount : s.shiftCount (.count n0 (.reg r)) = (s.oprValue (.reg r) .b).toNat % 32 := rfl
  omega

/-- Settles O23: the three places of a general operand, then the operands built on it. -/
theorem operandValues : Obligations.OperandValues := by
  intro s
  refine ⟨fun _ _ => ⟨rfl, rfl⟩, fun _ _ => ⟨rfl, rfl⟩, fun o sz => ?_, fun o sz => locDone_traced _ _ sz,
    fun d v => ⟨BitVec.toNat_setWidth .., rfl⟩, fun _ _ => ⟨rfl, rfl⟩, fun _ => ⟨rfl, rfl⟩, fun _ => ⟨rfl, rfl⟩,
    ⟨rfl, rfl⟩, fun _ _ => rfl, shiftCount_reg s, fun n0 _ _ h => shiftCount_mem n0 h, fun _ _ => rfl,
    fun _ _ => ⟨rfl, rfl⟩, fun _ => ⟨rfl, rfl⟩⟩
  cases h : s.oprLoc o sz.bytes with
  | imm e =>
    rw [oprValue_of_loc h]
    exact immE4Value_toInt (by cases sz <;> decide) e
  | reg r => exact oprValue_reg_toNat h
  | mem ea => exact ⟨oprValue_mem_reads h, oprDone_mem_noted h⟩

end Sys2Proof.Machine
end

section
/-! PROOFS. SUB D6, CMP, INC, DEC, NEG, COM, ABS, SAT and CLB (41_arithmetic.md, 42_muldiv_fractional.md section 4). -/

namespace Sys2Proof.Machine

theorem dreg_width_pos (d : DReg) : 0 < d.bits := Nat.zero_lt_of_lt (DReg.bits_pos d)

/-! ## SUB D6 -/

/-- R204: the difference of two numbers of 24 bits fits 32 bits. -/
theorem subOp_pointers (a b : Addr) (c : Ccr) :
    let rc := subOp (a.setWidth 32) (b.setWidth 32) c
    rc.1.toInt = (a.toNat : Int) - b.toNat ∧ (rc.2.n = true ↔ a.toNat < b.toNat) ∧ (rc.2.z = true ↔ a = b) ∧
      rc.2.v = false ∧ (rc.2.c = true ↔ a.toNat < b.toNat) := by
  intro rc
  obtain ⟨⟨hr, hn, hv, hc⟩, hz⟩ : (DifferenceOf _ _ 0 rc.1 rc.2) ∧ (rc.2.z = true ↔ rc.1 = 0) :=
    subOp_difference (by decide) (a.setWidth 32) (b.setWidth 32) c
  have ha : (a.setWidth 32).toNat = a.toNat := BitVec.toNat_setWidth_of_le (by decide)
  have hb : (b.setWidth 32).toNat = b.toNat := BitVec.toNat_setWidth_of_le (by decide)
  have hai : (a.setWidth 32).toInt = a.toNat := by rw [BitVec.toInt_eq_toNat_of_lt (by omega), ha]
  have hbi : (b.setWidth 32).toInt = b.toNat := by rw [BitVec.toInt_eq_toNat_of_lt (by omega), hb]
  have hint : rc.1.toInt = (a.toNat : Int) - b.toNat := by
    rw [ha, hb] at hr
    rcases toInt_cases rc.1 with ⟨_, hri, _⟩ | ⟨_, hri, _⟩ <;> omega
  refine ⟨hint, ?_, ?_, ?_, ?_⟩
  · rw [hn, BitVec.msb_eq_toInt, decide_eq_true_iff, hint]
    omega
  · rw [hz, ← BitVec.toInt_inj, hint, ← BitVec.toNat_inj]
    simp
    omega
  · rw [hai, hbi] at hv
    refine Bool.eq_false_iff.mpr fun h => ?_
    have := hv.mp h
    unfold SignedOut at this
    omega
  · rw [hc, ha, hb, Nat.add_zero]

/-- Settles O36. -/
theorem pointerDifference : Obligations.PointerDifference := by
  intro s yMinusX a b
  refine ⟨setD_runs (.refl s) .d6 (subOp (a.setWidth 32) (b.setWidth 32) s.ccr).1
    (subOp (a.setWidth 32) (b.setWidth 32) s.ccr).2 (.subD6 yMinusX) rfl (subFlags_systemSame _ _ _ _) _
    fun t hvalue hccr hframe => ?_, by cases yMinusX <;> rfl⟩
  have hspec := subOp_pointers a b s.ccr
  have hd6 : t.d6 = (subOp (a.setWidth 32) (b.setWidth 32) s.ccr).1 := hvalue
  rw [hccr, hd6]
  obtain ⟨hint, hn, hz, hv, hc⟩ := hspec
  exact ⟨hint, hn, hz, hv, hc, hframe⟩

/-! ## CMP -/

theorem cmpFlags_runs {s p : State} (hp : Decoded s p) {w : Nat} (hw : 0 < w) (a b : BitVec w) (i : Instr)
    (hi : exec i s = State.advance { p with ccr := (subOp a b p.ccr).2 } i) :
    Runs i s fun t => CompareFlags a b t.ccr ∧ RegFrame s p t [] := by
  refine flags_runs hp _ i hi (hp.ccr ▸ subFlags_systemSame a b false p.ccr) _ fun t hccr hframe => ⟨?_, hframe⟩
  rw [hccr]
  exact subFlags_compare hw a b p.ccr

theorem cmpD_runs (s : State) (d : DReg) (m : DSrc) :
    Runs (.cmpD d m) s fun t =>
      CompareFlags (s.getD d) (s.dValue d m) t.ccr ∧ RegFrame s (s.dMoved d m) t [] := by
  refine testD_runs d m subOp _ s rfl (fun a b => subFlags_systemSame a b _ _) _ fun t hccr hframe => ⟨?_, hframe⟩
  rw [hccr]
  exact subFlags_compare (dreg_width_pos d) _ _ _

/-- Settles O37. -/
theorem compareResult : Obligations.CompareResult := fun s =>
  ⟨cmpD_runs s, fun r m => cmpFlags_runs (decoded_pMoved s m) (by decide) (s.getXY r) (s.pValue m) _ rfl,
    fun m => cmpFlags_runs (decoded_pMoved s m) (by decide) (s.pMoved m).sp (s.pValue m) _ rfl,
    cmpFlags_runs (.refl s) (by decide) s.x s.y _ rfl⟩

/-! ## One operand -/

/-- A one-register operation with what it says of its value and CCR, carried over to the instruction. -/
theorem unaryD_runs_with (d : DReg) (f : BitVec d.bits → Ccr → BitVec d.bits × Ccr) (i : Instr) (s : State)
    (hi : exec i s = unaryD d f i s) (hs : ∀ a, s.ccr.SystemSame (f a s.ccr).2)
    (post : BitVec d.bits → Ccr → Prop) (hf : post (f (s.getD d) s.ccr).1 (f (s.getD d) s.ccr).2) :
    Runs i s fun t => post (t.getD d) t.ccr ∧ RegFrame s s t [d] := by
  refine unaryD_runs d f i s hi hs _ fun t hvalue hccr hframe => ⟨?_, hframe⟩
  rw [hvalue, hccr]
  exact hf

/-- The widths of operands are more than one bit. -/
theorem one_lt_width {w : Nat} (h : w = 8 ∨ w = 16 ∨ w = 24 ∨ w = 32) : 1 < w := by omega

section
variable (o : Opr) (sz : Size) (i : Instr) (s : State)

theorem inc_runs (hi : exec i s = rmw o sz incOp i s) : RmwRuns i o sz s Incremented :=
  rmw_runs o sz incOp i s hi Incremented (fun a => incOp_systemSame a _)
    fun a hw => incOp_incremented (one_lt_width hw) a _

theorem dec_runs (hi : exec i s = rmw o sz decOp i s) : RmwRuns i o sz s Decremented :=
  rmw_runs o sz decOp i s hi Decremented (fun a => decOp_systemSame a _)
    fun a hw => decOp_decremented (one_lt_width hw) a _

theorem neg_runs (hi : exec i s = rmw o sz negOp i s) : RmwRuns i o sz s Negated :=
  rmw_runs o sz negOp i s hi Negated (fun a => subFlags_systemSame 0 a false _)
    fun a hw => negOp_negated (Nat.zero_lt_of_lt (one_lt_width hw)) a _

theorem com_runs (hi : exec i s = rmw o sz comOp i s) : RmwRuns i o sz s Complemented :=
  rmw_runs o sz comOp i s hi Complemented (fun a => nzClearV_systemSame _ (~~~a)) fun a _ => comOp_complemented a _

end

/-- Settles O38. -/
theorem incrementDecrement : Obligations.IncrementDecrement := fun s =>
  ⟨fun d => ⟨unaryD_runs_with d incOp _ s rfl (fun a => incOp_systemSame a _)
      (fun r c => Incremented (s.getD d) r s.ccr c) (incOp_incremented (DReg.bits_pos d) _ _), rfl⟩,
    fun d => ⟨unaryD_runs_with d decOp _ s rfl (fun a => decOp_systemSame a _)
      (fun r c => Decremented (s.getD d) r s.ccr c) (decOp_decremented (DReg.bits_pos d) _ _), rfl⟩,
    fun o => ⟨inc_runs o .b _ s rfl, rfl⟩, fun o => ⟨inc_runs o .w _ s rfl, rfl⟩,
    fun o => ⟨inc_runs o .l _ s rfl, rfl⟩, fun o => ⟨dec_runs o .b _ s rfl, rfl⟩,
    fun o => ⟨dec_runs o .w _ s rfl, rfl⟩, fun o => ⟨dec_runs o .l _ s rfl, rfl⟩⟩

theorem abs_runs (s : State) (d : DReg) :
    Runs (.abs d) s fun t =>
      let a := (s.getD d).toInt
      let most := a = -(2 : Int) ^ (d.bits - 1)
      (most → t.getD d = s.getD d) ∧ (¬most → (t.getD d).toInt = |a|) ∧ NZOf (t.getD d) t.ccr ∧
      (t.ccr.v = true ↔ most) ∧ t.ccr.c = s.ccr.c ∧ RegFrame s s t [d] := by
  refine unaryD_runs d absOp _ s rfl (fun a => absOp_systemSame a _) _ fun t hvalue hccr hframe => ?_
  rw [hvalue, hccr]
  obtain ⟨hmost, hother, hnz, hv, hc⟩ := absOp_absolute (dreg_width_pos d) (s.getD d) s.ccr
  exact ⟨hmost, hother, hnz, hv, hc, hframe⟩

/-- Settles O39. -/
theorem negateComplementAbsolute : Obligations.NegateComplementAbsolute := fun s =>
  ⟨fun o => ⟨neg_runs o .b _ s rfl, rfl⟩, fun o => ⟨neg_runs o .w _ s rfl, rfl⟩,
    fun o => ⟨neg_runs o .l _ s rfl, rfl⟩, fun o => ⟨com_runs o .b _ s rfl, rfl⟩,
    fun o => ⟨com_runs o .w _ s rfl, rfl⟩, fun o => ⟨com_runs o .l _ s rfl, rfl⟩,
    fun d => ⟨abs_runs s d, rfl⟩⟩

/-! ## SAT and CLB -/

theorem satOp_systemSame {w : Nat} (a : BitVec w) (c : Ccr) : c.SystemSame (satOp a c).2 :=
  nzClearV_systemSame c (satOp a c).1

theorem sat_runs (s : State) (d : DReg) :
    Runs (.sat d) s fun t =>
      (t.getD d).toInt = (if s.ccr.v then
        (if s.ccr.n then (2 : Int) ^ (d.bits - 1) - 1 else -(2 : Int) ^ (d.bits - 1))
        else (s.getD d).toInt) ∧
      LoadFlagsOf (t.getD d) s.ccr t.ccr ∧ RegFrame s s t [d] := by
  refine unaryD_runs d satOp _ s rfl (fun a => satOp_systemSame a _) _ fun t hvalue hccr hframe => ?_
  rw [hvalue, hccr]
  obtain ⟨hint, hflags⟩ := satOp_saturated (dreg_width_pos d) (s.getD d) s.ccr
  exact ⟨hint, hflags, hframe⟩

/-- A count of leading bits fits every register: at most 31, in at least 8 bits. -/
theorem countLeading_fits {src : DReg} (a : BitVec src.bits) (d : DReg) : countLeading a < 2 ^ d.bits := by
  have hlt := (countLeading_spec (dreg_width_pos src) a).1
  have hsrc : src.bits ≤ 32 := by cases src <;> decide
  have hdst : 2 ^ 8 ≤ 2 ^ d.bits := Nat.pow_le_pow_right (by decide) (by cases d <;> decide)
  omega

theorem clb_runs (s : State) (src d : DReg) :
    Runs (.clb src d) s fun t =>
      ∃ k : Nat, (t.getD d).toNat = k ∧ k < src.bits ∧
        (∀ j ≤ k, (s.getD src).getMsbD j = (s.getD src).msb) ∧
        (k + 1 < src.bits → (s.getD src).getMsbD (k + 1) ≠ (s.getD src).msb) ∧
        t.ccr.n = false ∧ (t.ccr.z = true ↔ k = 0) ∧ t.ccr.v = false ∧ t.ccr.c = s.ccr.c ∧
        RegFrame s s t [d] := by
  obtain ⟨hlt, hrun, hend⟩ := countLeading_spec (dreg_width_pos src) (s.getD src)
  refine setD_runs (.refl s) d (BitVec.ofNat d.bits (countLeading (s.getD src)))
    { s.ccr with n := false, z := decide (countLeading (s.getD src) = 0), v := false } _ rfl
    ⟨rfl, rfl, rfl, rfl, rfl⟩ _ fun t hvalue hccr hframe => ?_
  rw [hvalue, hccr]
  exact ⟨countLeading (s.getD src), Nat.mod_eq_of_lt (countLeading_fits _ d), hlt, hrun, hend, rfl,
    decide_eq_true_iff, rfl, rfl, hframe⟩

/-- Settles O44. -/
theorem saturateAndCountLeading : Obligations.SaturateAndCountLeading := fun s =>
  ⟨fun d => ⟨sat_runs s d, rfl⟩, clb_runs s⟩

end Sys2Proof.Machine
end

section
/-! PROOFS. Shifts, rotates, bits and bit fields (44_shift_rotate.md, 45_bit_bitfield.md), and the branches on a bit
(47_branch.md section 4). -/

namespace Sys2Proof.Machine

/-! ## Shifts and rotates -/

theorem shiftOpr_runs (k : ShiftKind) (f : ShiftOpr) (i : Instr) (s : State) (hi : exec i s = shiftOpr k f i s) :
    ShiftOprRuns i k f s := by
  cases f with
  | toReg d sz o n =>
    refine shiftInto_runs k d _ (Nat.zero_lt_of_lt (mbOperand_pos s o sz)) n i s _ (decoded_oprDone s o sz) ?_
    rw [← locVal_oprMoved]
    exact hi
  | inPlace sz o two =>
    exact rmw_runs o sz _ i s hi (fun a r c c' => ShiftedTo k a (if two then 2 else 1) r c c')
      (fun a => shiftOp_systemSame k _ a _ _)
      fun a hw => shiftOp_shifted k (Nat.zero_lt_of_lt (one_lt_width hw)) (Nat.zero_lt_of_lt (one_lt_width hw)) a _ _

theorem shiftReg_runs (k : ShiftKind) (d src : DReg) (n : ShiftBy) (i : Instr) (s : State)
    (hi : exec i s = shiftReg k d src n i s) : ShiftRuns i k d ⟨src.bits, s.getD src⟩ n s s :=
  shiftInto_runs k d ⟨src.bits, s.getD src⟩ (dreg_width_pos src) n i s s (.refl s) hi

/-- Settles O47. -/
theorem shiftResult : Obligations.ShiftResult := fun s =>
  ⟨fun d src n => ⟨shiftReg_runs .asl d src n _ s rfl, shiftReg_runs .asr d src n _ s rfl,
      shiftReg_runs .lsl d src n _ s rfl, shiftReg_runs .lsr d src n _ s rfl⟩,
    fun f => ⟨shiftOpr_runs .asl f _ s rfl, shiftOpr_runs .asr f _ s rfl, shiftOpr_runs .lsl f _ s rfl,
      shiftOpr_runs .lsr f _ s rfl⟩⟩

/-- Settles O48. -/
theorem rotateResult : Obligations.RotateResult := fun s sz o =>
  ⟨rmw_runs o sz rolOp _ s rfl RotatedLeft (fun a => rolOp_systemSame a _)
      fun a hw => rolOp_rotated (Nat.zero_lt_of_lt (one_lt_width hw)) a _,
    rmw_runs o sz rorOp _ s rfl RotatedRight (fun a => rorOp_systemSame a _)
      fun a hw => rorOp_rotated (Nat.zero_lt_of_lt (one_lt_width hw)) a _⟩

/-! ## Bits -/

/-- A bit operation with what it says of the bit, in the three forms of its operand (R315). -/
theorem rmwBit_runs (m : BmArg) (f : {w : Nat} → Nat → BitVec w → Ccr → BitVec w × Ccr) (g : Bool → Bool)
    (i : Instr) (s : State) (hi : exec i s = rmwBit m f i s)
    (hs : ∀ {w : Nat} (n : Nat) (a : BitVec w) (c : Ccr), c.SystemSame (f n a c).2)
    (hf : ∀ {w : Nat} (n : Nat) (a : BitVec w) (c : Ccr), BitChanged g n a (f n a c).1 c (f n a c).2) :
    BmRuns i g m s := by
  cases m with
  | reg r n =>
    exact unaryD_runs_with r (f n.toNat) i s hi (fun a => hs _ a _)
      (fun v c => BitChanged g n.toNat (s.getD r) v s.ccr c) (hf _ _ _)
  | opr sz n o => exact rmw_runs o sz.size (f n.toNat) i s hi _ (fun a => hs _ a _) fun a _ => hf _ a _
  | oprReg sz dn o =>
    exact rmw_runs o sz.size (f ((s.getD dn).toNat % 32)) i s hi _ (fun a => hs _ a _) fun a _ => hf _ a _

/-- Settles O49. -/
theorem bitModifyResult : Obligations.BitModifyResult := fun s m =>
  ⟨rmwBit_runs m bsetOp _ _ s rfl (fun _ _ c => bitFlags_systemSame c _ _) fun n a c => (bitOp_changed n a c).1,
    rmwBit_runs m bclrOp _ _ s rfl (fun _ _ c => bitFlags_systemSame c _ _) fun n a c => (bitOp_changed n a c).2.1,
    rmwBit_runs m btglOp _ _ s rfl (fun _ _ c => bitFlags_systemSame c _ _) fun n a c => (bitOp_changed n a c).2.2⟩

/-! ## Bit fields -/

theorem fieldFromOpr_runs (ins : Bool) (d : DReg) (sz : Size) (o : Opr) (p : BfParam) (i : Instr) (s : State)
    (hi : exec i s = fieldOpr ins (.fromOpr d sz o p) i s) :
    Runs i s fun t =>
      ((if ins then FieldInserted (s.mbOperand o sz).v (s.fieldWidth p) (s.fieldOffset p) (s.getD d) (t.getD d)
        else FieldExtracted (s.mbOperand o sz).v (s.fieldWidth p) (s.fieldOffset p) (t.getD d)) ∧
        LoadFlagsOf (t.getD d) s.ccr t.ccr) ∧ RegFrame s (s.oprMoved o sz.bytes) t [d] := by
  obtain ⟨t, ht, hpc, hvalue, hframe⟩ := fieldToReg_runs ins d (s.mbOperand o sz) (s.fieldWidth p) (s.fieldOffset p)
    i s _ (decoded_oprDone s o sz) (by rw [← locVal_oprMoved]; exact hi)
  exact ⟨t, ht, hpc, hvalue, hframe.of_oprDone⟩

/-- What BFEXT makes of an operand it writes: the field, whatever the operand holds (R313). -/
def extractOp {ws : Nat} (src : BitVec ws) (wdt off : Nat) {w : Nat} (_ : BitVec w) (c : Ccr) : BitVec w × Ccr :=
  (extractField src wdt off w, c.nzClearV (extractField src wdt off w))

/-- What BFINS makes of an operand it writes (R314). -/
def insertOp {ws : Nat} (src : BitVec ws) (wdt off : Nat) {w : Nat} (a : BitVec w) (c : Ccr) : BitVec w × Ccr :=
  (insertField src a wdt off, c.nzClearV (insertField src a wdt off))

theorem extractToOpr_runs (sz : Size) (o : Opr) (src : DReg) (p : BfParam) (i : Instr) (s : State)
    (hi : exec i s = fieldOpr false (.toOpr sz o src p) i s) :
    RmwRuns i o sz s fun _ r c c' =>
      FieldExtracted (s.getD src) (s.fieldWidth p) (s.fieldOffset p) r ∧ LoadFlagsOf r c c' :=
  modify_runs false o sz (extractOp (s.getD src) (s.fieldWidth p) (s.fieldOffset p)) i s hi _ (fun _ => nzClearV_systemSame _ _)
    fun _ _ => ⟨extractField_extracted _ _ _ _, nzClearV_loadFlags _ _⟩

theorem insertToOpr_runs (sz : Size) (o : Opr) (src : DReg) (p : BfParam) (i : Instr) (s : State)
    (hi : exec i s = fieldOpr true (.toOpr sz o src p) i s) :
    RmwRuns i o sz s fun a r c c' =>
      FieldInserted (s.getD src) (s.fieldWidth p) (s.fieldOffset p) a r ∧ LoadFlagsOf r c c' :=
  modify_runs true o sz (insertOp (s.getD src) (s.fieldWidth p) (s.fieldOffset p)) i s hi _ (fun _ => nzClearV_systemSame _ _)
    fun _ _ => ⟨insertField_inserted _ _ _ _, nzClearV_loadFlags _ _⟩

/-- Settles O50. -/
theorem bitFieldResult : Obligations.BitFieldResult := fun s =>
  ⟨fun d src _ => ⟨fieldToReg_runs false d ⟨src.bits, s.getD src⟩ _ _ _ s s (.refl s) rfl,
      fieldToReg_runs true d ⟨src.bits, s.getD src⟩ _ _ _ s s (.refl s) rfl⟩,
    fun d sz o p => ⟨fieldFromOpr_runs false d sz o p _ s rfl, fieldFromOpr_runs true d sz o p _ s rfl⟩,
    fun src sz o p => ⟨extractToOpr_runs sz o src p _ s rfl, insertToOpr_runs sz o src p _ s rfl⟩⟩

/-! ## Branches on a bit -/

theorem bmVal_eq_bmTested (s : State) (m : BmArg) : s.bmVal m = bmTested s m := by
  cases m with
  | reg r n => rfl
  | opr sz n o => exact locVal_oprMoved s o sz.size
  | oprReg sz dn o => exact locVal_oprMoved s o sz.size

theorem bitNumber_eq_bmNumber (s : State) (m : BmArg) : s.bitNumber m = bmNumber s m := by cases m <;> rfl

theorem bmMoved_eq_bmDone (s : State) (m : BmArg) : s.bmMoved m = bmDone s m := by cases m <;> rfl

theorem bitBranch_gives (want : Bool) (m : BmArg) (rel : Rel) (i : Instr) (s : State)
    (hi : exec i s = bitBranch want m rel i s) :
    let b := (bmTested s m).v.getLsbD (bmNumber s m)
    Gives i s fun t => LoopsTo (b = want) i rel s t ∧ t.ccr = { s.ccr with c := b } ∧
      RegFrame s (bmDone s m) t [] := by
  intro b
  have hd := decoded_bmMoved s m
  have hb : bitOf (s.bmVal m).v (s.bitNumber m) = b := by rw [bmVal_eq_bmTested, bitNumber_eq_bmNumber]; rfl
  simp only [bitBranch, hb, hd.ccr] at hi
  obtain ⟨v, hv, hloop⟩ := branchIf_loops (b == want) (b = want) beq_iff_eq rel i s
    { s.bmMoved m with ccr := { s.ccr with c := b } } hd.pc
  refine ⟨_, hi.trans hv, hloop _ rfl, rfl, ?_⟩
  rw [← bmMoved_eq_bmDone]
  exact frame_flags hd { s.ccr with c := b } v ⟨rfl, rfl, rfl, rfl, rfl⟩

/-- Settles O54. -/
theorem bitBranchResult : Obligations.BitBranchResult := fun s m rel =>
  ⟨bitBranch_gives false m rel _ s rfl, bitBranch_gives true m rel _ s rfl, rfl, rfl⟩

end Sys2Proof.Machine
end

section
/-! PROOFS. LD, ST, MOV and CLR (40_data_movement.md sections 2 to 4 and 7). -/

namespace Sys2Proof.Machine

theorem Runs.mono {i : Instr} {s : State} {post post' : State → Prop} (h : Runs i s post)
    (himp : ∀ t, post t → post' t) : Runs i s post' := by
  obtain ⟨t, ht, hpc, hpost⟩ := h
  exact ⟨t, ht, hpc, himp t hpost⟩

/-! ## LD -/

section
variable {s p : State} (hp : Decoded s p) (i : Instr)
include hp

theorem loadD_runs (d : DReg) (v : BitVec d.bits)
    (hi : exec i s = State.advance { p.setD d v with ccr := p.ccr.nzClearV v } i) :
    Runs i s fun t => t.getD d = v ∧ LoadFlagsOf v s.ccr t.ccr ∧ RegFrame s p t [d] := by
  refine setD_runs hp d v _ i hi (hp.ccr ▸ nzClearV_systemSame _ v) _ fun t hvalue hccr hframe => ⟨hvalue, ?_, hframe⟩
  rw [hccr, hp.ccr]
  exact nzClearV_loadFlags _ v

theorem loadIndex_runs (v : Addr) (hi : exec i s = State.advance { p with ccr := p.ccr.nzClearV v } i) :
    Runs i s fun t => LoadFlagsOf v s.ccr t.ccr ∧ RegFrame s p t [] := by
  refine flags_runs hp _ i hi (hp.ccr ▸ nzClearV_systemSame _ v) _ fun t hccr hframe => ⟨?_, hframe⟩
  rw [hccr, hp.ccr]
  exact nzClearV_loadFlags _ v

end

/-- A frame that names a state with one of X and Y written sees X, Y and SP of that state. -/
theorem Frame.setXY_congr {s p q t : State} {ds : List DReg} {a : Addr} {n : Nat} {r : XY} {v : Addr}
    (h : Frame s (p.setXY r v) t ds a n) (hx : q.x = p.x) (hy : q.y = p.y) (hsp : q.sp = p.sp) :
    Frame s (q.setXY r v) t ds a n := by
  cases r with
  | x => exact h.index_congr rfl hy hsp
  | y => exact h.index_congr hx rfl hsp

theorem loadXY_runs {s p : State} (hp : Decoded s p) (i : Instr) (r : XY) (v : Addr)
    (hi : exec i s = State.advance { p.setXY r v with ccr := p.ccr.nzClearV v } i) :
    Runs i s fun t => LoadFlagsOf v s.ccr t.ccr ∧ RegFrame s (p.setXY r v) t [] :=
  loadIndex_runs (hp.setXY r v) i v (by rw [hi, setXY_ccr])

/-- Settles O24. -/
theorem loadResult : Obligations.LoadResult := by
  intro s toD toXY toS
  refine ⟨fun d v => ⟨?dImm, rfl⟩, fun d a => ⟨?dExt, rfl⟩, fun d o => ⟨?dOpr, rfl⟩, fun r v => ⟨?xyImm, rfl⟩,
    fun r v => ⟨?xyImm18, rfl⟩, fun r a => ⟨?xyExt, rfl⟩, fun r o => ⟨?xyOpr, rfl⟩, fun v => ⟨?sImm, rfl⟩,
    fun o => ⟨?sOpr, rfl⟩⟩
  case dImm => exact loadD_runs (.refl s) _ d _ rfl
  case dExt =>
    exact (loadD_runs (decoded_loaded s a d.size) _ d _ rfl).mono
      fun t ⟨hvalue, hflags, hframe⟩ => ⟨hvalue, hflags, hframe.index_congr rfl rfl rfl⟩
  case dOpr =>
    exact (loadD_runs (decoded_oprDone s o d.size) _ d _ rfl).mono
      fun t ⟨hvalue, hflags, hframe⟩ => ⟨hvalue, hflags, hframe.of_oprDone⟩
  case xyImm => exact loadXY_runs (.refl s) _ r v rfl
  case xyImm18 => exact loadXY_runs (.refl s) _ r _ rfl
  case xyExt =>
    exact (loadXY_runs (decoded_loaded s a .p) _ r _ rfl).mono
      fun t ⟨hflags, hframe⟩ => ⟨hflags, hframe.setXY_congr rfl rfl rfl⟩
  case xyOpr =>
    exact (loadXY_runs (decoded_oprDone s o .p) _ r _ rfl).mono fun t ⟨hflags, hframe⟩ =>
      ⟨hflags, hframe.setXY_congr (oprDone_x s o .p).symm (oprDone_y s o .p).symm (oprDone_sp s o .p).symm⟩
  case sImm =>
    exact (loadIndex_runs ((Decoded.refl s).setSp v) _ v rfl).mono
      fun t ⟨hflags, hframe⟩ => ⟨hflags, hframe.index_congr rfl rfl rfl⟩
  case sOpr =>
    exact (loadIndex_runs ((decoded_oprDone s o .p).setSp _) _ (s.oprValue o .p) rfl).mono fun t ⟨hflags, hframe⟩ =>
      ⟨hflags, hframe.index_congr (oprDone_x s o .p).symm (oprDone_y s o .p).symm rfl⟩

/-! ## Stores to an operand -/

/-- A write of an operand leaves the CCR that the end of the instruction starts from. -/
theorem locWrite_ccr (p : State) (l : Loc) (sz : Size) (v : BitVec sz.bits) (g : Ccr → Ccr) (i : Instr) :
    (p.locWrite l sz v fun t => State.advance { t with ccr := g t.ccr } i) =
      p.locWrite l sz v fun t => State.advance { t with ccr := g p.ccr } i := by
  cases l with
  | imm e => rfl
  | reg r => simp only [State.locWrite, State.regWrite, setD_ccr]
  | mem ea => rfl

/-- A value written to a general operand, with the CCR that `g` makes. -/
theorem oprWrite_storesTo {s p : State} (hp : Decoded s p) (o : Opr) (sz : Size) (v : BitVec sz.bits) (g : Ccr → Ccr)
    (i : Instr) (flags : Ccr → Ccr → Prop)
    (hi : exec i s = (p.oprMoved o sz.bytes).locWrite (p.oprLoc o sz.bytes) sz v
      fun t => State.advance { t with ccr := g t.ccr } i)
    (hflags : flags s.ccr (g s.ccr)) (hs : s.ccr.SystemSame (g s.ccr)) :
    StoresTo i s (p.oprMoved o sz.bytes) (p.oprLoc o sz.bytes) sz v flags := by
  rw [locWrite_ccr, oprMoved_ccr, hp.ccr] at hi
  exact locWrite_storesTo (hp.trans (decoded_oprMoved p o sz.bytes)) i _ sz v flags _ hi hflags hs

/-! ## ST -/

section
variable (s : State) (sz : Size) (v : BitVec sz.bits) (i : Instr)

theorem storeExt_storesTo (a : Addr) (hi : exec i s = storeTo (.ext a) sz v i s) :
    StoresTo i s s (.mem a) sz v (LoadFlagsOf v) :=
  locWrite_storesTo (.refl s) i (.mem a) sz v _ _ hi (nzClearV_loadFlags s.ccr v) (nzClearV_systemSame s.ccr v)

theorem storeOpr_storesTo (o : Opr) (hi : exec i s = storeTo (.opr o) sz v i s) :
    StoresTo i s (s.oprMoved o sz.bytes) (s.oprLoc o sz.bytes) sz v (LoadFlagsOf v) :=
  oprWrite_storesTo (.refl s) o sz v (·.nzClearV v) i _ hi (nzClearV_loadFlags s.ccr v) (nzClearV_systemSame s.ccr v)

end

/-- Settles O25. -/
theorem storeResult : Obligations.StoreResult := fun s =>
  ⟨fun d a => ⟨storeExt_storesTo s d.size _ _ a rfl, rfl⟩, fun d o => ⟨storeOpr_storesTo s d.size _ _ o rfl, rfl⟩,
    fun _ a => ⟨storeExt_storesTo s .p _ _ a rfl, rfl⟩, fun _ o => ⟨storeOpr_storesTo s .p _ _ o rfl, rfl⟩,
    fun o => ⟨storeOpr_storesTo s .p _ _ o rfl, rfl⟩⟩

/-! ## CLR -/

theorem cleared_clearedFlags (c : Ccr) : ClearedFlags c c.cleared := ⟨rfl, rfl, rfl, rfl⟩

theorem clear_storesTo (s : State) (o : Opr) (sz : Size) (i : Instr) (hi : exec i s = clear o sz i s) :
    StoresTo i s (s.oprMoved o sz.bytes) (s.oprLoc o sz.bytes) sz 0 ClearedFlags :=
  oprWrite_storesTo (.refl s) o sz 0 Ccr.cleared i _ hi (cleared_clearedFlags _) (cleared_systemSame _)

theorem clrD_runs (s : State) (d : DReg) :
    Runs (.clrD d) s fun t => t.getD d = 0 ∧ ClearedFlags s.ccr t.ccr ∧ RegFrame s s t [d] :=
  setD_runs (.refl s) d 0 s.ccr.cleared _ rfl (cleared_systemSame _) _
    fun _ hvalue hccr hframe => ⟨hvalue, hccr ▸ cleared_clearedFlags _, hframe⟩

theorem clrXY_runs (s : State) (r : XY) :
    Runs (.clrXY r) s fun t => ClearedFlags s.ccr t.ccr ∧ RegFrame s (s.setXY r 0) t [] :=
  flags_runs ((Decoded.refl s).setXY r 0) s.ccr.cleared _ rfl (cleared_systemSame _) _
    fun _ hccr hframe => ⟨hccr ▸ cleared_clearedFlags _, hframe⟩

/-- Settles O31. -/
theorem clearResult : Obligations.ClearResult := fun s =>
  ⟨fun o => ⟨clear_storesTo s o .b _ rfl, rfl⟩, fun o => ⟨clear_storesTo s o .w _ rfl, rfl⟩,
    fun o => ⟨clear_storesTo s o .p _ rfl, rfl⟩, fun o => ⟨clear_storesTo s o .l _ rfl, rfl⟩,
    fun d => ⟨clrD_runs s d, rfl⟩, fun r => ⟨clrXY_runs s r, rfl⟩⟩

/-! ## MOV -/

theorem exec_movInstr (sz : Size) (src : MovSrc) (dst : Opr) (s : State) :
    exec (movInstr sz src dst) s = move sz src dst (movInstr sz src dst) s := by cases sz <;> rfl

theorem eq_reg_of_oprLoc {s : State} {o : Opr} {n : Nat} {r : DReg} (h : s.oprLoc o n = .reg r) : o = .reg r := by
  cases o <;> cases h
  rfl

/-- But for a short immediate into a register, a move is a write of its value (R167). -/
theorem moveTo_eq_locWrite (sz : Size) (src : MovSrc) (v : BitVec sz.bits) (dst : Opr) (i : Instr) (s : State)
    (h : ∀ e r, ¬(src = .opr (.immE4 e) ∧ dst = .reg r)) :
    moveTo sz src v dst i s =
      (s.oprMoved dst sz.bytes).locWrite (s.oprLoc dst sz.bytes) sz v fun t => t.advance i := by
  unfold moveTo
  split
  · next e r hloc => exact absurd ⟨rfl, eq_reg_of_oprLoc hloc⟩ (h e r)
  · rfl

theorem moveTo_storesTo {s p : State} (hp : Decoded s p) (sz : Size) (src : MovSrc) (v : BitVec sz.bits) (dst : Opr)
    (i : Instr) (hi : exec i s = moveTo sz src v dst i p) (h : ∀ e r, ¬(src = .opr (.immE4 e) ∧ dst = .reg r)) :
    StoresTo i s (p.oprMoved dst sz.bytes) (p.oprLoc dst sz.bytes) sz v Ccr.FlagsSame := by
  rw [moveTo_eq_locWrite sz src v dst i p h] at hi
  exact oprWrite_storesTo hp dst sz v id i _ hi (.refl s.ccr) (.refl s.ccr)

/-- Settles O26. -/
theorem moveResult : Obligations.MoveResult := by
  intro s sz dst stores
  refine ⟨fun v => ?imm, fun o ho => ?opr, fun e r hdst => ?immE4⟩
  case imm => exact moveTo_storesTo (.refl s) sz (.imm v) _ dst _ (exec_movInstr sz _ dst s) fun e r h => nomatch h.1
  case opr =>
    exact moveTo_storesTo (decoded_oprDone s o sz) sz (.opr o) _ dst _ (exec_movInstr sz _ dst s)
      fun e r ⟨hsrc, hdst⟩ => ho e r ⟨MovSrc.opr.inj hsrc, hdst⟩
  case immE4 =>
    subst hdst
    refine setD_runs (.refl s) r (immE4Value r.bits e) s.ccr _ ?_ (.refl s.ccr) _ fun t hvalue hccr hframe =>
      ⟨?_, hccr ▸ .refl s.ccr, hframe⟩
    · exact (exec_movInstr sz _ _ s).trans (by rw [← setD_ccr s r (immE4Value r.bits e)]; rfl)
    · rw [hvalue]
      exact immE4Value_toInt (by cases r <;> decide) e

end Sys2Proof.Machine
end

section
/-! PROOFS. LEA, TFR and EXG (40_data_movement.md sections 6 and 8). -/

namespace Sys2Proof.Machine

/-! ## What LEA writes -/

theorem lea_runs {s p : State} (hp : Decoded s p) (r : LeaDst) (a : Addr) (i : Instr)
    (hi : exec i s = (p.setLea r a).advance i) :
    Runs i s fun t => LeaWritten s p t r a ∧ t.ccr = s.ccr := by
  have hs : s.ccr.SystemSame p.ccr := hp.ccr ▸ .refl s.ccr
  have hwide : (a.setWidth 32).toNat = a.toNat := BitVec.toNat_setWidth_of_le (by decide)
  cases r with
  | d6 =>
    exact setD_runs hp .d6 (a.setWidth 32) p.ccr i hi hs _ fun t hvalue hccr hframe =>
      ⟨⟨(congrArg BitVec.toNat hvalue).trans hwide, hframe⟩, hccr.trans hp.ccr⟩
  | d7 =>
    exact setD_runs hp .d7 (a.setWidth 32) p.ccr i hi hs _ fun t hvalue hccr hframe =>
      ⟨⟨(congrArg BitVec.toNat hvalue).trans hwide, hframe⟩, hccr.trans hp.ccr⟩
  | x => exact flags_runs (hp.setXY .x a) p.ccr i hi hs _ fun t hccr hframe => ⟨hframe, hccr.trans hp.ccr⟩
  | y => exact flags_runs (hp.setXY .y a) p.ccr i hi hs _ fun t hccr hframe => ⟨hframe, hccr.trans hp.ccr⟩
  | s =>
    exact flags_runs (hp.setSp a) p.ccr i hi hs _ fun t hccr hframe =>
      ⟨hframe.index_congr rfl rfl rfl, hccr.trans hp.ccr⟩

/-- What LEA has written sees X, Y and SP of the state it names. -/
theorem LeaWritten.index_congr {s p q t : State} {r : LeaDst} {a : Addr} (h : LeaWritten s p t r a) (hx : q.x = p.x)
    (hy : q.y = p.y) (hsp : q.sp = p.sp) : LeaWritten s q t r a := by
  cases r with
  | d6 => exact ⟨h.1, h.2.index_congr hx hy hsp⟩
  | d7 => exact ⟨h.1, h.2.index_congr hx hy hsp⟩
  | x => exact Frame.index_congr h rfl hy hsp
  | y => exact Frame.index_congr h hx rfl hsp
  | s => exact Frame.index_congr h hx hy rfl

/-! ## Where LEA finds its address -/

/-- A direct or indirect submode gives the address it forms and moves nothing (R119, R170). -/
theorem lea_address {s : State} {o : Opr} {ea : Addr} (h : s.place o = .direct ea ∨ s.place o = .indirect ea)
    (r : LeaDst) : s.leaMoved o r = s ∧ s.leaAddr o = ea := by
  have haddr : s.leaAddr o = ea := by
    unfold State.leaAddr
    rcases h with h | h <;> rw [h]
  cases o with
  | immE4 e => rcases h with h | h <;> cases h
  | reg d => rcases h with h | h <;> cases h
  | auto m => rcases h with h | h <;> cases h
  | _ => exact ⟨rfl, haddr⟩

theorem leaIndex_eq_leaSame (r : LeaDst) (m : AutoMode) : (leaIndex r == some (autoReg m)) = leaSame r m := by
  cases r <;> cases m <;> rfl

theorem leaMoved_auto (s : State) (m : AutoMode) (r : LeaDst) :
    s.leaMoved (.auto m) r = if !autoPre m && leaSame r m then s else s.oprMoved (.auto m) addrOnlyStep := by
  rw [← leaIndex_eq_leaSame]
  rfl

theorem decoded_leaMoved (s : State) (o : Opr) (r : LeaDst) : Decoded s (s.leaMoved o r) := by
  cases o with
  | immE4 e => exact (Decoded.refl s).drew
  | reg d => exact (Decoded.refl s).drew
  | auto m =>
    rw [leaMoved_auto]
    split
    · exact .refl s
    · exact decoded_oprMoved s _ _
  | _ => exact .refl s

theorem exec_lea (s : State) (r : LeaDst) (o : Opr) :
    Runs (.lea r o) s fun t => LeaWritten s (s.leaMoved o r) t r (s.leaAddr o) ∧ t.ccr = s.ccr :=
  lea_runs (decoded_leaMoved s o r) r _ _ rfl

theorem lea_auto_runs (s : State) (r : LeaDst) (m : AutoMode) :
    Runs (.lea r (.auto m)) s fun t => t.ccr = s.ccr ∧
      if autoPre m then
        ∃ ea, s.oprLoc (.auto m) addrOnlyStep = .mem ea ∧ LeaWritten s (s.oprMoved (.auto m) addrOnlyStep) t r ea
      else
        LeaWritten s (if leaSame r m then s else s.oprMoved (.auto m) addrOnlyStep) t r (s.getXYS (autoReg m)) := by
  refine (exec_lea s r (.auto m)).mono fun t ⟨hwritten, hccr⟩ => ⟨hccr, ?_⟩
  have haddr : s.leaAddr (.auto m) =
    if autoPre m then s.getXYS (autoReg m) + autoDelta m addrOnlyStep else s.getXYS (autoReg m) := rfl
  rw [leaMoved_auto] at hwritten
  cases hpre : autoPre m with
  | true =>
    rw [hpre] at hwritten
    exact ⟨_, rfl, hwritten⟩
  | false =>
    rw [haddr, hpre] at hwritten
    exact hwritten

theorem addrOnlyStep_bounds : 1 ≤ addrOnlyStep ∧ addrOnlyStep ≤ 4 :=
  ⟨Nat.succ_pos _, Nat.succ_le_of_lt Config.addrOnlyStep.isLt⟩

theorem leaImm_runs (s : State) (b : XYS) (i : BitVec 8) :
    Runs (.leaImm b i) s fun t => t.ccr = s.ccr ∧
      RegFrame s (s.setXYS b (BitVec.ofInt 24 ((s.getXYS b).toNat + i.toInt))) t [] := by
  have hsum : BitVec.ofInt 24 ((s.getXYS b).toNat + i.toInt) = s.getXYS b + i.signExtend 24 := by
    rw [BitVec.ofInt_add, ofInt_toNat_addr]
    rfl
  have hd := (Decoded.refl s).setXYS b (s.getXYS b + i.signExtend 24)
  rw [hsum]
  exact flags_runs hd _ _ rfl (hd.ccr ▸ .refl s.ccr) _ fun t hccr hframe => ⟨hccr.trans hd.ccr, hframe⟩

/-- Settles O30: the amount of the automatic submodes is the configuration's. -/
theorem leaResult : Obligations.LeaResult := by
  refine ⟨addrOnlyStep, addrOnlyStep_bounds.1, addrOnlyStep_bounds.2, fun s r => ⟨fun o ea h => ?_, lea_auto_runs s r,
    fun e => ?_, fun d => ?_, leaImm_runs s⟩⟩
  · obtain ⟨hmoved, haddr⟩ := lea_address h r
    have hruns := exec_lea s r o
    rwa [hmoved, haddr] at hruns
  · exact (exec_lea s r (.immE4 e)).mono fun t ⟨hwritten, hccr⟩ => ⟨hccr, _, hwritten.index_congr rfl rfl rfl⟩
  · exact (exec_lea s r (.reg d)).mono fun t ⟨hwritten, hccr⟩ => ⟨hccr, _, hwritten.index_congr rfl rfl rfl⟩

/-! ## Transfers -/

/-- What a transfer or an exchange leaves where the codes make it do nothing: the CCR and all else (D21). -/
def UnchangedBut (s t : State) : Prop := t.ccr = s.ccr ∧ CcrOnly s t

theorem unchanged_runs {s : State} (i : Instr) (hi : exec i s = s.advance i) : Runs i s (UnchangedBut s) :=
  advance_runs i s hi

section
variable {s : State} {dst : CpuReg} (hd : dst.reserved = false) (i : Instr)
include hd

theorem written_runs {v : Nat} {w : BitVec dst.bits} (hw : w.toNat = v % 2 ^ dst.bits)
    (hi : exec i s = (s.cpuWrite dst w).advance i) : Runs i s fun t => CpuWritten s t dst v := by
  refine ⟨_, hi, ?_, cpuWrite_written s dst hd v w hw _ (s.cpuWrite dst w).freeCount⟩
  rw [pcNext_pc, cpuWrite_pc]
  rfl

theorem cpuWrite_drew (s : State) (w : BitVec dst.bits) :
    s.drew.cpuWrite dst w = { s.cpuWrite dst w with freeCount := s.freeCount + 1 } := by
  cases dst with
  | d r => cases r <;> rfl
  | resB => cases hd
  | resF => cases hd
  | _ => rfl

theorem drawn_runs {w : BitVec dst.bits} (hi : exec i s = (s.drew.cpuWrite dst w).advance i) :
    Runs i s fun t => ∃ v, CpuWritten s t dst v := by
  rw [cpuWrite_drew hd] at hi
  refine ⟨_, hi, ?_, w.toNat, cpuWrite_written s dst hd w.toNat w (Nat.mod_eq_of_lt w.isLt).symm _ (s.freeCount + 1)⟩
  rw [pcNext_pc]
  exact congrArg (· + _) (cpuWrite_pc s dst w)

end

/-- Codes of which one is reserved (R176, R177, U4). -/
theorem reservedPair_runs {s : State} {dst : CpuReg} (i : Instr) (hi : exec i s = (s.reservedPair dst).advance i) :
    Runs i s fun t =>
      if dst.reserved = true then UnchangedBut s t else ∃ v, CpuWritten s t dst v := by
  unfold State.reservedPair at hi
  cases hd : dst.reserved with
  | true =>
    rw [hd] at hi
    exact unchanged_runs i hi
  | false =>
    rw [hd] at hi
    exact drawn_runs hd i hi

/-- TFR and EXG alike: equal codes, then reserved ones, then what `q` does (R176, R177). -/
theorem codes_runs {s q : State} {src dst : CpuReg} (i : Instr) (post : State → Prop)
    (hi : exec i s = (if src = dst then s
      else if src.reserved || dst.reserved then s.reservedPair dst else q).advance i)
    (hq : src.reserved = false → dst.reserved = false → exec i s = q.advance i → Runs i s post) :
    Runs i s fun t =>
      if src = dst ∨ dst.reserved = true then UnchangedBut s t
      else if src.reserved then ∃ v, CpuWritten s t dst v
      else post t := by
  by_cases heq : src = dst
  · rw [if_pos heq] at hi
    simp only [heq, true_or, if_true]
    exact unchanged_runs i hi
  rw [if_neg heq] at hi
  by_cases hr : (src.reserved || dst.reserved) = true
  · rw [if_pos hr] at hi
    refine (reservedPair_runs i hi).mono fun t ht => ?_
    cases hd : dst.reserved with
    | true => simpa [hd] using ht
    | false =>
      have hsrc : src.reserved = true := by simpa [hd] using hr
      simpa [hd, heq, hsrc] using ht
  · obtain ⟨hsrc, hd⟩ : src.reserved = false ∧ dst.reserved = false := by simpa using hr
    rw [if_neg hr] at hi
    exact (hq hsrc hd hi).mono fun t ht => by simpa [hd, heq, hsrc] using ht

theorem transfer_runs (s : State) (src dst : CpuReg) (i : Instr) (hi : exec i s = (s.transfer src dst).advance i) :
    Runs i s fun t =>
      if src = dst ∨ dst.reserved = true then UnchangedBut s t
      else if src.reserved then ∃ v, CpuWritten s t dst v
      else CpuWritten s t dst (s.cpuNat src) :=
  codes_runs i _ hi fun _ hd hq =>
    written_runs hd i (by rw [BitVec.toNat_setWidth, cpuRead_toNat]) hq

/-- Settles O32. -/
theorem transferResult : Obligations.TransferResult := fun s src dst =>
  ⟨transfer_runs s src dst _ rfl, transfer_runs s src dst _ rfl, rfl⟩

/-! ## Exchanges -/

/-- The halves of the CCR exchanged, as a number (R177). -/
theorem ccrHalves_toNat (w : BitVec 16) :
    (w.extractLsb' 0 8 ++ w.extractLsb' 8 8 : BitVec 16).toNat = w.toNat % 256 * 256 + w.toNat / 256 := by
  have hlt := w.isLt
  rw [BitVec.toNat_append, ← Nat.shiftLeft_add_eq_or_of_lt (BitVec.isLt _), BitVec.extractLsb'_toNat,
    BitVec.extractLsb'_toNat, Nat.shiftLeft_eq, Nat.shiftRight_eq_div_pow, Nat.shiftRight_eq_div_pow]
  omega

theorem CpuReg.bits_pos {c : CpuReg} (h : c.reserved = false) : 0 < c.bits := by
  cases c with
  | d r => exact dreg_width_pos r
  | resB | resF => cases h
  | _ => decide

theorem sext_runs {s : State} {src dst : CpuReg} (hs : src.reserved = false) (hd : dst.reserved = false)
    (h : src.bits < dst.bits) (i : Instr)
    (hi : exec i s = (s.cpuWrite dst ((s.cpuRead src).signExtend dst.bits)).advance i) :
    Runs i s fun t => CpuWritten s t dst (sextNat src.bits dst.bits (s.cpuNat src)) :=
  written_runs hd i (by rw [toNat_signExtend_sext (CpuReg.bits_pos hs) _ _ h.le, cpuRead_toNat]) hi

/-- Both registers of an exchange written, the first with truncation, the second with sign extension (R177). -/
theorem swap_runs {s : State} {src dst : CpuReg} (hs : src.reserved = false) (hd : dst.reserved = false)
    (h : dst.bits ≤ src.bits) (i : Instr)
    (hi : exec i s = ((s.cpuWrite dst ((s.cpuRead src).setWidth dst.bits)).cpuWrite src
      ((s.cpuRead dst).signExtend src.bits)).advance i) :
    Runs i s fun t => ∃ u, CpuWritten s u dst (s.cpuNat src) ∧
      CpuWritten u t src (sextNat dst.bits src.bits (s.cpuNat dst)) := by
  refine ⟨_, hi, ?_, s.cpuWrite dst ((s.cpuRead src).setWidth dst.bits), ?_, ?_⟩
  · rw [pcNext_pc, cpuWrite_pc, cpuWrite_pc]
    rfl
  · exact cpuWrite_written s dst hd _ _ (by rw [BitVec.toNat_setWidth, cpuRead_toNat]) _ _
  · exact cpuWrite_written _ src hs _ _
      (by rw [toNat_signExtend_sext (CpuReg.bits_pos hd) _ _ h, cpuRead_toNat]) _ _

theorem halves_runs (s : State) (i : Instr)
    (hi : exec i s = (s.writeCcr (s.ccr.word.extractLsb' 0 8 ++ s.ccr.word.extractLsb' 8 8 : BitVec 16)
      true true).advance i) :
    Runs i s fun t =>
      CpuWritten s t .ccw (s.ccr.word.toNat % 256 * 256 + s.ccr.word.toNat / 256) :=
  written_runs (dst := .ccw) rfl i (by
    have hlt := s.ccr.word.isLt
    rw [ccrHalves_toNat]
    exact (Nat.mod_eq_of_lt (show _ < 2 ^ 16 by omega)).symm) hi

/-- The pairs of the CCR's parts that R177 names, from those it treats by their widths. -/
theorem exchange_runs (s : State) (src dst : CpuReg) (i : Instr) (hi : exec i s = (s.exchange src dst).advance i) :
    Runs i s fun t =>
      if src = dst ∨ dst.reserved = true then UnchangedBut s t
      else if src.reserved then ∃ v, CpuWritten s t dst v
      else if src = .ccw ∧ (dst = .cch ∨ dst = .ccl) then UnchangedBut s t
      else if (src = .cch ∧ dst = .ccl) ∨ (src = .ccl ∧ dst = .cch) then
        CpuWritten s t .ccw (s.ccr.word.toNat % 256 * 256 + s.ccr.word.toNat / 256)
      else if src.bits < dst.bits then CpuWritten s t dst (sextNat src.bits dst.bits (s.cpuNat src))
      else ∃ u, CpuWritten s u dst (s.cpuNat src) ∧
        CpuWritten u t src (sextNat dst.bits src.bits (s.cpuNat dst)) := by
  refine codes_runs i _ hi fun hs hd hq => ?_
  split at hq
  · exact unchanged_runs i hq
  · exact unchanged_runs i hq
  · exact halves_runs s i hq
  · exact halves_runs s i hq
  · next h1 h2 h3 h4 =>
    have hhalf : ¬(src = .ccw ∧ (dst = .cch ∨ dst = .ccl)) := fun ⟨hsrc, hdst⟩ => hdst.elim (h1 hsrc) (h2 hsrc)
    have hboth : ¬((src = .cch ∧ dst = .ccl) ∨ (src = .ccl ∧ dst = .cch)) :=
      fun h => h.elim (fun ⟨hsrc, hdst⟩ => h3 hsrc hdst) fun ⟨hsrc, hdst⟩ => h4 hsrc hdst
    simp only [if_neg hhalf, if_neg hboth]
    by_cases hw : src.bits < dst.bits
    · simp only [if_pos hw] at hq ⊢
      exact sext_runs hs hd hw i hq
    · simp only [if_neg hw] at hq ⊢
      exact swap_runs hs hd (Nat.le_of_not_lt hw) i hq

/-- Settles O33. -/
theorem exchangeResult : Obligations.ExchangeResult := fun s src dst =>
  ⟨exchange_runs s src dst _ rfl, exchange_runs s src dst _ rfl, rfl⟩

end Sys2Proof.Machine
end

section
/-! PROOFS. PSH, PUL, and one after the other (40_data_movement.md section 5). -/

namespace Sys2Proof.Machine

/-! ## The lists -/

/-- The CCR's bytes where a list names them: before every other register (R168). -/
def ccrPart (hi lo : Bool) : List StackReg := (if hi then [.cch] else []) ++ (if lo then [.ccl] else [])

/-- What PSH and PUL ask of a list: short, no register twice, the CCR's bytes first. -/
structure StackListed (l : List StackReg) (hi lo : Bool) (rest : List StackReg) : Prop where
  split : l = ccrPart hi lo ++ rest
  cch : .cch ∉ rest
  ccl : .ccl ∉ rest
  nodup : l.Nodup
  short : stackTotal l < 64

theorem stackListed_named (row2 : Bool) (mask : BitVec 6) :
    StackListed (stackNamed row2 mask) (stackSelected row2 mask .cch) (stackSelected row2 mask .ccl)
      ((stackOrder.drop 2).filter (stackSelected row2 mask)) where
  split := by
    show ([StackReg.cch] ++ [StackReg.ccl] ++ stackOrder.drop 2).filter (stackSelected row2 mask) = _
    rw [List.filter_append, List.filter_append, List.filter_singleton, List.filter_singleton, Bool.cond_eq_ite,
      Bool.cond_eq_ite]
    rfl
  cch h := absurd (List.mem_of_mem_filter h) (by decide)
  ccl h := absurd (List.mem_of_mem_filter h) (by decide)
  nodup := stackNamed_nodup row2 mask
  short := stackTotal_named row2 mask

theorem mem_ccrPart_append {hi lo : Bool} {rest : List StackReg} (h1 : .cch ∉ rest) (h2 : .ccl ∉ rest) :
    (.cch ∈ ccrPart hi lo ++ rest ↔ hi = true) ∧ (.ccl ∈ ccrPart hi lo ++ rest ↔ lo = true) := by
  cases hi <;> cases lo <;> simp [ccrPart, h1, h2]

section
variable {l rest : List StackReg} {hi lo : Bool} (h : StackListed l hi lo rest)
include h

theorem StackListed.mem_cch : .cch ∈ l ↔ hi = true := h.split ▸ (mem_ccrPart_append h.cch h.ccl).1

theorem StackListed.mem_ccl : .ccl ∈ l ↔ lo = true := h.split ▸ (mem_ccrPart_append h.cch h.ccl).2

/-- A register of the list stands in its place once. -/
theorem StackListed.not_mem_post {pre post : List StackReg} {r : StackReg} (hl : l = pre ++ r :: post) : r ∉ post := by
  have hn := h.nodup
  rw [hl] at hn
  exact (List.nodup_cons.mp hn.of_append_right).1

end

theorem StackListed.split_cch {l rest : List StackReg} {hi lo : Bool} (h : StackListed l hi lo rest)
    (hmem : .cch ∈ l) : ∃ post, l = [] ++ .cch :: post := by
  obtain rfl := h.mem_cch.mp hmem
  exact ⟨_, h.split⟩

theorem StackListed.split_ccl {l rest : List StackReg} {hi lo : Bool} (h : StackListed l hi lo rest)
    (hmem : .ccl ∈ l) : ∃ post, l = (if StackReg.cch ∈ l then [.cch] else []) ++ .ccl :: post := by
  obtain rfl := h.mem_ccl.mp hmem
  simp only [h.mem_cch]
  exact ⟨rest, h.split.trans (List.append_assoc ..)⟩

theorem stackTotal_append (l l' : List StackReg) : stackTotal (l ++ l') = stackTotal l + stackTotal l' := by
  simp [stackTotal]

/-! ## PSH -/

/-- What PSH of a list leaves (R168). -/
def ListPushed (s : State) (l : List StackReg) (t : State) : Prop :=
  let a := s.sp - BitVec.ofNat 24 (stackTotal l)
  (∀ pre r post, l = pre ++ r :: post →
    Stored s t (a + BitVec.ofNat 24 (stackTotal pre)) (stackBytes r) (s.stackNat r)) ∧
  s.ccr.FlagsSame t.ccr ∧ Frame s { s with sp := a } t [] a (stackTotal l)

theorem pushList_runs (s : State) (l : List StackReg) (hl : stackTotal l < 64) (i : Instr)
    (hi : exec i s = (s.pushList l).advance i) : Runs i s (ListPushed s l) := by
  obtain ⟨hform, hholds, hbytes, -⟩ := pushList_run s l (by omega)
  rw [pushTotal_items] at hform hbytes
  generalize s.pushList l = u at *
  obtain ⟨mem, trace, rfl⟩ : ∃ mem trace, u = { s with
      sp := s.sp - BitVec.ofNat 24 (stackTotal l), mem := mem, trace := trace } := ⟨_, _, hform⟩
  refine ⟨_, hi, rfl, fun pre r post hsplit => ?_, ⟨rfl, rfl, rfl, rfl⟩, fun r _ => by cases r <;> rfl, ⟨rfl, rfl, rfl⟩,
    .refl _, ⟨rfl, rfl, rfl, rfl, rfl, rfl, rfl, rfl⟩, hbytes⟩
  have hstored := hholds (pre.map s.stackItem) (s.stackItem r) (post.map s.stackItem) (by rw [hsplit, List.map_append, List.map_cons])
  rw [pushTotal_items, stackItem_bytes, stackItem_toNat] at hstored
  exact hstored.congr rfl rfl rfl fun _ => id

theorem psh_runs (row2 : Bool) (mask : BitVec 6) (s : State) :
    Runs (.psh row2 mask) s (ListPushed s (stackNamed row2 mask)) :=
  pushList_runs s _ (stackTotal_named row2 mask) _ (stackList_eq_named row2 mask ▸ rfl)

/-- Settles O27. -/
theorem pushListResult : Obligations.PushListResult := fun s =>
  ⟨fun row2 mask => ⟨psh_runs row2 mask s, rfl⟩, pushList_runs s stackOrder (by decide) _ rfl,
    pushList_runs s [.d .d2, .d .d3, .d .d4, .d .d5] (by decide) _ rfl⟩

/-! ## PUL -/

/-- The data register a place on the stack belongs to. -/
def stackData : StackReg → Option DReg
  | .d q => some q
  | _ => none

/-- What PUL of a list leaves (R169). -/
def ListPulled (s : State) (l : List StackReg) (t : State) : Prop :=
  let here (pre : List StackReg) : Addr := s.sp + BitVec.ofNat 24 (stackTotal pre)
  (∀ pre r post, l = pre ++ r :: post → match r with
    | .d q => s.Reads (here pre) (stackBytes r) (t.getD q).toNat
    | .xy q => s.Reads (here pre) (stackBytes r) (t.getXY q).toNat
    | .cch | .ccl => True) ∧
  DataSame s t (l.filterMap stackData) ∧
  (∀ q, StackReg.xy q ∉ l → t.getXY q = s.getXY q) ∧
  t.sp = here l ∧
  (∃ hi lo : Byte, (.cch ∈ l → s.Reads s.sp 1 hi.toNat) ∧
    (.ccl ∈ l → s.Reads (here (if StackReg.cch ∈ l then [.cch] else [])) 1 lo.toNat) ∧
    t.ccr = s.ccr.writeMasked (hi ++ lo) (decide (StackReg.cch ∈ l)) (decide (StackReg.ccl ∈ l))) ∧
  MachineSame s t ∧ BytesSame s t 0 0

theorem pullList_eq (s : State) (l : List StackReg) :
    s.pullList l = (pullFold l s 0).1.writeCcr (pullFold l s 0).2 (l.contains .cch) (l.contains .ccl) := rfl

/-- The address of CCL on the stack, after CCH where that is named too. -/
def cclState (s : State) (hi : Bool) : State := if hi then s.pullMove .b else s

/-- The word that the pulls of the CCR's bytes gather (R169). -/
theorem pullFold_ccr {l rest : List StackReg} {hi lo : Bool} (h : StackListed l hi lo rest) (s : State) :
    (pullFold l s 0).2 =
      (if hi then (s.pullValue .b).setWidth 16 <<< 8 else 0) |||
        (if lo then ((cclState s hi).pullValue .b).setWidth 16 else 0) := by
  have hfold : pullFold l s 0 = pullFold rest (pullFold (ccrPart hi lo) s 0).1 (pullFold (ccrPart hi lo) s 0).2 := by
    rw [h.split]
    exact List.foldl_append
  rw [hfold, pullFold_new rest _ _ h.cch h.ccl]
  cases hi <;> cases lo <;> simp [ccrPart, pullFold, State.pullReg, cclState]

/-- Gathered or put side by side, the bytes named are the same. -/
theorem writeMasked_gathered (c : Ccr) (hi lo : Bool) (vhi vlo : Byte) :
    c.writeMasked ((if hi then vhi.setWidth 16 <<< 8 else 0) ||| (if lo then vlo.setWidth 16 else 0)) hi lo =
      c.writeMasked (vhi ++ vlo) hi lo := by
  refine writeMasked_congr c _ _ hi lo (fun hhi k h8 h16 => ?_) fun hlo k h8 => ?_
  · have hlow : (if lo then vlo.setWidth 16 else 0 : BitVec 16).getLsbD k = false := by
      cases lo <;> simp [BitVec.getLsbD_of_ge vlo k h8]
    rw [BitVec.getLsbD_or, hlow, if_pos hhi, BitVec.getLsbD_append, if_neg (by omega)]
    simp [h16, h8]
  · have hhigh : (if hi then vhi.setWidth 16 <<< 8 else 0 : BitVec 16).getLsbD k = false := by
      cases hi <;> simp [h8]
    rw [BitVec.getLsbD_or, hhigh, if_pos hlo, BitVec.getLsbD_append, if_pos h8, Bool.false_or]
    exact getLsbD_setWidth_byte vlo k

theorem cclState_reads (s : State) (hi : Bool) :
    s.Reads (s.sp + BitVec.ofNat 24 (stackTotal (if hi then [.cch] else []))) 1
      ((cclState s hi).pullValue .b).toNat := by
  cases hi with
  | true => exact load_reads_of (t := s.pullMove .b) rfl rfl _ .b
  | false =>
    have hzero : s.sp + BitVec.ofNat 24 (stackTotal (if false then [.cch] else [])) = s.sp := BitVec.add_zero _
    rw [hzero]
    exact load_reads s s.sp .b

theorem getXY_with_ccr_pc (p : State) (c : Ccr) (a : Addr) (r : XY) :
    ({ p with ccr := c, pc := a } : State).getXY r = p.getXY r := by cases r <;> rfl

theorem not_mem_of_not_filterMap {l : List StackReg} {q : DReg} (h : q ∉ l.filterMap stackData) : .d q ∉ l :=
  fun hmem => h (List.mem_filterMap.mpr ⟨.d q, hmem, rfl⟩)

theorem pullList_runs {l rest : List StackReg} {hi lo : Bool} (h : StackListed l hi lo rest) (s : State) (i : Instr)
    (hexec : exec i s = (s.pullList l).advance i) : Runs i s (ListPulled s l) := by
  have hpulled := pullFold_pulled l s 0
  have hnew := pullFold_ccr h s
  have hhi : l.contains .cch = hi := by rw [List.contains_eq_mem, Bool.eq_iff_iff, decide_eq_true_iff, h.mem_cch]
  have hlo : l.contains .ccl = lo := by rw [List.contains_eq_mem, Bool.eq_iff_iff, decide_eq_true_iff, h.mem_ccl]
  rw [pullList_eq, hnew, hhi, hlo] at hexec
  generalize (pullFold l s 0).1 = u at *
  have hexec' : exec i s = State.advance { u with
      ccr := s.ccr.writeMasked (s.pullValue .b ++ (cclState s hi).pullValue .b) hi lo } i := by
    rw [← writeMasked_gathered, ← hpulled.ccr]
    exact hexec
  obtain ⟨c, hc⟩ : ∃ c, c = s.ccr.writeMasked (s.pullValue .b ++ (cclState s hi).pullValue .b) hi lo := ⟨_, rfl⟩
  rw [← hc] at hexec'
  refine ⟨_, hexec', ?pc, fun pre r post hl => ?value, fun q hq => ?dsame, fun q hq => ?xsame, hpulled.sp,
    ⟨s.pullValue .b, (cclState s hi).pullValue .b, fun _ => load_reads s s.sp .b, fun _ => ?ccl, ?ccr⟩,
    hpulled.machine.trans ⟨rfl, rfl, rfl, rfl, rfl, rfl, rfl, rfl⟩, .of_mem hpulled.mem _ _⟩
  case pc => exact congrArg (· + BitVec.ofNat 24 i.length) hpulled.pc
  case value =>
    cases r with
    | d q =>
      have hreads := hpulled.dval pre q post hl (h.not_mem_post hl)
      rwa [← getD_with_ccr_pc u c (u.pcNext i) q] at hreads
    | xy q =>
      have hreads := hpulled.xval pre q post hl (h.not_mem_post hl)
      rwa [← getXY_with_ccr_pc u c (u.pcNext i) q] at hreads
    | cch | ccl => trivial
  case dsame => exact (getD_with_ccr_pc u _ _ q).trans (hpulled.dsame q (not_mem_of_not_filterMap hq))
  case xsame => exact (getXY_with_ccr_pc u _ _ q).trans (hpulled.xsame q hq)
  case ccl =>
    simp only [h.mem_cch]
    exact cclState_reads s hi
  case ccr =>
    rw [← List.contains_eq_mem, ← List.contains_eq_mem, hhi, hlo]
    exact hc

theorem pul_runs (row2 : Bool) (mask : BitVec 6) (s : State) :
    Runs (.pul row2 mask) s (ListPulled s (stackNamed row2 mask)) :=
  pullList_runs (stackListed_named row2 mask) s _ (stackList_eq_named row2 mask ▸ rfl)

/-- Settles O28. -/
theorem pullListResult : Obligations.PullListResult := fun s =>
  ⟨fun row2 mask => ⟨pul_runs row2 mask s, rfl⟩, pullList_runs (stackListed_named false 0) s _ rfl,
    pullList_runs (stackListed_named true 0) s _ rfl⟩

/-! ## PSH, then PUL -/

theorem State.RamAt.part {s : State} {a : Addr} {n : Nat} (h : s.RamAt a n) {o m : Nat} (hle : o + m ≤ n) :
    s.RamAt (a + BitVec.ofNat 24 o) m := fun k hk => by
  rw [addr_add_ofNat]
  exact h _ (by omega)

/-- A value stored in RAM is the only one that its bytes spell. -/
theorem eq_of_stored_of_reads {s t : State} {a : Addr} {sz : Size} {v w : BitVec sz.bits}
    (hstored : Stored s t a sz.bytes v.toNat) (hmap : t.map = s.map) (hram : s.RamAt a sz.bytes)
    (hreads : t.Reads a sz.bytes w.toNat) : w = v :=
  Reads.unique (fun k hk => hmap ▸ isMemory_of_isRam (hram k hk)) hreads
    (hstored.load hmap hram ▸ load_reads t a sz)

theorem Ccr.eq_of_same {c c' : Ccr} (hs : c.SystemSame c') (hf : c.FlagsSame c') : c' = c := by
  obtain ⟨hu, hipl, hss, hxm, hi⟩ := hs
  obtain ⟨hn, hz, hv, hc⟩ := hf
  cases c
  cases c'
  simp_all

section
variable {s t u : State} {l rest : List StackReg} {hi lo : Bool} (h : StackListed l hi lo rest)
  (hpush : ListPushed s l t) (hpull : ListPulled t l u)
  (hram : s.RamAt (s.sp - BitVec.ofNat 24 (stackTotal l)) (stackTotal l))
include hpush hram

/-- What PUL finds where PSH has put a register. -/
theorem pulled_eq_pushed {pre post : List StackReg} {r : StackReg} (hl : l = pre ++ r :: post) {w : BitVec (s.stackItem r).1.bits}
    (hreads : t.Reads (t.sp + BitVec.ofNat 24 (stackTotal pre)) (stackBytes r) w.toNat) : w = (s.stackItem r).2 := by
  obtain ⟨hstored, _, hframe⟩ := hpush
  have hplace := hstored pre r post hl
  have hsp : t.sp = s.sp - BitVec.ofNat 24 (stackTotal l) := hframe.index.2.2
  have htotal : stackTotal pre + stackBytes r ≤ stackTotal l := by
    rw [hl, stackTotal_append, stackTotal_cons]
    omega
  rw [hsp] at hreads
  rw [← stackItem_bytes s] at hplace hreads htotal
  rw [← stackItem_toNat] at hplace
  exact eq_of_stored_of_reads hplace hframe.machine.map (hram.part htotal) hreads

include hpull

theorem pushed_pulled_getD (q : DReg) : u.getD q = s.getD q := by
  by_cases hq : .d q ∈ l
  · obtain ⟨pre, post, hl⟩ := List.append_of_mem hq
    exact pulled_eq_pushed hpush hram hl (hpull.1 pre (.d q) post hl)
  · have hsame : u.getD q = t.getD q := hpull.2.1 q fun hmem => by
      obtain ⟨r, hr, hrq⟩ := List.mem_filterMap.mp hmem
      cases r <;> cases hrq
      exact hq hr
    exact hsame.trans (hpush.2.2.data q List.not_mem_nil)

theorem pushed_pulled_getXY (q : XY) : u.getXY q = s.getXY q := by
  by_cases hq : .xy q ∈ l
  · obtain ⟨pre, post, hl⟩ := List.append_of_mem hq
    exact pulled_eq_pushed hpush hram hl (hpull.1 pre (.xy q) post hl)
  · have hindex := hpush.2.2.index
    refine (hpull.2.2.1 q hq).trans ?_
    cases q with
    | x => exact hindex.1
    | y => exact hindex.2.1

include h

theorem pushed_pulled_ccr : u.ccr = s.ccr := by
  obtain ⟨_, _, _, _, ⟨vhi, vlo, hvhi, hvlo, hccr⟩, _⟩ := hpull
  have hsame : t.ccr = s.ccr := Ccr.eq_of_same hpush.2.2.system hpush.2.1
  have hhigh (hmem : StackReg.cch ∈ l) : vhi = s.ccr.word.extractLsb' 8 8 := by
    obtain ⟨post, hl⟩ := h.split_cch hmem
    exact pulled_eq_pushed hpush hram hl ((BitVec.add_zero t.sp).symm ▸ hvhi hmem)
  have hlow (hmem : StackReg.ccl ∈ l) : vlo = s.ccr.word.extractLsb' 0 8 := by
    obtain ⟨post, hl⟩ := h.split_ccl hmem
    exact pulled_eq_pushed hpush hram hl (hvlo hmem)
  rw [hccr, hsame]
  refine (writeMasked_congr s.ccr _ s.ccr.word _ _ (fun hm k h8 h16 => ?_) fun hm k h8 => ?_).trans
    (writeMasked_self s.ccr _ _)
  · rw [BitVec.getLsbD_append, if_neg (by omega), hhigh (of_decide_eq_true hm), BitVec.getLsbD_extractLsb',
      decide_eq_true (by omega), Bool.true_and, Nat.add_sub_cancel' h8]
  · rw [BitVec.getLsbD_append, if_pos h8, hlow (of_decide_eq_true hm), BitVec.getLsbD_extractLsb',
      decide_eq_true h8, Bool.true_and, Nat.zero_add]

end

/-- Settles O29. -/
theorem pushThenPull : Obligations.PushThenPull := by
  intro row2 mask s t ht n hram
  obtain ⟨t', ht', _, hpush⟩ := psh_runs row2 mask s
  obtain rfl := Host.Outcome.next.inj (ht.symm.trans ht')
  obtain ⟨u, hu, _, hpull⟩ := pul_runs row2 mask t
  have hlisted := stackListed_named row2 mask
  refine ⟨u, hu, ⟨fun q _ => pushed_pulled_getD hpush hpull hram q, pushed_pulled_getXY hpush hpull hram .x,
    pushed_pulled_getXY hpush hpull hram .y⟩, ?_, pushed_pulled_ccr hlisted hpush hpull hram, fun b hb => ?_⟩
  · have hsp : t.sp = s.sp - BitVec.ofNat 24 n := hpush.2.2.index.2.2
    have husp : u.sp = t.sp + BitVec.ofNat 24 n := hpull.2.2.2.1
    rw [husp, hsp, BitVec.sub_add_cancel]
  · obtain ⟨_, _, _, _, _, _, hbytes⟩ := hpull
    exact (hbytes b (Nat.zero_le _)).trans (hpush.2.2.bytes b hb)

end Sys2Proof.Machine
end

section
/-! PROOFS. Products, quotients and fractions (42_muldiv_fractional.md sections 1 to 4). -/

namespace Sys2Proof.Machine

/-- An `mb` instruction that leaves what an operation makes of its operands' integers and the CCR. -/
theorem math_runs_with (n : MathName) (g : Bool) (d : DReg) (f : MathForm) (s : State) (rc : Ccr → BitVec d.bits × Ccr)
    (h : n.op g d ((f.first s).math g) ((f.second s).math g) (f.moved s) =
      (f.moved s).setDCcr d (rc (f.moved s).ccr))
    (hs : s.ccr.SystemSame (rc s.ccr).2) (post : State → Prop)
    (hpost : ∀ t, t.getD d = (rc s.ccr).1 → t.ccr = (rc s.ccr).2 → RegFrame s (f.moved s) t [d] → post t) :
    Runs (mathInstr n g d f) s post := by
  rw [(decoded_mathMoved f s).ccr] at h
  exact math_runs n g d f s (rc s.ccr) 0 h hs post hpost

/-- Settles O40. -/
theorem multiplyResult : Obligations.MultiplyResult := by
  intro s signed d f p
  refine math_runs_with .mul signed d f s (mulOp signed ((f.first s).intOf signed) ((f.second s).intOf signed)) rfl
    (Keeps.mulOp_systemSame ..) _ fun t hvalue hccr hframe => ?_
  rw [hvalue, hccr]
  obtain ⟨hproduct, hnz, hv, hc⟩ := mulOp_product signed ((f.first s).intOf signed) ((f.second s).intOf signed) s.ccr
  exact ⟨hproduct, hnz, hv, hc, hframe⟩

/-- Settles O41. -/
theorem multiplyAccumulateResult : Obligations.MultiplyAccumulateResult := by
  intro s signed d f p acc
  have hacc : (f.moved s).getD d = acc := (decoded_mathMoved f s).data d
  refine math_runs_with .mac signed d f s (macOp signed acc ((f.first s).intOf signed) ((f.second s).intOf signed))
    (hacc ▸ rfl) (Keeps.macOp_systemSame ..) _ fun t hvalue hccr hframe => ?_
  rw [hvalue, hccr]
  obtain ⟨hsum, hnz, hc, hv⟩ := macOp_sum signed (dreg_width_pos d) acc ((f.first s).intOf signed)
    ((f.second s).intOf signed) s.ccr
  exact ⟨hsum, hnz, hc, hv, hframe⟩

/-- Settles O43. -/
theorem fractionMultiplyResult : Obligations.FractionMultiplyResult := by
  intro s signed d f l a b least
  refine math_runs_with .qmul signed d f s (qmulOp signed ((f.first s).intOf signed) (f.first s).w
    ((f.second s).intOf signed) (f.second s).w) rfl (Keeps.qmulOp_systemSame ..) _ fun t hvalue hccr hframe => ?_
  rw [hvalue, hccr]
  obtain ⟨hfraction, hnz, hc⟩ := qmulOp_fraction signed (dreg_width_pos d) ((f.first s).intOf signed) (f.first s).w
    ((f.second s).intOf signed) (f.second s).w s.ccr
  exact ⟨hfraction, hnz, hc, hframe⟩

/-! ## Division -/

/-- What a division leaves of an exact result `x` by a divisor `b` (R235 to R238). -/
def Divided (signed : Bool) (d : DReg) (b x : Int) (s p t : State) : Prop :=
  (if b = 0 then t.ccr.c = true
    else t.ccr.c = false ∧ (t.ccr.v = true ↔ RangeOut signed d.bits x) ∧
      (¬RangeOut signed d.bits x → ((t.getD d).toNat : Int) = x % 2 ^ d.bits ∧
        t.ccr.n = (t.getD d).msb ∧ (t.ccr.z = true ↔ x = 0))) ∧
  RegFrame s p t [d]

/-- The three ways a division ends: by zero, out of range, with its result (R235, U3). -/
theorem division_runs (n : MathName) (signed : Bool) (exact : Int → Int → Int)
    (hop : n.op signed = divisionFrame signed exact) (s : State) (d : DReg) (f : MathForm) :
    Runs (mathInstr n signed d f) s (Divided signed d ((f.second s).intOf signed)
      (exact ((f.first s).intOf signed) ((f.second s).intOf signed)) s (f.moved s)) := by
  have hccr' := (decoded_mathMoved f s).ccr
  have hexec : n.op signed d ((f.first s).math signed) ((f.second s).math signed) (f.moved s) =
      divisionFrame signed exact d ((f.first s).math signed) ((f.second s).math signed) (f.moved s) := by rw [hop]
  generalize hx : exact ((f.first s).intOf signed) ((f.second s).intOf signed) = x
  have hq : exact ((f.first s).math signed).int ((f.second s).math signed).int = x := hx
  simp only [divisionFrame, hq] at hexec
  by_cases hb : (f.second s).intOf signed = 0
  · rw [if_pos (show ((f.second s).math signed).int = 0 from hb)] at hexec
    refine math_runs n signed d f s _ 4 hexec (hccr' ▸ ⟨rfl, rfl, rfl, rfl, rfl⟩) _ fun t _ hccr hframe => ⟨?_, hframe⟩
    rw [if_pos hb, hccr]
  rw [if_neg (show ¬((f.second s).math signed).int = 0 from hb)] at hexec
  by_cases hfits : fits signed d.bits x = true
  · rw [if_pos hfits] at hexec
    have hin := (fits_iff signed d.bits x).mp hfits
    refine math_runs n signed d f s _ 0 hexec (hccr' ▸ ⟨rfl, rfl, rfl, rfl, rfl⟩) _
      fun t hvalue hccr hframe => ⟨?_, hframe⟩
    rw [if_neg hb, hccr, hvalue]
    exact ⟨rfl, iff_of_false nofun hin, fun _ => ⟨toNat_ofInt_emod d.bits x, rfl, decide_eq_true_iff⟩⟩
  · rw [if_neg hfits] at hexec
    have hout : RangeOut signed d.bits x := not_not.mp (mt (fits_iff signed d.bits x).mpr hfits)
    refine math_runs n signed d f s _ 3 hexec (hccr' ▸ ⟨rfl, rfl, rfl, rfl, rfl⟩) _
      fun t _ hccr hframe => ⟨?_, hframe⟩
    rw [if_neg hb, hccr]
    exact ⟨rfl, iff_of_true rfl hout, fun hin => absurd hout hin⟩

/-- Settles O42. -/
theorem divideModuloResult : Obligations.DivideModuloResult := by
  intro s signed d f a b done
  refine ⟨division_runs .div signed Int.tdiv rfl s d f, ?_⟩
  have hmod := division_runs .mod signed Int.tmod rfl s d f
  rwa [Int.tmod_def] at hmod

end Sys2Proof.Machine
end

section
/-! PROOFS. Branches after a comparison, jumps and calls, loops (47_branch.md sections 1, 5 and 6). -/

namespace Sys2Proof.Machine

/-! ## Branches after a comparison -/

/-- A residue of a number within one modulus of zero. -/
theorem emod_of_abs_lt {x P : Int} (hlo : -P ≤ x) (hhi : x < P) : x % P = if 0 ≤ x then x else x + P := by
  split
  · exact Int.emod_eq_of_lt ‹_› hhi
  · rw [← Int.add_emod_right]
    exact Int.emod_eq_of_lt (by omega) (by omega)

/-- The sign of a difference taken modulo `P = 2 * Q`, and whether the exact one leaves the signed range, say which
number is the smaller. -/
theorem sign_of_difference {P Q r a b x y : Int} (hP : P = 2 * Q) (ha : 0 ≤ a) (hb : 0 ≤ b)
    (hx : x = a ∧ a < Q ∨ x = a - P ∧ Q ≤ a ∧ a < P) (hy : y = b ∧ b < Q ∨ y = b - P ∧ Q ≤ b ∧ b < P)
    (hr : r = if 0 ≤ a - b then a - b else a - b + P) :
    (Q ≤ r ↔ ¬(x - y < -Q ∨ Q ≤ x - y)) ↔ x < y := by
  split at hr <;> omega

/-- What a word is as a signed number, in integers. -/
theorem toInt_cases_int {w : Nat} (a : BitVec w) :
    a.toInt = a.toNat ∧ (a.toNat : Int) < 2 ^ (w - 1) ∨
      a.toInt = (a.toNat : Int) - 2 ^ w ∧ (2 : Int) ^ (w - 1) ≤ a.toNat ∧ (a.toNat : Int) < 2 ^ w := by
  have hQ := ipow_eq (w - 1)
  have hP := ipow_eq w
  have hlt := a.isLt
  rcases toInt_cases a with ⟨_, hint, hle⟩ | ⟨_, hint, hle⟩ <;> omega

/-- N and V of a comparison: the signed order (R340). -/
theorem compareFlags_lt {w : Nat} (hw : 0 < w) {a b : BitVec w} {c : Ccr} (h : CompareFlags a b c) :
    c.lt = decide (a.toInt < b.toInt) := by
  obtain ⟨⟨r, hr, hn, hv, _⟩, _⟩ := h
  have hPi := ipow_eq w
  have hal := a.isLt
  have hbl := b.isLt
  rw [Int.natCast_zero, Int.sub_zero, emod_of_abs_lt (by omega) (by omega)] at hr
  rw [Int.natCast_zero, Int.sub_zero] at hv
  have hN : c.n = true ↔ (2 : Int) ^ (w - 1) ≤ r.toNat := by
    rw [hn, msb_iff, ipow_eq, Int.ofNat_le]
  have hlt := sign_of_difference (ipow_split hw) (Int.natCast_nonneg a.toNat) (Int.natCast_nonneg b.toNat)
    (toInt_cases_int a) (toInt_cases_int b) hr
  rw [← hN, ← SignedOut, ← hv] at hlt
  rw [c.lt_eq_flags, Bool.eq_iff_iff, decide_eq_true_iff, ← hlt]
  cases c.n <;> cases c.v <;> simp

theorem compareFlags_le {w : Nat} (hw : 0 < w) {a b : BitVec w} {c : Ccr} (h : CompareFlags a b c) :
    c.le = decide (a.toInt ≤ b.toInt) := by
  have hz : c.z = true ↔ a.toInt = b.toInt := h.2.trans BitVec.toInt_inj.symm
  have hle : (c.z || c.lt) = true ↔ a.toInt ≤ b.toInt := by
    rw [Bool.or_eq_true, hz, compareFlags_lt hw h, decide_eq_true_iff]
    omega
  rw [Bool.eq_iff_iff, decide_eq_true_iff]
  exact hle

theorem compareFlags_c {w : Nat} {a b : BitVec w} {c : Ccr} (h : CompareFlags a b c) :
    c.c = decide (a.toNat < b.toNat) := by
  obtain ⟨⟨r, _, _, _, hc⟩, _⟩ := h
  rw [Bool.eq_iff_iff, hc, decide_eq_true_iff, Nat.add_zero]

theorem compareFlags_z {w : Nat} {a b : BitVec w} {c : Ccr} (h : CompareFlags a b c) : c.z = decide (a = b) := by
  rw [Bool.eq_iff_iff, h.2, decide_eq_true_iff]

theorem compareFlags_hi {w : Nat} {a b : BitVec w} {c : Ccr} (h : CompareFlags a b c) :
    c.hi = decide (b.toNat < a.toNat) := by
  have hz : c.z = true ↔ a.toNat = b.toNat := h.2.trans BitVec.toNat_inj.symm
  rw [c.hi_eq_flags, compareFlags_c h, Bool.eq_iff_iff, decide_eq_true_iff, Bool.not_eq_true', Bool.or_eq_false_iff,
    decide_eq_false_iff_not, ← Bool.not_eq_true, hz]
  omega

/-- Settles O53: the flags that CMP leaves are orders, and each branch asks one of them or its negation. -/
theorem branchAfterCompare : Obligations.BranchAfterCompare := by
  intro s t d m rel ht r b
  obtain ⟨t', ht', _, h, _⟩ := cmpD_runs s d m
  obtain rfl := Host.Outcome.next.inj (ht.symm.trans ht')
  have hlt := compareFlags_lt (dreg_width_pos d) h
  have hle := compareFlags_le (dreg_width_pos d) h
  have hhi := compareFlags_hi h
  have hc := compareFlags_c h
  have hz := compareFlags_z h
  have on {i : Instr} {cond : Bool} {p : Prop} [Decidable p] (hi : exec i t = branchIf cond rel i t)
      (hcond : cond = decide p) : BranchesOn (decide p) i rel t := hcond ▸ branchIf_on cond i rel t hi
  refine ⟨on rfl ?_, on rfl ?_, on rfl hle, on rfl hlt, on rfl hhi, on rfl ?_, on rfl ?_, on rfl hc, on rfl hz,
    on rfl ?_⟩
  · rw [hle, ← decide_not, decide_eq_decide]; exact not_le
  · rw [hlt, ← decide_not, decide_eq_decide]; exact not_lt
  · rw [hc, ← decide_not, decide_eq_decide]; exact not_lt
  · rw [hhi, ← decide_not, decide_eq_decide]; exact not_lt
  · rw [hz, ← decide_not]

/-! ## Jumps and calls -/

/-- What JMP and JSR to `ea` leave, the operand having moved what `p` says (R363, R364). -/
def Jumps (s : State) (o : ExtOpr) (p : State) (ea : Addr) : Prop :=
  Gives (.jmp o) s (fun t => t.pc = ea ∧ t.ccr = s.ccr ∧ RegFrame s p t []) ∧
  Gives (.jsr o) s (fun t => t.pc = ea ∧ t.ccr = s.ccr ∧
    Stored s t (p.sp - 3) 3 (s.pc + BitVec.ofNat 24 (encode (.jsr o)).length).toNat ∧
    Frame s { p with sp := p.sp - 3 } t [] (p.sp - 3) 3)

theorem goto_gives {s p : State} (hp : Decoded s p) (i : Instr) (ea : Addr) (hi : exec i s = p.goto ea) :
    Gives i s fun t => t.pc = ea ∧ t.ccr = s.ccr ∧ RegFrame s p t [] :=
  ⟨_, hi, rfl, hp.ccr, frame_flags hp p.ccr ea (hp.ccr ▸ .refl s.ccr)⟩

/-- A jump whose operand leaves `q`, which has the X, Y and SP of `p`. -/
theorem jumps_of {s p q : State} (hq : Decoded s q) {o : ExtOpr} {ea : Addr} (hdone : s.jumpDone o = q)
    (hto : s.jumpTo o = ea) (hx : p.x = q.x) (hy : p.y = q.y) (hsp : p.sp = q.sp) : Jumps s o p ea := by
  constructor
  · obtain ⟨t, ht, hpc, hccr, hframe⟩ := goto_gives hq (.jmp o) ea (show execJmp o s = _ by rw [execJmp, hdone, hto])
    exact ⟨t, ht, hpc, hccr, hframe.index_congr hx hy hsp⟩
  · obtain ⟨t, ht, hpc, hccr, hstored, hframe⟩ := call_gives (.jsr o) s q hq ea (s.pcNext (.jsr o))
      (show execJsr o s = _ by rw [execJsr, hdone, hto])
    rw [hsp]
    exact ⟨t, ht, hpc, hccr, hstored, hframe.index_congr hx hy rfl⟩

theorem jump_at_direct {s : State} {o : Opr} {ea : Addr} (h : s.place o = .direct ea) :
    s.jumpMoved o = s ∧ s.jumpAddr o = ea := by
  unfold State.jumpMoved State.jumpAddr
  rw [h]
  exact ⟨rfl, rfl⟩

theorem jump_at_indirect {s : State} {o : Opr} {ptr : Addr} (h : s.place o = .indirect ptr) :
    s.jumpMoved o = s.loaded ptr .p ∧ s.jumpAddr o = s.load ptr .p := by
  unfold State.jumpMoved State.jumpAddr
  rw [h]
  exact ⟨rfl, rfl⟩

theorem bsr_gives (s : State) (rel : Rel) :
    Gives (.bsr rel) s fun t => t.pc = s.relTarget rel ∧ t.ccr = s.ccr ∧
      Stored s t (s.sp - 3) 3 (s.pc + BitVec.ofNat 24 (encode (.bsr rel)).length).toNat ∧
      Frame s { s with sp := s.sp - 3 } t [] (s.sp - 3) 3 :=
  call_gives (.bsr rel) s s (.refl s) _ _ (branchTarget_eq s rel ▸ rfl)

theorem rts_gives (s : State) :
    Gives .rts s fun t => s.Reads s.sp 3 t.pc.toNat ∧ t.ccr = s.ccr ∧ RegFrame s { s with sp := s.sp + 3 } t [] := by
  obtain ⟨t, ht, hpc, hccr, hframe⟩ := goto_gives ((decoded_loaded s s.sp .p).setSp (s.sp + 3)) .rts (s.pullValue .p) rfl
  exact ⟨t, ht, hpc ▸ load_reads s s.sp .p, hccr, hframe.index_congr rfl rfl rfl⟩

/-- Settles O56: the amount of the automatic submodes is the configuration's. -/
theorem jumpCallReturn : Obligations.JumpCallReturn := by
  refine ⟨addrOnlyStep, addrOnlyStep_bounds.1, addrOnlyStep_bounds.2, fun s => ⟨fun a => ⟨?ext, rfl, rfl⟩,
    fun o ea h => ?direct, fun o ptr h => ?indirect, fun m ea h => ?auto, fun e => ⟨s.drawn 24, ?imm⟩,
    fun d => ⟨s.drawn 24, ?reg⟩,
    fun o => ⟨rfl, rfl⟩, fun rel => ⟨bsr_gives s rel, rfl⟩, rts_gives s, rfl⟩⟩
  case ext => exact jumps_of (.refl s) (o := .ext a) rfl rfl rfl rfl rfl
  case direct =>
    obtain ⟨hmoved, haddr⟩ := jump_at_direct h
    exact jumps_of (.refl s) (o := .opr o) hmoved haddr rfl rfl rfl
  case indirect =>
    obtain ⟨hmoved, haddr⟩ := jump_at_indirect h
    exact jumps_of (decoded_loaded s ptr .p) (o := .opr o) hmoved haddr rfl rfl rfl
  case auto => exact jumps_of (decoded_oprMoved s (.auto m) _) (o := .opr (.auto m)) rfl (Loc.mem.inj h) rfl rfl rfl
  case imm => exact jumps_of (Decoded.refl s).drew (o := .opr (.immE4 e)) rfl rfl rfl rfl rfl
  case reg => exact jumps_of (Decoded.refl s).drew (o := .opr (.reg d)) rfl rfl rfl rfl rfl

end Sys2Proof.Machine
end

section
/-! PROOFS. DBcc and TBcc (47_branch.md section 5). -/

namespace Sys2Proof.Machine

/-! ## Loops over registers -/

/-- A loop instruction that ends in its branch, on the value `r`, from a state `q` that has the PC of `s`. -/
theorem loop_gives {s q : State} (hq : q.pc = s.pc) (c : LoopCond) {w : Nat} (hw : 0 < w) (r : BitVec w) (rel : Rel)
    (i : Instr) (hi : exec i s = branchIf (loopHolds c r) rel i q) (post : State → Prop)
    (hpost : ∀ v, LoopsTo (LoopTaken c r) i rel s { q with pc := v } → post { q with pc := v }) : Gives i s post := by
  obtain ⟨v, hv, hloops⟩ := branchIf_loops _ (LoopTaken c r) (loopHolds_iff c hw r) rel i s q hq
  exact ⟨_, hi.trans hv, hpost v (hloops _ rfl)⟩

section
variable (s : State) (c : LoopCond) (rel : Rel)

theorem dbccD_gives (d : DReg) :
    Gives (.dbcc c (.d d) rel) s fun t => t.getD d = s.getD d - 1 ∧
      LoopsTo (LoopTaken c (s.getD d - 1)) (.dbcc c (.d d) rel) rel s t ∧ t.ccr = s.ccr ∧ RegFrame s s t [d] := by
  have hsys : s.ccr.SystemSame (s.setD d (s.getD d - 1)).ccr := setD_ccr s d _ ▸ .refl s.ccr
  exact loop_gives (setD_pc s d _) c (dreg_width_pos d) (s.getD d - 1) rel _ rfl _ fun v hloops =>
    ⟨(with_pc_getD _ v d).trans (getD_setD_same s d _), hloops, setD_ccr s d _, frame_setD (.refl s) d _ _ v hsys⟩

theorem dbccXY_gives (r : XY) :
    Gives (.dbcc c (.xy r) rel) s fun t =>
      LoopsTo (LoopTaken c (s.getXY r - 1)) (.dbcc c (.xy r) rel) rel s t ∧
      t.ccr = s.ccr ∧ RegFrame s (s.setXY r (s.getXY r - 1)) t [] := by
  have hd := (Decoded.refl s).setXY r (s.getXY r - 1)
  exact loop_gives hd.pc c (by decide) (s.getXY r - 1) rel _ rfl _ fun v hloops =>
    ⟨hloops, hd.ccr, frame_flags hd _ v (hd.ccr ▸ .refl s.ccr)⟩

/-- TBcc on a value that is read from where `p` is left. -/
theorem tbcc_gives {p : State} (hp : Decoded s p) {w : Nat} (hw : 0 < w) (r : BitVec w) (i : Instr)
    (hi : exec i s = branchIf (loopHolds c r) rel i p) :
    Gives i s fun t => LoopsTo (LoopTaken c r) i rel s t ∧ t.ccr = s.ccr ∧ RegFrame s p t [] :=
  loop_gives hp.pc c hw r rel i hi _ fun v hloops =>
    ⟨hloops, hp.ccr, frame_flags hp p.ccr v (hp.ccr ▸ .refl s.ccr)⟩

theorem tbccOpr_gives (sz : Size) (o : Opr) :
    Gives (.tbccOpr c sz o rel) s fun t =>
      LoopsTo (LoopTaken c (s.oprValue o sz)) (.tbccOpr c sz o rel) rel s t ∧
      t.ccr = s.ccr ∧ RegFrame s (s.oprMoved o sz.bytes) t [] := by
  obtain ⟨t, ht, hloops, hccr, hframe⟩ := tbcc_gives s c rel (decoded_oprDone s o sz)
    (Nat.zero_lt_of_lt (Size.bits_pos sz)) (s.oprValue o sz) (.tbccOpr c sz o rel) rfl
  exact ⟨t, ht, hloops, hccr, hframe.of_oprDone⟩

/-! ## DBcc on a general operand -/

/-- DBcc, its operand found (R361). -/
theorem exec_dbccOpr_of_loc (sz : Size) (o : Opr) {l : Loc} (h : s.oprLoc o sz.bytes = l) :
    exec (.dbccOpr c sz o rel) s =
      (s.oprDone o sz).locWrite l sz (s.oprValue o sz - 1) fun t =>
        branchIf (loopHolds c (s.oprValue o sz - 1)) (t.loopRel l sz o rel) (.dbccOpr c sz o (t.loopRel l sz o rel))
          (t.loopFetched o (t.loopRel l sz o rel)) := h ▸ rfl

theorem loopFetched_getD (s : State) (o : Opr) (rel : Rel) (d : DReg) : (s.loopFetched o rel).getD d = s.getD d := by
  cases d <;> rfl

theorem dbccReg_gives (sz : Size) (q : DReg) :
    let i : Instr := .dbccOpr c sz (.reg q) rel
    let v := s.oprValue (.reg q) sz - 1
    Gives i s fun t => (t.getD q).toNat = v.toNat % 2 ^ q.bits ∧
      LoopsTo (LoopTaken c v) i rel s t ∧ t.ccr = s.ccr ∧ RegFrame s s t [q] ∧
      t.trace = .access ⟨.fetch, !s.ccr.u, s.relAddr (.reg q), rel.enc.length⟩ :: s.trace := by
  intro i v
  have hsys : s.ccr.SystemSame (s.setD q (v.setWidth q.bits)).ccr := setD_ccr s q _ ▸ .refl s.ccr
  refine loop_gives (q := (s.setD q (v.setWidth q.bits)).loopFetched (.reg q) rel) (setD_pc s q _) c
    (Nat.zero_lt_of_lt (Size.bits_pos sz)) v rel i (exec_dbccOpr_of_loc s c rel sz (.reg q) rfl) _ fun a hloops =>
    ⟨?value, hloops, setD_ccr s q _, (frame_setD (.refl s) q (v.setWidth q.bits) _ a hsys).traced _, ?trace⟩
  case value =>
    have hget : ({ (s.setD q (v.setWidth q.bits)).loopFetched (.reg q) rel with pc := a } : State).getD q =
        v.setWidth q.bits := (with_pc_getD _ a q).trans ((loopFetched_getD _ _ rel q).trans (getD_setD_same s q _))
    rw [hget, BitVec.toNat_setWidth]
  case trace =>
    simp [loopFetched_traced, State.relAddr]

/-- The offset as it is taken after the counter is written (R361): as decoded, or what its bytes then hold. -/
theorem loopRel_mem (t : State) (ea : Addr) (sz : Size) (o : Opr) (rel : Rel) :
    (¬Overlap ea sz.bytes (t.relAddr o) rel.enc.length → t.loopRel (.mem ea) sz o rel = rel) ∧
    (Overlap ea sz.bytes (t.relAddr o) rel.enc.length → t.OffsetAt (t.relAddr o) (t.loopRel (.mem ea) sz o rel)) := by
  constructor <;> intro h <;> rw [← runsMeet_iff] at h
  · exact if_neg h
  · rw [State.loopRel, if_pos h]
    exact relFetched_at t _ rel

theorem dbccMem_gives (sz : Size) (o : Opr) (ea : Addr) (hloc : s.oprLoc o sz.bytes = .mem ea) :
    let v := s.oprValue o sz - 1
    Gives (.dbccOpr c sz o rel) s fun t => Stored s t ea sz.bytes v.toNat ∧
      t.ccr = s.ccr ∧ Frame s (s.oprMoved o sz.bytes) t [] ea sz.bytes ∧
      ∃ rel', (¬Overlap ea sz.bytes (s.relAddr o) rel.enc.length → rel' = rel) ∧
        (Overlap ea sz.bytes (s.relAddr o) rel.enc.length → t.OffsetAt (s.relAddr o) rel') ∧
        LoopsTo (LoopTaken c v) (.dbccOpr c sz o rel') rel' s t ∧
        t.trace = .access ⟨.fetch, !s.ccr.u, s.relAddr o, rel'.enc.length⟩ ::
          .access ⟨.write, !s.ccr.u, ea, sz.bytes⟩ :: (s.oprDone o sz).trace := by
  intro v
  have hd := decoded_oprDone s o sz
  let t := (s.oprDone o sz).store ea sz v
  have hpc : t.pc = s.pc := hd.pc
  have hccr : t.ccr = s.ccr := hd.ccr
  have haddr : t.relAddr o = s.relAddr o := congrArg (· + _) hpc
  obtain ⟨happart, hmeet⟩ := haddr ▸ loopRel_mem t ea sz o rel
  have hexec := exec_dbccOpr_of_loc s c rel sz o hloc
  obtain ⟨a, ha, hloops⟩ := branchIf_loops _ (LoopTaken c v) (loopHolds_iff c (Nat.zero_lt_of_lt (Size.bits_pos sz)) v)
    (t.loopRel (.mem ea) sz o rel) (.dbccOpr c sz o (t.loopRel (.mem ea) sz o rel)) s
    (t.loopFetched o (t.loopRel (.mem ea) sz o rel)) hpc
  refine ⟨_, hexec.trans ha, (hd.stored ea sz v t.ccr a).congr rfl rfl rfl fun e he => List.mem_cons_of_mem _ he, hccr,
    ((frame_store hd ea sz v t.ccr a (hccr ▸ .refl s.ccr)).traced _).of_oprDone, _, happart, hmeet, hloops _ rfl, ?_⟩
  simp [loopFetched_traced, haddr, t]

end

theorem dbccOpr_immediate (s : State) (c : LoopCond) (rel : Rel) (sz : Size) (o : Opr) {e : BitVec 4}
    (h : s.oprLoc o sz.bytes = .imm e) : exec (.dbccOpr c sz o rel) s = .refused .immediateDestination :=
  exec_dbccOpr_of_loc s c rel sz o h

/-- Settles O55: a register counter and TBcc by one rule for the branch; a counter in memory by the offset as its
bytes stand after the counter is written. -/
theorem loopResult : Obligations.LoopResult := by
  intro s c rel
  refine ⟨dbccD_gives s c rel, dbccXY_gives s c rel, fun sz o => ?_,
    fun d => tbcc_gives s c rel (.refl s) (dreg_width_pos d) (s.getD d) _ rfl,
    fun r => tbcc_gives s c rel (.refl s) (by decide) (s.getXY r) _ rfl, tbccOpr_gives s c rel⟩
  dsimp only
  split
  next e hloc => exact dbccOpr_immediate s c rel sz o hloc
  next q hloc =>
    obtain rfl := eq_reg_of_oprLoc hloc
    exact dbccReg_gives s c rel sz q
  next ea hloc => exact dbccMem_gives s c rel sz o ea hloc

end Sys2Proof.Machine
end
